-- ==== Sys2Proof/Word.lean ====
section
/-! DEFINITION. The word types of the part and their plainest arithmetic (00_scope.md section 5.1). -/

namespace Sys2Proof

/-- u8: one byte of a frame or record. -/
abbrev Byte := BitVec 8

/-- u16 and s16 register contents. -/
abbrev Half := BitVec 16

/-- u32 and s32 register contents; positions and marks wrap modulo 2³². -/
abbrev Word := BitVec 32

/-- The next value of a saturating count: it stops at the largest value of its width (00_scope.md 5.1). -/
def satInc (n : BitVec w) : BitVec w := if n = BitVec.allOnes w then n else n + 1

/-- "Clamped to lo–hi" (00_scope.md 5.1), on integers. -/
def clampInt (lo hi x : Int) : Int := max lo (min hi x)

/-- "Clamped to lo–hi" (00_scope.md 5.1), on naturals. -/
def clampNat (lo hi x : Nat) : Nat := max lo (min hi x)

/-- ceil(a / b) for naturals. -/
def ceilDiv (a b : Nat) : Nat := (a + b - 1) / b

end Sys2Proof
end

