-- ==== Sys2Proof/Syntax.lean ====
section
/-! DEFINITION. The commands of the part: one constructor per row of spec/opcode_table.json. Operands have
the width in which they come; ports and units named by a physical event are `Fin`. -/

namespace Sys2Proof

/-- A device port, and the motor channel, mark unit and line inputs of that number. -/
abbrev PortNo := Fin 6

/-- One byte as a serial line delivers it: its value, and whether its stop bit was low (R1, R22). -/
structure LineByte where
  value   : Byte
  stopLow : Bool
  deriving DecidableEq, Repr

/-- The two signal lines of a port. -/
inductive Line where
  | l1 | l2
  deriving DecidableEq, Repr

/-- The commands. `tag` is the tag of the frame that carries a command (R6). -/
inductive Instr where
  /-- POWER_ON_RESET (R13): the strap pins' levels. -/
  | powerOnReset (straps : BitVec 2)
  /-- FRAME_RECEIVED (R1–R3): bytes that arrive on the upstream receive line. -/
  | frameReceived (bytes : List LineByte)
  /-- GAP_TIMEOUT (R2). -/
  | gapTimeout
  /-- UNKNOWN_KIND (R6): a frame with a kind byte, tag and payload. -/
  | unknownKind (kind tag : Byte) (payload : List Byte)
  /-- TABLE_WRITE (R8): a TABLE WRITE with its whole payload. -/
  | tableWrite (tag : Byte) (payload : List Byte)
  /-- SETTINGS_WRITE (R14): first index, count and the record bytes. -/
  | settingsWrite (tag : Byte) (first : Half) (count : Byte) (data : List Byte)
  /-- PROFILES_WRITE (R30, R31). -/
  | profilesWrite (tag : Byte) (first : Half) (count : Byte) (data : List Byte)
  /-- SCAN_LIST_WRITE (R46). -/
  | scanListWrite (tag : Byte) (first : Half) (count : Byte) (data : List Byte)
  /-- CONVERSION_WRITE (R62, R63). -/
  | conversionWrite (tag : Byte) (first : Half) (count : Byte) (data : List Byte)
  /-- REACTIONS_WRITE (R148, R149). -/
  | reactionsWrite (tag : Byte) (first : Half) (count : Byte) (data : List Byte)
  /-- MARKS_WRITE (R110). -/
  | marksWrite (tag : Byte) (first : Half) (count : Byte) (data : List Byte)
  /-- BUDGET_WRITE (R118). -/
  | budgetWrite (tag : Byte) (first : Half) (count : Byte) (data : List Byte)
  /-- REPORTS_WRITE (R160). -/
  | reportsWrite (tag : Byte) (first : Half) (count : Byte) (data : List Byte)
  /-- CLIPS_WRITE (R135). -/
  | clipsWrite (tag : Byte) (first : Half) (count : Byte) (data : List Byte)
  /-- SAMPLE_STORE_WRITE (R136): byte offset, count and the bytes. -/
  | sampleStoreWrite (tag : Byte) (offset : Half) (count : Byte) (data : List Byte)
  /-- TABLE_READ (R10). -/
  | tableRead (tag : Byte) (payload : List Byte)
  /-- STATE (R11). -/
  | state (tag : Byte) (payload : List Byte)
  /-- RESET (R12). -/
  | reset (tag : Byte) (payload : List Byte)
  /-- MOTOR_COAST (R88). -/
  | motorCoast (tag channel notify : Byte)
  /-- MOTOR_BRAKE (R88). -/
  | motorBrake (tag channel notify : Byte)
  /-- MOTOR_DUTY (R89): duty s16. -/
  | motorDuty (tag channel notify : Byte) (duty : Half)
  /-- MOTOR_SPEED (R90): speed s16. -/
  | motorSpeed (tag channel notify : Byte) (speed : Half)
  /-- MOTOR_RUN_TO (R91): target s32, vmax u16, end action. -/
  | motorRunTo (tag channel notify : Byte) (target : Word) (vmax : Half) (endAction : Byte)
  /-- MOTOR_RUN_FOR (R92): speed s16, duration u16, end action. -/
  | motorRunFor (tag channel notify : Byte) (speed duration : Half) (endAction : Byte)
  /-- MOTOR_HOLD (R93). -/
  | motorHold (tag channel notify : Byte)
  /-- MOTOR_FOLLOW (R94): entry, gain s16. -/
  | motorFollow (tag channel notify : Byte) (entry : Byte) (gain : Half)
  /-- MOTOR_SET_COUNT (R95): value s32. -/
  | motorSetCount (tag channel notify : Byte) (value : Word)
  /-- SOUND_TONE (R141). -/
  | soundTone (tag : Byte) (pitch duration : Half) (waveform level : Byte)
  /-- SOUND_CLIP (R142). -/
  | soundClip (tag clip repeats level : Byte)
  /-- SOUND_FLUSH (R144). -/
  | soundFlush (tag : Byte)
  /-- SOUND_VOLUME (R143). -/
  | soundVolume (tag volume : Byte)
  /-- SOUND_STOP_TONE (R145). -/
  | soundStopTone (tag : Byte)
  /-- SOUND_STOP_CLIP (R145). -/
  | soundStopClip (tag : Byte)
  /-- SOUND_STOP_ALL (R145). -/
  | soundStopAll (tag : Byte)
  /-- SCAN_START (R49). -/
  | scanStart (tag : Byte)
  /-- SCAN_SINGLE (R49). -/
  | scanSingle (tag : Byte)
  /-- SCAN_STOP (R49). -/
  | scanStop (tag : Byte)
  /-- PORT_SEND (R38): the bytes for the device. -/
  | portSend (tag port : Byte) (data : List Byte)
  /-- PORT_SERVICE_ON (R40): the on byte as sent, 1–255. -/
  | portServiceOn (tag port on : Byte)
  /-- PORT_SERVICE_OFF (R41). -/
  | portServiceOff (tag port : Byte)
  /-- PORT_FORWARD (R42). -/
  | portForward (tag port on : Byte)
  /-- PORT_PROBE (R43). -/
  | portProbe (tag port : Byte)
  /-- REPORT_NOW (R163). -/
  | reportNow (tag entry : Byte)
  /-- SILENCE_TIMEOUT (R16). -/
  | silenceTimeout
  /-- STAMP_TICK (R18). -/
  | stampTick
  /-- FRAME_TRANSMITTED (R19). -/
  | frameTransmitted
  /-- DET_CHANGE (R24): the new level of the detect contact, true for closed. -/
  | detChange (port : PortNo) (closed : Bool)
  /-- DET_DEBOUNCE_EXPIRY (R24). -/
  | detDebounceExpiry (port : PortNo)
  /-- ID_CONVERSION_DONE (R26): the raw code of the ID conversion in flight. -/
  | idConversionDone (code : BitVec 12)
  /-- QUERY_TRY_DUE (R27). -/
  | queryTryDue (port : PortNo)
  /-- DEVICE_FRAME_SENT (R36). -/
  | deviceFrameSent (port : PortNo)
  /-- QUERY_WINDOW_CLOSE (R27). -/
  | queryWindowClose (port : PortNo)
  /-- IDENT_RECEIVED (R27): a device-line frame of type 4 with this payload arrives. -/
  | identReceived (port : PortNo) (payload : List Byte)
  /-- DATA_RECEIVED (R33): a device-line frame of type 5. -/
  | dataReceived (port : PortNo) (payload : List Byte)
  /-- ACK_RECEIVED (R38): a device-line frame of type 6. -/
  | ackReceived (port : PortNo) (payload : List Byte)
  /-- NAK_RECEIVED (R38): a device-line frame of type 7. -/
  | nakReceived (port : PortNo) (payload : List Byte)
  /-- BAD_DEVICE_FRAME (R22): bytes on the device line, which the engine delimits and checks. -/
  | badDeviceFrame (port : PortNo) (bytes : List LineByte)
  /-- POLL_TIMER_EXPIRY (R32). -/
  | pollTimerExpiry (port : PortNo)
  /-- POLL_WINDOW_CLOSE (R34). -/
  | pollWindowClose (port : PortNo)
  /-- WRITE_WINDOW_CLOSE (R38). -/
  | writeWindowClose (port : PortNo)
  /-- REPROBE_EXPIRY (R35). -/
  | reprobeExpiry (port : PortNo)
  /-- DIGITAL_LINE_CHANGE (R56): the new level of one line, true for high. -/
  | digitalLineChange (port : PortNo) (line : Line) (high : Bool)
  /-- LINE_DEBOUNCE_EXPIRY (R56). -/
  | lineDebounceExpiry (port : PortNo) (line : Line)
  /-- QUADRATURE_CHANGE (R57): the new pair (L1, L2). -/
  | quadratureChange (port : PortNo) (high1 high2 : Bool)
  /-- PULSE_EDGE (R59): an edge of L1, rising or falling, at a time in µs. -/
  | pulseEdge (port : PortNo) (rising : Bool) (time : Word)
  /-- NO_EDGE_EXPIRY (R60). -/
  | noEdgeExpiry (port : PortNo)
  /-- SCAN_CONVERSION_DONE (R51): the code of the scan conversion in flight. -/
  | scanConversionDone (code : BitVec 12)
  /-- REGULATION_EXPIRY (R98). -/
  | regulationExpiry (channel : PortNo)
  /-- RUN_FOR_EXPIRY (R103). -/
  | runForExpiry (channel : PortNo)
  /-- BUDGET_WINDOW_EXPIRY (R120). -/
  | budgetWindowExpiry
  /-- OUTPUT_SAMPLE (R138). -/
  | outputSample
  /-- NOTE_DURATION_EXPIRY (R134). -/
  | noteDurationExpiry
  /-- EVENT_DISPATCH (R152). -/
  | eventDispatch
  /-- REPORT_PERIOD_EXPIRY (R162). -/
  | reportPeriodExpiry (entry : Fin 12)
  /-- MIN_INTERVAL_EXPIRY (R162). -/
  | minIntervalExpiry (entry : Fin 12)
  deriving DecidableEq, Repr

end Sys2Proof
end

