-- ==== Sys2Proof/Machine/Bytes.lean ====
section
/-! DEFINITION. Byte order, the check bytes of both links, and the frames built from them (01 section 1.10). -/

namespace Sys2Proof.Machine

/-- A u16 or s16, little-endian (R21). -/
def le16 (x : Half) : List Byte := [x.extractLsb' 0 8, x.extractLsb' 8 8]

/-- A u32 or s32, little-endian (R21). -/
def le32 (x : Word) : List Byte :=
  [x.extractLsb' 0 8, x.extractLsb' 8 8, x.extractLsb' 16 8, x.extractLsb' 24 8]

/-- The byte at offset i of a record or payload. -/
def u8At (bs : List Byte) (i : Nat) : Byte := bs.getD i 0

/-- The little-endian 16-bit field at offset i. -/
def u16At (bs : List Byte) (i : Nat) : Half := u8At bs (i + 1) ++ u8At bs i

/-- The little-endian 32-bit field at offset i. -/
def u32At (bs : List Byte) (i : Nat) : Word := u16At bs (i + 2) ++ u16At bs i

/-- A flag is 0 or 1 (R21). -/
def flagByte (b : Bool) : Byte := if b then 1 else 0

/-- One shift of the CRC register: the bit shifted out decides the exclusive-OR with 07h (R20). -/
def crcShift (r : Byte) : Byte := if r.msb then (r <<< 1) ^^^ 0x07#8 else r <<< 1

/-- One byte into the CRC register: exclusive-OR, then eight shifts (R20). -/
def crcByte (r b : Byte) : Byte := Nat.repeat crcShift 8 (r ^^^ b)

/-- R20: the CRC-8 of a run of bytes, from 00h. -/
def crc8 (bs : List Byte) : Byte := bs.foldl crcByte 0

/-- The start marker (section 1.10.1). -/
def marker : Byte := 0xC3

/-- An upstream frame on the line: marker, length, kind, tag, payload, check byte (section 1.10.1). -/
def frameBytes (kind tag : Byte) (payload : List Byte) : List Byte :=
  let body := BitVec.ofNat 8 (payload.length + 2) :: kind :: tag :: payload
  marker :: body ++ [crc8 body]

/-- The sum of bytes modulo 256. -/
def byteSum (bs : List Byte) : Byte := bs.foldl (· + ·) 0

/-- R22: a device-line header, type in the top 3 bits and payload length in the low 5. -/
def deviceHeader (type : BitVec 3) (length : Nat) : Byte := type ++ BitVec.ofNat 5 length

/-- R22: a device-line frame with its check byte, 255 minus the sum of the others. -/
def deviceFrame (type : BitVec 3) (payload : List Byte) : List Byte :=
  let body := deviceHeader type payload.length :: payload
  body ++ [255 - byteSum body]

/-- A frame's bytes as a line delivers them, every stop bit high. -/
def onLine (bs : List Byte) : List LineByte := bs.map (fun b => { value := b, stopLow := false })

/-- R21: the code of an enumerated value is its position in the list its owner gives. -/
def codeIn [BEq α] (list : List α) (x : α) : Byte := BitVec.ofNat 8 (list.idxOf x)

/-- R21: the value an enumerated code stands for; a code beyond the list stands for none. -/
def valueIn (list : List α) (code : Byte) : Option α := list[code.toNat]?

/-- A number below 255 with 255 for "none" (R21). -/
def orNone (x : Option (Fin n)) : Byte :=
  match x with
  | some i => BitVec.ofNat 8 i.val
  | none => 255

end Sys2Proof.Machine
end

