-- ==== Sys2Proof/Config.lean ====
section
/-! DEFINITION. What the part fixes once (identity, capacities) and the values its manual leaves free. -/

namespace Sys2Proof.Config

/-- R11: vendor number. -/
def vendor : Byte := 41
/-- R11: part number. -/
def part : Byte := 62
/-- R11: silicon revision. -/
def revision : Byte := 3
/-- R4: frames the intake holds. -/
def intakePlaces : Nat := 4
/-- Section 1.3 of 01: places of the answer queue. -/
def answerPlaces : Nat := 4
/-- R134: notes waiting behind the note playing. -/
def noteQueue : Nat := 32
/-- R150: records of the reaction event queue. -/
def eventQueue : Nat := 16
/-- R153: the greatest depth of an event. -/
def maxDepth : Nat := 4
/-- R165: records of the notice queue. -/
def noticeQueue : Nat := 16
/-- R164: records of the report queue. -/
def reportQueue : Nat := 8
/-- Section 8.3.1 of 08: bytes of the sample store. -/
def storeBytes : Nat := 32768

/-- FREE VALUE (log 11): the duty R59 leaves unstated when a cycle is measured with period 0 (duty =
high time × 1000 / period). It stays within the field's range 0–1000 and may depend on the high time. -/
opaque zeroPeriodDuty : Word → Fin 1001

end Sys2Proof.Config
end

