-- ==== Sys2Proof/Machine/State.lean ====
section
/-! DEFINITION. The state of the UB-62, block by block, as plain data, and its state after reset. Field names
are the manual's; each docstring cites the rule or section that gives the item. -/

namespace Sys2Proof.Machine

/-- A timer: stopped, or running with the length (ms) it was last started with. When it expires is input
(log 2). -/
abbrev Timer := Option Nat

/-! ## Link controller -/

/-- Status codes (00_scope.md 5.6, 01 section 1.10.2). -/
inductive Status where
  | ok | adjusted | unknownKind | badLength | badTable | badIndex | badEntry | inUse
  | notMotor | portEmpty | portBusy | noDevice | deviceTimeout | deviceNak | queueFull | brownout
  deriving DecidableEq, Repr

/-- A good frame: kind, tag, payload (R1). -/
structure Frame where
  kind    : Byte
  tag     : Byte
  payload : List Byte
  deriving DecidableEq, Repr

/-- The receiver's four states (R1). In BODY and CHECK it holds the length byte and the bytes so far. -/
inductive Receiver where
  | hunt
  | length
  | body (n : Byte) (got : List Byte)
  | check (n : Byte) (got : List Byte)
  deriving DecidableEq, Repr

/-- A finished answer: status and result (section 1.3). -/
structure Answer where
  status : Status
  result : List Byte
  deriving DecidableEq, Repr

/-- An answer place that is not FREE: RESERVED while `answer` is none, READY once it is there (section 1.3). -/
structure Place where
  order  : Nat
  kind   : Byte
  tag    : Byte
  answer : Option Answer
  deriving DecidableEq, Repr

/-- R16. -/
inductive LinkState where
  | active | silent
  deriving DecidableEq, Repr

/-- R13. -/
inductive ResetCause where
  | powerOn | software
  deriving DecidableEq, Repr

/-- The SETTINGS record (R14). -/
structure Settings where
  silenceMs       : Half
  budgetWindowMs  : Byte
  budgetSource    : Byte
  brownoutRecover : Byte
  speakerLoad     : Half
  soundFloor      : Byte
  queueLowMark    : Byte
  scanStart       : Byte
  scanStop        : Byte
  deriving DecidableEq, Repr

/-! ## Ports -/

/-- Port states (section 2.1 of 02). -/
inductive PortState where
  | empty | detecting | probing | bound | unknown | fault
  deriving DecidableEq, Repr

/-- fault_reason (section 2.1). -/
inductive FaultReason where
  | none | idShort | noIdent | silent
  deriving DecidableEq, Repr

/-- The band of an ID measurement (R23, R26). -/
inductive Band where
  | short
  | passive (cls : Byte)
  | openLine
  deriving DecidableEq, Repr

/-- DATA field formats (section 1.10.3 of 01). -/
inductive Format where
  | s8 | u8 | s16 | u16 | s32
  deriving DecidableEq, Repr

/-- The exchanges of a device-line engine (R36). -/
inductive ExchangeKind where
  | query | poll | write
  deriving DecidableEq, Repr

/-- An exchange in flight (R36): what was sent, the length (ms) of its reply window, whether the window is
open (the transmission has ended), and the bytes of the reply frame in progress (R22). -/
structure Exchange where
  kind     : ExchangeKind
  sent     : List Byte
  windowMs : Nat
  windowOpen : Bool
  got      : List Byte
  deriving DecidableEq, Repr

/-- The pending pass-through (R38): the order of the answer place it holds and the bytes to carry. -/
structure Pass where
  place : Nat
  data  : List Byte
  deriving DecidableEq, Repr

/-- A port record with its working state (section 2.1, R23, R24, R36). The number of `formats` is
field_count; a profile of none is 255. `resumes`: service mode has ended since the poll timer's last expiry, so
polling resumes at its next one (R41, log 36). -/
structure Port where
  state        : PortState
  fault        : FaultReason
  profile      : Option (Fin 16)
  cls          : Byte
  variant      : Byte
  formats      : List Format
  minPoll      : Byte
  missed       : Nat
  forward      : Bool
  fields       : Vector Word 6
  band         : Option Band
  det          : Bool
  detAccepted  : Bool
  detTimer     : Timer
  exchange     : Option Exchange
  pass         : Option Pass
  pollDue      : Bool
  queryDue     : Bool
  tries        : Nat
  queryTimer   : Timer
  pollTimer    : Timer
  resumes      : Bool
  reprobeTimer : Timer
  deriving DecidableEq, Repr

/-- use of a profile (section 2.4). -/
inductive Use where
  | motor | sensor
  deriving DecidableEq, Repr

/-- line_use of a profile and line mode of a port (sections 2.4, 3.6). -/
inductive LineMode where
  | none | quadrature | digital | pulse | device
  deriving DecidableEq, Repr

/-- safe_action (section 2.4). -/
inductive SafeAction where
  | coast | brake
  deriving DecidableEq, Repr

/-- The PROFILES record (section 2.4), less its pad. -/
structure Profile where
  valid          : Bool
  cls            : Byte
  variant        : Byte
  use            : Use
  lineUse        : LineMode
  debounceMs     : Byte
  positionSource : Byte
  safeAction     : SafeAction
  cpr            : Half
  ratedLoad      : Half
  regPeriod      : Byte
  inposCount     : Byte
  tolerance      : Byte
  approachGain   : Byte
  kp             : Half
  ki             : Half
  imax           : Word
  stallDuty      : Half
  stallSpeed     : Half
  stallWarn      : Byte
  stallStop      : Byte
  pollMs         : Byte
  deriving DecidableEq, Repr

/-! ## Converter scan and line inputs -/

/-- A SCAN LIST slot (section 3.1). -/
structure ScanSlot where
  input   : Fin 8
  average : Nat
  deriving DecidableEq, Repr

/-- slot_state (section 3.2). -/
inductive SlotState where
  | idle | pending | converting | done
  deriving DecidableEq, Repr

/-- A slot's raw image (section 3.2); mode is the scan's. -/
structure RawImage where
  raw         : Half
  conversions : Nat
  sequence    : Half
  stamp       : Half
  input       : Fin 8
  slotState   : SlotState
  deriving DecidableEq, Repr

/-- Scan modes (section 3.3). -/
inductive ScanMode where
  | off | single | continuous
  deriving DecidableEq, Repr

/-- What the converter does (R53): a slot's conversions (R51), with `discard` once the slot's record was
rewritten (R46), or an ID conversion, `void` once its result is (R54). -/
inductive ConverterWork where
  | idle
  | slot (slot : Fin 16) (input : Fin 8) (n done sum : Nat) (discard : Bool)
  | ident (port : PortNo) (void : Bool)
  deriving DecidableEq, Repr

/-- A running pass (R50): the slot it takes next (or is converting) and its last slot. -/
structure ScanPass where
  next : Fin 16
  last : Fin 16
  deriving DecidableEq, Repr

/-- The converter scan (R46–R54). `cut`: the running pass waits only for its conversion in flight (R49). -/
structure Scan where
  slots   : Vector ScanSlot 16
  images  : Vector RawImage 16
  mode    : ScanMode
  passDue : Bool
  pass    : Option ScanPass
  cut     : Bool
  work    : ConverterWork
  idReq   : Vector Bool 6
  deriving DecidableEq, Repr

/-- The line inputs of a port (R55–R60). `level1`, `level2` are what the mode last saw or accepted: the
filters' accepted levels, the decoder's last pair, the meter's L1. -/
structure Lines where
  pin1     : Bool
  pin2     : Bool
  mode     : LineMode
  level1   : Bool
  level2   : Bool
  timer1   : Timer
  timer2   : Timer
  debounce : Nat
  count    : Word
  errors   : Half
  high     : Word
  period   : Word
  duty     : Nat
  lastRise : Word
  lastFall : Word
  armed    : Bool
  noEdge   : Timer
  deriving DecidableEq, Repr

/-! ## Conversion table -/

/-- source_kind (section 4.1). -/
inductive SourceKind where
  | none | slot | deviceField | encoder | pulseHigh | pulsePeriod | pulseDuty | entry | motorSpeed
  deriving DecidableEq, Repr

/-- mode of an entry (section 4.1). -/
inductive ConvMode where
  | raw | linear | filtered
  deriving DecidableEq, Repr

/-- window of an entry (section 4.1). -/
inductive Window where
  | off | high | low | both
  deriving DecidableEq, Repr

/-- status of an entry (section 4.5). -/
inductive ConvStatus where
  | empty | valid | stale | noSource | rail
  deriving DecidableEq, Repr

/-- alarm of an entry (section 4.4). -/
inductive Alarm where
  | normal | pendHigh | pendLow | high | low
  deriving DecidableEq, Repr

/-- The configuration part of a CONVERSION record (section 4.1). -/
structure ConvConfig where
  sourceKind  : SourceKind
  sourceIndex : Byte
  sourceField : Byte
  mode        : ConvMode
  offset      : Half
  gain        : Half
  filterShift : Nat
  tripCount   : Nat
  maxChange   : Word
  low         : Word
  high        : Word
  hysteresis  : Half
  window      : Window
  railCheck   : Bool
  deriving DecidableEq, Repr

/-- A CONVERSION entry: configuration, image and working state (section 4.1). -/
structure ConvEntry where
  cfg         : ConvConfig
  value       : Word
  status      : ConvStatus
  alarm       : Alarm
  updateCount : Half
  stamp       : Half
  prevIn      : Option Int
  prevOut     : Option Int
  railRun     : Nat
  pending     : Nat
  deriving DecidableEq, Repr

/-! ## Motor channels and mark units -/

/-- mode of a channel (section 5.1). -/
inductive MotorMode where
  | coast | brake | duty | speed | runTo | runFor | hold | follow
  deriving DecidableEq, Repr

/-- operation (section 5.1). -/
inductive Operation where
  | none | duty | speed | runTo | runFor | hold | follow
  deriving DecidableEq, Repr

/-- end_action (section 5.1). -/
inductive EndAction where
  | coast | brake | hold
  deriving DecidableEq, Repr

/-- outcome (section 5.1). -/
inductive Outcome where
  | none | done | stopped | superseded | stalled | detached | rebound | safeStop | brownout | sourceLost
  deriving DecidableEq, Repr

/-- A motor channel (section 5.1). `regTimer` runs exactly while the channel is bound (R107); `firstField`:
the next good DATA reply is the first after binding (R96). -/
structure Motor where
  mode           : MotorMode
  operation      : Operation
  notify         : Bool
  endAction      : EndAction
  outcome        : Outcome
  position       : Word
  prevPosition   : Word
  speed          : Int
  targetSpeed    : Int
  targetPosition : Word
  vmax           : Nat
  runEnd         : Half
  followEntry    : Fin 32
  followGain     : Half
  integral       : Int
  dutyRequest    : Int
  dutyGrant      : Int
  allowance      : Nat
  stallCount     : Nat
  stallEpisode   : Bool
  inposCount     : Nat
  regTimer       : Timer
  runForTimer    : Timer
  firstField     : Bool
  deriving DecidableEq, Repr

/-- A MARKS record (section 6.1). -/
structure Mark where
  enabled : Bool
  isOn    : Bool
  markA   : Word
  markB   : Word
  step    : Word
  deriving DecidableEq, Repr

/-! ## Drive budget -/

/-- A BUDGET row (section 7.1). -/
structure BudgetRow where
  valid   : Bool
  minMv   : Half
  ceiling : Half
  deriving DecidableEq, Repr

/-- Budget states (section 7.2). -/
inductive BudgetState where
  | normal | limiting | brownout
  deriving DecidableEq, Repr

/-- The BUDGET STATE record (section 7.2); a row of none is 255. -/
structure BudgetRecord where
  state          : BudgetState
  ceiling        : Nat
  row            : Option (Fin 6)
  batteryValid   : Bool
  batteryMv      : Int
  motorDemand    : Nat
  soundDemand    : Nat
  soundVolume    : Nat
  share          : Nat
  scale          : Nat
  soundGrant     : Nat
  soundAllowance : Nat
  recovery       : Nat
  windowCount    : Half
  deriving DecidableEq, Repr

/-- The drive budget: rows, record, window timer (R120) and Ls_old (R129). -/
structure Budget where
  rows    : Vector BudgetRow 6
  record  : BudgetRecord
  window  : Timer
  loadOld : Nat
  deriving DecidableEq, Repr

/-! ## Sound engine -/

/-- note_waveform (section 8.1). -/
inductive Waveform where
  | square | triangle | saw
  deriving DecidableEq, Repr

/-- A note (section 8.2), with its values in range. -/
structure Note where
  pitch    : Nat
  duration : Nat
  waveform : Waveform
  level    : Nat
  deriving DecidableEq, Repr

/-- A CLIPS record (section 8.3.1). -/
structure Clip where
  start  : Half
  length : Half
  rate   : Half
  valid  : Bool
  deriving DecidableEq, Repr

/-- The sound engine (sections 8.1–8.4). `note` is the note playing or last played; `noteSamples` its output
samples so far; `clipPos` the play position in 1/65,536 sample; `out` the speaker output. -/
structure Sound where
  tonePlaying : Bool
  note        : Note
  noteSamples : Nat
  phase       : Half
  step        : Half
  noteTimer   : Timer
  queue       : List Note
  clipPlaying : Bool
  clipIndex   : Fin 16
  clipStart   : Nat
  clipLength  : Nat
  clipRate    : Nat
  clipPos     : Nat
  clipInc     : Nat
  playsLeft   : Nat
  clipLevel   : Nat
  master      : Nat
  granted     : Nat
  allowance   : Nat
  out         : Int
  clips       : Vector Clip 16
  store       : List Host.Cell
  deriving DecidableEq, Repr

/-! ## Reaction table -/

/-- Event kinds (section 9.2); `none` is trigger_kind NONE. -/
inductive EventKind where
  | none | markA | markB | markOn | markOff | runEnd | stallWarn | alarmHigh | alarmLow | alarmClear
  | railFault | lineRise | lineFall | portAttach | portBound | portDetach | portFault
  | budgetLimit | budgetNormal | brownout | queueLow | toneIdle | clipEnd | scanDone | linkSilent
  deriving DecidableEq, Repr

/-- action_kind (section 9.1). -/
inductive ActionKind where
  | none | notify | motor | soundTone | soundClip | soundStop | enable | disable | markSet
  | reportNow | scanStart | scanSingle | scanStop
  deriving DecidableEq, Repr

/-- A REACTIONS entry (section 9.1). `always`: repeat is ALWAYS; `level`: sense is LEVEL. -/
structure Reaction where
  enabled       : Bool
  always        : Bool
  triggerKind   : EventKind
  triggerIndex  : Byte
  triggerDetail : Byte
  level         : Bool
  actionKind    : ActionKind
  actionTarget  : Byte
  arg0          : Word
  arg1          : Word
  arg2          : Half
  hitCount      : Half
  deriving DecidableEq, Repr

/-- An event record (R150); a directed entry of none is 255. -/
structure Event where
  kind     : EventKind
  index    : Byte
  detail   : Byte
  depth    : Nat
  stamp    : Half
  directed : Option (Fin 24)
  deriving DecidableEq, Repr

/-- The dispatcher while DISPATCHING (R152, R153): the record, the entry whose action is carried out, and
whether this dispatch has queued its DEPTH_LIMIT notice. -/
structure Dispatch where
  record : Event
  entry  : Fin 24
  cut    : Bool
  deriving DecidableEq, Repr

/-! ## Report unit -/

/-- Item kinds (section 10.1). -/
inductive ItemKind where
  | conv | position | speed | duty | mode | port | budget | sound | lines | raw
  deriving DecidableEq, Repr

/-- An item of a REPORTS entry. -/
structure Item where
  kind  : ItemKind
  index : Byte
  deriving DecidableEq, Repr

/-- A REPORTS entry with its working state (section 10.1). -/
structure Report where
  enabled     : Bool
  periodMs    : Half
  minInterval : Half
  changeDelta : Word
  itemCount   : Nat
  items       : Vector Item 8
  lastSent    : Vector (Option Int) 8
  pending     : Bool
  skipped     : Half
  periodTimer : Timer
  minTimer    : Timer
  deriving DecidableEq, Repr

/-- An assembled item (R161). -/
structure ReportItem where
  kind   : ItemKind
  status : Byte
  value  : Word
  deriving DecidableEq, Repr

/-- A record of the report queue (R164). -/
inductive ReportRecord where
  | report (entry : Fin 12) (stamp skipped : Half) (items : List ReportItem)
  | pass (port : PortNo) (skipped stamp : Half) (data : List Byte)
  deriving DecidableEq, Repr

/-- The bodies of the notice kinds (R165). -/
inductive NoticeBody where
  | started (cause : ResetCause) (strap : BitVec 2)
  | portChange (port : PortNo) (state : PortState) (fault : FaultReason) (profile : Option (Fin 16)) (cls variant : Byte)
  | runEnd (channel : PortNo) (operation : Operation) (outcome : Outcome) (position : Word)
  | reaction (entry : Fin 24) (event : Event)
  | budgetChange (state previous : BudgetState) (ceiling : Nat) (row : Option (Fin 6)) (batteryValid : Bool)
      (batteryMv : Int) (scale : Nat)
  | queueLow (count mark : Byte)
  | intakeOverflow (drops : Half)
  | eventOverflow (kind : EventKind) (index : Byte)
  | depthLimit (kind : EventKind) (index : Byte) (depth : Nat) (entry : Fin 24)
  deriving DecidableEq, Repr

/-- A notice record (R165). -/
structure Notice where
  body    : NoticeBody
  dropped : Bool
  stamp   : Half
  deriving DecidableEq, Repr

/-- What every block posts and queues into, and the clock it stamps with: the time stamp counter (R18), the
reaction event queue, overflow flag and dispatcher (R150, R152), the notice queue, dropped flag and
notices_dropped count (R165). -/
structure Bus where
  stamp          : Half
  events         : List Event
  overflow       : Bool
  dispatch       : Option Dispatch
  notices        : List Notice
  dropped        : Bool
  noticesDropped : Half
  deriving DecidableEq, Repr

/-- What the transmitter sends (R19). -/
inductive Sending where
  | answer (order : Nat) (kind tag : Byte) (a : Answer)
  | notice (n : Notice)
  | report (r : ReportRecord)
  deriving DecidableEq, Repr

/-- The link controller (sections 1.1–1.9 of 01). -/
structure Link where
  receiver     : Receiver
  intake       : List Frame
  places       : List Place
  nextOrder    : Nat
  resetOrder   : Option Nat
  tx           : Option Sending
  state        : LinkState
  strap        : BitVec 2
  cause        : ResetCause
  silence      : Timer
  framesGood   : Half
  lengthErrors : Half
  checkErrors  : Half
  gapErrors    : Half
  byteErrors   : Half
  intakeDrops  : Half
  silenceCount : Half
  deriving DecidableEq, Repr

/-- The machine. `service` is the service-mode selection (R40): the port it names has its service flag set.
`failures` and `blocked` are LINK STATE's reaction counts (R157, R158). `pending` is the queue of commands
that wait, first in, first out (log 1). -/
structure State where
  link        : Link
  settings    : Settings
  bus         : Bus
  ports       : Vector Port 6
  profiles    : Vector Profile 16
  service     : Option PortNo
  scan        : Scan
  lines       : Vector Lines 6
  conv        : Vector ConvEntry 32
  encStamp    : Vector (Option Half) 6
  motors      : Vector Motor 6
  marks       : Vector Mark 6
  budget      : Budget
  sound       : Sound
  reactions   : Vector Reaction 24
  failures    : Half
  blocked     : Half
  reports     : Vector Report 12
  reportQueue : List ReportRecord
  passSkipped : Vector Half 6
  pending     : List Instr
  deriving DecidableEq, Repr

/-- Faults. The UB-62 has none: every arrival is answered with a status, acted on or ignored as its rule
says, so no meaning stops. -/
inductive Fault where
  deriving DecidableEq, Repr

/-- Refusals. -/
inductive Refusal where
  /-- Raised by exec's arm of a command that has no meaning yet; safe. No arm raises it now. -/
  | notModelled (mnemonic : String)
  deriving DecidableEq, Repr

/-! ## Reset values -/

/-- R14: SETTINGS after both resets. -/
def Settings.reset : Settings :=
  { silenceMs := 0, budgetWindowMs := 10, budgetSource := 255, brownoutRecover := 3, speakerLoad := 300,
    soundFloor := 20, queueLowMark := 4, scanStart := 0, scanStop := 0 }

/-- R45: a port after both resets; the pin keeps its level `det`. -/
def Port.reset (det : Bool) : Port :=
  { state := .empty, fault := .none, profile := none, cls := 0, variant := 0, formats := [], minPoll := 0,
    missed := 0, forward := false, fields := Vector.replicate 6 0, band := none, det := det,
    detAccepted := false, detTimer := some 20, exchange := none, pass := none, pollDue := false,
    queryDue := false, tries := 0, queryTimer := none, pollTimer := none, resumes := false,
    reprobeTimer := none }

/-- R45: every PROFILES record all zero. -/
def Profile.reset : Profile :=
  { valid := false, cls := 0, variant := 0, use := .motor, lineUse := .none, debounceMs := 0,
    positionSource := 0, safeAction := .coast, cpr := 0, ratedLoad := 0, regPeriod := 0, inposCount := 0,
    tolerance := 0, approachGain := 0, kp := 0, ki := 0, imax := 0, stallDuty := 0, stallSpeed := 0,
    stallWarn := 0, stallStop := 0, pollMs := 0 }

/-- Section 3.2: a raw image after both resets. -/
def RawImage.reset : RawImage :=
  { raw := 0, conversions := 0, sequence := 0, stamp := 0, input := 0, slotState := .idle }

/-- R61: the converter scan after both resets. -/
def Scan.reset : Scan :=
  { slots := Vector.replicate 16 { input := 0, average := 1 }, images := Vector.replicate 16 RawImage.reset,
    mode := .off, passDue := false, pass := none, cut := false, work := .idle,
    idReq := Vector.replicate 6 false }

/-- R61: the line inputs after both resets; the pins keep their levels. -/
def Lines.reset (pin1 pin2 : Bool) : Lines :=
  { pin1 := pin1, pin2 := pin2, mode := .none, level1 := false, level2 := false, timer1 := none,
    timer2 := none, debounce := 0, count := 0, errors := 0, high := 0, period := 0, duty := 0,
    lastRise := 0, lastFall := 0, armed := false, noEdge := none }

/-- R81: a configuration after both resets. -/
def ConvConfig.reset : ConvConfig :=
  { sourceKind := .none, sourceIndex := 0, sourceField := 0, mode := .raw, offset := 0, gain := 0,
    filterShift := 0, tripCount := 1, maxChange := 0, low := 0, high := 0, hysteresis := 0, window := .off,
    railCheck := false }

/-- R63, R81: an entry that starts over with a configuration. -/
def ConvEntry.fresh (cfg : ConvConfig) : ConvEntry :=
  { cfg := cfg, value := 0, status := .empty, alarm := .normal, updateCount := 0, stamp := 0, prevIn := none,
    prevOut := none, railRun := 0, pending := 0 }

/-- R109: a motor channel after both resets. -/
def Motor.reset : Motor :=
  { mode := .coast, operation := .none, notify := false, endAction := .coast, outcome := .none, position := 0,
    prevPosition := 0, speed := 0, targetSpeed := 0, targetPosition := 0, vmax := 0, runEnd := 0,
    followEntry := 0, followGain := 0, integral := 0, dutyRequest := 0, dutyGrant := 0, allowance := 1000,
    stallCount := 0, stallEpisode := false, inposCount := 0, regTimer := none, runForTimer := none,
    firstField := false }

/-- R117: a mark unit after both resets. -/
def Mark.reset : Mark := { enabled := false, isOn := false, markA := 0, markB := 0, step := 0 }

/-- R119: the budget state record after both resets. -/
def BudgetRecord.reset : BudgetRecord :=
  { state := .normal, ceiling := 1500, row := some 0, batteryValid := false, batteryMv := 0, motorDemand := 0,
    soundDemand := 0, soundVolume := 0, share := 0, scale := 1024, soundGrant := 0, soundAllowance := 100,
    recovery := 0, windowCount := 0 }

/-- R118: an invalid row, all zero. -/
def BudgetRow.reset : BudgetRow := { valid := false, minMv := 0, ceiling := 0 }

/-- R131: the drive budget after both resets. -/
def Budget.reset : Budget :=
  { rows := #v[{ valid := true, minMv := 0, ceiling := 1500 }, BudgetRow.reset, BudgetRow.reset,
      BudgetRow.reset, BudgetRow.reset, BudgetRow.reset],
    record := BudgetRecord.reset, window := some 10, loadOld := 300 }

/-- R147: a CLIPS entry after power-on reset. -/
def Clip.reset : Clip := { start := 0, length := 0, rate := 0, valid := false }

/-- R147: the sound engine after a reset that leaves these clips and this store. -/
def Sound.reset (clips : Vector Clip 16) (store : List Host.Cell) : Sound :=
  { tonePlaying := false, note := { pitch := 0, duration := 0, waveform := .square, level := 0 },
    noteSamples := 0, phase := 0, step := 0, noteTimer := none, queue := [], clipPlaying := false,
    clipIndex := 0, clipStart := 0, clipLength := 0, clipRate := 0, clipPos := 0, clipInc := 0,
    playsLeft := 0, clipLevel := 0, master := 50, granted := 0, allowance := 100, out := 0,
    clips := clips, store := store }

/-- R159: a REACTIONS entry after both resets. -/
def Reaction.reset : Reaction :=
  { enabled := false, always := false, triggerKind := .none, triggerIndex := 0, triggerDetail := 0,
    level := false, actionKind := .none, actionTarget := 0, arg0 := 0, arg1 := 0, arg2 := 0, hitCount := 0 }

/-- R160: a REPORTS entry after both resets. -/
def Report.reset : Report :=
  { enabled := false, periodMs := 0, minInterval := 0, changeDelta := 0, itemCount := 1,
    items := Vector.replicate 8 { kind := .conv, index := 0 }, lastSent := Vector.replicate 8 none,
    pending := false, skipped := 0, periodTimer := none, minTimer := none }

/-- R18, R159, R166: clock, event queue and notice queue after both resets. -/
def Bus.reset : Bus :=
  { stamp := 0, events := [], overflow := false, dispatch := none, notices := [], dropped := false,
    noticesDropped := 0 }

/-- R13: the link controller after a reset of this cause, before STARTED. -/
def Link.reset (cause : ResetCause) (strap : BitVec 2) : Link :=
  { receiver := .hunt, intake := [], places := [], nextOrder := 0, resetOrder := none, tx := none,
    state := .active, strap := strap, cause := cause, silence := none, framesGood := 0, lengthErrors := 0,
    checkErrors := 0, gapErrors := 0, byteErrors := 0, intakeDrops := 0, silenceCount := 0 }

/-- The STARTED notice of a reset (R13, R166): it carries dropped 0 and stamp 0. -/
def startedNotice (cause : ResetCause) (strap : BitVec 2) : Notice :=
  { body := .started cause strap, dropped := false, stamp := 0 }

/-- Every block in its state after a reset, and STARTED taken by the idle transmitter (R12, R13, R166; log 4).
What a reset does not touch are the arguments: the pins, and after a software reset the clips and the store
(R147). -/
def State.afterReset (cause : ResetCause) (strap : BitVec 2) (det : Vector Bool 6) (pins : Vector (Bool × Bool) 6)
    (clips : Vector Clip 16) (store : List Host.Cell) (pending : List Instr) : State :=
  { link := { Link.reset cause strap with tx := some (.notice (startedNotice cause strap)) },
    settings := Settings.reset, bus := Bus.reset, ports := det.map Port.reset,
    profiles := Vector.replicate 16 Profile.reset, service := none, scan := Scan.reset,
    lines := pins.map (fun p => Lines.reset p.1 p.2),
    conv := Vector.replicate 32 (ConvEntry.fresh ConvConfig.reset), encStamp := Vector.replicate 6 none,
    motors := Vector.replicate 6 Motor.reset, marks := Vector.replicate 6 Mark.reset, budget := Budget.reset,
    sound := Sound.reset clips store, reactions := Vector.replicate 24 Reaction.reset, failures := 0,
    blocked := 0, reports := Vector.replicate 12 Report.reset, reportQueue := [],
    passSkipped := Vector.replicate 6 0, pending := pending }

/-- The machine right after power-on reset (R13): straps 0, sockets empty and lines low (logs 5, 6), clips
and store all zero (R147), no command waiting. -/
def State.reset : State :=
  State.afterReset .powerOn 0 (Vector.replicate 6 false) (Vector.replicate 6 (false, false))
    (Vector.replicate 16 Clip.reset) [] []

end Sys2Proof.Machine
end

