-- ==== Sys2Proof/Machine/Flags.lean ====
section
/-! DEFINITION. The flags, conditions and derived readings that rules of several blocks share, and the code
lists of the enumerated fields (R21). -/

namespace Sys2Proof.Machine

/-! ## Code lists (R21: position in the owner's list) -/

/-- Section 1.10.2 of 01. -/
def Status.list : List Status :=
  [.ok, .adjusted, .unknownKind, .badLength, .badTable, .badIndex, .badEntry, .inUse, .notMotor, .portEmpty,
   .portBusy, .noDevice, .deviceTimeout, .deviceNak, .queueFull, .brownout]
/-- R17. -/
def LinkState.list : List LinkState := [.active, .silent]
/-- R17. -/
def ResetCause.list : List ResetCause := [.powerOn, .software]
/-- Section 2.1 of 02. -/
def PortState.list : List PortState := [.empty, .detecting, .probing, .bound, .unknown, .fault]
/-- R29. -/
def FaultReason.list : List FaultReason := [.none, .idShort, .noIdent, .silent]
/-- Section 1.10.3 of 01. -/
def Format.list : List Format := [.s8, .u8, .s16, .u16, .s32]
/-- Section 2.4. -/
def Use.list : List Use := [.motor, .sensor]
/-- Section 2.4. -/
def LineMode.list : List LineMode := [.none, .quadrature, .digital, .pulse, .device]
/-- Section 2.4. -/
def SafeAction.list : List SafeAction := [.coast, .brake]
/-- Section 3.2. -/
def SlotState.list : List SlotState := [.idle, .pending, .converting, .done]
/-- Section 3.2. -/
def ScanMode.list : List ScanMode := [.off, .single, .continuous]
/-- Section 4.1. -/
def SourceKind.list : List SourceKind :=
  [.none, .slot, .deviceField, .encoder, .pulseHigh, .pulsePeriod, .pulseDuty, .entry, .motorSpeed]
/-- Section 4.1. -/
def ConvMode.list : List ConvMode := [.raw, .linear, .filtered]
/-- Section 4.1. -/
def Window.list : List Window := [.off, .high, .low, .both]
/-- R161. -/
def ConvStatus.list : List ConvStatus := [.empty, .valid, .stale, .noSource, .rail]
/-- Section 4.1. -/
def Alarm.list : List Alarm := [.normal, .pendHigh, .pendLow, .high, .low]
/-- Section 5.1. -/
def MotorMode.list : List MotorMode := [.coast, .brake, .duty, .speed, .runTo, .runFor, .hold, .follow]
/-- Section 5.1. -/
def Operation.list : List Operation := [.none, .duty, .speed, .runTo, .runFor, .hold, .follow]
/-- Section 5.1. -/
def EndAction.list : List EndAction := [.coast, .brake, .hold]
/-- Section 5.1. -/
def Outcome.list : List Outcome :=
  [.none, .done, .stopped, .superseded, .stalled, .detached, .rebound, .safeStop, .brownout, .sourceLost]
/-- Section 7.2. -/
def BudgetState.list : List BudgetState := [.normal, .limiting, .brownout]
/-- Section 8.1. -/
def Waveform.list : List Waveform := [.square, .triangle, .saw]
/-- Section 9.2. -/
def EventKind.list : List EventKind :=
  [.none, .markA, .markB, .markOn, .markOff, .runEnd, .stallWarn, .alarmHigh, .alarmLow, .alarmClear,
   .railFault, .lineRise, .lineFall, .portAttach, .portBound, .portDetach, .portFault, .budgetLimit,
   .budgetNormal, .brownout, .queueLow, .toneIdle, .clipEnd, .scanDone, .linkSilent]
/-- Section 9.1. -/
def ActionKind.list : List ActionKind :=
  [.none, .notify, .motor, .soundTone, .soundClip, .soundStop, .enable, .disable, .markSet, .reportNow,
   .scanStart, .scanSingle, .scanStop]
/-- Section 10.1. -/
def ItemKind.list : List ItemKind :=
  [.conv, .position, .speed, .duty, .mode, .port, .budget, .sound, .lines, .raw]

/-! ## Ports -/

/-- R23: a port is smart while its band is open. -/
def Port.smart (p : Port) : Bool := p.band == some .openLine

/-- Section 2.1: the service flag of port n (R40: the selection names the one port that holds it). -/
def State.inService (s : State) (n : PortNo) : Bool := s.service == some n

/-- The profile a port is BOUND to. -/
def State.boundProfile (s : State) (n : PortNo) : Option Profile :=
  match s.ports[n].state, s.ports[n].profile with
  | .bound, some i => some s.profiles[i]
  | _, _ => none

/-- Chapter 5: motor-bound, BOUND to a profile whose use is MOTOR; answers that profile. -/
def State.motorProfile (s : State) (n : PortNo) : Option Profile :=
  (s.boundProfile n).filter (fun pr => pr.use == .motor)

/-! ## Line inputs -/

/-- R55: the shown level of L1. -/
def Lines.shown1 (l : Lines) : Bool :=
  match l.mode with
  | .none | .device => false
  | .digital | .quadrature | .pulse => l.level1

/-- R55: the shown level of L2; in PULSE the present level. -/
def Lines.shown2 (l : Lines) : Bool :=
  match l.mode with
  | .none | .device => false
  | .digital | .quadrature => l.level2
  | .pulse => l.pin2

/-- R55, R57: the error count, read as 0 outside QUADRATURE. -/
def Lines.shownErrors (l : Lines) : Half := if l.mode = .quadrature then l.errors else 0

/-! ## Motor channels -/

/-- Section 5.2: the driving modes. -/
def MotorMode.driving : MotorMode → Bool
  | .coast | .brake => false
  | .duty | .speed | .runTo | .runFor | .hold | .follow => true

/-- Section 5.2: the regulated modes. -/
def MotorMode.regulated : MotorMode → Bool
  | .coast | .brake | .duty => false
  | .speed | .runTo | .runFor | .hold | .follow => true

/-- What the drive stage does with the pair (R83). -/
inductive DrivePair where
  | opened | shorted | driven (duty : Int)
  deriving DecidableEq, Repr

/-- R83: the drive pair, from the mode and the granted duty. -/
def Motor.drivePair (m : Motor) : DrivePair :=
  match m.mode with
  | .coast => .opened
  | .brake => .shorted
  | .duty | .speed | .runTo | .runFor | .hold | .follow => if m.dutyGrant = 0 then .opened else .driven m.dutyGrant

/-- R89, R100, R101: the grant of a request d within an allowance a. -/
def grantWithin (d : Int) (a : Nat) : Int := d.sign * min |d| a

/-- The wrapping signed 32-bit difference target − start (R98, R99, R112). -/
def wrapDiff (target start : Word) : Int := (target - start).toInt

/-! ## Sound -/

/-- R139: v_eff = min(master, v_a). -/
def Sound.effective (s : Sound) : Nat := min s.master s.allowance

/-- R138: what drives the speaker: the last output sample, and 0 while both voices are IDLE. From the start of a
voice to its first output sample that is the sample last made, however long ago, which a stop does not clear; the
manual states no value there (log 34). -/
def Sound.speaker (s : Sound) : Int := if s.tonePlaying || s.clipPlaying then s.out else 0

/-- R122, R139: the engine counts as active. -/
def Sound.active (s : Sound) : Bool := s.tonePlaying || s.clipPlaying || !s.queue.isEmpty

/-- R134, section 8.1: ms until the note's duration expiry, truncated, from the output samples played (a note
of d ms plays 16 × d of them; log 8). -/
def Sound.noteRemaining (s : Sound) : Nat :=
  if s.tonePlaying then (16 * s.note.duration - s.noteSamples) / 16 else 0

end Sys2Proof.Machine
end

