-- ==== Sys2Proof/Machine/Ops.lean ====
section
/-! DEFINITION. Named operations over the state that every block shares: one record of a table, the sample
store, posting events, queuing notices, finishing an answer, and the transmitter's choice. -/

namespace Sys2Proof.Machine

/-! ## One record of a table -/

/-- Replaces port n's record. -/
def State.setPort (s : State) (n : PortNo) (p : Port) : State := { s with ports := s.ports.set n p }
/-- Replaces port n's line inputs. -/
def State.setLines (s : State) (n : PortNo) (l : Lines) : State := { s with lines := s.lines.set n l }
/-- Replaces a CONVERSION entry. -/
def State.setConv (s : State) (i : Fin 32) (e : ConvEntry) : State := { s with conv := s.conv.set i e }
/-- Replaces a motor channel. -/
def State.setMotor (s : State) (n : PortNo) (m : Motor) : State := { s with motors := s.motors.set n m }
/-- Replaces a MARKS record. -/
def State.setMark (s : State) (n : PortNo) (m : Mark) : State := { s with marks := s.marks.set n m }
/-- Replaces a REACTIONS entry. -/
def State.setReaction (s : State) (i : Fin 24) (r : Reaction) : State :=
  { s with reactions := s.reactions.set i r }
/-- Replaces a REPORTS entry. -/
def State.setReport (s : State) (i : Fin 12) (r : Report) : State := { s with reports := s.reports.set i r }

/-- Ports, channels and units in ascending order. -/
def allPorts : List PortNo := [0, 1, 2, 3, 4, 5]

/-! ## The sample store -/

/-- Reads one byte; an unlisted offset reads 0, the store's power-on content (R147). -/
def Memory.read : List Host.Cell → Nat → Byte
  | [], _ => 0
  | (k, v) :: rest, a => if k = a then v else Memory.read rest a

/-- Writes one byte, keeping offsets rising and listing no 0. -/
def Memory.write : List Host.Cell → Nat → Byte → List Host.Cell
  | [], a, v => if v = 0 then [] else [(a, v)]
  | (k, w) :: rest, a, v =>
    if a < k then (if v = 0 then (k, w) :: rest else (a, v) :: (k, w) :: rest)
    else if a = k then (if v = 0 then rest else (a, v) :: rest)
    else (k, w) :: Memory.write rest a v

/-- Writes a run of bytes from an offset, lowest first (R136). -/
def Memory.writeAll : List Host.Cell → Nat → List Byte → List Host.Cell
  | m, _, [] => m
  | m, a, v :: vs => Memory.writeAll (Memory.write m a v) (a + 1) vs

/-- Reads n bytes from an offset. -/
def Memory.readAll (m : List Host.Cell) (a : Nat) (n : Nat) : List Byte :=
  (List.range n).map (fun i => Memory.read m (a + i))

/-- The canonical form: offsets strictly rising and inside the store, no entry equal to what an unlisted
offset reads as. -/
def Memory.wf : List Host.Cell → Bool
  | [] => true
  | [(k, v)] => decide (k < Config.storeBytes) && v != 0
  | (k, v) :: (k', v') :: rest =>
    decide (k < k') && decide (k < Config.storeBytes) && v != 0 && Memory.wf ((k', v') :: rest)

/-! ## Notices and events -/

/-- R165: a notice is appended with the dropped flag, or dropped, counted and flagged. -/
def Bus.notify (b : Bus) (body : NoticeBody) : Bus :=
  if b.notices.length < Config.noticeQueue then
    { b with notices := b.notices ++ [{ body := body, dropped := b.dropped, stamp := b.stamp }], dropped := false }
  else
    { b with noticesDropped := satInc b.noticesDropped, dropped := true }

/-- R150: an event record is appended; at a full queue it is dropped, and the first drop sets the overflow
flag and queues an EVENT_OVERFLOW notice. -/
def Bus.offer (b : Bus) (e : Event) : Bus :=
  if b.events.length < Config.eventQueue then { b with events := b.events ++ [e] }
  else if b.overflow then b
  else Bus.notify { b with overflow := true } (.eventOverflow e.kind e.index)

/-- R153: the record of an event, with depth 0 from a block, or the dispatched depth plus 1 when an action
causes it; at depth 5 it is cut, and the first cut of a dispatch queues a DEPTH_LIMIT notice. -/
def Bus.postRecord (b : Bus) (kind : EventKind) (index detail : Byte) (directed : Option (Fin 24)) : Bus :=
  match b.dispatch with
  | none =>
    b.offer { kind := kind, index := index, detail := detail, depth := 0, stamp := b.stamp, directed := directed }
  | some d =>
    if d.record.depth + 1 ≤ Config.maxDepth then
      b.offer { kind := kind, index := index, detail := detail, depth := d.record.depth + 1, stamp := b.stamp,
                directed := directed }
    else if d.cut then b
    else Bus.notify { b with dispatch := some { d with cut := true } }
      (.depthLimit d.record.kind d.record.index d.record.depth d.entry)

/-- A block posts an event. -/
def Bus.post (b : Bus) (kind : EventKind) (index detail : Byte) : Bus := b.postRecord kind index detail none

/-- Posts events in order, all with one index. -/
def Bus.postAll (b : Bus) (index : Byte) (events : List (EventKind × Byte)) : Bus :=
  events.foldl (fun b e => b.post e.1 index e.2) b

/-- The event index of a port, channel or unit. -/
def portByte (n : PortNo) : Byte := BitVec.ofNat 8 n.val

/-- A block posts an event. -/
def State.post (s : State) (kind : EventKind) (index detail : Byte) : State :=
  { s with bus := s.bus.post kind index detail }

/-- A block queues a notice. -/
def State.notify (s : State) (body : NoticeBody) : State := { s with bus := s.bus.notify body }

/-! ## Answers and the transmitter -/

/-- Section 1.3: the RESERVED place of this taking order becomes READY. -/
def Place.finish (order : Nat) (a : Answer) (p : Place) : Place :=
  if p.order = order ∧ p.answer = none then { p with answer := some a } else p

/-- The answer of the command with this taking order is known. -/
def Link.finish (l : Link) (order : Nat) (a : Answer) : Link :=
  { l with places := l.places.map (Place.finish order a) }

/-- The answer of the command with this taking order is known. -/
def State.finish (s : State) (order : Nat) (status : Status) (result : List Byte) : State :=
  { s with link := s.link.finish order { status := status, result := result } }

/-- R19: the READY answer whose command was taken earliest. -/
def Link.readyAnswer (l : Link) : Option Sending :=
  l.places.findSome? (fun p => p.answer.map (fun a => .answer p.order p.kind p.tag a))

/-- R19: the IDLE transmitter takes the oldest READY answer, else the head notice, else the head report or
PASS, else stays IDLE. -/
def State.transmitNext (s : State) : State :=
  match s.link.tx with
  | some _ => s
  | none =>
    match s.link.readyAnswer, s.bus.notices, s.reportQueue with
    | some a, _, _ => { s with link := { s.link with tx := some a } }
    | none, n :: ns, _ =>
      { s with link := { s.link with tx := some (.notice n) }, bus := { s.bus with notices := ns } }
    | none, [], r :: rs => { s with link := { s.link with tx := some (.report r) }, reportQueue := rs }
    | none, [], [] => s

/-- The next state of a step that may have queued something to send: the transmitter chooses at the end of the
whole step (R163, log 10). -/
def settled (s : State) : Host.Outcome State Fault Refusal := .next s.transmitNext

end Sys2Proof.Machine
end

