-- ==== Sys2Proof/Machine/Encoding.lean ====
section
/-! DEFINITION. What the part sends: record encodings for TABLE READ (R10, R21), the identity record (R11),
and the payloads and wire bytes of upstream frames (R19, R20, R164, R165). -/

namespace Sys2Proof.Machine

/-- A u8 field from a natural. -/
def byteOf (n : Nat) : Byte := BitVec.ofNat 8 n
/-- A u16 field from a natural. -/
def halfOf (n : Nat) : Half := BitVec.ofNat 16 n

/-! ## Table identifiers (00_scope.md 5.4, 01 section 1.10.2) -/

/-- The tables, in ascending id order. -/
inductive Table where
  | settings | profiles | scanList | conversion | reactions | marks | budget | reports | clips | sampleStore
  | portState | motorState | budgetState | soundState | linkState | rawImages
  deriving DecidableEq, Repr

/-- The tables in ascending id order (R11). -/
def Table.list : List Table :=
  [.settings, .profiles, .scanList, .conversion, .reactions, .marks, .budget, .reports, .clips, .sampleStore,
   .portState, .motorState, .budgetState, .soundState, .linkState, .rawImages]

/-- A table's id. -/
def Table.id : Table → Byte
  | .settings => 1 | .profiles => 2 | .scanList => 3 | .conversion => 4 | .reactions => 5 | .marks => 6
  | .budget => 7 | .reports => 8 | .clips => 9 | .sampleStore => 10 | .portState => 16 | .motorState => 17
  | .budgetState => 18 | .soundState => 19 | .linkState => 20 | .rawImages => 21

/-- The number of records; bytes for the SAMPLE STORE. -/
def Table.records : Table → Nat
  | .settings => 1 | .profiles => 16 | .scanList => 16 | .conversion => 32 | .reactions => 24 | .marks => 6
  | .budget => 6 | .reports => 12 | .clips => 16 | .sampleStore => 32768 | .portState => 6 | .motorState => 6
  | .budgetState => 1 | .soundState => 1 | .linkState => 1 | .rawImages => 16

/-- The record size in bytes; of a read-only table the sum of its field widths. -/
def Table.size : Table → Nat
  | .settings => 11 | .profiles => 32 | .scanList => 2 | .conversion => 36 | .reactions => 20 | .marks => 14
  | .budget => 5 | .reports => 26 | .clips => 7 | .sampleStore => 1 | .portState => 40 | .motorState => 41
  | .budgetState => 23 | .soundState => 18 | .linkState => 28 | .rawImages => 10

/-- Tables 16–21 are read-only. -/
def Table.writable : Table → Bool
  | .settings | .profiles | .scanList | .conversion | .reactions | .marks | .budget | .reports | .clips
  | .sampleStore => true
  | .portState | .motorState | .budgetState | .soundState | .linkState | .rawImages => false

/-- The table an id names. -/
def Table.ofId (id : Byte) : Option Table := Table.list.find? (fun t => t.id == id)

/-! ## Records -/

/-- R14. -/
def Settings.encode (r : Settings) : List Byte :=
  le16 r.silenceMs ++ [r.budgetWindowMs, r.budgetSource, r.brownoutRecover] ++ le16 r.speakerLoad ++
  [r.soundFloor, r.queueLowMark, r.scanStart, r.scanStop]

/-- Section 2.4. -/
def Profile.encode (r : Profile) : List Byte :=
  [flagByte r.valid, r.cls, r.variant, codeIn Use.list r.use, codeIn LineMode.list r.lineUse, r.debounceMs,
   r.positionSource, codeIn SafeAction.list r.safeAction] ++ le16 r.cpr ++ le16 r.ratedLoad ++
  [r.regPeriod, r.inposCount, r.tolerance, r.approachGain] ++ le16 r.kp ++ le16 r.ki ++ le32 r.imax ++
  le16 r.stallDuty ++ le16 r.stallSpeed ++ [r.stallWarn, r.stallStop, r.pollMs, 0]

/-- Section 3.1. -/
def ScanSlot.encode (r : ScanSlot) : List Byte := [byteOf r.input.val, byteOf r.average]

/-- Section 4.1: configuration. -/
def ConvConfig.encode (r : ConvConfig) : List Byte :=
  [codeIn SourceKind.list r.sourceKind, r.sourceIndex, r.sourceField, codeIn ConvMode.list r.mode] ++
  le16 r.offset ++ le16 r.gain ++ [byteOf r.filterShift, byteOf r.tripCount] ++ le32 r.maxChange ++
  le32 r.low ++ le32 r.high ++ le16 r.hysteresis ++ [codeIn Window.list r.window, flagByte r.railCheck]

/-- Section 4.1: configuration, then image. -/
def ConvEntry.encode (r : ConvEntry) : List Byte :=
  r.cfg.encode ++ le32 r.value ++ [codeIn ConvStatus.list r.status, codeIn Alarm.list r.alarm] ++
  le16 r.updateCount ++ le16 r.stamp

/-- Section 9.1. -/
def Reaction.encode (r : Reaction) : List Byte :=
  [flagByte r.enabled, flagByte r.always, codeIn EventKind.list r.triggerKind, r.triggerIndex, r.triggerDetail,
   flagByte r.level, codeIn ActionKind.list r.actionKind, r.actionTarget] ++ le32 r.arg0 ++ le32 r.arg1 ++
  le16 r.arg2 ++ le16 r.hitCount

/-- Section 6.1. -/
def Mark.encode (r : Mark) : List Byte :=
  [flagByte r.enabled, flagByte r.isOn] ++ le32 r.markA ++ le32 r.markB ++ le32 r.step

/-- Section 7.1. -/
def BudgetRow.encode (r : BudgetRow) : List Byte := flagByte r.valid :: le16 r.minMv ++ le16 r.ceiling

/-- Section 10.1: the eight items in full. -/
def Report.encode (r : Report) : List Byte :=
  flagByte r.enabled :: le16 r.periodMs ++ le16 r.minInterval ++ le32 r.changeDelta ++ [byteOf r.itemCount] ++
  r.items.toList.flatMap (fun i => [codeIn ItemKind.list i.kind, i.index])

/-- Section 8.3.1. -/
def Clip.encode (r : Clip) : List Byte := le16 r.start ++ le16 r.length ++ le16 r.rate ++ [flagByte r.valid]

/-- Section 2.1: field_count, the number of declared fields. -/
def Port.fieldCount (p : Port) : Nat := p.formats.length

/-- Section 2.1: formats and fields beyond field_count read 0. -/
def Port.encode (p : Port) (service : Bool) : List Byte :=
  [codeIn PortState.list p.state, codeIn FaultReason.list p.fault, orNone p.profile, p.cls, p.variant,
   byteOf p.fieldCount] ++ (p.formats.map (codeIn Format.list) ++ List.replicate 6 0).take 6 ++
  [p.minPoll, byteOf p.missed, flagByte service, flagByte p.forward] ++ p.fields.toList.flatMap le32

/-- Section 5.1. -/
def Motor.encode (m : Motor) : List Byte :=
  [codeIn MotorMode.list m.mode, codeIn Operation.list m.operation, flagByte m.notify,
   codeIn EndAction.list m.endAction, codeIn Outcome.list m.outcome] ++ le32 m.position ++ le32 m.prevPosition ++
  le16 (BitVec.ofInt 16 m.speed) ++ le16 (BitVec.ofInt 16 m.targetSpeed) ++ le32 m.targetPosition ++
  le16 (halfOf m.vmax) ++ le16 m.runEnd ++ [byteOf m.followEntry.val] ++ le16 m.followGain ++
  le32 (BitVec.ofInt 32 m.integral) ++ le16 (BitVec.ofInt 16 m.dutyRequest) ++
  le16 (BitVec.ofInt 16 m.dutyGrant) ++ le16 (halfOf m.allowance) ++
  [byteOf m.stallCount, flagByte m.stallEpisode, byteOf m.inposCount]

/-- Section 7.2. -/
def BudgetRecord.encode (r : BudgetRecord) : List Byte :=
  codeIn BudgetState.list r.state :: le16 (halfOf r.ceiling) ++ [orNone r.row, flagByte r.batteryValid] ++
  le32 (BitVec.ofInt 32 r.batteryMv) ++ le16 (halfOf r.motorDemand) ++ le16 (halfOf r.soundDemand) ++
  [byteOf r.soundVolume] ++ le16 (halfOf r.share) ++ le16 (halfOf r.scale) ++
  [byteOf r.soundGrant, byteOf r.soundAllowance, byteOf r.recovery] ++ le16 r.windowCount

/-- Section 8.1. -/
def Sound.encode (r : Sound) : List Byte :=
  flagByte r.tonePlaying :: le16 (halfOf r.note.pitch) ++
  [codeIn Waveform.list r.note.waveform, byteOf r.note.level] ++ le16 (halfOf r.noteRemaining) ++
  [byteOf r.queue.length, flagByte r.clipPlaying, byteOf r.clipIndex.val] ++
  le16 (halfOf (r.clipPos / 65536)) ++
  [byteOf r.playsLeft, byteOf r.clipLevel, byteOf r.master, byteOf r.granted, byteOf r.allowance,
   byteOf r.effective]

/-- R17: the LINK STATE record as it stands. -/
def State.linkRecord (s : State) : List Byte :=
  [codeIn LinkState.list s.link.state, s.link.strap.zeroExtend 8, codeIn ResetCause.list s.link.cause,
   byteOf s.link.intake.length, byteOf s.link.places.length,
   byteOf (s.link.places.countP (fun p => p.answer.isNone))] ++
  [s.link.framesGood, s.link.lengthErrors, s.link.checkErrors, s.link.gapErrors, s.link.byteErrors,
   s.link.intakeDrops, s.link.silenceCount, s.bus.noticesDropped, s.failures, s.blocked, s.bus.stamp].flatMap le16

/-- Section 3.2. -/
def RawImage.encode (r : RawImage) (mode : ScanMode) : List Byte :=
  le16 r.raw ++ [byteOf r.conversions] ++ le16 r.sequence ++ le16 r.stamp ++
  [byteOf r.input.val, codeIn SlotState.list r.slotState, codeIn ScanMode.list mode]

/-- Record i of a table of n, encoded. -/
def recordAt (v : Vector α n) (i : Nat) (f : α → List Byte) : List Byte := ((v[i]?).map f).getD []

/-- R10: record i of a table, as it stands. -/
def State.record (s : State) (t : Table) (i : Nat) : List Byte :=
  match t with
  | .settings => s.settings.encode
  | .profiles => recordAt s.profiles i Profile.encode
  | .scanList => recordAt s.scan.slots i ScanSlot.encode
  | .conversion => recordAt s.conv i ConvEntry.encode
  | .reactions => recordAt s.reactions i Reaction.encode
  | .marks => recordAt s.marks i Mark.encode
  | .budget => recordAt s.budget.rows i BudgetRow.encode
  | .reports => recordAt s.reports i Report.encode
  | .clips => recordAt s.sound.clips i Clip.encode
  | .sampleStore => [Memory.read s.sound.store i]
  | .portState => recordAt s.ports i (fun p => p.encode (s.service.map Fin.val == some i))
  | .motorState => recordAt s.motors i Motor.encode
  | .budgetState => s.budget.record.encode
  | .soundState => s.sound.encode
  | .linkState => s.linkRecord
  | .rawImages => recordAt s.scan.images i (fun r => r.encode s.scan.mode)

/-- R11: the identity record. -/
def State.identity (s : State) : List Byte :=
  [Config.vendor, Config.part, Config.revision, s.link.strap.zeroExtend 8, codeIn ResetCause.list s.link.cause,
   byteOf Table.list.length] ++ Table.list.flatMap (fun t => t.id :: le16 (halfOf t.records))

/-! ## Upstream payloads -/

/-- R165: kind code and body of a notice. -/
def NoticeBody.encode : NoticeBody → Byte × List Byte
  | .started cause strap => (0, [codeIn ResetCause.list cause, strap.zeroExtend 8])
  | .portChange port state fault profile cls variant =>
    (1, [portByte port, codeIn PortState.list state, codeIn FaultReason.list fault, orNone profile, cls, variant])
  | .runEnd channel operation outcome position =>
    (2, [portByte channel, codeIn Operation.list operation, codeIn Outcome.list outcome] ++ le32 position)
  | .reaction entry e =>
    (3, [byteOf entry.val, codeIn EventKind.list e.kind, e.index, e.detail, byteOf e.depth] ++ le16 e.stamp ++
      [flagByte e.directed.isSome])
  | .budgetChange state previous ceiling row valid mv scale =>
    (4, [codeIn BudgetState.list state, codeIn BudgetState.list previous] ++ le16 (halfOf ceiling) ++
      [orNone row, flagByte valid] ++ le32 (BitVec.ofInt 32 mv) ++ le16 (halfOf scale))
  | .queueLow count mark => (5, [count, mark])
  | .intakeOverflow drops => (6, le16 drops)
  | .eventOverflow kind index => (7, [codeIn EventKind.list kind, index])
  | .depthLimit kind index depth entry =>
    (8, [codeIn EventKind.list kind, index, byteOf depth, byteOf entry.val])

/-- R165: kind, dropped flag, stamp, body. -/
def Notice.payload (n : Notice) : List Byte :=
  [n.body.encode.1, flagByte n.dropped] ++ le16 n.stamp ++ n.body.encode.2

/-- R161: an item of a REPORT. -/
def ReportItem.encode (i : ReportItem) : List Byte := [codeIn ItemKind.list i.kind, i.status] ++ le32 i.value

/-- R164: the payload of a REPORT or PASS. -/
def ReportRecord.payload : ReportRecord → List Byte
  | .report entry stamp skipped items =>
    byteOf entry.val :: le16 stamp ++ le16 skipped ++ items.flatMap ReportItem.encode
  | .pass port skipped stamp data => portByte port :: le16 skipped ++ le16 stamp ++ data

/-- Section 1.10.2: answered kind, status, result. -/
def Answer.payload (a : Answer) (kind : Byte) : List Byte := [kind, codeIn Status.list a.status] ++ a.result

/-- R19, R20: the bytes of the frame the transmitter builds; only an ANSWER carries a tag. -/
def Sending.wire : Sending → List Byte
  | .answer _ kind tag a => frameBytes 0x80 tag (a.payload kind)
  | .notice n => frameBytes 0xA0 0 n.payload
  | .report (.report e st sk is) => frameBytes 0x90 0 (ReportRecord.report e st sk is).payload
  | .report (.pass p sk st d) => frameBytes 0xB0 0 (ReportRecord.pass p sk st d).payload

end Sys2Proof.Machine
end

