-- ==== Sys2Proof/Machine/Reports.lean ====
section
/-! DEFINITION. The report unit: items (R161), due entries (R162, R163), the report queue (R164) and its two
timer expiries. -/

namespace Sys2Proof.Machine

/-- The word of an integer that a report carries (s32). -/
def wordOfInt (i : Int) : Word := BitVec.ofInt 32 i

/-- R161: status byte and value of an item, read as its owner stands. An index outside the kind's range is
refused when the entry is written (R160), so it reads as all zero only in an entry no write makes. -/
def State.readItem (s : State) (item : Item) : Byte × Word :=
  let i := item.index.toNat
  let port (f : PortNo → Byte × Word) : Byte × Word := if h : i < 6 then f ⟨i, h⟩ else (0, 0)
  match item.kind with
  | .conv => if h : i < 32 then (codeIn ConvStatus.list s.conv[i].status, s.conv[i].value) else (0, 0)
  | .position => port fun n => (flagByte (s.motorProfile n).isSome, s.motors[n].position)
  | .speed => port fun n => (flagByte (s.motorProfile n).isSome, wordOfInt s.motors[n].speed)
  | .duty => port fun n => (flagByte (s.motorProfile n).isSome, wordOfInt s.motors[n].dutyGrant)
  | .mode => port fun n =>
    (codeIn MotorMode.list s.motors[n].mode, (codeIn Outcome.list s.motors[n].outcome).zeroExtend 32)
  | .port => port fun n => (codeIn PortState.list s.ports[n].state, s.ports[n].cls.zeroExtend 32)
  | .budget => (codeIn BudgetState.list s.budget.record.state, BitVec.ofNat 32 s.budget.record.ceiling)
  | .sound => (flagByte s.sound.tonePlaying + 2 * flagByte s.sound.clipPlaying, BitVec.ofNat 32 s.sound.effective)
  | .lines => port fun n =>
    (flagByte s.lines[n].shown1 + 2 * flagByte s.lines[n].shown2, s.lines[n].shownErrors.zeroExtend 32)
  | .raw =>
    if h : i < 16 then (codeIn SlotState.list s.scan.images[i].slotState, s.scan.images[i].raw.zeroExtend 32)
    else (0, 0)

/-- R161: an assembled item. -/
def State.assembleItem (s : State) (item : Item) : ReportItem :=
  { kind := item.kind, status := (s.readItem item).1, value := (s.readItem item).2 }

/-- The first item_count items of an entry. -/
def Report.carried (r : Report) : List Item := r.items.toList.take r.itemCount

/-- R164: one entry's record waits in the queue. -/
def ReportRecord.isReportOf (i : Fin 12) : ReportRecord → Bool
  | .report e _ _ _ => e == i
  | .pass .. => false

/-- R164: one port's PASS waits in the queue. -/
def ReportRecord.isPassOf (n : PortNo) : ReportRecord → Bool
  | .report .. => false
  | .pass p _ _ _ => p == n

/-- R164: a record of the entry takes fresh stamp and items and keeps its place and its skipped value. -/
def ReportRecord.refreshReport (i : Fin 12) (stamp : Half) (items : List ReportItem) : ReportRecord → ReportRecord
  | .report e st sk is => if e = i then .report e stamp sk items else .report e st sk is
  | .pass p sk st d => .pass p sk st d

/-- R164: a PASS of the port takes the new payload and keeps its place and its skipped value. -/
def ReportRecord.refreshPass (n : PortNo) (stamp : Half) (data : List Byte) : ReportRecord → ReportRecord
  | .report e st sk is => .report e st sk is
  | .pass p sk st d => if p = n then .pass p sk stamp data else .pass p sk st d

/-- R164: a REPORT offered by a due entry replaces, is appended, or is counted as skipped. -/
def State.offerReport (s : State) (i : Fin 12) (items : List ReportItem) : State :=
  let r := s.reports[i]
  if s.reportQueue.any (ReportRecord.isReportOf i) then
    { s with reportQueue := s.reportQueue.map (ReportRecord.refreshReport i s.bus.stamp items) }
  else if s.reportQueue.length < Config.reportQueue then
    State.setReport { s with reportQueue := s.reportQueue ++ [.report i s.bus.stamp r.skipped items] } i
      { r with skipped := 0 }
  else s.setReport i { r with skipped := satInc r.skipped }

/-- R164: a PASS offered by the port manager. -/
def State.offerPass (s : State) (n : PortNo) (data : List Byte) : State :=
  if s.reportQueue.any (ReportRecord.isPassOf n) then
    { s with reportQueue := s.reportQueue.map (ReportRecord.refreshPass n s.bus.stamp data) }
  else if s.reportQueue.length < Config.reportQueue then
    { s with reportQueue := s.reportQueue ++ [.pass n s.passSkipped[n] s.bus.stamp data],
             passSkipped := s.passSkipped.set n 0 }
  else { s with passSkipped := s.passSkipped.set n (satInc s.passSkipped[n]) }

/-- R162: the last-sent values an assembled report leaves, one for each carried CONV item. -/
def State.sentValues (s : State) (r : Report) : Vector (Option Int) 8 :=
  Vector.ofFn fun k =>
    if k.val < r.itemCount ∧ r.items[k].kind = .conv then some (s.readItem r.items[k]).2.toInt
    else r.lastSent[k]

/-- A timer of this length; length 0 leaves it stopped. -/
def timerOf (ms : Nat) : Timer := if ms = 0 then none else some ms

/-- R162: a due entry is assembled at once and offered. -/
def State.reportDue (s : State) (i : Fin 12) : State :=
  let r := s.reports[i]
  let items := r.carried.map s.assembleItem
  let s := s.setReport i { r with lastSent := s.sentValues r, pending := false,
                                  minTimer := timerOf r.minInterval.toNat }
  s.offerReport i items

/-- R162: one of the entry's carried CONV items names this CONVERSION entry. -/
def Report.names (r : Report) (e : Fin 32) : Bool :=
  r.carried.any (fun it => it.kind == .conv && it.index.toNat == e.val)

/-- R162: a last-sent value is absent, or an image value differs from it by at least change_delta. -/
def State.reportChanged (s : State) (r : Report) : Bool :=
  (List.finRange 8).any fun k =>
    decide (k.val < r.itemCount) && r.items[k].kind == .conv &&
      match r.lastSent[k] with
      | none => true
      | some v => decide (|(s.readItem r.items[k]).2.toInt - v| ≥ (r.changeDelta.toNat : Int))

/-- R162: an on-change entry checks itself after an evaluation of CONVERSION entry e that ended VALID. -/
def State.reportCheck (e : Fin 32) (s : State) (i : Fin 12) : State :=
  let r := s.reports[i]
  if r.enabled && r.periodMs == 0 && r.names e && s.reportChanged r then
    match r.minTimer with
    | none => s.reportDue i
    | some _ => s.setReport i { r with pending := true }
  else s

/-- R162: every entry's check after an evaluation of e. -/
def State.reportChecks (s : State) (e : Fin 32) : State := (List.finRange 12).foldl (State.reportCheck e) s

/-- REPORT_PERIOD_EXPIRY (R162): the entry becomes due and its period timer restarts at period_ms. -/
def execReportPeriodExpiry (i : Fin 12) (s : State) : Host.Outcome State Fault Refusal :=
  match s.reports[i].periodTimer with
  | none => .next s
  | some _ =>
    settled ((s.setReport i { s.reports[i] with periodTimer := some s.reports[i].periodMs.toNat }).reportDue i)

/-- MIN_INTERVAL_EXPIRY (R162): a pending entry becomes due; otherwise the timer stops. -/
def execMinIntervalExpiry (i : Fin 12) (s : State) : Host.Outcome State Fault Refusal :=
  match s.reports[i].minTimer with
  | none => .next s
  | some _ =>
    if s.reports[i].pending then settled (s.reportDue i)
    else .next (s.setReport i { s.reports[i] with minTimer := none })

end Sys2Proof.Machine
end

