-- ==== Sys2Proof/Machine/Conversion.lean ====
section
/-! DEFINITION. The conversion table: what a source lies on (section 4.2), the stages (R68–R75), chains (R67,
R79), statuses given by ports (R76, R77), and updates of a source (R64, R65). -/

namespace Sys2Proof.Machine

/-! ## Sources -/

/-- Section 4.2: converter inputs 0–5 lie on the port of that number, 6 and 7 on none. -/
def inputPort (i : Fin 8) : Option PortNo := if h : i.val < 6 then some ⟨i.val, h⟩ else none

/-- Section 4.2: the port the source of a kind other than ENTRY lies on; a slot lies on its present input's. -/
def State.sourcePort (s : State) (c : ConvConfig) : Option PortNo :=
  let i := c.sourceIndex.toNat
  match c.sourceKind with
  | .none | .entry => none
  | .slot => if h : i < 16 then inputPort s.scan.slots[i].input else none
  | .deviceField | .encoder | .pulseHigh | .pulsePeriod | .pulseDuty | .motorSpeed =>
    if h : i < 6 then some ⟨i, h⟩ else none

/-- R64, case 4: a BOUND port supplies what the kind reads. -/
def State.supplies (s : State) (c : ConvConfig) (n : PortNo) : Bool :=
  match c.sourceKind with
  | .none | .entry | .slot => true
  | .deviceField => s.ports[n].smart && decide (c.sourceField.toNat < s.ports[n].fieldCount)
  | .encoder => s.lines[n].mode == .quadrature
  | .pulseHigh | .pulsePeriod | .pulseDuty => s.lines[n].mode == .pulse
  | .motorSpeed => (s.motorProfile n).isSome

/-- R64: the status an entry takes at an update of its source in place of an evaluation, if any. The cases decide
in their order also after a FAULT: an update that comes while the port is in PROBING or UNKNOWN gives NO_SOURCE, and
an entry that stays STALE to the port's next binding (R35, R76) is one that no update reached (log 37). -/
def State.sourceCheck (s : State) (c : ConvConfig) : Option ConvStatus :=
  match s.sourcePort c with
  | none => none
  | some n =>
    if s.ports[n].state = .fault ∨ s.inService n then some .stale
    else if s.ports[n].state ≠ .bound then some .noSource
    else if s.supplies c n then none
    else some .noSource

/-! ## Stages -/

/-- R68: a rail sample. -/
def railSample (x : Int) : Bool := decide (x ≤ 8) || decide (x ≥ 4087)

/-- R69: saturation to the s32 range. -/
def saturate32 (y : Int) : Int := clampInt (-2147483648) 2147483647 y

/-- R69: scaling. -/
def ConvConfig.scale (c : ConvConfig) (x : Int) : Int :=
  match c.mode with
  | .raw => saturate32 x
  | .linear | .filtered => saturate32 (((x + c.offset.toInt) * c.gain.toInt).tdiv 256)

/-- R70: the change limit. -/
def ConvConfig.limit (c : ConvConfig) (prev : Option Int) (y : Int) : Int :=
  match prev with
  | none => y
  | some p =>
    if 0 < c.maxChange.toNat ∧ |y - p| > (c.maxChange.toNat : Int) then
      if y > p then p + c.maxChange.toNat else p - c.maxChange.toNat
    else y

/-- R71: the filter. -/
def ConvConfig.filter (c : ConvConfig) (prev : Option Int) (y : Int) : Int :=
  match c.mode, prev with
  | .filtered, some p => p + (y - p).tdiv (2 ^ c.filterShift)
  | _, _ => y

/-- R73: the HIGH side is watched. -/
def Window.watchesHigh (w : Window) : Bool := w == .high || w == .both

/-- R73: the LOW side is watched. -/
def Window.watchesLow (w : Window) : Bool := w == .low || w == .both

/-- An alarm state, its pending count, and the events posted on the way to it. -/
abbrev AlarmStep := Alarm × Nat × List (EventKind × Byte)

/-- R73: the count of a pending HIGH reaches c: entry to HIGH, or PEND_HIGH. -/
def ConvConfig.countHigh (c : ConvConfig) (n : Nat) : AlarmStep :=
  if n ≥ c.tripCount then (.high, 0, [(.alarmHigh, 0)]) else (.pendHigh, n, [])

/-- R73: the mirror, for LOW. -/
def ConvConfig.countLow (c : ConvConfig) (n : Nat) : AlarmStep :=
  if n ≥ c.tripCount then (.low, 0, [(.alarmLow, 0)]) else (.pendLow, n, [])

/-- R73: the tests of NORMAL. -/
def ConvConfig.normalTests (c : ConvConfig) (v : Int) : AlarmStep :=
  if c.window.watchesHigh ∧ v > c.high.toInt then c.countHigh 1
  else if c.window.watchesLow ∧ v < c.low.toInt then c.countLow 1
  else (.normal, 0, [])

/-- R74: a cleared alarm posts ALARM_CLEAR, and the NORMAL tests follow. -/
def ConvConfig.clearAlarm (c : ConvConfig) (detail : Byte) (v : Int) : AlarmStep :=
  let r := c.normalTests v
  (r.1, r.2.1, (.alarmClear, detail) :: r.2.2)

/-- R73, R74: the alarm window stage. -/
def ConvConfig.alarmStage (c : ConvConfig) (alarm : Alarm) (pending : Nat) (v : Int) : AlarmStep :=
  if c.window = .off then (alarm, pending, [])
  else match alarm with
    | .normal => c.normalTests v
    | .pendHigh => if v > c.high.toInt then c.countHigh (pending + 1) else c.normalTests v
    | .pendLow => if v < c.low.toInt then c.countLow (pending + 1) else c.normalTests v
    | .high => if v < c.high.toInt - c.hysteresis.toNat then c.clearAlarm 1 v else (.high, pending, [])
    | .low => if v > c.low.toInt + c.hysteresis.toNat then c.clearAlarm 2 v else (.low, pending, [])

/-- R69–R74: scaling, change limit, filter, alarm window and image. -/
def ConvEntry.stages (e : ConvEntry) (x : Int) (stamp : Half) : ConvEntry × List (EventKind × Byte) :=
  let y := e.cfg.limit e.prevIn (e.cfg.scale x)
  let v := e.cfg.filter e.prevOut y
  let a := e.cfg.alarmStage e.alarm e.pending v
  ({ e with prevIn := some y, prevOut := some v, alarm := a.1, pending := a.2.1, value := wordOfInt v,
            status := .valid, updateCount := e.updateCount + 1, stamp := stamp }, a.2.2)

/-- R68, then the other stages: the entry after an evaluation, and its events. The evaluation ended VALID when
the status is VALID. -/
def ConvEntry.evaluate (e : ConvEntry) (x : Int) (stamp : Half) : ConvEntry × List (EventKind × Byte) :=
  if e.cfg.railCheck then
    if railSample x then
      if e.status = .rail then (e, [])
      else if e.railRun + 1 ≥ e.cfg.tripCount then
        ({ e with status := .rail, railRun := e.cfg.tripCount }, [(.railFault, 0)])
      else ConvEntry.stages { e with railRun := e.railRun + 1 } x stamp
    else ConvEntry.stages { e with railRun := 0 } x stamp
  else e.stages x stamp

/-! ## Chains -/

/-- An entry's direct source entry (kind ENTRY). -/
def ConvEntry.dependsOn (e : ConvEntry) (i : Fin 32) : Bool :=
  e.cfg.sourceKind == .entry && e.cfg.sourceIndex.toNat == i.val

/-- R67: the direct dependents of an entry, in ascending index order. -/
def State.dependents (s : State) (i : Fin 32) : List (Fin 32) :=
  (List.finRange 32).filter (fun j => s.conv[j].dependsOn i)

/-- R79: the chain below an entry, its dependents, their dependents, and so on (sources have lower indices). -/
def State.chainBelow (s : State) (i : Fin 32) : List (Fin 32) :=
  (List.finRange 32).foldl
    (fun found j => if (i :: found).any (fun k => s.conv[j].dependsOn k) then found ++ [j] else found) []

/-- R79: a fresh start. -/
def ConvEntry.freshStart (e : ConvEntry) : ConvEntry :=
  { e with prevIn := none, prevOut := none, railRun := 0, pending := 0,
           alarm := if e.alarm = .pendHigh ∨ e.alarm = .pendLow then .normal else e.alarm }

/-- R64, R79: an entry takes a status; one already held is not taken again. -/
def ConvEntry.take (e : ConvEntry) (st : ConvStatus) : ConvEntry :=
  if e.status = st then e
  else if st = .noSource then { e.freshStart with status := .noSource }
  else { e with status := st }

/-- R79: every entry in the chain below takes NO_SOURCE, but for those kept (R63: written by the same write). -/
def State.noSourceBelow (s : State) (i : Fin 32) (kept : List (Fin 32)) : State :=
  ((s.chainBelow i).filter (fun j => !kept.contains j)).foldl
    (fun s j => s.setConv j (s.conv[j].take .noSource)) s

/-- R64, R76, R77: an entry takes a status without an evaluation; leaving VALID, its chain follows (R79). -/
def State.takeStatus (s : State) (i : Fin 32) (st : ConvStatus) : State :=
  let e := s.conv[i]
  let t := s.setConv i (e.take st)
  if e.status = .valid ∧ st ≠ .valid then t.noSourceBelow i [] else t

/-- R67: evaluates an entry and, when it ends VALID, its dependents depth-first in index order; otherwise they
take NO_SOURCE. Answers the entries whose evaluation ended VALID, in order. `fuel` bounds the chain's depth,
which is below 32 because a source has a lower index (R62). -/
def State.evaluateChain : Nat → State → Fin 32 → Int → State × List (Fin 32)
  | 0, s, _, _ => (s, [])
  | fuel + 1, s, i, x =>
    let r := s.conv[i].evaluate x s.bus.stamp
    let t := { s.setConv i r.1 with bus := s.bus.postAll (BitVec.ofNat 8 i.val) r.2 }
    if r.1.status = .valid then
      (t.dependents i).foldl
        (fun acc j =>
          let next := State.evaluateChain fuel acc.1 j acc.1.conv[i].value.toInt
          (next.1, acc.2 ++ next.2)) (t, [i])
    else (t.noSourceBelow i [], [])

/-- R64: one entry at an update of its source. -/
def State.updateEntry (acc : State × List (Fin 32)) (i : Fin 32) (x : Int) : State × List (Fin 32) :=
  match acc.1.sourceCheck acc.1.conv[i].cfg with
  | some st => (acc.1.takeStatus i st, acc.2)
  | none =>
    let r := State.evaluateChain 32 acc.1 i x
    (r.1, acc.2 ++ r.2)

/-- R65: an update of a source reaches the table: every entry that reads it, in ascending order (log 12), each
with its chain; `reads` gives the raw value an entry takes from the update. On-change report entries check
themselves for each evaluation that ended VALID, after the chain, which is taken whole (R67, R80, R162, log 13). -/
def State.sourceUpdate (s : State) (reads : ConvConfig → Option Int) : State :=
  let r := (List.finRange 32).foldl
    (fun acc i => match reads s.conv[i].cfg with
      | none => acc
      | some x => State.updateEntry acc i x) (s, [])
  r.2.foldl State.reportChecks r.1

/-- R76, R77: entries of a kind other than ENTRY over a port take a status at once, unless EMPTY. -/
def State.portStatus (s : State) (n : PortNo) (st : ConvStatus) : State :=
  (List.finRange 32).foldl
    (fun s i => if s.sourcePort s.conv[i].cfg = some n ∧ s.conv[i].status ≠ .empty then s.takeStatus i st else s) s

/-! ## The updates of section 4.2 -/

/-- An entry of a kind that reads index n takes x. -/
def readsIndex (kind : SourceKind) (n : Nat) (x : Int) (c : ConvConfig) : Option Int :=
  if c.sourceKind = kind ∧ c.sourceIndex.toNat = n then some x else none

/-- A completed slot hands its raw value on (R51). -/
def State.slotUpdate (s : State) (slot : Fin 16) : State :=
  s.sourceUpdate (readsIndex .slot slot.val s.scan.images[slot].raw.toNat)

/-- A good DATA reply evaluates the device-field entries of the port (R33). -/
def State.fieldUpdate (s : State) (n : PortNo) : State :=
  s.sourceUpdate fun c =>
    if c.sourceKind = .deviceField ∧ c.sourceIndex.toNat = n.val then
      some (if h : c.sourceField.toNat < 6 then s.ports[n].fields[c.sourceField.toNat].toInt else 0)
    else none

/-- R66: ENCODER entries follow the count at its first change in each millisecond. -/
def State.encoderUpdate (s : State) (n : PortNo) : State :=
  if s.encStamp[n] = some s.bus.stamp then s
  else
    State.sourceUpdate { s with encStamp := s.encStamp.set n (some s.bus.stamp) }
      (readsIndex .encoder n.val s.lines[n].count.toInt)

/-- A pulse measurement evaluates the three PULSE kinds of the port (R59, R60). -/
def State.pulseUpdate (s : State) (n : PortNo) : State :=
  s.sourceUpdate fun c =>
    if c.sourceIndex.toNat ≠ n.val then none
    else match c.sourceKind with
      | .pulseHigh => some s.lines[n].high.toNat
      | .pulsePeriod => some s.lines[n].period.toNat
      | .pulseDuty => some s.lines[n].duty
      | .none | .slot | .deviceField | .encoder | .entry | .motorSpeed => none

/-- A regulation hands the measured speed on (R98). -/
def State.speedUpdate (s : State) (n : PortNo) : State :=
  s.sourceUpdate (readsIndex .motorSpeed n.val s.motors[n].speed)

end Sys2Proof.Machine
end

