-- ==== Sys2Proof/Machine/Marks.lean ====
section
/-! DEFINITION. Position marks: crossing detection (R112–R114), position updates of a unit (R111) and
MARK_SET (R116). -/

namespace Sys2Proof.Machine

/-- R112: a mark at wrapping distance dm from p0 is crossed by an update of distance d. -/
def crossed (d dm : Int) : Bool := (decide (0 < d) && decide (0 < dm) && decide (dm ≤ d)) ||
  (decide (d < 0) && decide (d ≤ dm) && decide (dm < 0))

/-- R113: the direction of an update as an event detail: 1 moving up, 2 moving down. -/
def directionCode (d : Int) : Byte := if 0 < d then 1 else 2

/-- R113: a mark moved by step in the update's direction, modulo 2³². -/
def Mark.moved (m : Mark) (d : Int) (mark : Word) : Word := if 0 < d then mark + m.step else mark - m.step

/-- R113: a crossing toggles the state and posts the mark's event and MARK_ON or MARK_OFF. -/
def Mark.toggled (m : Mark) (which : EventKind) (d : Int) : Mark × List (EventKind × Byte) :=
  ({ m with isOn := !m.isOn },
   [(which, directionCode d), (if m.isOn then .markOff else .markOn, directionCode d)])

/-- R113: a crossing of mark_a moves mark_b. -/
def Mark.crossA (m : Mark) (d : Int) : Mark × List (EventKind × Byte) :=
  let r := m.toggled .markA d
  ({ r.1 with markB := m.moved d m.markB }, r.2)

/-- R113: a crossing of mark_b moves mark_a. -/
def Mark.crossB (m : Mark) (d : Int) : Mark × List (EventKind × Byte) :=
  let r := m.toggled .markB d
  ({ r.1 with markA := m.moved d m.markA }, r.2)

/-- R112–R114: one position update from p0 to p1. With both marks crossed the nearer to p0 is taken first,
mark_a at equal distances, and the second only with step 0. -/
def Mark.update (m : Mark) (p0 p1 : Word) : Mark × List (EventKind × Byte) :=
  let d := wrapDiff p1 p0
  let da := wrapDiff m.markA p0
  let db := wrapDiff m.markB p0
  match crossed d da, crossed d db with
  | false, false => (m, [])
  | true, false => m.crossA d
  | false, true => m.crossB d
  | true, true =>
    if |da| ≤ |db| then
      let r := m.crossA d
      if m.step = 0 then let r2 := r.1.crossB d; (r2.1, r.2 ++ r2.2) else r
    else
      let r := m.crossB d
      if m.step = 0 then let r2 := r.1.crossA d; (r2.1, r.2 ++ r2.2) else r

/-- R111: the unit of a motor-bound port, enabled, takes a position update. -/
def State.markUpdate (s : State) (n : PortNo) (p0 p1 : Word) : State :=
  if s.marks[n].enabled ∧ (s.motorProfile n).isSome then
    let r := s.marks[n].update p0 p1
    { s.setMark n r.1 with bus := s.bus.postAll (portByte n) r.2 }
  else s

/-- R116: MARK_SET; none where arg0 is neither 0 nor 1, which is a failure. -/
def State.markSet (s : State) (n : PortNo) (arg0 : Int) : Option State :=
  if arg0 = 0 ∨ arg0 = 1 then
    if s.marks[n].isOn = decide (arg0 = 1) then some s
    else some ((s.setMark n { s.marks[n] with isOn := decide (arg0 = 1) }).post
      (if arg0 = 1 then .markOn else .markOff) (portByte n) 0)
  else none

end Sys2Proof.Machine
end

