-- ==== Sys2Proof/Machine/Motors.lean ====
section
/-! DEFINITION. The motor channels: operations and their ends (R84–R86), the motor operations (R87–R95),
position (R96), regulation (R97–R104), stops from outside (R105, R106), binding and its loss (R107). -/

namespace Sys2Proof.Machine

/-! ## Operations -/

/-- R85: what the end of an operation clears. -/
def Motor.cleared (m : Motor) : Motor :=
  { m with integral := 0, stallCount := 0, inposCount := 0, stallEpisode := false, targetSpeed := 0,
           runForTimer := none }

/-- R85: an operation ends with an outcome: it posts RUN_END, queues a RUN_END notice if notify is set, and
clears the regulator. A channel in COAST or BRAKE has no operation to end. -/
def State.endOperation (s : State) (n : PortNo) (o : Outcome) : State :=
  let m := s.motors[n]
  if m.mode.driving then
    let t := (s.setMotor n { m.cleared with outcome := o }).post .runEnd (portByte n) (codeIn Outcome.list o)
    if m.notify then t.notify (.runEnd n m.operation o m.position) else t
  else s

/-- R86, R88: a channel in COAST or BRAKE, d and g at 0. -/
def Motor.stopped (m : Motor) (mode : MotorMode) : Motor :=
  { m with mode := mode, dutyRequest := 0, dutyGrant := 0 }

/-- The mode a safe action enters (R86). -/
def SafeAction.mode : SafeAction → MotorMode
  | .coast => .coast
  | .brake => .brake

/-- Ends an operation and enters COAST or BRAKE (R86, R88). -/
def State.stopMotor (s : State) (n : PortNo) (o : Outcome) (mode : MotorMode) : State :=
  let t := s.endOperation n o
  t.setMotor n (t.motors[n].stopped mode)

/-- The safe action of the profile a port is bound to (R86). -/
def State.safeMode (s : State) (n : PortNo) : MotorMode :=
  match s.boundProfile n with
  | some p => p.safeAction.mode
  | none => .coast

/-- R86: an operation ends and the safe action is applied; a channel in COAST or BRAKE stays as it is. -/
def State.safeEnd (s : State) (n : PortNo) (o : Outcome) : State :=
  if s.motors[n].mode.driving then s.stopMotor n o (s.safeMode n) else s

/-- R84: an operation of this kind begins; d and g stay as they stand. -/
def Motor.begin (m : Motor) (mode : MotorMode) (op : Operation) (notify : Bool) : Motor :=
  { m with mode := mode, operation := op, notify := notify, integral := 0, stallCount := 0, inposCount := 0,
           stallEpisode := false }

/-- R86, R93: a HOLD at a target. -/
def Motor.beginHold (m : Motor) (notify : Bool) (target : Word) : Motor :=
  { m.begin .hold .hold notify with targetPosition := target, vmax := 200 }

/-- R86: an operation ends DONE and the end action is applied; `target` is the target of a HOLD that follows. -/
def State.finishMotor (s : State) (n : PortNo) (target : Word) : State :=
  let m := s.motors[n]
  match m.endAction with
  | .coast => s.stopMotor n .done .coast
  | .brake => s.stopMotor n .done .brake
  | .hold =>
    let t := s.endOperation n .done
    t.setMotor n (t.motors[n].beginHold m.notify target)

/-! ## The motor operations (R87–R95) -/

/-- A motor operation with its arguments, of the link or of a reaction. -/
inductive MotorOp where
  | coast | brake
  | duty (duty : Int)
  | speed (speed : Int)
  | runTo (target : Word) (vmax : Nat) (endAction : EndAction)
  | runFor (speed : Int) (duration : Nat) (endAction : EndAction)
  | hold
  | follow (entry : Nat) (gain : Half)
  | setCount (value : Word)
  deriving DecidableEq, Repr

/-- The driving operations (R87, check 6). -/
def MotorOp.driving : MotorOp → Bool
  | .coast | .brake | .setCount _ => false
  | .duty _ | .speed _ | .runTo .. | .runFor .. | .hold | .follow .. => true

/-- R89–R92: a value of the operation lies outside its range and is clamped. -/
def MotorOp.clamped : MotorOp → Bool
  | .duty d => decide (clampInt (-1000) 1000 d ≠ d)
  | .speed v => decide (clampInt (-2000) 2000 v ≠ v)
  | .runTo _ vmax _ => decide (clampNat 20 2000 vmax ≠ vmax)
  | .runFor v t _ => decide (clampInt (-2000) 2000 v ≠ v ∨ clampNat 1 65535 t ≠ t)
  | .coast | .brake | .hold | .follow .. | .setCount _ => false

/-- R87, checks 3 to 6: the status that refuses an operation on a channel, if any. -/
def State.motorRefusal (s : State) (n : PortNo) (op : MotorOp) : Option Status :=
  let badEntry := match op with
    | .follow e _ => decide (e ≥ 32)
    | .coast | .brake | .duty _ | .speed _ | .runTo .. | .runFor .. | .hold | .setCount _ => false
  if badEntry then some .badIndex
  else match s.motorProfile n with
    | none => some .notMotor
    | some p =>
      match op with
      | .setCount _ =>
        if p.positionSource ≠ 255 then some .badIndex
        else if s.motors[n].mode.driving then some .inUse
        else none
      | .coast | .brake => none
      | .duty _ | .speed _ | .runTo .. | .runFor .. | .hold | .follow .. =>
        if s.budget.record.state = .brownout then some .brownout
        else if s.inService n then some .inUse
        else if s.link.state = .silent then some .inUse
        else none

/-- R84, R89–R94: the channel at the start of a driving operation, after a running one has ended. `stamp` is
the time stamp (R92). COAST, BRAKE and SET_COUNT begin nothing. -/
def Motor.start (m : Motor) (op : MotorOp) (notify : Bool) (stamp : Half) : Motor :=
  match op with
  | .coast | .brake | .setCount _ => m
  | .duty d =>
    let d := clampInt (-1000) 1000 d
    { m.begin .duty .duty notify with dutyRequest := d, dutyGrant := grantWithin d m.allowance, targetSpeed := 0 }
  | .speed v => { m.begin .speed .speed notify with targetSpeed := clampInt (-2000) 2000 v }
  | .runTo target vmax e =>
    { m.begin .runTo .runTo notify with targetPosition := target, vmax := clampNat 20 2000 vmax, endAction := e }
  | .runFor v t e =>
    let t := clampNat 1 65535 t
    { m.begin .runFor .runFor notify with
        targetSpeed := clampInt (-2000) 2000 v, endAction := e, runForTimer := some t, runEnd := stamp + halfOf t }
  | .hold => m.beginHold notify m.position
  | .follow e g => { m.begin .follow .follow notify with followEntry := Fin.ofNat 32 e, followGain := g }

/-- R88–R95: an operation that passed its checks is carried out. -/
def State.runMotorOp (s : State) (n : PortNo) (op : MotorOp) (notify : Bool) : State :=
  match op with
  | .coast => s.stopMotor n .stopped .coast
  | .brake => s.stopMotor n .stopped .brake
  | .setCount v =>
    (s.setMotor n { s.motors[n] with position := v, prevPosition := v }).setLines n { s.lines[n] with count := v }
  | .duty _ | .speed _ | .runTo .. | .runFor .. | .hold | .follow .. =>
    let t := s.endOperation n .superseded
    t.setMotor n (t.motors[n].start op notify t.bus.stamp)

/-- R87 from check 3 on, then the operation: the status, and the state. -/
def State.motorOp (s : State) (n : PortNo) (op : MotorOp) (notify : Bool) : Status × State :=
  match s.motorRefusal n op with
  | some st => (st, s)
  | none => (if op.clamped then .adjusted else .ok, s.runMotorOp n op notify)

/-! ## Position (R96) -/

/-- R58, R96: the channel of a quadrature motor takes the new count, and its mark unit tests the update. -/
def State.quadraturePosition (s : State) (n : PortNo) (p0 p1 : Word) : State :=
  match s.motorProfile n with
  | none => s
  | some p =>
    let t := if p.positionSource = 255 then s.setMotor n { s.motors[n] with position := p1 } else s
    t.markUpdate n p0 p1

/-- R33, R96: the channel of a device-field motor takes the named field; the first after binding sets position
and prev_position and is no update, and an unchanged field is none either. -/
def State.fieldPosition (s : State) (n : PortNo) : State :=
  match s.motorProfile n with
  | none => s
  | some p =>
    if h : p.positionSource.toNat < 6 then
      let f := s.ports[n].fields[p.positionSource.toNat]
      let m := s.motors[n]
      if m.firstField then s.setMotor n { m with position := f, prevPosition := f, firstField := false }
      else if f = m.position then s
      else (s.setMotor n { m with position := f }).markUpdate n m.position f
    else s

/-! ## Regulation (R97–R104) -/

/-- R98: the measured speed from the wrapping difference of positions. -/
def measuredSpeed (delta : Int) (cpr period : Nat) : Int :=
  clampInt (-4000) 4000 ((delta * 360000).tdiv (cpr * period))

/-- R99: the target speed toward a position, at distance D. -/
def approachSpeed (p : Profile) (vmax : Nat) (D : Int) : Int :=
  if |D| ≤ (p.tolerance.toNat : Int) then 0
  else D.sign * min (vmax : Int) (max 20 (|(D * 360).tdiv p.cpr.toNat| * p.approachGain.toNat))

/-- R99: the target speed of a regulated mode. -/
def State.formTarget (s : State) (n : PortNo) (p : Profile) : Int :=
  let m := s.motors[n]
  match m.mode with
  | .runTo | .hold => approachSpeed p m.vmax (wrapDiff m.targetPosition m.position)
  | .follow =>
    let e := s.conv[m.followEntry]
    if e.status = .valid then clampInt (-2000) 2000 ((e.value.toInt * m.followGain.toInt).tdiv 256) else 0
  | .coast | .brake | .duty | .speed | .runFor => m.targetSpeed

/-- R100, step 3: the regulator output. -/
def regulatorOutput (p : Profile) (e A : Int) : Int :=
  ((p.kp.toNat : Int) * e + ((p.ki.toNat : Int) * A).tdiv 1000).tdiv 64

/-- R100: the regulation steps from a target speed. -/
def Motor.regulate (m : Motor) (p : Profile) (target : Int) : Motor :=
  let e := target - m.speed
  let A := clampInt (-p.imax.toNat) p.imax.toNat (m.integral + e * p.regPeriod.toNat)
  let u := regulatorOutput p e A
  let d := clampInt (-1000) 1000 u
  { m with targetSpeed := target, dutyRequest := d, dutyGrant := grantWithin d m.allowance,
           integral := if |u| > (m.allowance : Int) ∧ ((0 < e ∧ 0 < u) ∨ (e < 0 ∧ u < 0)) then m.integral else A }

/-- R104: a stall regulation. -/
def Motor.stalling (m : Motor) (p : Profile) : Bool :=
  decide (|m.dutyGrant| ≥ (p.stallDuty.toNat : Int)) && decide (|m.speed| < (p.stallSpeed.toNat : Int))

/-- R104: the stall check; STALL_WARN stands ahead of the RUN_END of a STALLED stop. -/
def State.stallCheck (s : State) (n : PortNo) (p : Profile) : State :=
  let m := s.motors[n]
  if m.stalling p then
    let c := min 255 (m.stallCount + 1)
    let warn := decide (p.stallWarn ≠ 0 ∧ c ≥ p.stallWarn.toNat) && !m.stallEpisode
    let t := s.setMotor n { m with stallCount := c, stallEpisode := m.stallEpisode || warn }
    let t := if warn then t.post .stallWarn (portByte n) 0 else t
    if p.stallStop ≠ 0 ∧ c ≥ p.stallStop.toNat then t.stopMotor n .stalled p.safeAction.mode else t
  else s.setMotor n { m with stallCount := 0, stallEpisode := false }

/-- R102: a RUN_TO regulation counts those within tolerance; the count that completes ends it DONE and makes no
stall check. HOLD and the other modes go to the stall check (R104). -/
def State.completionCheck (s : State) (n : PortNo) (p : Profile) : State :=
  let m := s.motors[n]
  if m.mode = .runTo then
    let c := if |wrapDiff m.targetPosition m.position| ≤ (p.tolerance.toNat : Int) then m.inposCount + 1 else 0
    let t := s.setMotor n { m with inposCount := c }
    if c ≥ p.inposCount.toNat then t.finishMotor n m.targetPosition else t.stallCheck n p
  else s.stallCheck n p

/-- R98: the speed measurement, handed to the conversion table. -/
def State.measure (s : State) (n : PortNo) (p : Profile) : State :=
  let m := s.motors[n]
  State.speedUpdate (s.setMotor n
    { m with speed := measuredSpeed (wrapDiff m.position m.prevPosition) p.cpr.toNat p.regPeriod.toNat,
             prevPosition := m.position }) n

/-- R97: the device-field position source of a regulated channel is lost. -/
def State.sourceLost (s : State) (n : PortNo) (p : Profile) : Bool :=
  p.positionSource != 255 && s.ports[n].missed == 2

/-- R98–R104: one regulation of a motor-bound channel. -/
def State.regulation (s : State) (n : PortNo) (p : Profile) : State :=
  let s := s.measure n p
  let m := s.motors[n]
  if m.mode.regulated then
    if s.sourceLost n p then s.stopMotor n .sourceLost p.safeAction.mode
    else (s.setMotor n (m.regulate p (s.formTarget n p))).completionCheck n p
  else if m.mode.driving then s.stallCheck n p
  else s

/-! ## Stops from outside, binding -/

/-- R105, R106: every channel in a driving mode ends with this outcome and applies its safe action. -/
def State.stopAll (s : State) (o : Outcome) : State := allPorts.foldl (fun s n => s.safeEnd n o) s

/-- R96, R107: binding to a profile with use MOTOR. -/
def Motor.bind (m : Motor) (p : Profile) : Motor :=
  { m with mode := .coast, dutyRequest := 0, dutyGrant := 0, position := 0, prevPosition := 0, speed := 0,
           targetSpeed := 0, allowance := 0, regTimer := some p.regPeriod.toNat,
           firstField := p.positionSource != 255 }

/-- R107: what a loss of the binding leaves. -/
def Motor.lose (m : Motor) : Motor :=
  { m with mode := .coast, dutyRequest := 0, dutyGrant := 0, integral := 0, speed := 0, targetSpeed := 0,
           stallCount := 0, inposCount := 0, stallEpisode := false, allowance := 0, regTimer := none,
           runForTimer := none, firstField := false }

/-- R107: a bound channel loses its binding, its operation ending with the outcome of the cause. -/
def State.loseMotor (s : State) (n : PortNo) (o : Outcome) : State :=
  match s.motors[n].regTimer with
  | none => s
  | some _ =>
    let t := s.endOperation n o
    t.setMotor n t.motors[n].lose

/-! ## Steps -/

/-- REGULATION_EXPIRY (R98): one regulation, while the timer runs; the timer runs on with its period. -/
def execRegulationExpiry (n : PortNo) (s : State) : Host.Outcome State Fault Refusal :=
  match s.motors[n].regTimer, s.motorProfile n with
  | some _, some p => settled (s.regulation n p)
  | _, _ => .next s

/-- RUN_FOR_EXPIRY (R103): the operation ends DONE and the end action is applied. -/
def execRunForExpiry (n : PortNo) (s : State) : Host.Outcome State Fault Refusal :=
  match s.motors[n].runForTimer, s.motors[n].mode with
  | some _, .runFor => settled (s.finishMotor n s.motors[n].position)
  | _, _ => .next s

end Sys2Proof.Machine
end

