-- ==== Sys2Proof/Machine/LineInputs.lean ====
section
/-! DEFINITION. The line inputs of a port: line modes (R55), digital filters (R56), the quadrature decoder (R57,
R58) and the pulse meter (R59, R60). -/

namespace Sys2Proof.Machine

/-- R55: a change of mode stops what the old mode ran and starts the new mode from its starting state (R56, R57,
R59). `debounce` is the profile's debounce_ms, read at binding. No event is posted. -/
def Lines.enter (l : Lines) (mode : LineMode) (debounce : Nat) : Lines :=
  let l := { l with mode := mode, timer1 := none, timer2 := none, noEdge := none }
  match mode with
  | .none | .device => l
  | .digital => { l with level1 := l.pin1, level2 := l.pin2, debounce := debounce }
  | .quadrature => { l with level1 := l.pin1, level2 := l.pin2, count := 0, errors := 0 }
  | .pulse => { l with level1 := l.pin1, high := 0, period := 0, duty := 0, armed := false, noEdge := some 100 }

/-- The line mode of a port is set. -/
def State.setLineMode (s : State) (n : PortNo) (mode : LineMode) (debounce : Nat) : State :=
  s.setLines n (s.lines[n].enter mode debounce)

/-! ## Digital lines -/

/-- The present level of a line. -/
def Lines.pin (l : Lines) : Line → Bool
  | .l1 => l.pin1
  | .l2 => l.pin2

/-- The accepted level of a line's filter. -/
def Lines.level (l : Lines) : Line → Bool
  | .l1 => l.level1
  | .l2 => l.level2

/-- A line's filter timer. -/
def Lines.timer (l : Lines) : Line → Timer
  | .l1 => l.timer1
  | .l2 => l.timer2

/-- A line changes its level. -/
def Lines.setPin (l : Lines) (line : Line) (high : Bool) : Lines :=
  match line with
  | .l1 => { l with pin1 := high }
  | .l2 => { l with pin2 := high }

/-- A line's filter accepts a level. -/
def Lines.setLevel (l : Lines) (line : Line) (high : Bool) : Lines :=
  match line with
  | .l1 => { l with level1 := high }
  | .l2 => { l with level2 := high }

/-- A line's filter timer is set. -/
def Lines.setTimer (l : Lines) (line : Line) (t : Timer) : Lines :=
  match line with
  | .l1 => { l with timer1 := t }
  | .l2 => { l with timer2 := t }

/-- R56: the line as an event detail. -/
def lineCode : Line → Byte
  | .l1 => 0
  | .l2 => 1

/-- R56: the filter accepts the line's present level if it differs, and posts LINE_RISE or LINE_FALL. -/
def State.acceptLine (s : State) (n : PortNo) (line : Line) : State :=
  let l := s.lines[n]
  if l.pin line = l.level line then s
  else (s.setLines n (l.setLevel line (l.pin line))).post
    (if l.pin line then .lineRise else .lineFall) (portByte n) (lineCode line)

/-- DIGITAL_LINE_CHANGE (R56): in DIGITAL a change restarts the line's filter timer, or is accepted at once with
debounce_ms 0; in the other modes only the level of the line changes (log 17). -/
def execDigitalLineChange (n : PortNo) (line : Line) (high : Bool) (s : State) :
    Host.Outcome State Fault Refusal :=
  let l := s.lines[n]
  if l.pin line = high then .next s
  else
    let l := l.setPin line high
    if l.mode = .digital then
      if l.debounce = 0 then settled ((s.setLines n l).acceptLine n line)
      else .next (s.setLines n (l.setTimer line (some l.debounce)))
    else .next (s.setLines n l)

/-- LINE_DEBOUNCE_EXPIRY (R56). -/
def execLineDebounceExpiry (n : PortNo) (line : Line) (s : State) : Host.Outcome State Fault Refusal :=
  let l := s.lines[n]
  match l.timer line with
  | none => .next s
  | some _ => settled ((s.setLines n (l.setTimer line none)).acceptLine n line)

/-! ## Quadrature -/

/-- Section 3.8: the next pair counting up. -/
def nextUp : Bool × Bool → Bool × Bool
  | (false, false) => (true, false)
  | (true, false) => (true, true)
  | (true, true) => (false, true)
  | (false, true) => (false, false)

/-- R57: the decoder sees a new pair: it counts up, down, or counts a double transition. -/
def Lines.decode (l : Lines) (pair : Bool × Bool) : Lines :=
  let last := (l.level1, l.level2)
  let l := { l with level1 := pair.1, level2 := pair.2 }
  if pair = nextUp last then { l with count := l.count + 1 }
  else if last = nextUp pair then { l with count := l.count - 1 }
  else { l with errors := satInc l.errors }

/-- QUADRATURE_CHANGE (R57, R58): the pair changes; a change of the count is a position update for the motor
channel, the mark unit and the ENCODER entries. Outside QUADRATURE only the levels change (log 17). -/
def execQuadratureChange (n : PortNo) (high1 high2 : Bool) (s : State) : Host.Outcome State Fault Refusal :=
  let l := { s.lines[n] with pin1 := high1, pin2 := high2 }
  if l.mode = .quadrature ∧ (high1, high2) ≠ (l.level1, l.level2) then
    let l' := l.decode (high1, high2)
    let t := s.setLines n l'
    if l'.count = l.count then .next t
    else settled ((t.quadraturePosition n l.count l'.count).encoderUpdate n)
  else .next (s.setLines n l)

/-! ## Pulse meter -/

/-- R59: the duty of a cycle; with period 0 the manual states none (log 11). -/
def pulseDuty (high period : Word) : Nat :=
  if period = 0 then (Config.zeroPeriodDuty high).val else high.toNat * 1000 / period.toNat

/-- R59: an armed rising edge measures period, high time and duty. -/
def Lines.measure (l : Lines) (time : Word) : Lines :=
  let period := time - l.lastRise
  let high := l.lastFall - l.lastRise
  { l with period := period, high := high, duty := pulseDuty high period, lastRise := time }

/-- PULSE_EDGE (R59): each edge restarts the no-edge timer; a falling edge is timed, a rising edge arms the meter
or, armed, measures. An edge is a change of the level the meter last saw; outside PULSE only the level of L1
changes (log 17). -/
def execPulseEdge (n : PortNo) (rising : Bool) (time : Word) (s : State) : Host.Outcome State Fault Refusal :=
  let l := { s.lines[n] with pin1 := rising }
  if l.mode = .pulse ∧ l.level1 ≠ rising then
    let l := { l with level1 := rising, noEdge := some 100 }
    if rising then
      if l.armed then settled ((s.setLines n (l.measure time)).pulseUpdate n)
      else .next (s.setLines n { l with lastRise := time, armed := true })
    else .next (s.setLines n { l with lastFall := time })
  else .next (s.setLines n l)

/-- NO_EDGE_EXPIRY (R60): 100 ms without an edge store period 0, high time 0 and duty 0 or 1000. -/
def execNoEdgeExpiry (n : PortNo) (s : State) : Host.Outcome State Fault Refusal :=
  let l := s.lines[n]
  match l.noEdge with
  | none => .next s
  | some _ =>
    settled ((s.setLines n { l with period := 0, high := 0, duty := if l.level1 then 1000 else 0,
                                    armed := false, noEdge := none }).pulseUpdate n)

end Sys2Proof.Machine
end

