-- ==== Sys2Proof/Machine/Sounds.lean ====
section
/-! DEFINITION. The sound engine: the tone voice (R133, R134), the clip voice (R136, R137), mixing (R138),
volume (R139) and the SOUND operations (R140–R146). -/

namespace Sys2Proof.Machine

/-! ## Tone voice -/

/-- R133: the step of a pitch. -/
def pitchStep (pitch : Nat) : Half := BitVec.ofNat 16 (pitch * 65536 / 16000)

/-- R133, R134: a note begins: phase 0, its step, its duration timer. -/
def Sound.beginNote (e : Sound) (n : Note) : Sound :=
  { e with tonePlaying := true, note := n, noteSamples := 0, phase := 0, step := pitchStep n.pitch,
           noteTimer := some n.duration }

/-- R134: the voice falls IDLE. -/
def Sound.toneIdle (e : Sound) : Sound := { e with tonePlaying := false, noteTimer := none }

/-- R133: the tone value of a waveform at a phase. -/
def waveValue (w : Waveform) (phase : Nat) : Int :=
  match w with
  | .square => if phase < 32768 then 127 else -127
  | .triangle =>
    if phase < 32768 then -127 + ((phase : Int) * 254).tdiv 32768
    else 127 - (((phase : Int) - 32768) * 254).tdiv 32768
  | .saw => ((phase : Int) * 255).tdiv 65536 - 127

/-- R133: the tone value of the next output sample; a rest and an IDLE voice give 0. -/
def Sound.toneValue (e : Sound) : Int :=
  if e.tonePlaying ∧ e.note.pitch ≠ 0 then waveValue e.note.waveform e.phase.toNat else 0

/-- R133: after an output sample the step is added to the phase. -/
def Sound.toneAdvance (e : Sound) : Sound :=
  if e.tonePlaying then { e with phase := e.phase + e.step, noteSamples := e.noteSamples + 1 } else e

/-- R141: a note with its values clamped; 0 stays a rest. -/
def Note.clamped (n : Note) : Note :=
  { n with pitch := if n.pitch = 0 then 0 else clampNat 20 8000 n.pitch, duration := clampNat 1 4000 n.duration,
           level := min 100 n.level }

/-- R134: a note begins at once on an IDLE voice and otherwise joins the tail of the queue. -/
def Sound.append (e : Sound) (n : Note) : Sound :=
  if e.tonePlaying then { e with queue := e.queue ++ [n] } else e.beginNote n

/-- R134: at a duration expiry the voice takes the head note, with QUEUE_LOW when that reaches the mark, or
falls IDLE with TONE_IDLE. -/
def State.noteExpiry (s : State) : State :=
  match s.sound.queue with
  | [] => State.post { s with sound := s.sound.toneIdle } .toneIdle 0 0
  | n :: rest =>
    let t := { s with sound := Sound.beginNote { s.sound with queue := rest } n }
    if rest.length = s.settings.queueLowMark.toNat then
      (t.post .queueLow 0 (byteOf rest.length)).notify (.queueLow (byteOf rest.length) s.settings.queueLowMark)
    else t

/-! ## Clip voice -/

/-- R137: the clip value of the next output sample; −128 is taken as −127. -/
def Sound.clipValue (e : Sound) : Int :=
  if e.clipPlaying then max (-127) (Memory.read e.store (e.clipStart + e.clipPos / 65536)).toInt else 0

/-- R137: the position advances; a play that reaches the length repeats or ends the clip. The second part says
the clip has ended. -/
def Sound.clipAdvance (e : Sound) : Sound × Bool :=
  if e.clipPlaying then
    let pos := e.clipPos + e.clipInc
    if pos / 65536 ≥ e.clipLength then
      if e.playsLeft = 0 then ({ e with clipPos := pos - e.clipLength * 65536 }, false)
      else if e.playsLeft = 1 then ({ e with clipPos := pos, playsLeft := 0, clipPlaying := false }, true)
      else ({ e with clipPos := pos - e.clipLength * 65536, playsLeft := e.playsLeft - 1 }, false)
    else ({ e with clipPos := pos }, false)
  else (e, false)

/-- R142: the clip voice starts an entry. -/
def Sound.startClip (e : Sound) (i : Fin 16) (repeats level : Nat) : Sound :=
  let c := e.clips[i]
  { e with clipPlaying := true, clipIndex := i, clipStart := c.start.toNat, clipLength := c.length.toNat,
           clipRate := c.rate.toNat, clipPos := 0, clipInc := c.rate.toNat * 65536 / 16000,
           playsLeft := repeats, clipLevel := level }

/-- R136: the extent of the clip playing holds this offset. -/
def Sound.inExtent (e : Sound) (offset : Nat) : Bool :=
  e.clipPlaying && decide (e.clipStart ≤ offset) && decide (offset < e.clipStart + e.clipLength)

/-! ## Mixing -/

/-- R138: the mix of both voices, scaled by the effective volume and saturated. -/
def mix (t noteLevel c clipLevel volume : Int) : Int :=
  clampInt (-127) 127 (((t * noteLevel + c * clipLevel).tdiv 100 * volume).tdiv 100)

/-- R138: the speaker output of the next output sample. -/
def Sound.output (e : Sound) : Int := mix e.toneValue e.note.level e.clipValue e.clipLevel e.effective

/-- CLIP_END details (section 8.3.2). -/
def clipFinished : Byte := 1
/-- CLIP_END details. -/
def clipSuperseded : Byte := 2
/-- CLIP_END details. -/
def clipStopped : Byte := 3

/-- R137, R138: one output sample. -/
def State.sample (s : State) : State :=
  let r := Sound.clipAdvance (Sound.toneAdvance { s.sound with out := s.sound.output })
  let t := { s with sound := r.1 }
  if r.2 then t.post .clipEnd 0 clipFinished else t

/-! ## Stops (R145) -/

/-- STOP TONE: an IDLE voice with an empty queue posts nothing. -/
def State.stopTone (s : State) : State :=
  if s.sound.tonePlaying ∨ s.sound.queue ≠ [] then
    State.post { s with sound := { s.sound.toneIdle with queue := [] } } .toneIdle 0 0
  else s

/-- STOP CLIP: an IDLE voice posts nothing. The position stands where the stop found it; R137 does not name it among
what an IDLE voice keeps (log 25). -/
def State.stopClip (s : State) : State :=
  if s.sound.clipPlaying then
    State.post { s with sound := { s.sound with clipPlaying := false } } .clipEnd 0 clipStopped
  else s

/-- STOP ALL, and the safe stop: tone first and then clip. -/
def State.stopSound (s : State) : State := s.stopTone.stopClip

/-! ## The SOUND operations (R140–R145) -/

/-- A sound operation with its arguments, of the link or of a reaction. -/
inductive SoundOp where
  | tone (note : Note)
  | clip (index repeats level : Nat)
  | flush
  | volume (v : Nat)
  | stopTone | stopClip | stopAll
  deriving DecidableEq, Repr

/-- R140, checks 2 and 3. -/
def State.soundRefusal (s : State) (op : SoundOp) : Option Status :=
  match op with
  | .tone _ => if s.sound.tonePlaying ∧ s.sound.queue.length ≥ Config.noteQueue then some .queueFull else none
  | .clip i _ _ => if h : i < 16 then (if s.sound.clips[i].valid then none else some .badIndex) else some .badIndex
  | .flush | .volume _ | .stopTone | .stopClip | .stopAll => none

/-- R141–R143: a value of the operation lies outside its range. -/
def SoundOp.clamped : SoundOp → Bool
  | .tone n => decide (n.clamped ≠ n)
  | .clip _ _ l => decide (l > 100)
  | .volume v => decide (v > 100)
  | .flush | .stopTone | .stopClip | .stopAll => false

/-- R142: a clip starts, ending a playing one with SUPERSEDED. -/
def State.playClip (s : State) (i : Fin 16) (repeats level : Nat) : State :=
  let t := { s with sound := s.sound.startClip i repeats (min 100 level) }
  if s.sound.clipPlaying then t.post .clipEnd 0 clipSuperseded else t

/-- R141–R145: an operation that passed its checks is carried out. -/
def State.runSoundOp (s : State) (op : SoundOp) : State :=
  match op with
  | .tone n => { s with sound := s.sound.append n.clamped }
  | .clip i r l => s.playClip (Fin.ofNat 16 i) r l
  | .flush => { s with sound := { s.sound with queue := [] } }
  | .volume v => { s with sound := { s.sound with master := min 100 v } }
  | .stopTone => s.stopTone
  | .stopClip => s.stopClip
  | .stopAll => s.stopSound

/-- R140, then the operation: the status, and the state. -/
def State.soundOp (s : State) (op : SoundOp) : Status × State :=
  match s.soundRefusal op with
  | some st => (st, s)
  | none => (if op.clamped then .adjusted else .ok, s.runSoundOp op)

/-! ## Steps -/

/-- OUTPUT_SAMPLE (R133, R137, R138). -/
def execOutputSample (s : State) : Host.Outcome State Fault Refusal := settled s.sample

/-- NOTE_DURATION_EXPIRY (R134), while the duration timer runs. -/
def execNoteDurationExpiry (s : State) : Host.Outcome State Fault Refusal :=
  match s.sound.noteTimer with
  | none => .next s
  | some _ => settled s.noteExpiry

end Sys2Proof.Machine
end

