-- ==== Sys2Proof/Machine/Converter.lean ====
section
/-! DEFINITION. The converter scan: choosing the next conversion (R53), passes (R50, R52), slots (R51), the SCAN
operations (R49) and ID requests (R54). -/

namespace Sys2Proof.Machine

/-- R47: every slot's slot_state, set by its number. -/
def Scan.markSlots (c : Scan) (f : Fin 16 → SlotState → SlotState) : Scan :=
  { c with images := Vector.ofFn fun i => { c.images[i] with slotState := f i c.images[i].slotState } }

/-- R47: the scan halts, every slot IDLE. -/
def Scan.halt (c : Scan) : Scan := c.markSlots (fun _ _ => .idle)

/-- R47: one slot's slot_state. -/
def Scan.setSlotState (c : Scan) (i : Fin 16) (st : SlotState) : Scan :=
  { c with images := c.images.set i { c.images[i] with slotState := st } }

/-- R51: a slot's first conversion begins; its record is read now. -/
def Scan.beginSlot (c : Scan) (i : Fin 16) : Scan :=
  let r := c.slots[i]
  { c.setSlotState i .converting with work := .slot i r.input r.average 0 0 false }

/-- R50: the slot a SETTINGS value 0–15 names. -/
def slotNo (b : Byte) : Fin 16 := Fin.ofNat 16 b.toNat

/-- R50: a due pass starts: its slots PENDING, the rest IDLE, its first slot begins. -/
def Scan.startPass (c : Scan) (start stop : Byte) : Scan :=
  let first := slotNo start
  let last := if slotNo stop < first then first else slotNo stop
  Scan.beginSlot
    ({ c with passDue := false, pass := some { next := first, last := last } }.markSlots
      (fun i _ => if first ≤ i ∧ i ≤ last then .pending else .idle)) first

/-- R53: the lowest-numbered port with a pending request. -/
def Scan.firstRequest (c : Scan) : Option PortNo := allPorts.find? (fun n => c.idReq[n])

/-- R53: the converter, with no conversion in flight, chooses its next work: a pending ID request, the running
pass's next slot, a due pass, or IDLE. -/
def Scan.choose (c : Scan) (start stop : Byte) : Scan :=
  match c.firstRequest with
  | some n => { c with work := .ident n false, idReq := c.idReq.set n false }
  | none =>
    match c.pass with
    | some p => c.beginSlot p.next
    | none => if c.passDue then c.startPass start stop else { c with work := .idle }

/-- R53: an IDLE converter chooses when work arrives. -/
def State.converterWake (s : State) : State :=
  match s.scan.work with
  | .idle => { s with scan := s.scan.choose s.settings.scanStart s.settings.scanStop }
  | .slot .. | .ident .. => s

/-- R53: a conversion completed, and the converter chooses. -/
def State.converterNext (s : State) : State :=
  { s with scan := Scan.choose { s.scan with work := .idle } s.settings.scanStart s.settings.scanStop }

/-! ## ID requests (R54) -/

/-- R54: a conversion of the port in flight becomes void. -/
def ConverterWork.voided (w : ConverterWork) (n : PortNo) : ConverterWork :=
  match w with
  | .ident p v => if p = n then .ident p true else .ident p v
  | .idle => .idle
  | .slot i inp k d sum x => .slot i inp k d sum x

/-- R54: the port manager sends an ID request; an IDLE converter serves it at once. -/
def State.requestIdent (s : State) (n : PortNo) : State :=
  State.converterWake
    { s with scan := { s.scan with work := s.scan.work.voided n, idReq := s.scan.idReq.set n true } }

/-- R54: a detach cancels the request and voids a conversion in flight. -/
def State.cancelIdent (s : State) (n : PortNo) : State :=
  { s with scan := { s.scan with work := s.scan.work.voided n, idReq := s.scan.idReq.set n false } }

/-! ## SCAN operations (R49) -/

/-- The SCAN operations. -/
inductive ScanOp where
  | stop | single | start
  deriving DecidableEq, Repr

/-- R49: the mode an operation sets. -/
def ScanOp.mode : ScanOp → ScanMode
  | .stop => .off
  | .single => .single
  | .start => .continuous

/-- R49: mode and due pass change, and a running pass is cut: at once with no scan conversion in flight, else at
that conversion. A STOP that ends the pass at once halts the slots. -/
def Scan.command (c : Scan) (op : ScanOp) : Scan :=
  let c := { c with mode := op.mode, passDue := decide (op ≠ ScanOp.stop) }
  match c.work with
  | .slot .. => { c with cut := true }
  | .idle | .ident .. =>
    let c := { c with pass := none, cut := false }
    if op = ScanOp.stop then c.halt else c

/-- R49, R53: a SCAN operation, from the link or from a reaction. -/
def State.scanOp (s : State) (op : ScanOp) : State :=
  State.converterWake { s with scan := s.scan.command op }

/-! ## Slots (R51, R52) -/

/-- R51: a slot completes with k conversions of the given sum: its raw image is replaced, unless discarded
(R46), and it becomes DONE. -/
def Scan.completeSlot (c : Scan) (i : Fin 16) (input : Fin 8) (k sum : Nat) (discard : Bool) (stamp : Half) :
    Scan :=
  let r := c.images[i]
  if discard then c.setSlotState i .done
  else
    let image : RawImage :=
      { raw := BitVec.ofNat 16 (sum / k), conversions := k, sequence := r.sequence + 1, stamp := stamp,
        input := input, slotState := .done }
    { c with images := c.images.set i image }

/-- R51: the completed result goes to the conversion table, unless discarded. -/
def State.completeSlot (s : State) (i : Fin 16) (input : Fin 8) (k sum : Nat) (discard : Bool) : State :=
  let t := { s with scan := s.scan.completeSlot i input k sum discard s.bus.stamp }
  if discard then t else t.slotUpdate i

/-- R49, R51: after a short completion the cut pass has ended; with the mode OFF every slot is IDLE. -/
def Scan.endCut (c : Scan) : Scan :=
  let c := { c with pass := none, cut := false }
  if c.mode = .off then c.halt else c

/-- R51, R52: after a full completion of slot i the pass goes on, or ends: SINGLE becomes OFF, CONTINUOUS makes a
new pass due. The second part says SCAN_DONE is posted. -/
def Scan.afterSlot (c : Scan) (i : Fin 16) : Scan × Bool :=
  match c.pass with
  | some p =>
    if i < p.last then ({ c with pass := some { p with next := i + 1 } }, false)
    else match c.mode with
      | .single => ({ c with pass := none, mode := .off }.halt, true)
      | .continuous => ({ c with pass := none, passDue := true }, false)
      | .off => ({ c with pass := none }.halt, false)
  | none => (c, false)

/-- R49–R53: the scan conversion in flight completes with a code. -/
def State.scanConversion (s : State) (code : BitVec 12) (i : Fin 16) (input : Fin 8) (n done sum : Nat)
    (discard : Bool) : State :=
  let k := done + 1
  let sum := sum + code.toNat
  if s.scan.cut then
    let t := s.completeSlot i input k sum discard
    State.converterNext { t with scan := t.scan.endCut }
  else if k < n then { s with scan := { s.scan with work := .slot i input n k sum discard } }
  else
    let t := s.completeSlot i input k sum discard
    let r := t.scan.afterSlot i
    let t := { t with scan := r.1 }
    State.converterNext (if r.2 then t.post .scanDone 0 0 else t)

/-- SCAN_CONVERSION_DONE (R51), while a scan conversion is in flight. -/
def execScanConversionDone (code : BitVec 12) (s : State) : Host.Outcome State Fault Refusal :=
  match s.scan.work with
  | .slot i input n done sum discard => settled (s.scanConversion code i input n done sum discard)
  | .idle | .ident .. => .next s

end Sys2Proof.Machine
end

