-- ==== Sys2Proof/Machine/Ports.lean ====
section
/-! DEFINITION. The port manager: detect filter (R24), attach and identification (R25–R27), lookup and binding
(R28, R31), polling (R32–R34), FAULT and re-probe (R34, R35), the device-line engine (R36, R22), the PORT
operations (R37–R43) and detach (R44). -/

namespace Sys2Proof.Machine

/-! ## Notices and identity -/

/-- R29: a PORT_CHANGE notice, as the port stands. -/
def State.portNotice (s : State) (n : PortNo) : State :=
  let p := s.ports[n]
  s.notify (.portChange n p.state p.fault p.profile p.cls p.variant)

/-- R25, R44: the identity fields clear. -/
def Port.clearIdentity (p : Port) : Port :=
  { p with cls := 0, variant := 0, formats := [], minPoll := 0, missed := 0, fields := Vector.replicate 6 0,
           fault := .none, profile := none }

/-- R43, R44: query tries, polling and the re-probe timer stop, and an exchange in flight is abandoned. -/
def Port.quiet (p : Port) : Port :=
  { p with exchange := none, pollDue := false, queryDue := false, tries := 0, queryTimer := none,
           pollTimer := none, resumes := false, reprobeTimer := none }

/-! ## The device-line engine (R36) -/

/-- R36, R38: the WRITE of the pending pass-through; its window is fixed now. -/
def writeExchange (data : List Byte) (service : Bool) : Exchange :=
  { kind := .write, sent := deviceFrame 2 data, windowMs := if service then 100 else 10, windowOpen := false, got := [] }

/-- R32: a POLL, with its window of 5 ms. -/
def pollExchange : Exchange :=
  { kind := .poll, sent := deviceFrame 1 [], windowMs := 5, windowOpen := false, got := [] }

/-- R27: a QUERY, with its window of 20 ms. -/
def queryExchange : Exchange :=
  { kind := .query, sent := deviceFrame 0 [], windowMs := 20, windowOpen := false, got := [] }

/-- R27, R36: a query try begins; in PROBING it counts, and a next one falls due 50 ms after its start. -/
def Port.beginQuery (p : Port) : Port :=
  let p := { p with exchange := some queryExchange, queryDue := false }
  if p.state = .probing then
    { p with tries := p.tries + 1, queryTimer := if p.tries + 1 < 3 then some 50 else none }
  else p

/-- R36: the IDLE engine begins the next waiting exchange: the pass-through, then the POLL or query try. -/
def Port.startWork (p : Port) (service : Bool) : Port :=
  match p.exchange, p.pass with
  | some _, _ => p
  | none, some w => { p with exchange := some (writeExchange w.data service) }
  | none, none =>
    if p.pollDue then { p with exchange := some pollExchange, pollDue := false }
    else if p.queryDue then p.beginQuery
    else p

/-- R36: the engine of port n begins its next work. -/
def State.startWork (s : State) (n : PortNo) : State := s.setPort n (s.ports[n].startWork (s.inService n))

/-- R36: the exchange of port n ends and the engine is IDLE. -/
def State.endExchange (s : State) (n : PortNo) : State := s.setPort n { s.ports[n] with exchange := none }

/-! ## States of a port -/

/-- R34: a port enters FAULT; one that leaves BOUND loses its motor operation as SOURCE_LOST. -/
def State.enterFault (s : State) (n : PortNo) (reason : FaultReason) : State :=
  let t := s.setPort n
    { s.ports[n] with state := .fault, fault := reason, profile := none, pollDue := false, pollTimer := none,
                      resumes := false, queryDue := false, queryTimer := none, reprobeTimer := some 500 }
  let t := (t.post .portFault (portByte n) (codeIn FaultReason.list reason)).portNotice n
  let t := t.setLineMode n .none 0
  State.portStatus (if s.ports[n].state = .bound then t.loseMotor n .sourceLost else t) n .stale

/-- R25: an attach, or the re-entry of a PORT PROBE (R43). -/
def State.enterDetecting (s : State) (n : PortNo) : State :=
  let t := s.setPort n { s.ports[n].clearIdentity with state := .detecting, band := none }
  ((t.post .portAttach (portByte n) 0).portNotice n).requestIdent n

/-- R26, R27: a port enters PROBING and its first query try begins. -/
def State.enterProbing (s : State) (n : PortNo) : State :=
  let t := s.setPort n { s.ports[n] with state := .probing, tries := 0, queryDue := true }
  (t.portNotice n).startWork n

/-! ## Lookup and binding (R28) -/

/-- R28: a valid profile matches a device exactly. -/
def Profile.exact (p : Profile) (cls variant : Byte) : Bool := p.valid && p.cls == cls && p.variant == variant

/-- R28: a valid profile matches every variant of the class. -/
def Profile.general (p : Profile) (cls : Byte) : Bool := p.valid && p.cls == cls && p.variant == 255

/-- R28: an exact match before a general one, the lowest index among equals. -/
def lookup (profiles : Vector Profile 16) (cls variant : Byte) : Option (Fin 16) :=
  ((List.finRange 16).find? (fun i => profiles[i].exact cls variant)).or
    ((List.finRange 16).find? (fun i => profiles[i].general cls))

/-- R32: the poll interval. -/
def pollInterval (pr : Profile) (p : Port) : Nat := max pr.pollMs.toNat p.minPoll.toNat

/-- R28, R32: polling of a smart port starts at its binding, with a POLL at once unless in service mode. -/
def State.startPolling (s : State) (n : PortNo) (pr : Profile) : State :=
  let p := s.ports[n]
  if p.smart then
    (s.setPort n { p with pollDue := !s.inService n, pollTimer := some (pollInterval pr p), resumes := false }).startWork n
  else s

/-- R28: the port becomes BOUND to a profile. -/
def State.bindPort (s : State) (n : PortNo) (i : Fin 16) : State :=
  let pr := s.profiles[i]
  let t := s.setPort n { s.ports[n] with state := .bound, fault := .none, profile := some i, missed := 0 }
  let t := (t.post .portBound (portByte n) (BitVec.ofNat 8 i.val)).portNotice n
  let t := (t.setLineMode n pr.lineUse pr.debounceMs.toNat).startPolling n pr
  if pr.use = .motor then t.setMotor n (t.motors[n].bind pr) else t

/-- R28, R29: the port becomes UNKNOWN; one that was UNKNOWN queues no notice (log 18). -/
def State.becomeUnknown (s : State) (n : PortNo) : State :=
  let t := s.setPort n
    { s.ports[n] with state := .unknown, fault := .none, profile := none, pollDue := false, pollTimer := none,
                      resumes := false }
  let t := t.setLineMode n .none 0
  if s.ports[n].state = .unknown then t else t.portNotice n

/-- R28: the lookup of a port's (device_class, variant). -/
def State.lookupPort (s : State) (n : PortNo) : State :=
  match lookup s.profiles s.ports[n].cls s.ports[n].variant with
  | some i => s.bindPort n i
  | none => s.becomeUnknown n

/-- R31: the half of a rebinding that undoes the old binding. -/
def State.loseBinding (s : State) (n : PortNo) : State :=
  ((s.loseMotor n .rebound).portStatus n .noSource).setLineMode n .none 0

/-- R31: the rebinding of one port by a PROFILES write: BOUND to an index it names, or UNKNOWN when a written
record is valid. -/
def State.rebindPort (named : Fin 16 → Bool) (anyValid : Bool) (s : State) (n : PortNo) : State :=
  match s.ports[n].state, s.ports[n].profile with
  | .bound, some i => if named i then (s.loseBinding n).lookupPort n else s
  | .unknown, _ => if anyValid then s.lookupPort n else s
  | _, _ => s

/-! ## Identification (R26, R27, R35) -/

/-- R26: the band of a raw code. -/
def bandOf (code : Nat) : Band :=
  if code < 200 then .short
  else if code < 800 then .passive 1
  else if code < 1400 then .passive 2
  else if code < 2000 then .passive 3
  else if code < 2600 then .passive 4
  else if code < 3200 then .passive 5
  else if code < 3900 then .passive 6
  else .openLine

/-- R35: leaving FAULT. -/
def Port.leaveFault (p : Port) : Port :=
  if p.state = .fault then { p with fault := .none, missed := 0, reprobeTimer := none } else p

/-- R26, R35: a port in DETECTING, or in FAULT ID_SHORT, takes the result of its ID measurement; elsewhere it is
discarded (R25). A FAULT port measured short again stays as it is. -/
def State.identResult (s : State) (n : PortNo) (code : BitVec 12) : State :=
  let p := s.ports[n]
  if p.state = .detecting ∨ (p.state = .fault ∧ p.fault = .idShort) then
    let b := bandOf code.toNat
    let p' := { p with band := some b }
    match b with
    | .short => if p.state = .fault then s.setPort n p' else (s.setPort n p').enterFault n .idShort
    | .passive c => (s.setPort n { p'.leaveFault with cls := c, variant := 0 }).lookupPort n
    | .openLine => (s.setPort n p'.leaveFault).enterProbing n
  else s

/-- What a good IDENT declares (R27). -/
structure Ident where
  cls     : Byte
  variant : Byte
  formats : List Format
  minPoll : Byte
  deriving DecidableEq, Repr

/-- R27: the tests of a good IDENT payload. -/
def goodIdent (payload : List Byte) : Option Ident :=
  match payload with
  | cls :: variant :: count :: rest =>
    if 1 ≤ count.toNat ∧ count.toNat ≤ 6 ∧ rest.length = count.toNat + 1 ∧ 16 ≤ cls.toNat then
      ((rest.take count.toNat).mapM (valueIn Format.list)).map fun formats =>
        { cls := cls, variant := variant, formats := formats, minPoll := rest.getD count.toNat 0 }
    else none
  | _ => none

/-- R27, R35: the identity of an IDENT is recorded; fields beyond its count read 0 (section 2.1, log 19). -/
def Port.identify (p : Port) (d : Ident) : Port :=
  { p with cls := d.cls, variant := d.variant, formats := d.formats, minPoll := d.minPoll,
           fields := Vector.ofFn fun k => if k.val < d.formats.length then p.fields[k] else 0,
           queryDue := false, queryTimer := none }

/-- R27, R35: a good IDENT within the query window. -/
def State.takeIdent (s : State) (n : PortNo) (d : Ident) : State :=
  (s.setPort n ((s.ports[n].identify d).leaveFault)).lookupPort n

/-- R27, R35: a query try has failed; the third of PROBING enters FAULT NO_IDENT, one of FAULT leaves it there. -/
def State.queryFailed (s : State) (n : PortNo) : State :=
  if s.ports[n].state = .probing ∧ s.ports[n].tries ≥ 3 then s.enterFault n .noIdent else s

/-! ## Polling (R33, R34) -/

/-- Section 1.10.3 of 01: the bytes of a format. -/
def Format.size : Format → Nat
  | .s8 | .u8 => 1
  | .s16 | .u16 => 2
  | .s32 => 4

/-- R33: a field, sign- or zero-extended to s32. -/
def Format.read (f : Format) (bs : List Byte) : Word :=
  match f with
  | .s8 => (u8At bs 0).signExtend 32
  | .u8 => (u8At bs 0).zeroExtend 32
  | .s16 => (u16At bs 0).signExtend 32
  | .u16 => (u16At bs 0).zeroExtend 32
  | .s32 => u32At bs 0

/-- R33: the payload length of a good DATA reply. -/
def dataLength (formats : List Format) : Nat := (formats.map Format.size).sum

/-- R33: the fields of a payload, in declared order. -/
def readFields : List Format → List Byte → List Word
  | [], _ => []
  | f :: fs, bs => f.read bs :: readFields fs (bs.drop f.size)

/-- R33: all field values are replaced at once and missed is 0. -/
def Port.takeData (p : Port) (payload : List Byte) : Port :=
  let values := readFields p.formats payload
  { p with fields := Vector.ofFn fun k => values.getD k.val 0, missed := 0 }

/-- R33: a good DATA reply; its values go to the conversion table, the motor channel and, forwarded, the report
unit. -/
def State.takeData (s : State) (n : PortNo) (payload : List Byte) : State :=
  let t := ((s.setPort n (s.ports[n].takeData payload)).fieldUpdate n).fieldPosition n
  if t.ports[n].forward then t.offerPass n payload else t

/-- R34: a miss; the third in a row enters FAULT SILENT. -/
def State.pollMissed (s : State) (n : PortNo) : State :=
  let p := s.ports[n]
  if p.missed + 1 ≥ 3 then (s.setPort n { p with missed := 0 }).enterFault n .silent
  else s.setPort n { p with missed := p.missed + 1 }

/-! ## Pass-through (R38, R39) -/

/-- R38, R39: the pending pass-through is answered and cleared. -/
def State.answerPass (s : State) (n : PortNo) (status : Status) (result : List Byte) : State :=
  match s.ports[n].pass with
  | none => s
  | some w => (s.setPort n { s.ports[n] with pass := none }).finish w.place status result

/-! ## Frames from the device (R22) -/

/-- A frame the engine has delimited. -/
inductive DeviceFrame where
  | good (type : BitVec 3) (payload : List Byte)
  | bad
  deriving DecidableEq, Repr

/-- The type of a header. -/
def headerType (h : Byte) : BitVec 3 := h.extractLsb' 5 3

/-- The payload length of a header. -/
def headerLength (h : Byte) : Nat := (h.extractLsb' 0 5).toNat

/-- R22: a whole frame is well formed when its bytes sum to 255 and its type is 4–7. -/
def checkFrame (bs : List Byte) : DeviceFrame :=
  let h := u8At bs 0
  if byteSum bs = 255 ∧ 4 ≤ (headerType h).toNat then .good (headerType h) (bs.tail.dropLast) else .bad

/-- R27: a frame in a query window: a good IDENT succeeds, anything else fails the try. -/
def State.queryReply (s : State) (n : PortNo) (f : DeviceFrame) : State :=
  let t := s.endExchange n
  match f with
  | .good 4 payload =>
    match goodIdent payload with
    | some d => t.takeIdent n d
    | none => t.queryFailed n
  | .good _ _ | .bad => t.queryFailed n

/-- R33, R34: a frame in a poll window: good DATA is taken, anything else is a miss. -/
def State.pollReply (s : State) (n : PortNo) (f : DeviceFrame) : State :=
  let t := s.endExchange n
  match f with
  | .good 5 payload =>
    if payload.length = dataLength s.ports[n].formats then t.takeData n payload else t.pollMissed n
  | .good _ _ | .bad => t.pollMissed n

/-- R38: a frame in a WRITE window: ACK with at most 16 bytes or NAK ends it, anything else is ignored. -/
def State.writeReply (s : State) (n : PortNo) (f : DeviceFrame) : State :=
  match f with
  | .good 6 payload => if payload.length ≤ 16 then (s.endExchange n).answerPass n .ok payload else s
  | .good 7 _ => (s.endExchange n).answerPass n .deviceNak []
  | .good _ _ | .bad => s

/-- R36: a frame arrives at port n; outside an open window it is ignored. After an exchange the engine takes its
next work. -/
def State.deviceFrameIn (s : State) (n : PortNo) (f : DeviceFrame) : State :=
  match s.ports[n].exchange with
  | none => s
  | some x =>
    if x.windowOpen then
      match x.kind with
      | .query => (s.queryReply n f).startWork n
      | .poll => (s.pollReply n f).startWork n
      | .write => (s.writeReply n f).startWork n
    else s

/-- R22: the bytes of the frame in progress at port n. -/
def State.setGot (s : State) (n : PortNo) (x : Exchange) (got : List Byte) : State :=
  s.setPort n { s.ports[n] with exchange := some { x with got := got } }

/-- R22: one byte of a reply: a header, a payload byte or the check byte. A low stop bit or a header length of
25–31 ends a bad frame there. -/
def State.deviceByte (n : PortNo) (s : State) (b : LineByte) : State :=
  match s.ports[n].exchange with
  | none => s
  | some x =>
    if x.windowOpen then
      if b.stopLow then (s.setGot n x []).deviceFrameIn n .bad
      else
        let got := x.got ++ [b.value]
        let length := headerLength (u8At got 0)
        if length ≥ 25 then (s.setGot n x []).deviceFrameIn n .bad
        else if got.length = length + 2 then (s.setGot n x []).deviceFrameIn n (checkFrame got)
        else s.setGot n x got
    else s

/-- R22: bytes from the device of port n, in order. -/
def State.deviceBytes (s : State) (n : PortNo) (bs : List LineByte) : State := bs.foldl (State.deviceByte n) s

/-! ## Service mode and forwarding (R40–R42) -/

/-- R41: service mode ends on port n, if it holds it; where its poll timer runs, polling resumes at the next
expiry. -/
def State.serviceOff (s : State) (n : PortNo) : State :=
  if s.inService n then
    State.setPort { s with service := none } n { s.ports[n] with resumes := s.ports[n].pollTimer.isSome }
  else s

/-- R40, R41: the port that holds service mode, if one does, loses it. -/
def State.serviceEnds (s : State) : State :=
  match s.service with
  | some m => s.serviceOff m
  | none => s

/-- R40: port n gets service mode, another port's ending first. -/
def State.serviceOn (s : State) (n : PortNo) : State :=
  if s.inService n then s
  else
    let t := { s.serviceEnds with service := some n }
    (t.setPort n { t.ports[n] with missed := 0, pollDue := false, resumes := false }).portStatus n .stale

/-! ## The PORT operations (R37) -/

/-- The PORT operations. -/
inductive PortOp where
  | send (data : List Byte)
  | service (on : Bool)
  | forward (on : Bool)
  | probe
  deriving DecidableEq, Repr

/-- R37: SERVICE and FORWARD with on 0 are taken in every port state. -/
def PortOp.always : PortOp → Bool
  | .service on | .forward on => !on
  | .send _ | .probe => false

/-- R37: the table of port states. -/
def Port.refusal (p : Port) (op : PortOp) : Option Status :=
  let smartOnly (st : Status) : Option Status :=
    match op with
    | .probe => none
    | .send _ | .service _ | .forward _ => some st
  let forwardOnly : Option Status :=
    match op with
    | .forward _ => none
    | .send _ | .service _ | .probe => some .inUse
  match p.state with
  | .empty => some .portEmpty
  | .detecting => some .inUse
  | .probing => forwardOnly
  | .bound | .unknown => if p.smart then none else smartOnly .badIndex
  | .fault =>
    if p.fault = .idShort then smartOnly .badIndex
    else match op with
      | .forward _ | .probe => none
      | .send _ | .service _ => some .inUse

/-- R38–R43: what a taken operation can still refuse. -/
def State.portOpRefusal (s : State) (n : PortNo) (op : PortOp) : Option Status :=
  let p := s.ports[n]
  match op with
  | .send _ => if p.pass.isSome then some .portBusy else none
  | .service true => if s.motors[n].mode.driving ∨ p.pass.isSome then some .inUse else none
  | .service false | .forward _ => none
  | .probe => if s.inService n then some .inUse else if p.pass.isSome then some .portBusy else none

/-- R37 and the operations' own refusals. -/
def State.portRefusal (s : State) (n : PortNo) (op : PortOp) : Option Status :=
  if op.always then none else (s.ports[n].refusal op).or (s.portOpRefusal n op)

/-- R43: PORT PROBE. -/
def State.probe (s : State) (n : PortNo) : State :=
  let t := s.setPort n s.ports[n].quiet
  let t := if s.ports[n].state = .bound then t.loseMotor n .rebound else t
  ((t.portStatus n .noSource).setLineMode n .none 0).enterDetecting n

/-- R38–R43: an operation that passed its checks; a SEND holds the answer place of this order. -/
def State.runPortOp (s : State) (n : PortNo) (op : PortOp) (place : Nat) : State :=
  match op with
  | .send data => (s.setPort n { s.ports[n] with pass := some { place := place, data := data } }).startWork n
  | .service true => s.serviceOn n
  | .service false => s.serviceOff n
  | .forward on => s.setPort n { s.ports[n] with forward := on }
  | .probe => s.probe n

/-! ## Detach (R44) and the detect filter (R24) -/

/-- R44: the record of a port whose device left; the pin and the detect filter stand. -/
def Port.detached (p : Port) : Port :=
  { p.clearIdentity.quiet with state := .empty, band := none, forward := false }

/-- R44: a detach undoes everything the port held. -/
def State.detach (s : State) (n : PortNo) : State :=
  let t := (s.answerPass n .noDevice []).loseMotor n .detached
  let t := ((t.portStatus n .noSource).setLineMode n .none 0).serviceOff n
  let t := t.cancelIdent n
  ((t.setPort n t.ports[n].detached).post .portDetach (portByte n) 0).portNotice n

/-- R24: the accepted level follows the DET level at the timer's expiry, as an attach or a detach. -/
def State.acceptDet (s : State) (n : PortNo) : State :=
  let p := s.ports[n]
  if p.det = p.detAccepted then s
  else
    let t := s.setPort n { p with detAccepted := p.det }
    if p.det then (if p.state = .empty then t.enterDetecting n else t)
    else if p.state = .empty then t
    else t.detach n

/-! ## Steps -/

/-- DET_CHANGE (R24): a change of the level restarts the debounce timer at 20 ms. -/
def execDetChange (n : PortNo) (closed : Bool) (s : State) : Host.Outcome State Fault Refusal :=
  if s.ports[n].det = closed then .next s
  else .next (s.setPort n { s.ports[n] with det := closed, detTimer := some 20 })

/-- DET_DEBOUNCE_EXPIRY (R24). -/
def execDetDebounceExpiry (n : PortNo) (s : State) : Host.Outcome State Fault Refusal :=
  match s.ports[n].detTimer with
  | none => .next s
  | some _ => settled ((s.setPort n { s.ports[n] with detTimer := none }).acceptDet n)

/-- ID_CONVERSION_DONE (R26, R53, R54), while an ID conversion is in flight. -/
def execIdConversionDone (code : BitVec 12) (s : State) : Host.Outcome State Fault Refusal :=
  match s.scan.work with
  | .ident n void =>
    settled (State.converterNext (if void then s else s.identResult n code))
  | .idle | .slot .. => .next s

/-- QUERY_TRY_DUE (R27): the engine begins the try when it is free. -/
def execQueryTryDue (n : PortNo) (s : State) : Host.Outcome State Fault Refusal :=
  match s.ports[n].queryTimer with
  | none => .next s
  | some _ => .next ((s.setPort n { s.ports[n] with queryTimer := none, queryDue := true }).startWork n)

/-- DEVICE_FRAME_SENT (R36): the transmission ends and the reply window opens. -/
def execDeviceFrameSent (n : PortNo) (s : State) : Host.Outcome State Fault Refusal :=
  match s.ports[n].exchange with
  | none => .next s
  | some x => .next (s.setPort n { s.ports[n] with exchange := some { x with windowOpen := true } })

/-- The kind of the open reply window at port n, if one is open. -/
def Port.window (p : Port) : Option ExchangeKind :=
  p.exchange.bind (fun x => if x.windowOpen then some x.kind else none)

/-- QUERY_WINDOW_CLOSE (R27). -/
def execQueryWindowClose (n : PortNo) (s : State) : Host.Outcome State Fault Refusal :=
  if s.ports[n].window = some .query then settled (((s.endExchange n).queryFailed n).startWork n) else .next s

/-- POLL_WINDOW_CLOSE (R34). -/
def execPollWindowClose (n : PortNo) (s : State) : Host.Outcome State Fault Refusal :=
  if s.ports[n].window = some .poll then settled (((s.endExchange n).pollMissed n).startWork n) else .next s

/-- WRITE_WINDOW_CLOSE (R38). -/
def execWriteWindowClose (n : PortNo) (s : State) : Host.Outcome State Fault Refusal :=
  if s.ports[n].window = some .write then
    settled (((s.endExchange n).answerPass n .deviceTimeout []).startWork n)
  else .next s

/-- IDENT_RECEIVED (R27): the bytes of an IDENT frame arrive. -/
def execIdentReceived (n : PortNo) (payload : List Byte) (s : State) : Host.Outcome State Fault Refusal :=
  settled (s.deviceBytes n (onLine (deviceFrame 4 payload)))

/-- DATA_RECEIVED (R33): the bytes of a DATA frame arrive. -/
def execDataReceived (n : PortNo) (payload : List Byte) (s : State) : Host.Outcome State Fault Refusal :=
  settled (s.deviceBytes n (onLine (deviceFrame 5 payload)))

/-- ACK_RECEIVED (R38): the bytes of an ACK frame arrive. -/
def execAckReceived (n : PortNo) (payload : List Byte) (s : State) : Host.Outcome State Fault Refusal :=
  settled (s.deviceBytes n (onLine (deviceFrame 6 payload)))

/-- NAK_RECEIVED (R38): the bytes of a NAK frame arrive. -/
def execNakReceived (n : PortNo) (payload : List Byte) (s : State) : Host.Outcome State Fault Refusal :=
  settled (s.deviceBytes n (onLine (deviceFrame 7 payload)))

/-- BAD_DEVICE_FRAME (R22): bytes arrive, and the engine delimits and checks what they hold. -/
def execBadDeviceFrame (n : PortNo) (bytes : List LineByte) (s : State) : Host.Outcome State Fault Refusal :=
  settled (s.deviceBytes n bytes)

/-- POLL_TIMER_EXPIRY (R32, R40): a POLL is due unless the port is in service mode; the timer restarts. Where
polling resumes after service mode, missed is 0 at that point (R41, log 36). -/
def execPollTimerExpiry (n : PortNo) (s : State) : Host.Outcome State Fault Refusal :=
  let p := s.ports[n]
  match p.pollTimer with
  | none => .next s
  | some _ =>
    if s.inService n then .next s
    else
      .next ((s.setPort n { p with pollDue := true, resumes := false,
                                   missed := if p.resumes then 0 else p.missed }).startWork n)

/-- REPROBE_EXPIRY (R35): a new ID measurement, or one query try; the timer restarts at 500 ms. -/
def execReprobeExpiry (n : PortNo) (s : State) : Host.Outcome State Fault Refusal :=
  match s.ports[n].reprobeTimer with
  | none => .next s
  | some _ =>
    let t := s.setPort n { s.ports[n] with reprobeTimer := some 500 }
    if s.ports[n].fault = .idShort then .next (t.requestIdent n)
    else .next ((t.setPort n { t.ports[n] with queryDue := true }).startWork n)

end Sys2Proof.Machine
end

