-- ==== Sys2Proof/Machine/Budgets.lean ====
section
/-! DEFINITION. The drive budget: the window (R120–R128), its events and notice (R130), and the allowance cut of
a SETTINGS write (R129). -/

namespace Sys2Proof.Machine

/-! ## Battery and ceiling (R121) -/

/-- R121: the battery value, when budget_source names an entry that is VALID. -/
def State.battery (s : State) : Option Int :=
  if h : s.settings.budgetSource.toNat < 32 then
    let e := s.conv[s.settings.budgetSource.toNat]
    if e.status = .valid then some e.value.toInt else none
  else none

/-- The first of the qualifying rows that no other qualifying row beats; a later row must be strictly better. -/
def bestRow (rows : Vector BudgetRow 6) (qualifies : BudgetRow → Bool) (better : BudgetRow → BudgetRow → Bool) :
    Option (Fin 6) :=
  (List.finRange 6).foldl
    (fun best i =>
      if qualifies rows[i] then
        match best with
        | none => some i
        | some j => if better rows[i] rows[j] then some i else some j
      else best) none

/-- R121: with a battery value, the row of the greatest min_mV not above it; without, the row of the smallest
ceiling; the lowest index among equals. -/
def chooseRow (rows : Vector BudgetRow 6) (battery : Option Int) : Option (Fin 6) :=
  match battery with
  | some mv =>
    bestRow rows (fun r => r.valid && decide ((r.minMv.toNat : Int) ≤ mv))
      (fun r q => decide (q.minMv.toNat < r.minMv.toNat))
  | none => bestRow rows BudgetRow.valid (fun r q => decide (r.ceiling.toNat < q.ceiling.toNat))

/-- R121: the ceiling C of the chosen row; 0 when none qualifies. -/
def rowCeiling (rows : Vector BudgetRow 6) (row : Option (Fin 6)) : Nat :=
  match row with
  | some i => rows[i].ceiling.toNat
  | none => 0

/-! ## Demands (R122) -/

/-- R122: the demand of a motor-bound channel. -/
def motorLoad (d : Int) (load : Nat) : Nat := ceilDiv (d.natAbs * load) 1000

/-- R122: D_i of a channel; 0 when it takes no part. -/
def State.channelDemand (s : State) (n : PortNo) : Nat :=
  match s.motorProfile n with
  | some p => motorLoad s.motors[n].dutyRequest p.ratedLoad.toNat
  | none => 0

/-- R122: M. -/
def State.motorDemand (s : State) : Nat := (allPorts.map s.channelDemand).sum

/-- R125: the number of motor-bound channels. -/
def State.motorCount (s : State) : Nat := allPorts.countP (fun n => (s.motorProfile n).isSome)

/-- R122: v, the master volume while the engine is active. -/
def Sound.demandVolume (e : Sound) : Nat := if e.active then e.master else 0

/-- R122: S of a volume. -/
def soundLoad (v load : Nat) : Nat := ceilDiv (v * load) 100

/-! ## What a window works out (R123–R127) -/

/-- The inputs of the fit check: C, M, v, Ls, sound_floor and the number of motor-bound channels. -/
structure WindowInput where
  ceiling : Nat
  demand  : Nat
  volume  : Nat
  load    : Nat
  floor   : Nat
  motors  : Nat
  deriving DecidableEq, Repr

/-- What a window grants: the state it ends in, the share, the motor scale, and the sound's grant and allowance. -/
structure WindowGrant where
  state          : BudgetState
  share          : Nat
  scale          : Nat
  soundGrant     : Nat
  soundAllowance : Nat
  deriving DecidableEq, Repr

/-- R125: n, the number of consumers. -/
def WindowInput.consumers (w : WindowInput) : Nat := w.motors + if w.load > 0 then 1 else 0

/-- R125: e, the share of each consumer; 0 without consumers. -/
def WindowInput.headroom (w : WindowInput) : Nat :=
  (w.ceiling - w.demand - soundLoad w.volume w.load) / w.consumers

/-- R125: NORMAL. -/
def WindowInput.normal (w : WindowInput) : WindowGrant :=
  { state := .normal, share := w.headroom, scale := 1024, soundGrant := w.volume,
    soundAllowance := if w.load > 0 then min 100 (w.volume + w.headroom * 100 / w.load) else 100 }

/-- R126: v_p, the protected volume. -/
def WindowInput.protectedVolume (w : WindowInput) : Nat :=
  if w.load > 0 then min w.volume (min w.floor (w.ceiling * 100 / w.load)) else w.volume

/-- R126: C_m, the motors' part of the ceiling. -/
def WindowInput.motorCeiling (w : WindowInput) : Nat := w.ceiling - soundLoad w.protectedVolume w.load

/-- R126, R127: LIMITING. With Ls of 0 the first case does not arise (R126). -/
def WindowInput.limiting (w : WindowInput) : WindowGrant :=
  if w.demand ≤ w.motorCeiling then
    let v := min w.volume ((w.ceiling - w.demand) * 100 / w.load)
    { state := .limiting, share := 0, scale := 1024, soundGrant := v, soundAllowance := v }
  else
    { state := .limiting, share := 0, scale := w.motorCeiling * 1024 / w.demand,
      soundGrant := w.protectedVolume, soundAllowance := w.protectedVolume }

/-- R125: the fit check. -/
def WindowInput.granting (w : WindowInput) : WindowGrant :=
  if w.demand + soundLoad w.volume w.load ≤ w.ceiling then w.normal else w.limiting

/-- R123: what a window that ends in BROWNOUT grants. -/
def brownoutGrant : WindowGrant :=
  { state := .brownout, share := 0, scale := 0, soundGrant := 0, soundAllowance := 0 }

/-- R123, R124: the brownout check and the recovery count, then the fit check. The second part is recovery. -/
def WindowInput.evaluate (w : WindowInput) (before : BudgetState) (recovery recover : Nat) : WindowGrant × Nat :=
  match before with
  | .normal | .limiting => if w.ceiling = 0 then (brownoutGrant, 0) else (w.granting, recovery)
  | .brownout =>
    if w.ceiling = 0 then (brownoutGrant, 0)
    else
      let r := min 255 (recovery + 1)
      if r ≥ recover then (w.granting, 0) else (brownoutGrant, r)

/-- R123, R125–R127: the granted duty of a request. -/
def WindowGrant.duty (g : WindowGrant) (d : Int) : Int :=
  match g.state with
  | .brownout => 0
  | .normal | .limiting => (d * g.scale).tdiv 1024

/-- R123, R125–R127: the allowance of a channel with this request and rated load. -/
def WindowGrant.allowance (g : WindowGrant) (d : Int) (load : Nat) : Nat :=
  match g.state with
  | .brownout => 0
  | .normal => if load = 0 then 1000 else min 1000 (d.natAbs + g.share * 1000 / load)
  | .limiting => if load = 0 then 1000 else (g.duty d).natAbs

/-! ## The window (R120–R130) -/

/-- The inputs of a window as they stand at the expiry. -/
def State.windowInput (s : State) : WindowInput :=
  { ceiling := rowCeiling s.budget.rows (chooseRow s.budget.rows s.battery), demand := s.motorDemand,
    volume := s.sound.demandVolume, load := s.settings.speakerLoad.toNat, floor := s.settings.soundFloor.toNat,
    motors := s.motorCount }

/-- What the window grants, and recovery after it. -/
def State.windowGrant (s : State) : WindowGrant × Nat :=
  s.windowInput.evaluate s.budget.record.state s.budget.record.recovery s.settings.brownoutRecover.toNat

/-- R119, R128: the record the window works out. -/
def State.windowRecord (s : State) : BudgetRecord :=
  let w := s.windowInput
  let g := s.windowGrant
  { state := g.1.state, ceiling := w.ceiling, row := chooseRow s.budget.rows s.battery,
    batteryValid := s.battery.isSome, batteryMv := s.battery.getD 0, motorDemand := w.demand,
    soundDemand := soundLoad w.volume w.load, soundVolume := w.volume, share := g.1.share, scale := g.1.scale,
    soundGrant := g.1.soundGrant, soundAllowance := g.1.soundAllowance, recovery := g.2,
    windowCount := s.budget.record.windowCount + 1 }

/-- R101, R128: a channel motor-bound at the expiry takes its allowance and granted duty. -/
def Motor.granted (m : Motor) (g : WindowGrant) (load : Nat) : Motor :=
  { m with dutyGrant := g.duty m.dutyRequest, allowance := g.allowance m.dutyRequest load }

/-- R128: the write-back to one channel. -/
def State.grantChannel (g : WindowGrant) (s : State) (n : PortNo) : State :=
  match s.motorProfile n with
  | some p => s.setMotor n (s.motors[n].granted g p.ratedLoad.toNat)
  | none => s

/-- R130: the event of a state. -/
def BudgetState.event : BudgetState → EventKind
  | .normal => .budgetNormal
  | .limiting => .budgetLimit
  | .brownout => .brownout

/-- R123, R130: a window whose state differs posts its event and queues BUDGET_CHANGE; one that enters BROWNOUT
then tells every channel. -/
def State.budgetChange (s : State) (before : BudgetState) : State :=
  let r := s.budget.record
  if r.state = before then s
  else
    let t := (s.post r.state.event 0 (codeIn BudgetState.list before)).notify
      (.budgetChange r.state before r.ceiling r.row r.batteryValid r.batteryMv r.scale)
    if r.state = .brownout then t.stopAll .brownout else t

/-- R119, R120, R128: the record, timer and sound volumes a window leaves. -/
def State.windowWrite (s : State) : State :=
  { s with
    budget := { s.budget with record := s.windowRecord, window := some s.settings.budgetWindowMs.toNat,
                              loadOld := s.settings.speakerLoad.toNat },
    sound := { s.sound with granted := s.windowGrant.1.soundGrant, allowance := s.windowGrant.1.soundAllowance } }

/-- R120–R130: one window, taken whole. -/
def State.window (s : State) : State :=
  allPorts.foldl (State.grantChannel s.windowGrant.1) (s.windowWrite.budgetChange s.budget.record.state)

/-- BUDGET_WINDOW_EXPIRY (R120); the window timer runs at all times. -/
def execBudgetWindowExpiry (s : State) : Host.Outcome State Fault Refusal := settled s.window

/-! ## Between windows -/

/-- R129: a SETTINGS write that raises speaker_load_mA above Ls_old cuts the volume allowance. -/
def State.allowanceCut (s : State) (load : Nat) : State :=
  if load > s.budget.loadOld then
    let v := s.sound.allowance * s.budget.loadOld / load
    { s with budget := { s.budget with record := { s.budget.record with soundAllowance := v }, loadOld := load },
             sound := { s.sound with allowance := v } }
  else s

end Sys2Proof.Machine
end

