-- ==== Sys2Proof/Machine/Reactions.lean ====
section
/-! DEFINITION. The reaction table: matching (R151), LEVEL sense (R154), actions (R155–R158) and dispatch (R152,
R153). -/

namespace Sys2Proof.Machine

/-! ## Matching -/

/-- Section 9.2: the number of indices of a kind; 0 for a kind that carries none. -/
def EventKind.indices : EventKind → Nat
  | .none | .budgetLimit | .budgetNormal | .brownout | .queueLow | .toneIdle | .clipEnd | .scanDone | .linkSilent => 0
  | .alarmHigh | .alarmLow | .alarmClear | .railFault => 32
  | .markA | .markB | .markOn | .markOff | .runEnd | .stallWarn | .lineRise | .lineFall | .portAttach | .portBound
  | .portDetach | .portFault => 6

/-- R151: an event of a block matches an entry. -/
def Reaction.matchesEvent (r : Reaction) (e : Event) : Bool :=
  r.triggerKind != .none && r.triggerKind == e.kind &&
    (e.kind.indices == 0 || r.triggerIndex == 255 || r.triggerIndex == e.index) &&
    (r.triggerDetail == 255 || r.triggerDetail == e.detail)

/-! ## LEVEL sense (R154) -/

/-- The lowest value below n at which a condition holds; with an index other than 255, that one alone. -/
def lowestHolding (n : Nat) (index : Byte) (holds : Nat → Bool) : Option Nat :=
  (List.range n).find? (fun i => (index == 255 || index.toNat == i) && holds i)

/-- A condition over ports, units or channels by number. -/
def atPort (f : PortNo → Bool) (i : Nat) : Bool := if h : i < 6 then f ⟨i, h⟩ else false

/-- R55: the shown level of a line. -/
def Lines.shown (l : Lines) : Line → Bool
  | .l1 => l.shown1
  | .l2 => l.shown2

/-- R154: the lines a LINE trigger's detail names, the lower first. -/
def namedLines (detail : Byte) : List Line :=
  if detail = 255 then [.l1, .l2] else if detail = 0 then [.l1] else if detail = 1 then [.l2] else []

/-- R154: the index and detail of a LINE trigger whose level holds. -/
def State.lineHolding (s : State) (r : Reaction) (high : Bool) : Option (Byte × Byte) :=
  let holds (n : PortNo) (line : Line) : Bool := s.lines[n].shown line == high
  (lowestHolding 6 r.triggerIndex (atPort fun n => (namedLines r.triggerDetail).any (holds n))).map fun i =>
    (byteOf i, (((namedLines r.triggerDetail).find? (holds (Fin.ofNat 6 i))).map lineCode).getD 0)

/-- R154: an entry's holding condition, judged from the owning blocks: the index found and the detail of the
level record. -/
def State.holding (s : State) (r : Reaction) : Option (Byte × Byte) :=
  let index (n : Nat) (holds : Nat → Bool) : Option (Byte × Byte) :=
    (lowestHolding n r.triggerIndex holds).map fun i => (byteOf i, 0)
  let alarm (a : Alarm) (i : Nat) : Bool := if h : i < 32 then s.conv[i].alarm == a else false
  match r.triggerKind with
  | .markOn => index 6 (atPort fun n => s.marks[n].isOn)
  | .markOff => index 6 (atPort fun n => !s.marks[n].isOn)
  | .alarmHigh => index 32 (alarm .high)
  | .alarmLow => index 32 (alarm .low)
  | .lineRise => s.lineHolding r true
  | .lineFall => s.lineHolding r false
  | .portBound =>
    (lowestHolding 6 r.triggerIndex (atPort fun n =>
      s.ports[n].state == .bound && (r.triggerDetail == 255 || orNone s.ports[n].profile == r.triggerDetail))).map
      fun i => (byteOf i, orNone s.ports[Fin.ofNat 6 i].profile)
  | .brownout => if s.budget.record.state = .brownout then some (0, 0) else none
  | .linkSilent => if s.link.state = .silent then some (0, 0) else none
  | .none | .markA | .markB | .runEnd | .stallWarn | .alarmClear | .railFault | .portAttach | .portDetach
  | .portFault | .budgetLimit | .budgetNormal | .queueLow | .toneIdle | .clipEnd | .scanDone => none

/-- R154: an enabled entry becomes enabled: with LEVEL sense and its condition holding, it offers a level record. -/
def State.becomesEnabled (s : State) (i : Fin 24) : State :=
  let r := s.reactions[i]
  if r.enabled ∧ r.level then
    match s.holding r with
    | some h => { s with bus := s.bus.postRecord r.triggerKind h.1 h.2 (some i) }
    | none => s
  else s

/-! ## Actions (R155–R158) -/

/-- R155: ENABLE. -/
def State.enable (s : State) (i : Fin 24) : State :=
  if s.reactions[i].enabled then s
  else (s.setReaction i { s.reactions[i] with enabled := true }).becomesEnabled i

/-- R155: DISABLE. -/
def State.disable (s : State) (i : Fin 24) : State := s.setReaction i { s.reactions[i] with enabled := false }

/-- R108: the end action of arg1, if it is one. -/
def Reaction.endAction (r : Reaction) : Option EndAction :=
  let e := r.arg1.toInt.fdiv 65536
  if 0 ≤ e then EndAction.list[e.toNat]? else none

/-- R108: arg1 modulo 65,536. -/
def Reaction.arg1Low (r : Reaction) : Nat := (r.arg1.toInt.fmod 65536).toNat

/-- R108: the operation of a MOTOR action; none where its code or end action is a failure. A FOLLOW entry that is
negative is taken unsigned, so the channel refuses it as beyond 31. -/
def Reaction.motorOp (r : Reaction) : Option MotorOp :=
  match r.arg2.toNat with
  | 0 => some .coast
  | 1 => some .brake
  | 2 => some (.duty r.arg0.toInt)
  | 3 => some (.speed r.arg0.toInt)
  | 4 => r.endAction.map (MotorOp.runTo r.arg0 r.arg1Low)
  | 5 => r.endAction.map (MotorOp.runFor r.arg0.toInt r.arg1Low)
  | 6 => some .hold
  | 7 => some (.follow r.arg0.toNat (BitVec.ofInt 16 (clampInt (-32768) 32767 r.arg1.toInt)))
  | 8 => some (.setCount r.arg0)
  | _ => none

/-- R157: the action is blocked while SILENT: a MOTOR action with a driving operation code. -/
def Reaction.blockable (r : Reaction) : Bool := decide (2 ≤ r.arg2.toNat) && decide (r.arg2.toNat ≤ 7)

/-- R146: the sound operation of a SOUND_TONE, SOUND_CLIP or SOUND_STOP action; none where it fails at once. -/
def Reaction.soundOp (r : Reaction) : Option SoundOp :=
  match r.actionKind with
  | .soundTone =>
    (valueIn Waveform.list (r.arg2.extractLsb' 0 8)).map fun w =>
      .tone { pitch := (clampInt 0 8000 r.arg0.toInt).toNat, duration := (clampInt 1 4000 r.arg1.toInt).toNat,
              waveform := w, level := min 100 (r.arg2.toNat / 256) }
  | .soundClip =>
    some (.clip r.actionTarget.toNat (clampInt 0 255 r.arg0.toInt).toNat (clampInt 0 100 r.arg1.toInt).toNat)
  | .soundStop =>
    if r.arg0 = 0 then some .stopTone else if r.arg0 = 1 then some .stopClip
    else if r.arg0 = 2 then some .stopAll else none
  | .none | .notify | .motor | .enable | .disable | .markSet | .reportNow | .scanStart | .scanSingle | .scanStop =>
    none

/-- R158: a failure is counted. -/
def State.fail (s : State) : State := { s with failures := satInc s.failures }

/-- R156–R158: a MOTOR action. -/
def State.motorAction (s : State) (r : Reaction) : State :=
  if s.link.state = .silent ∧ r.blockable then { s with blocked := satInc s.blocked }
  else if h : r.actionTarget.toNat < 6 then
    match r.motorOp with
    | none => s.fail
    | some op =>
      match s.motorRefusal ⟨r.actionTarget.toNat, h⟩ op with
      | some _ => s.fail
      | none => s.runMotorOp ⟨r.actionTarget.toNat, h⟩ op false
  else s.fail

/-- R146, R158: a sound action. -/
def State.soundAction (s : State) (r : Reaction) : State :=
  match r.soundOp with
  | none => s.fail
  | some op =>
    match s.soundRefusal op with
    | some _ => s.fail
    | none => s.runSoundOp op

/-- R116, R158: a MARK_SET action. -/
def State.markAction (s : State) (r : Reaction) : State :=
  if h : r.actionTarget.toNat < 6 then (s.markSet ⟨r.actionTarget.toNat, h⟩ r.arg0.toInt).getD s.fail else s.fail

/-- R155, R156: the action of a firing entry. A target beyond its kind's range is refused when the entry is
written (R148), so the `else` branches are of states no write makes. -/
def State.act (s : State) (i : Fin 24) (r : Reaction) (e : Event) : State :=
  match r.actionKind with
  | .none => s
  | .notify => s.notify (.reaction i e)
  | .motor => s.motorAction r
  | .soundTone | .soundClip | .soundStop => s.soundAction r
  | .enable => if h : r.actionTarget.toNat < 24 then s.enable ⟨r.actionTarget.toNat, h⟩ else s
  | .disable => if h : r.actionTarget.toNat < 24 then s.disable ⟨r.actionTarget.toNat, h⟩ else s
  | .markSet => s.markAction r
  | .reportNow => if h : r.actionTarget.toNat < 12 then s.reportDue ⟨r.actionTarget.toNat, h⟩ else s
  | .scanStart => s.scanOp .start
  | .scanSingle => s.scanOp .single
  | .scanStop => s.scanOp .stop

/-! ## Dispatch (R152, R153) -/

/-- R152: the entry after a firing: the hit counted, ONCE disabled. -/
def Reaction.fired (r : Reaction) : Reaction :=
  { r with hitCount := satInc r.hitCount, enabled := r.enabled && r.always }

/-- R153: the entry whose action is carried out. -/
def Bus.atEntry (b : Bus) (i : Fin 24) : Bus :=
  { b with dispatch := b.dispatch.map (fun d => { d with entry := i }) }

/-- R152: an entry fires. -/
def State.fire (s : State) (i : Fin 24) (e : Event) : State :=
  let r := s.reactions[i]
  State.act { s.setReaction i r.fired with bus := s.bus.atEntry i } i r e

/-- R152: a candidate is reached. It fires if it is enabled then, also where an earlier firing of this dispatch disabled it
and a later one enabled it again (log 38). -/
def State.reach (e : Event) (s : State) (i : Fin 24) : State :=
  if s.reactions[i].enabled then s.fire i e else s

/-- R152, R154: the candidates of a record: of an event, the enabled entries it matches; of a level record, its
directed entry, if that has LEVEL sense and the record's kind. -/
def State.candidates (s : State) (e : Event) : List (Fin 24) :=
  match e.directed with
  | none => (List.finRange 24).filter (fun i => s.reactions[i].enabled && s.reactions[i].matchesEvent e)
  | some i => if s.reactions[i].level ∧ s.reactions[i].triggerKind = e.kind then [i] else []

/-- R150, R152: the head record leaves the queue; taking the last clears the overflow flag. -/
def Bus.takeEvent (b : Bus) (e : Event) (rest : List Event) : Bus :=
  { b with events := rest, overflow := b.overflow && !rest.isEmpty,
           dispatch := some { record := e, entry := 0, cut := false } }

/-- R152: the dispatcher falls IDLE. -/
def Bus.endDispatch (b : Bus) : Bus := { b with dispatch := none }

/-- R152: one dispatch, taken whole. -/
def State.dispatchEvent (s : State) (e : Event) (rest : List Event) : State :=
  let t := (s.candidates e).foldl (State.reach e) { s with bus := s.bus.takeEvent e rest }
  { t with bus := t.bus.endDispatch }

/-- EVENT_DISPATCH (R152), while the queue holds a record. -/
def execEventDispatch (s : State) : Host.Outcome State Fault Refusal :=
  match s.bus.events with
  | [] => .next s
  | e :: rest => settled (s.dispatchEvent e rest)

end Sys2Proof.Machine
end

