-- ==== Sys2Proof/Machine/Operands.lean ====
section
/-! DEFINITION. Operands of commands: the records of a TABLE WRITE with their owners' checks and clamps (R9, R21),
the payload forms of MOTOR, SOUND, SCAN, PORT and REPORT NOW, and the payloads the typed commands stand for. -/

namespace Sys2Proof.Machine

/-! ## Clamping and flags -/

/-- A byte clamped to a range. -/
def clampByte (lo hi : Nat) (b : Byte) : Byte := byteOf (clampNat lo hi b.toNat)

/-- A 16-bit field clamped to a range. -/
def clampHalf (lo hi : Nat) (x : Half) : Half := halfOf (clampNat lo hi x.toNat)

/-- R21: a flag byte; every value but 0 is taken as 1. -/
def flagIn (b : Byte) : Bool := b != 0

/-- R21: a flag value of 2–255 is clamped. -/
def flagClamped (b : Byte) : Bool := decide (2 ≤ b.toNat)

/-! ## Records (R8, check 5)

A decoder answers the record as stored and whether a value was clamped (R9), or none where the record fails. -/

/-- R14: the clamps of SETTINGS. -/
def Settings.clamped (r : Settings) : Settings :=
  { r with silenceMs := if r.silenceMs = 0 then 0 else clampHalf 50 5000 r.silenceMs,
           budgetWindowMs := clampByte 5 50 r.budgetWindowMs, brownoutRecover := clampByte 1 255 r.brownoutRecover,
           speakerLoad := clampHalf 0 1000 r.speakerLoad, soundFloor := clampByte 0 100 r.soundFloor,
           queueLowMark := clampByte 0 31 r.queueLowMark, scanStart := clampByte 0 15 r.scanStart,
           scanStop := clampByte 0 15 r.scanStop }

/-- R14. -/
def Settings.decode (bs : List Byte) : Option (Settings × Bool) :=
  let r : Settings :=
    { silenceMs := u16At bs 0, budgetWindowMs := u8At bs 2, budgetSource := u8At bs 3,
      brownoutRecover := u8At bs 4, speakerLoad := u16At bs 5, soundFloor := u8At bs 7,
      queueLowMark := u8At bs 8, scanStart := u8At bs 9, scanStop := u8At bs 10 }
  if 32 ≤ r.budgetSource.toNat ∧ r.budgetSource ≠ 255 then none else some (r.clamped, decide (r.clamped ≠ r))

/-- R30: a valid record fails. -/
def Profile.bad (r : Profile) : Bool :=
  let c := r.cls.toNat
  let src := r.positionSource.toNat
  decide (c = 0) || decide (7 ≤ c ∧ c ≤ 15) || (decide (1 ≤ c ∧ c ≤ 6) && (r.variant != 0 || r.lineUse == .device)) ||
    (decide (16 ≤ c) && r.lineUse != .device) || decide (6 ≤ src ∧ src ≤ 254) ||
    (r.use == .motor && decide (src = 255) && r.lineUse != .quadrature) ||
    (r.use == .motor && decide (src ≤ 5) && r.lineUse != .device)

/-- R30: the clamps of a valid record. -/
def Profile.clamped (r : Profile) : Profile :=
  { r with debounceMs := clampByte 0 31 r.debounceMs, cpr := clampHalf 1 4096 r.cpr,
           ratedLoad := clampHalf 0 3000 r.ratedLoad, regPeriod := clampByte 4 50 r.regPeriod,
           inposCount := clampByte 1 16 r.inposCount, approachGain := clampByte 1 16 r.approachGain,
           kp := clampHalf 0 1023 r.kp, ki := clampHalf 0 1023 r.ki,
           imax := BitVec.ofNat 32 (min 4000000 r.imax.toNat), stallDuty := clampHalf 100 1000 r.stallDuty,
           stallSpeed := clampHalf 0 500 r.stallSpeed, pollMs := clampByte 5 250 r.pollMs }

/-- R30: enumerated fields are checked in every record, the rest in a valid one. -/
def Profile.decode (bs : List Byte) : Option (Profile × Bool) := do
  let use ← valueIn Use.list (u8At bs 3)
  let lineUse ← valueIn LineMode.list (u8At bs 4)
  let safeAction ← valueIn SafeAction.list (u8At bs 7)
  let r : Profile :=
    { valid := flagIn (u8At bs 0), cls := u8At bs 1, variant := u8At bs 2, use := use, lineUse := lineUse,
      debounceMs := u8At bs 5, positionSource := u8At bs 6, safeAction := safeAction, cpr := u16At bs 8,
      ratedLoad := u16At bs 10, regPeriod := u8At bs 12, inposCount := u8At bs 13, tolerance := u8At bs 14,
      approachGain := u8At bs 15, kp := u16At bs 16, ki := u16At bs 18, imax := u32At bs 20,
      stallDuty := u16At bs 24, stallSpeed := u16At bs 26, stallWarn := u8At bs 28, stallStop := u8At bs 29,
      pollMs := u8At bs 30 }
  if r.valid then
    if r.bad then none else some (r.clamped, flagClamped (u8At bs 0) || decide (r.clamped ≠ r))
  else some (r, false)

/-- R46: what a written average is stored as. -/
def storedAverage (n : Nat) : Nat := if n ≤ 1 then 1 else if n = 2 then 2 else if n ≤ 5 then 4 else 8

/-- R46. -/
def ScanSlot.decode (bs : List Byte) : Option (ScanSlot × Bool) :=
  if h : (u8At bs 0).toNat < 8 then
    let n := (u8At bs 1).toNat
    some ({ input := ⟨(u8At bs 0).toNat, h⟩, average := storedAverage n }, decide (storedAverage n ≠ n))
  else none

/-- R62: the number of indices a source kind admits in entry i. -/
def SourceKind.indices (k : SourceKind) (i : Nat) : Nat :=
  match k with
  | .none => 256
  | .slot => 16
  | .entry => i
  | .deviceField | .encoder | .pulseHigh | .pulsePeriod | .pulseDuty | .motorSpeed => 6

/-- R62: a record for entry i fails. -/
def ConvConfig.bad (r : ConvConfig) (i : Nat) : Bool :=
  decide (r.sourceKind.indices i ≤ r.sourceIndex.toNat) ||
    (r.sourceKind == .deviceField && decide (5 < r.sourceField.toNat)) ||
    (r.railCheck && r.sourceKind != .slot) || (r.window == .both && decide (r.high.toInt < r.low.toInt))

/-- R62: the clamps. -/
def ConvConfig.clamped (r : ConvConfig) : ConvConfig :=
  { r with filterShift := min 7 r.filterShift, tripCount := clampNat 1 8 r.tripCount }

/-- R62. -/
def ConvConfig.decode (i : Nat) (bs : List Byte) : Option (ConvConfig × Bool) := do
  let kind ← valueIn SourceKind.list (u8At bs 0)
  let mode ← valueIn ConvMode.list (u8At bs 3)
  let window ← valueIn Window.list (u8At bs 24)
  let r : ConvConfig :=
    { sourceKind := kind, sourceIndex := u8At bs 1, sourceField := u8At bs 2, mode := mode, offset := u16At bs 4,
      gain := u16At bs 6, filterShift := (u8At bs 8).toNat, tripCount := (u8At bs 9).toNat,
      maxChange := u32At bs 10, low := u32At bs 14, high := u32At bs 18, hysteresis := u16At bs 22,
      window := window, railCheck := flagIn (u8At bs 25) }
  if r.bad i then none else some (r.clamped, flagClamped (u8At bs 25) || decide (r.clamped ≠ r))

/-- R148: the number of targets an action kind admits. -/
def ActionKind.targets : ActionKind → Nat
  | .motor | .markSet => 6
  | .soundClip => 16
  | .enable | .disable => 24
  | .reportNow => 12
  | .none | .notify | .soundTone | .soundStop | .scanStart | .scanSingle | .scanStop => 256

/-- R148: a record fails. -/
def Reaction.bad (r : Reaction) : Bool :=
  (r.triggerKind.indices != 0 && r.triggerIndex != 255 && decide (r.triggerKind.indices ≤ r.triggerIndex.toNat)) ||
    decide (r.actionKind.targets ≤ r.actionTarget.toNat)

/-- R148, R149: hit_count starts at 0, whatever the record holds. repeat and sense are enumerated. -/
def Reaction.decode (bs : List Byte) : Option (Reaction × Bool) := do
  let always ← valueIn [false, true] (u8At bs 1)
  let trigger ← valueIn EventKind.list (u8At bs 2)
  let level ← valueIn [false, true] (u8At bs 5)
  let action ← valueIn ActionKind.list (u8At bs 6)
  let r : Reaction :=
    { enabled := flagIn (u8At bs 0), always := always, triggerKind := trigger, triggerIndex := u8At bs 3,
      triggerDetail := u8At bs 4, level := level, actionKind := action, actionTarget := u8At bs 7,
      arg0 := u32At bs 8, arg1 := u32At bs 12, arg2 := u16At bs 16, hitCount := 0 }
  if r.bad then none else some (r, flagClamped (u8At bs 0))

/-- R110. -/
def Mark.decode (bs : List Byte) : Option (Mark × Bool) := do
  let isOn ← valueIn [false, true] (u8At bs 1)
  some ({ enabled := flagIn (u8At bs 0), isOn := isOn, markA := u32At bs 2, markB := u32At bs 6,
          step := u32At bs 10 }, flagClamped (u8At bs 0))

/-- R118. -/
def BudgetRow.decode (bs : List Byte) : Option (BudgetRow × Bool) :=
  some ({ valid := flagIn (u8At bs 0), minMv := u16At bs 1, ceiling := clampHalf 0 8000 (u16At bs 3) },
    flagClamped (u8At bs 0) || decide (8000 < (u16At bs 3).toNat))

/-- R160: the number of indices an item kind admits. -/
def ItemKind.indices : ItemKind → Nat
  | .conv => 32
  | .position | .speed | .duty | .mode | .port | .lines => 6
  | .raw => 16
  | .budget | .sound => 256

/-- R160: the period, clamped. -/
def clampPeriod (p : Half) : Half := if p = 0 then 0 else clampHalf 10 60000 p

/-- R160: the item at position k of a record. -/
def Item.decode (bs : List Byte) (k : Nat) : Option Item :=
  (valueIn ItemKind.list (u8At bs (10 + 2 * k))).map fun kind => { kind := kind, index := u8At bs (11 + 2 * k) }

/-- R160: the entry starts over; an enabled periodic one starts its period timer. -/
def Report.decode (bs : List Byte) : Option (Report × Bool) := do
  let items ← (List.range 8).mapM (Item.decode bs)
  let count := clampNat 1 8 (u8At bs 9).toNat
  let period := clampPeriod (u16At bs 1)
  let enabled := flagIn (u8At bs 0)
  let r : Report :=
    { enabled := enabled, periodMs := period, minInterval := u16At bs 3, changeDelta := u32At bs 5,
      itemCount := count, items := Vector.ofFn fun k => items.getD k.val { kind := .conv, index := 0 },
      lastSent := Vector.replicate 8 none, pending := false, skipped := 0,
      periodTimer := if enabled then timerOf period.toNat else none, minTimer := none }
  if r.carried.any (fun it => decide (it.kind.indices ≤ it.index.toNat)) then none
  else some (r, flagClamped (u8At bs 0) || decide (count ≠ (u8At bs 9).toNat) || decide (period ≠ u16At bs 1))

/-- R135: the clamps of a valid record. -/
def Clip.clamped (r : Clip) : Clip :=
  { r with length := clampHalf 1 Config.storeBytes r.length, rate := clampHalf 2000 16000 r.rate }

/-- R135. -/
def Clip.decode (bs : List Byte) : Option (Clip × Bool) :=
  let r : Clip :=
    { start := u16At bs 0, length := u16At bs 2, rate := u16At bs 4, valid := flagIn (u8At bs 6) }
  if r.valid then
    if r.clamped.start.toNat + r.clamped.length.toNat > Config.storeBytes then none
    else some (r.clamped, flagClamped (u8At bs 6) || decide (r.clamped ≠ r))
  else some (r, false)

/-- R8, check 5: `count` records of `size` bytes, the first for index i. The error is the index of the first
record that fails; the Bool says that a value was clamped. -/
def decodeAll (f : Nat → List Byte → Option (α × Bool)) (size : Nat) : Nat → Nat → List Byte → Except Nat (List α × Bool)
  | 0, _, _ => .ok ([], false)
  | count + 1, i, data =>
    match f i (data.take size) with
    | none => .error i
    | some r =>
      match decodeAll f size count (i + 1) (data.drop size) with
      | .error j => .error j
      | .ok rs => .ok (r.1 :: rs.1, r.2 || rs.2)

/-! ## Payload forms -/

/-- R87, check 1: the operation of a code with these arguments; none gives BAD_LENGTH. -/
def motorForm (code : Byte) (args : List Byte) : Option MotorOp :=
  match code.toNat with
  | 0 => if args.length = 0 then some .coast else none
  | 1 => if args.length = 0 then some .brake else none
  | 2 => if args.length = 2 then some (.duty (u16At args 0).toInt) else none
  | 3 => if args.length = 2 then some (.speed (u16At args 0).toInt) else none
  | 4 =>
    if args.length = 7 then
      (valueIn EndAction.list (u8At args 6)).map (MotorOp.runTo (u32At args 0) (u16At args 4).toNat)
    else none
  | 5 =>
    if args.length = 5 then
      (valueIn EndAction.list (u8At args 4)).map (MotorOp.runFor (u16At args 0).toInt (u16At args 2).toNat)
    else none
  | 6 => if args.length = 0 then some .hold else none
  | 7 => if args.length = 3 then some (.follow (u8At args 0).toNat (u16At args 1)) else none
  | 8 => if args.length = 4 then some (.setCount (u32At args 0)) else none
  | _ => none

/-- R140, check 1. -/
def soundForm (code : Byte) (args : List Byte) : Option SoundOp :=
  match code.toNat with
  | 0 =>
    if args.length = 6 then
      (valueIn Waveform.list (u8At args 4)).map fun w =>
        .tone { pitch := (u16At args 0).toNat, duration := (u16At args 2).toNat, waveform := w,
                level := (u8At args 5).toNat }
    else none
  | 1 =>
    if args.length = 3 then some (.clip (u8At args 0).toNat (u8At args 1).toNat (u8At args 2).toNat) else none
  | 2 => if args.length = 0 then some .flush else none
  | 3 => if args.length = 1 then some (.volume (u8At args 0).toNat) else none
  | 4 => if args.length = 0 then some .stopTone else none
  | 5 => if args.length = 0 then some .stopClip else none
  | 6 => if args.length = 0 then some .stopAll else none
  | _ => none

/-- R48. -/
def scanForm (payload : List Byte) : Option ScanOp :=
  match payload with
  | [code] => valueIn [.stop, .single, .start] code
  | _ => none

/-- R37: the operation of a code with these arguments, and whether its on argument is taken as 1. -/
def portForm (code : Byte) (args : List Byte) : Option (PortOp × Bool) :=
  match code.toNat with
  | 0 => if 1 ≤ args.length ∧ args.length ≤ 16 then some (.send args, false) else none
  | 1 => if args.length = 1 then some (.service (flagIn (u8At args 0)), flagClamped (u8At args 0)) else none
  | 2 => if args.length = 1 then some (.forward (flagIn (u8At args 0)), flagClamped (u8At args 0)) else none
  | 3 => if args.length = 0 then some (.probe, false) else none
  | _ => none

/-! ## Payloads of the typed commands -/

/-- R8: the payload of a TABLE WRITE. -/
def writePayload (t : Table) (first : Half) (count : Byte) (data : List Byte) : List Byte :=
  t.id :: le16 first ++ count :: data

/-- Section 5.3: the payload of a MOTOR command. -/
def motorPayload (code channel notify : Byte) (args : List Byte) : List Byte := code :: channel :: notify :: args

/-- Section 2.7: the payload of a PORT command. -/
def portPayload (code port : Byte) (args : List Byte) : List Byte := code :: port :: args

end Sys2Proof.Machine
end

