-- ==== Sys2Proof/Machine/Tables.lean ====
section
/-! DEFINITION. Table access: TABLE WRITE (R8, R9) with what each owner does with its written records, and TABLE
READ (R10). -/

namespace Sys2Proof.Machine

/-- What the handling of a taken command gives (R6, R7): an answer, or a place that stays RESERVED. -/
inductive Reply where
  | answered (status : Status) (result : List Byte) (s : State)
  | deferred (s : State)
  deriving DecidableEq, Repr

/-- R6: a refused command changes nothing but its answer place. -/
def refuse (s : State) (status : Status) : Reply := .answered status [] s

/-- OK, or ADJUSTED when a value was clamped (R9). -/
def taken (adjusted : Bool) (s : State) : Reply := .answered (if adjusted then .adjusted else .ok) [] s

/-- R8, check 5: BAD_ENTRY carries the index of the failing record. -/
def badEntry (s : State) (i : Nat) : Reply := .answered .badEntry (le16 (halfOf i)) s

/-! ## Written records -/

/-- R9: records first to first + length − 1 are replaced whole. -/
def replaceRange (v : Vector α n) (first : Nat) (rs : List α) : Vector α n :=
  Vector.ofFn fun i => if first ≤ i.val then rs.getD (i.val - first) v[i] else v[i]

/-- A write of count records from first names this index. -/
def named (first count : Nat) (i : Fin n) : Bool := decide (first ≤ i.val) && decide (i.val < first + count)

/-- The indices a write names, ascending. -/
def namedList (n first count : Nat) : List (Fin n) := (List.finRange n).filter (named first count)

/-! ## Owners -/

/-- R14, R15: the silence timer after a SETTINGS write. -/
def Link.restartBySettings (l : Link) (ms : Nat) : Link :=
  { l with silence := match l.state with
                      | .active => timerOf ms
                      | .silent => none }

/-- R14, R15, R129: a SETTINGS write. -/
def State.writeSettings (s : State) (r : Settings) : State :=
  State.allowanceCut { s with settings := r, link := s.link.restartBySettings r.silenceMs.toNat } r.speakerLoad.toNat

/-- R31: a PROFILES write rebinds ports after all its records are written, in ascending order (log 12). -/
def State.writeProfiles (s : State) (first : Nat) (rs : List Profile) : State :=
  allPorts.foldl (State.rebindPort (named first rs.length) (rs.any Profile.valid))
    { s with profiles := replaceRange s.profiles first rs }

/-- R46: the slot being converted loses its result when its record is written. -/
def ConverterWork.rewritten (w : ConverterWork) (hit : Fin 16 → Bool) : ConverterWork :=
  match w with
  | .slot i inp n k sum x => .slot i inp n k sum (x || hit i)
  | .idle => .idle
  | .ident p v => .ident p v

/-- R77: entries of kind SLOT over a slot take NO_SOURCE, unless EMPTY. -/
def State.slotNoSource (s : State) (slot : Fin 16) : State :=
  (List.finRange 32).foldl
    (fun s i =>
      if s.conv[i].cfg.sourceKind = .slot ∧ s.conv[i].cfg.sourceIndex.toNat = slot.val ∧ s.conv[i].status ≠ .empty
      then s.takeStatus i .noSource else s) s

/-- R77, R78: a written slot whose input lies on a port that is not BOUND. -/
def State.slotUnbound (s : State) (slot : Fin 16) : Bool :=
  match inputPort s.scan.slots[slot].input with
  | some n => s.ports[n].state != .bound
  | none => false

/-- R46, R77, R78: a SCAN LIST write. -/
def State.writeScanList (s : State) (first : Nat) (rs : List ScanSlot) : State :=
  let t := { s with scan := { s.scan with slots := replaceRange s.scan.slots first rs,
                                          work := s.scan.work.rewritten (named first rs.length) } }
  (namedList 16 first rs.length).foldl (fun s i => if s.slotUnbound i then s.slotNoSource i else s) t

/-- R63, R79: a CONVERSION write: the entries start over, and the chains below them take NO_SOURCE. -/
def State.writeConversion (s : State) (first : Nat) (rs : List ConvConfig) : State :=
  let written := namedList 32 first rs.length
  written.foldl (fun s i => s.noSourceBelow i written)
    { s with conv := replaceRange s.conv first (rs.map ConvEntry.fresh) }

/-- R149: a REACTIONS write. -/
def State.writeReactions (s : State) (first : Nat) (rs : List Reaction) : State :=
  (namedList 24 first rs.length).foldl State.becomesEnabled { s with reactions := replaceRange s.reactions first rs }

/-- R118: the rows after a write. -/
def State.budgetRows (s : State) (first : Nat) (rs : List BudgetRow) : Vector BudgetRow 6 :=
  replaceRange s.budget.rows first rs

/-- R118: a write that would leave no valid row fails with its first index. -/
def State.writeBudget (s : State) (first : Nat) (rs : List BudgetRow) (adjusted : Bool) : Reply :=
  if (s.budgetRows first rs).toList.any BudgetRow.valid then
    taken adjusted { s with budget := { s.budget with rows := s.budgetRows first rs } }
  else badEntry s first

/-- R136: a CLIPS write that names the entry of the clip playing is refused. -/
def State.writeClips (s : State) (first : Nat) (rs : List Clip) (adjusted : Bool) : Reply :=
  if s.sound.clipPlaying ∧ named first rs.length s.sound.clipIndex then refuse s .inUse
  else taken adjusted { s with sound := { s.sound with clips := replaceRange s.sound.clips first rs } }

/-- R136: a SAMPLE STORE write that meets the clip playing is refused. -/
def State.writeStore (s : State) (offset : Nat) (data : List Byte) : Reply :=
  if (List.range data.length).any (fun k => s.sound.inExtent (offset + k)) then refuse s .inUse
  else taken false { s with sound := { s.sound with store := Memory.writeAll s.sound.store offset data } }

/-- R8, checks 5 and 6, and R9: the owner decodes the records and takes them. -/
def owner (s : State) (decoded : Except Nat (List α × Bool)) (apply : List α → Bool → Reply) : Reply :=
  match decoded with
  | .error i => badEntry s i
  | .ok r => apply r.1 r.2

/-- R8, checks 5 and 6, and R9: the owner of each table. -/
def State.writeRecords (s : State) (t : Table) (first count : Nat) (data : List Byte) : Reply :=
  match t with
  | .settings =>
    owner s (decodeAll (fun _ => Settings.decode) t.size count first data) fun rs adj =>
      taken adj (rs.foldl State.writeSettings s)
  | .profiles =>
    owner s (decodeAll (fun _ => Profile.decode) t.size count first data) fun rs adj =>
      taken adj (s.writeProfiles first rs)
  | .scanList =>
    owner s (decodeAll (fun _ => ScanSlot.decode) t.size count first data) fun rs adj =>
      taken adj (s.writeScanList first rs)
  | .conversion =>
    owner s (decodeAll ConvConfig.decode t.size count first data) fun rs adj => taken adj (s.writeConversion first rs)
  | .reactions =>
    owner s (decodeAll (fun _ => Reaction.decode) t.size count first data) fun rs adj =>
      taken adj (s.writeReactions first rs)
  | .marks =>
    owner s (decodeAll (fun _ => Mark.decode) t.size count first data) fun rs adj =>
      taken adj { s with marks := replaceRange s.marks first rs }
  | .budget =>
    owner s (decodeAll (fun _ => BudgetRow.decode) t.size count first data) fun rs adj => s.writeBudget first rs adj
  | .reports =>
    owner s (decodeAll (fun _ => Report.decode) t.size count first data) fun rs adj =>
      taken adj { s with reports := replaceRange s.reports first rs }
  | .clips =>
    owner s (decodeAll (fun _ => Clip.decode) t.size count first data) fun rs adj => s.writeClips first rs adj
  | .sampleStore => s.writeStore first data
  | .portState | .motorState | .budgetState | .soundState | .linkState | .rawImages => refuse s .badTable

/-! ## TABLE WRITE (R8) -/

/-- R8, check 4, and R10, check 1: the count and the range of records. -/
def Table.badRange (t : Table) (first count : Nat) : Bool :=
  decide (count = 0) || decide (t.records < first + count) || (t == .sampleStore && decide (240 < count))

/-- R8, checks 3 to 6, for a writable table. -/
def State.tableWrite (s : State) (t : Table) (first count : Nat) (data : List Byte) : Reply :=
  if data.length ≠ count * t.size then refuse s .badLength
  else if t.badRange first count then refuse s .badIndex
  else s.writeRecords t first count data

/-- R8: a TABLE WRITE payload. -/
def State.tableWriteCommand (s : State) (payload : List Byte) : Reply :=
  match payload with
  | id :: lo :: hi :: count :: data =>
    match Table.ofId id with
    | some t =>
      if t.writable then s.tableWrite t (hi ++ lo : Half).toNat count.toNat data else refuse s .badTable
    | none => refuse s .badTable
  | _ => refuse s .badLength

/-! ## TABLE READ (R10) -/

/-- R10: count records of a table as they stand, in order. -/
def State.records (s : State) (t : Table) (first count : Nat) : List Byte :=
  (List.range count).flatMap (fun k => s.record t (first + k))

/-- R10: a TABLE READ payload. -/
def State.tableReadCommand (s : State) (payload : List Byte) : Reply :=
  match payload with
  | [id, lo, hi, count] =>
    match Table.ofId id with
    | some t =>
      let first := (hi ++ lo : Half).toNat
      if t.badRange first count.toNat then refuse s .badIndex
      else if 242 < count.toNat * t.size then refuse s .badLength
      else .answered .ok (id :: lo :: hi :: count :: s.records t first count.toNat) s
    | none => refuse s .badTable
  | _ => refuse s .badLength

end Sys2Proof.Machine
end

