-- ==== Sys2Proof/Machine/Link.lean ====
section
/-! DEFINITION. The link controller: frame reception (R1–R3), the intake (R4), taking and handling commands (R5–R7,
R10–R12), resets (R13), link silence (R15, R16), the clock (R18) and the transmitter's completions (R19). -/

namespace Sys2Proof.Machine

/-! ## Handling a taken command (R6) -/

/-- R87: a MOTOR command with this channel, notify byte and operation, from check 2 on. A notify value of 2–255 of
a driving operation is clamped to 1; of the others it is ignored (section 5.3, log 20). -/
def State.motorCommand (s : State) (channel notify : Byte) (op : MotorOp) : Reply :=
  if h : channel.toNat < 6 then
    let r := s.motorOp ⟨channel.toNat, h⟩ op (flagIn notify)
    .answered (if r.1 = .ok ∧ op.driving ∧ flagClamped notify then .adjusted else r.1) [] r.2
  else refuse s .badIndex

/-- R140: a SOUND command from check 2 on. -/
def State.soundCommand (s : State) (op : SoundOp) : Reply := .answered (s.soundOp op).1 [] (s.soundOp op).2

/-- R48: a SCAN command. -/
def State.scanCommand (s : State) (op : ScanOp) : Reply := .answered .ok [] (s.scanOp op)

/-- R37: a PORT command from the port number on; `adjusted` when its on argument is taken as 1. A SEND that is
accepted keeps its place RESERVED (R7, R38). -/
def State.portCommand (s : State) (port : Byte) (op : PortOp) (adjusted : Bool) (order : Nat) : Reply :=
  if h : port.toNat < 6 then
    match s.portRefusal ⟨port.toNat, h⟩ op with
    | some st => refuse s st
    | none =>
      match op with
      | .send data => .deferred (s.runPortOp ⟨port.toNat, h⟩ (.send data) order)
      | .service on => taken adjusted (s.runPortOp ⟨port.toNat, h⟩ (.service on) order)
      | .forward on => taken adjusted (s.runPortOp ⟨port.toNat, h⟩ (.forward on) order)
      | .probe => taken adjusted (s.runPortOp ⟨port.toNat, h⟩ .probe order)
  else refuse s .badIndex

/-- R163: a REPORT NOW command with this entry. -/
def State.reportNowCommand (s : State) (entry : Byte) : Reply :=
  if h : entry.toNat < 12 then .answered .ok [] (s.reportDue ⟨entry.toNat, h⟩) else refuse s .badIndex

/-- R11: a STATE command. -/
def State.stateCommand (s : State) (payload : List Byte) : Reply :=
  match payload with
  | [] => .answered .ok s.identity s
  | _ :: _ => refuse s .badLength

/-- R12: a RESET command: from now on no command is taken, and the part resets when this answer has left. -/
def State.resetCommand (s : State) (payload : List Byte) (order : Nat) : Reply :=
  match payload with
  | [] => .answered .ok [] { s with link := { s.link with resetOrder := some order } }
  | _ :: _ => refuse s .badLength

/-- A MOTOR payload (section 5.3). -/
def State.motorPayloadCommand (s : State) (payload : List Byte) : Reply :=
  match payload with
  | code :: channel :: notify :: args =>
    match motorForm code args with
    | some op => s.motorCommand channel notify op
    | none => refuse s .badLength
  | _ => refuse s .badLength

/-- A SOUND payload (section 8.5). -/
def State.soundPayloadCommand (s : State) (payload : List Byte) : Reply :=
  match payload with
  | code :: args =>
    match soundForm code args with
    | some op => s.soundCommand op
    | none => refuse s .badLength
  | [] => refuse s .badLength

/-- A SCAN payload (section 3.3). -/
def State.scanPayloadCommand (s : State) (payload : List Byte) : Reply :=
  match scanForm payload with
  | some op => s.scanCommand op
  | none => refuse s .badLength

/-- A PORT payload (section 2.7). -/
def State.portPayloadCommand (s : State) (payload : List Byte) (order : Nat) : Reply :=
  match payload with
  | code :: port :: args =>
    match portForm code args with
    | some op => s.portCommand port op.1 op.2 order
    | none => refuse s .badLength
  | _ => refuse s .badLength

/-- A REPORT NOW payload (R163). -/
def State.reportPayloadCommand (s : State) (payload : List Byte) : Reply :=
  match payload with
  | [entry] => s.reportNowCommand entry
  | _ => refuse s .badLength

/-- The downstream kinds (section 1.10.1). -/
inductive Kind where
  | tableWrite | tableRead | motor | sound | scan | port | reportNow | state | reset
  deriving DecidableEq, Repr

/-- The code of a downstream kind. -/
def Kind.code : Kind → Byte
  | .tableWrite => 0x01 | .tableRead => 0x02 | .motor => 0x10 | .sound => 0x20 | .scan => 0x30 | .port => 0x40
  | .reportNow => 0x50 | .state => 0x60 | .reset => 0x70

/-- The downstream kinds. -/
def Kind.list : List Kind := [.tableWrite, .tableRead, .motor, .sound, .scan, .port, .reportNow, .state, .reset]

/-- The downstream kind a kind byte names. -/
def Kind.ofCode (c : Byte) : Option Kind := Kind.list.find? (fun k => k.code == c)

/-- R6: a taken command is dispatched by its kind. -/
def State.handle (s : State) (kind : Byte) (payload : List Byte) (order : Nat) : Reply :=
  match Kind.ofCode kind with
  | some .tableWrite => s.tableWriteCommand payload
  | some .tableRead => s.tableReadCommand payload
  | some .motor => s.motorPayloadCommand payload
  | some .sound => s.soundPayloadCommand payload
  | some .scan => s.scanPayloadCommand payload
  | some .port => s.portPayloadCommand payload order
  | some .reportNow => s.reportPayloadCommand payload
  | some .state => s.stateCommand payload
  | some .reset => s.resetCommand payload order
  | none => refuse s .unknownKind

/-! ## Taking (R4, R5) -/

/-- R5: a place is FREE and no RESET waits for its answer to leave. -/
def Link.canTake (l : Link) : Bool := decide (l.places.length < Config.answerPlaces) && l.resetOrder.isNone

/-- R5: a FREE place is reserved, recording order, kind and tag. -/
def Link.reserve (l : Link) (kind tag : Byte) : Link :=
  { l with places := l.places ++ [{ order := l.nextOrder, kind := kind, tag := tag, answer := none }],
           nextOrder := l.nextOrder + 1 }

/-- R5, R6: a command is taken and handled whole; its place becomes READY, or stays RESERVED for a SEND. -/
def State.carryOut (s : State) (kind tag : Byte) (act : State → Nat → Reply) : State :=
  match act { s with link := s.link.reserve kind tag } s.link.nextOrder with
  | .answered status result t => t.finish s.link.nextOrder status result
  | .deferred t => t

/-- A frame is taken and handled. -/
def State.runFrame (s : State) (f : Frame) : State := s.carryOut f.kind f.tag (fun t order => t.handle f.kind f.payload order)

/-- R5: frames are taken in order while the conditions hold; `fuel` is the number of frames waiting. -/
def State.takeFrames : Nat → State → State
  | 0, s => s
  | fuel + 1, s =>
    match s.link.intake with
    | [] => s
    | f :: rest =>
      if s.link.canTake then
        State.takeFrames fuel (State.runFrame { s with link := { s.link with intake := rest } } f)
      else s

/-- R5: taking. -/
def State.takeAll (s : State) : State := s.takeFrames s.link.intake.length

/-- R4: an INTAKE_OVERFLOW notice waits in the notice queue. -/
def NoticeBody.isIntakeOverflow : NoticeBody → Bool
  | .intakeOverflow _ => true
  | .started .. | .portChange .. | .runEnd .. | .reaction .. | .budgetChange .. | .queueLow .. | .eventOverflow ..
  | .depthLimit .. => false

/-- R4: a good frame is appended to the intake, or dropped, counted and, once, noticed. -/
def State.offerFrame (s : State) (f : Frame) : State :=
  if s.link.intake.length < Config.intakePlaces then
    { s with link := { s.link with intake := s.link.intake ++ [f] } }
  else
    let drops := satInc s.link.intakeDrops
    let t := { s with link := { s.link with intakeDrops := drops } }
    if s.bus.notices.any (fun n => n.body.isIntakeOverflow) then t else t.notify (.intakeOverflow drops)

/-- A command of the table at the door of the intake (log 9): taken at once when nothing stands ahead of it,
otherwise its frame waits or is dropped. `act` is the command's own meaning once taken. -/
def State.submit (s : State) (f : Frame) (act : State → Nat → Reply) : State :=
  if s.link.intake = [] ∧ s.link.canTake then s.carryOut f.kind f.tag act
  else (s.offerFrame f).takeAll

/-! ## Reception (R1–R3) -/

/-- R3, R15, R16: the link at a good check: the frame counted, the silence timer restarted, the link ACTIVE. -/
def Link.goodFrame (l : Link) (silenceMs : Nat) : Link :=
  { l with receiver := .hunt, framesGood := l.framesGood + 1, silence := timerOf silenceMs, state := .active }

/-- R3: a good frame. -/
def State.acceptFrame (s : State) (f : Frame) : State :=
  State.transmitNext
    (State.takeAll (State.offerFrame { s with link := s.link.goodFrame s.settings.silenceMs.toNat } f))

/-- R1: a byte error; in HUNT it is not counted. -/
def Link.byteError (l : Link) : Link :=
  match l.receiver with
  | .hunt => l
  | .length | .body .. | .check .. => { l with receiver := .hunt, byteErrors := satInc l.byteErrors }

/-- R1–R3: one byte of the upstream receive line. -/
def State.receiveByte (s : State) (b : LineByte) : State :=
  if b.stopLow then { s with link := s.link.byteError }
  else
    match s.link.receiver with
    | .hunt => if b.value = marker then { s with link := { s.link with receiver := .length } } else s
    | .length =>
      if 2 ≤ b.value.toNat ∧ b.value.toNat ≤ 250 then
        { s with link := { s.link with receiver := .body b.value [] } }
      else { s with link := { s.link with receiver := .hunt, lengthErrors := satInc s.link.lengthErrors } }
    | .body n got =>
      let got := got ++ [b.value]
      { s with link := { s.link with receiver := if got.length = n.toNat then .check n got else .body n got } }
    | .check n got =>
      if crc8 (n :: got) = b.value then
        s.acceptFrame { kind := u8At got 0, tag := u8At got 1, payload := got.drop 2 }
      else { s with link := { s.link with receiver := .hunt, checkErrors := satInc s.link.checkErrors } }

/-- R1–R3: bytes in the order they arrive. -/
def State.receive (s : State) (bytes : List LineByte) : State := bytes.foldl State.receiveByte s

/-- FRAME_RECEIVED (R1–R3). -/
def execFrameReceived (bytes : List LineByte) (s : State) : Host.Outcome State Fault Refusal := .next (s.receive bytes)

/-- GAP_TIMEOUT (R2): the gap timer runs while a frame is in progress. -/
def execGapTimeout (s : State) : Host.Outcome State Fault Refusal :=
  match s.link.receiver with
  | .hunt => .next s
  | .length | .body .. | .check .. =>
    .next { s with link := { s.link with receiver := .hunt, gapErrors := satInc s.link.gapErrors } }

/-! ## Silence and clock -/

/-- R16: the link at its entry to SILENT. -/
def Link.goSilent (l : Link) : Link :=
  { l with state := .silent, silence := none, silenceCount := satInc l.silenceCount }

/-- R16, R105, R145: the entry to SILENT: LINK_SILENT, the count, and the safe stop of motors and sound. -/
def State.goSilent (s : State) : State :=
  ((State.post { s with link := s.link.goSilent } .linkSilent 0 0).stopAll .safeStop).stopSound

/-- SILENCE_TIMEOUT (R15, R16), while the silence timer runs. -/
def execSilenceTimeout (s : State) : Host.Outcome State Fault Refusal :=
  match s.link.silence with
  | none => .next s
  | some _ => settled s.goSilent

/-- STAMP_TICK (R18). -/
def execStampTick (s : State) : Host.Outcome State Fault Refusal :=
  .next { s with bus := { s.bus with stamp := s.bus.stamp + 1 } }

/-! ## Resets and the transmitter -/

/-- R12, R13: the software reset; the strap code, the pins, the clips, the store and the commands that wait outside
the part stand. -/
def State.softwareReset (s : State) : State :=
  State.afterReset .software s.link.strap (s.ports.map Port.det) (s.lines.map fun l => (l.pin1, l.pin2))
    s.sound.clips s.sound.store s.pending

/-- R13, R147: the power-on reset with these straps; the pins and the commands that wait outside the part stand. -/
def State.powerOnReset (s : State) (straps : BitVec 2) : State :=
  State.afterReset .powerOn straps (s.ports.map Port.det) (s.lines.map fun l => (l.pin1, l.pin2))
    (Vector.replicate 16 Clip.reset) [] s.pending

/-- POWER_ON_RESET (R13). -/
def execPowerOnReset (straps : BitVec 2) (s : State) : Host.Outcome State Fault Refusal := .next (s.powerOnReset straps)

/-- The taking order of the answer being sent, if an answer is. -/
def Sending.order : Sending → Option Nat
  | .answer order _ _ _ => some order
  | .notice _ | .report _ => none

/-- R19: the transmitter is free, and the place of the answer it sent is FREE. -/
def Link.sent (l : Link) (x : Sending) : Link :=
  { l with tx := none, places := l.places.filter (fun p => some p.order != x.order) }

/-- R5, R12, R19: a transmission completes. The answer of a RESET brings the software reset; otherwise the
transmitter takes its next frame, and commands that waited for the place are taken (log 10). -/
def State.transmitted (s : State) (x : Sending) : State :=
  if x.order.isSome ∧ x.order = s.link.resetOrder then s.softwareReset
  else (State.takeAll (State.transmitNext { s with link := s.link.sent x })).transmitNext

/-- FRAME_TRANSMITTED (R19), while the transmitter is SENDING. -/
def execFrameTransmitted (s : State) : Host.Outcome State Fault Refusal :=
  match s.link.tx with
  | none => .next s
  | some x => .next (s.transmitted x)

end Sys2Proof.Machine
end

