-- ==== Sys2Proof/Machine/Commands.lean ====
section
/-! DEFINITION. The commands of the upstream link, one meaning per row of the table: the frame the row stands for
(log 9) and what the command does once taken. -/

namespace Sys2Proof.Machine

/-- A command at the door of the intake, the transmitter choosing at the end of the step. -/
def command (kind tag : Byte) (payload : List Byte) (act : State → Nat → Reply) (s : State) :
    Host.Outcome State Fault Refusal :=
  settled (s.submit { kind := kind, tag := tag, payload := payload } act)

/-! ## Tables and link -/

/-- UNKNOWN_KIND (R6): a frame of this kind. -/
def execUnknownKind (kind tag : Byte) (payload : List Byte) (s : State) : Host.Outcome State Fault Refusal :=
  command kind tag payload (fun t order => t.handle kind payload order) s

/-- TABLE_WRITE (R8): a TABLE WRITE with any payload. -/
def execTableWrite (tag : Byte) (payload : List Byte) (s : State) : Host.Outcome State Fault Refusal :=
  command Kind.tableWrite.code tag payload (fun t _ => t.tableWriteCommand payload) s

/-- A TABLE WRITE of a writable table. -/
def writeCommand (table : Table) (tag : Byte) (first : Half) (count : Byte) (data : List Byte) (s : State) :
    Host.Outcome State Fault Refusal :=
  command Kind.tableWrite.code tag (writePayload table first count data)
    (fun t _ => t.tableWrite table first.toNat count.toNat data) s

/-- SETTINGS_WRITE (R14, R129). -/
def execSettingsWrite (tag : Byte) (first : Half) (count : Byte) (data : List Byte) (s : State) :
    Host.Outcome State Fault Refusal :=
  writeCommand .settings tag first count data s

/-- PROFILES_WRITE (R30, R31). -/
def execProfilesWrite (tag : Byte) (first : Half) (count : Byte) (data : List Byte) (s : State) :
    Host.Outcome State Fault Refusal :=
  writeCommand .profiles tag first count data s

/-- SCAN_LIST_WRITE (R46, R77). -/
def execScanListWrite (tag : Byte) (first : Half) (count : Byte) (data : List Byte) (s : State) :
    Host.Outcome State Fault Refusal :=
  writeCommand .scanList tag first count data s

/-- CONVERSION_WRITE (R62, R63). -/
def execConversionWrite (tag : Byte) (first : Half) (count : Byte) (data : List Byte) (s : State) :
    Host.Outcome State Fault Refusal :=
  writeCommand .conversion tag first count data s

/-- REACTIONS_WRITE (R148, R149). -/
def execReactionsWrite (tag : Byte) (first : Half) (count : Byte) (data : List Byte) (s : State) :
    Host.Outcome State Fault Refusal :=
  writeCommand .reactions tag first count data s

/-- MARKS_WRITE (R110). -/
def execMarksWrite (tag : Byte) (first : Half) (count : Byte) (data : List Byte) (s : State) :
    Host.Outcome State Fault Refusal :=
  writeCommand .marks tag first count data s

/-- BUDGET_WRITE (R118). -/
def execBudgetWrite (tag : Byte) (first : Half) (count : Byte) (data : List Byte) (s : State) :
    Host.Outcome State Fault Refusal :=
  writeCommand .budget tag first count data s

/-- REPORTS_WRITE (R160). -/
def execReportsWrite (tag : Byte) (first : Half) (count : Byte) (data : List Byte) (s : State) :
    Host.Outcome State Fault Refusal :=
  writeCommand .reports tag first count data s

/-- CLIPS_WRITE (R135, R136). -/
def execClipsWrite (tag : Byte) (first : Half) (count : Byte) (data : List Byte) (s : State) :
    Host.Outcome State Fault Refusal :=
  writeCommand .clips tag first count data s

/-- SAMPLE_STORE_WRITE (R136). -/
def execSampleStoreWrite (tag : Byte) (first : Half) (count : Byte) (data : List Byte) (s : State) :
    Host.Outcome State Fault Refusal :=
  writeCommand .sampleStore tag first count data s

/-- TABLE_READ (R10). -/
def execTableRead (tag : Byte) (payload : List Byte) (s : State) : Host.Outcome State Fault Refusal :=
  command Kind.tableRead.code tag payload (fun t _ => t.tableReadCommand payload) s

/-- STATE (R11). -/
def execState (tag : Byte) (payload : List Byte) (s : State) : Host.Outcome State Fault Refusal :=
  command Kind.state.code tag payload (fun t _ => t.stateCommand payload) s

/-- RESET (R12). -/
def execReset (tag : Byte) (payload : List Byte) (s : State) : Host.Outcome State Fault Refusal :=
  command Kind.reset.code tag payload (fun t order => t.resetCommand payload order) s

/-! ## MOTOR (R87–R95) -/

/-- A MOTOR command whose form is right. -/
def motorRow (code tag channel notify : Byte) (args : List Byte) (op : MotorOp) (s : State) :
    Host.Outcome State Fault Refusal :=
  command Kind.motor.code tag (motorPayload code channel notify args) (fun t _ => t.motorCommand channel notify op) s

/-- MOTOR_COAST (R88). -/
def execMotorCoast (tag channel notify : Byte) (s : State) : Host.Outcome State Fault Refusal :=
  motorRow 0 tag channel notify [] .coast s

/-- MOTOR_BRAKE (R88). -/
def execMotorBrake (tag channel notify : Byte) (s : State) : Host.Outcome State Fault Refusal :=
  motorRow 1 tag channel notify [] .brake s

/-- MOTOR_DUTY (R89). -/
def execMotorDuty (tag channel notify : Byte) (duty : Half) (s : State) : Host.Outcome State Fault Refusal :=
  motorRow 2 tag channel notify (le16 duty) (.duty duty.toInt) s

/-- MOTOR_SPEED (R90). -/
def execMotorSpeed (tag channel notify : Byte) (speed : Half) (s : State) : Host.Outcome State Fault Refusal :=
  motorRow 3 tag channel notify (le16 speed) (.speed speed.toInt) s

/-- A MOTOR command with an end action; a code of 3–255 is BAD_LENGTH (R87, check 1). -/
def motorEndRow (code tag channel notify : Byte) (args : List Byte) (endAction : Byte) (op : EndAction → MotorOp)
    (s : State) : Host.Outcome State Fault Refusal :=
  match valueIn EndAction.list endAction with
  | some e => motorRow code tag channel notify args (op e) s
  | none =>
    command Kind.motor.code tag (motorPayload code channel notify args) (fun t _ => refuse t .badLength) s

/-- MOTOR_RUN_TO (R91). -/
def execMotorRunTo (tag channel notify : Byte) (target : Word) (vmax : Half) (endAction : Byte) (s : State) :
    Host.Outcome State Fault Refusal :=
  motorEndRow 4 tag channel notify (le32 target ++ le16 vmax ++ [endAction]) endAction (.runTo target vmax.toNat) s

/-- MOTOR_RUN_FOR (R92). -/
def execMotorRunFor (tag channel notify : Byte) (speed duration : Half) (endAction : Byte) (s : State) :
    Host.Outcome State Fault Refusal :=
  motorEndRow 5 tag channel notify (le16 speed ++ le16 duration ++ [endAction]) endAction
    (.runFor speed.toInt duration.toNat) s

/-- MOTOR_HOLD (R93). -/
def execMotorHold (tag channel notify : Byte) (s : State) : Host.Outcome State Fault Refusal :=
  motorRow 6 tag channel notify [] .hold s

/-- MOTOR_FOLLOW (R94). -/
def execMotorFollow (tag channel notify entry : Byte) (gain : Half) (s : State) : Host.Outcome State Fault Refusal :=
  motorRow 7 tag channel notify (entry :: le16 gain) (.follow entry.toNat gain) s

/-- MOTOR_SET_COUNT (R95). -/
def execMotorSetCount (tag channel notify : Byte) (value : Word) (s : State) : Host.Outcome State Fault Refusal :=
  motorRow 8 tag channel notify (le32 value) (.setCount value) s

/-! ## SOUND (R140–R145) -/

/-- A SOUND command whose form is right. -/
def soundRow (code tag : Byte) (args : List Byte) (op : SoundOp) (s : State) : Host.Outcome State Fault Refusal :=
  command Kind.sound.code tag (code :: args) (fun t _ => t.soundCommand op) s

/-- SOUND_TONE (R141); a waveform code of 3–255 is BAD_LENGTH (R140, check 1). -/
def execSoundTone (tag : Byte) (pitch duration : Half) (waveform level : Byte) (s : State) :
    Host.Outcome State Fault Refusal :=
  let args := le16 pitch ++ le16 duration ++ [waveform, level]
  match valueIn Waveform.list waveform with
  | some w =>
    soundRow 0 tag args
      (.tone { pitch := pitch.toNat, duration := duration.toNat, waveform := w, level := level.toNat }) s
  | none => command Kind.sound.code tag (0 :: args) (fun t _ => refuse t .badLength) s

/-- SOUND_CLIP (R142). -/
def execSoundClip (tag clip repeats level : Byte) (s : State) : Host.Outcome State Fault Refusal :=
  soundRow 1 tag [clip, repeats, level] (.clip clip.toNat repeats.toNat level.toNat) s

/-- SOUND_FLUSH (R144). -/
def execSoundFlush (tag : Byte) (s : State) : Host.Outcome State Fault Refusal := soundRow 2 tag [] .flush s

/-- SOUND_VOLUME (R143). -/
def execSoundVolume (tag volume : Byte) (s : State) : Host.Outcome State Fault Refusal :=
  soundRow 3 tag [volume] (.volume volume.toNat) s

/-- SOUND_STOP_TONE (R145). -/
def execSoundStopTone (tag : Byte) (s : State) : Host.Outcome State Fault Refusal := soundRow 4 tag [] .stopTone s

/-- SOUND_STOP_CLIP (R145). -/
def execSoundStopClip (tag : Byte) (s : State) : Host.Outcome State Fault Refusal := soundRow 5 tag [] .stopClip s

/-- SOUND_STOP_ALL (R145). -/
def execSoundStopAll (tag : Byte) (s : State) : Host.Outcome State Fault Refusal := soundRow 6 tag [] .stopAll s

/-! ## SCAN (R49) -/

/-- SCAN_STOP (R49). -/
def execScanStop (tag : Byte) (s : State) : Host.Outcome State Fault Refusal :=
  command Kind.scan.code tag [0] (fun t _ => t.scanCommand .stop) s

/-- SCAN_SINGLE (R49). -/
def execScanSingle (tag : Byte) (s : State) : Host.Outcome State Fault Refusal :=
  command Kind.scan.code tag [1] (fun t _ => t.scanCommand .single) s

/-- SCAN_START (R49). -/
def execScanStart (tag : Byte) (s : State) : Host.Outcome State Fault Refusal :=
  command Kind.scan.code tag [2] (fun t _ => t.scanCommand .start) s

/-! ## PORT (R37–R43) -/

/-- A PORT command whose form is right. -/
def portRow (code tag port : Byte) (args : List Byte) (op : PortOp) (adjusted : Bool) (s : State) :
    Host.Outcome State Fault Refusal :=
  command Kind.port.code tag (portPayload code port args) (fun t order => t.portCommand port op adjusted order) s

/-- PORT_SEND (R38); other than 1–16 bytes is BAD_LENGTH (R37). -/
def execPortSend (tag port : Byte) (data : List Byte) (s : State) : Host.Outcome State Fault Refusal :=
  if 1 ≤ data.length ∧ data.length ≤ 16 then portRow 0 tag port data (.send data) false s
  else command Kind.port.code tag (portPayload 0 port data) (fun t _ => refuse t .badLength) s

/-- PORT_SERVICE_ON (R40): SERVICE with this on byte. -/
def execPortServiceOn (tag port on : Byte) (s : State) : Host.Outcome State Fault Refusal :=
  portRow 1 tag port [on] (.service (flagIn on)) (flagClamped on) s

/-- PORT_SERVICE_OFF (R41). -/
def execPortServiceOff (tag port : Byte) (s : State) : Host.Outcome State Fault Refusal :=
  portRow 1 tag port [0] (.service false) false s

/-- PORT_FORWARD (R42). -/
def execPortForward (tag port on : Byte) (s : State) : Host.Outcome State Fault Refusal :=
  portRow 2 tag port [on] (.forward (flagIn on)) (flagClamped on) s

/-- PORT_PROBE (R43). -/
def execPortProbe (tag port : Byte) (s : State) : Host.Outcome State Fault Refusal := portRow 3 tag port [] .probe false s

/-! ## REPORT NOW (R163) -/

/-- REPORT_NOW (R163). -/
def execReportNow (tag entry : Byte) (s : State) : Host.Outcome State Fault Refusal :=
  command Kind.reportNow.code tag [entry] (fun t _ => t.reportNowCommand entry) s

end Sys2Proof.Machine
end

