-- ==== Sys2Proof/Machine/Dispatch.lean ====
section
/-! DEFINITION. The meaning of every command, one arm for each row of the table. -/

namespace Sys2Proof.Machine

/-- A command's effect on everything but the queue of waiting commands. -/
def exec (i : Instr) (s : State) : Host.Outcome State Fault Refusal :=
  match i with
  | .powerOnReset straps => Sys2Proof.Machine.execPowerOnReset straps s
  | .frameReceived bytes => Sys2Proof.Machine.execFrameReceived bytes s
  | .gapTimeout => Sys2Proof.Machine.execGapTimeout s
  | .unknownKind kind tag payload => Sys2Proof.Machine.execUnknownKind kind tag payload s
  | .tableWrite tag payload => Sys2Proof.Machine.execTableWrite tag payload s
  | .settingsWrite tag first count data => Sys2Proof.Machine.execSettingsWrite tag first count data s
  | .profilesWrite tag first count data => Sys2Proof.Machine.execProfilesWrite tag first count data s
  | .scanListWrite tag first count data => Sys2Proof.Machine.execScanListWrite tag first count data s
  | .conversionWrite tag first count data => Sys2Proof.Machine.execConversionWrite tag first count data s
  | .reactionsWrite tag first count data => Sys2Proof.Machine.execReactionsWrite tag first count data s
  | .marksWrite tag first count data => Sys2Proof.Machine.execMarksWrite tag first count data s
  | .budgetWrite tag first count data => Sys2Proof.Machine.execBudgetWrite tag first count data s
  | .reportsWrite tag first count data => Sys2Proof.Machine.execReportsWrite tag first count data s
  | .clipsWrite tag first count data => Sys2Proof.Machine.execClipsWrite tag first count data s
  | .sampleStoreWrite tag offset count data => Sys2Proof.Machine.execSampleStoreWrite tag offset count data s
  | .tableRead tag payload => Sys2Proof.Machine.execTableRead tag payload s
  | .state tag payload => Sys2Proof.Machine.execState tag payload s
  | .reset tag payload => Sys2Proof.Machine.execReset tag payload s
  | .motorCoast tag channel notify => Sys2Proof.Machine.execMotorCoast tag channel notify s
  | .motorBrake tag channel notify => Sys2Proof.Machine.execMotorBrake tag channel notify s
  | .motorDuty tag channel notify duty => Sys2Proof.Machine.execMotorDuty tag channel notify duty s
  | .motorSpeed tag channel notify speed => Sys2Proof.Machine.execMotorSpeed tag channel notify speed s
  | .motorRunTo tag channel notify target vmax endAction => Sys2Proof.Machine.execMotorRunTo tag channel notify target vmax endAction s
  | .motorRunFor tag channel notify speed duration endAction => Sys2Proof.Machine.execMotorRunFor tag channel notify speed duration endAction s
  | .motorHold tag channel notify => Sys2Proof.Machine.execMotorHold tag channel notify s
  | .motorFollow tag channel notify entry gain => Sys2Proof.Machine.execMotorFollow tag channel notify entry gain s
  | .motorSetCount tag channel notify value => Sys2Proof.Machine.execMotorSetCount tag channel notify value s
  | .soundTone tag pitch duration waveform level => Sys2Proof.Machine.execSoundTone tag pitch duration waveform level s
  | .soundClip tag clip repeats level => Sys2Proof.Machine.execSoundClip tag clip repeats level s
  | .soundFlush tag => Sys2Proof.Machine.execSoundFlush tag s
  | .soundVolume tag volume => Sys2Proof.Machine.execSoundVolume tag volume s
  | .soundStopTone tag => Sys2Proof.Machine.execSoundStopTone tag s
  | .soundStopClip tag => Sys2Proof.Machine.execSoundStopClip tag s
  | .soundStopAll tag => Sys2Proof.Machine.execSoundStopAll tag s
  | .scanStart tag => Sys2Proof.Machine.execScanStart tag s
  | .scanSingle tag => Sys2Proof.Machine.execScanSingle tag s
  | .scanStop tag => Sys2Proof.Machine.execScanStop tag s
  | .portSend tag port data => Sys2Proof.Machine.execPortSend tag port data s
  | .portServiceOn tag port on => Sys2Proof.Machine.execPortServiceOn tag port on s
  | .portServiceOff tag port => Sys2Proof.Machine.execPortServiceOff tag port s
  | .portForward tag port on => Sys2Proof.Machine.execPortForward tag port on s
  | .portProbe tag port => Sys2Proof.Machine.execPortProbe tag port s
  | .reportNow tag entry => Sys2Proof.Machine.execReportNow tag entry s
  | .silenceTimeout => Sys2Proof.Machine.execSilenceTimeout s
  | .stampTick => Sys2Proof.Machine.execStampTick s
  | .frameTransmitted => Sys2Proof.Machine.execFrameTransmitted s
  | .detChange port closed => Sys2Proof.Machine.execDetChange port closed s
  | .detDebounceExpiry port => Sys2Proof.Machine.execDetDebounceExpiry port s
  | .idConversionDone code => Sys2Proof.Machine.execIdConversionDone code s
  | .queryTryDue port => Sys2Proof.Machine.execQueryTryDue port s
  | .deviceFrameSent port => Sys2Proof.Machine.execDeviceFrameSent port s
  | .queryWindowClose port => Sys2Proof.Machine.execQueryWindowClose port s
  | .identReceived port payload => Sys2Proof.Machine.execIdentReceived port payload s
  | .dataReceived port payload => Sys2Proof.Machine.execDataReceived port payload s
  | .ackReceived port payload => Sys2Proof.Machine.execAckReceived port payload s
  | .nakReceived port payload => Sys2Proof.Machine.execNakReceived port payload s
  | .badDeviceFrame port bytes => Sys2Proof.Machine.execBadDeviceFrame port bytes s
  | .pollTimerExpiry port => Sys2Proof.Machine.execPollTimerExpiry port s
  | .pollWindowClose port => Sys2Proof.Machine.execPollWindowClose port s
  | .writeWindowClose port => Sys2Proof.Machine.execWriteWindowClose port s
  | .reprobeExpiry port => Sys2Proof.Machine.execReprobeExpiry port s
  | .digitalLineChange port line high => Sys2Proof.Machine.execDigitalLineChange port line high s
  | .lineDebounceExpiry port line => Sys2Proof.Machine.execLineDebounceExpiry port line s
  | .quadratureChange port high1 high2 => Sys2Proof.Machine.execQuadratureChange port high1 high2 s
  | .pulseEdge port rising time => Sys2Proof.Machine.execPulseEdge port rising time s
  | .noEdgeExpiry port => Sys2Proof.Machine.execNoEdgeExpiry port s
  | .scanConversionDone code => Sys2Proof.Machine.execScanConversionDone code s
  | .regulationExpiry channel => Sys2Proof.Machine.execRegulationExpiry channel s
  | .runForExpiry channel => Sys2Proof.Machine.execRunForExpiry channel s
  | .budgetWindowExpiry => Sys2Proof.Machine.execBudgetWindowExpiry s
  | .outputSample => Sys2Proof.Machine.execOutputSample s
  | .noteDurationExpiry => Sys2Proof.Machine.execNoteDurationExpiry s
  | .eventDispatch => Sys2Proof.Machine.execEventDispatch s
  | .reportPeriodExpiry entry => Sys2Proof.Machine.execReportPeriodExpiry entry s
  | .minIntervalExpiry entry => Sys2Proof.Machine.execMinIntervalExpiry entry s

end Sys2Proof.Machine
end

