-- ==== Sys2Proof/WellFormed.lean ====
section
/-! DEFINITION. Which commands a line can carry: the lengths of frames and of device-line payloads, and the kind of
UNKNOWN_KIND. Operands that a command may carry and the part refuses (a channel of 6, an end action of 3) are well
formed. -/

namespace Sys2Proof

/-- The upstream payload holds 0–248 bytes (section 1.10.1 of 01). -/
def fitsFrame (length : Nat) : Bool := decide (length ≤ 248)

/-- The device-line payload holds 0–24 bytes (section 1.10.3 of 01). -/
def fitsDevice (length : Nat) : Bool := decide (length ≤ 24)

/-- A kind byte that is not a downstream kind (R6). -/
def unknownCode (kind : Byte) : Bool :=
  !([0x01, 0x02, 0x10, 0x20, 0x30, 0x40, 0x50, 0x60, 0x70] : List Byte).contains kind

/-- A SERVICE on carries an on byte of 1–255 (R40). -/
def onByte (on : Byte) : Bool := on != 0

/-- The command can be sent. -/
def Instr.wellFormed : Instr → Bool
  | .unknownKind kind _ payload => unknownCode kind && fitsFrame payload.length
  | .tableWrite _ payload | .tableRead _ payload | .state _ payload | .reset _ payload => fitsFrame payload.length
  | .settingsWrite _ _ _ data | .profilesWrite _ _ _ data | .scanListWrite _ _ _ data
  | .conversionWrite _ _ _ data | .reactionsWrite _ _ _ data | .marksWrite _ _ _ data | .budgetWrite _ _ _ data
  | .reportsWrite _ _ _ data | .clipsWrite _ _ _ data | .sampleStoreWrite _ _ _ data => fitsFrame (4 + data.length)
  | .portSend _ _ data => fitsFrame (2 + data.length)
  | .portServiceOn _ _ on => onByte on
  | .identReceived _ payload | .dataReceived _ payload | .ackReceived _ payload | .nakReceived _ payload =>
    fitsDevice payload.length
  | .powerOnReset _ | .frameReceived _ | .gapTimeout | .motorCoast .. | .motorBrake .. | .motorDuty ..
  | .motorSpeed .. | .motorRunTo .. | .motorRunFor .. | .motorHold .. | .motorFollow .. | .motorSetCount ..
  | .soundTone .. | .soundClip .. | .soundFlush _ | .soundVolume .. | .soundStopTone _ | .soundStopClip _
  | .soundStopAll _ | .scanStart _ | .scanSingle _ | .scanStop _ | .portServiceOff .. | .portForward ..
  | .portProbe .. | .reportNow .. | .silenceTimeout | .stampTick | .frameTransmitted | .detChange ..
  | .detDebounceExpiry _ | .idConversionDone _ | .queryTryDue _ | .deviceFrameSent _ | .queryWindowClose _
  | .badDeviceFrame .. | .pollTimerExpiry _ | .pollWindowClose _ | .writeWindowClose _ | .reprobeExpiry _
  | .digitalLineChange .. | .lineDebounceExpiry .. | .quadratureChange .. | .pulseEdge .. | .noEdgeExpiry _
  | .scanConversionDone _ | .regulationExpiry _ | .runForExpiry _ | .budgetWindowExpiry | .outputSample
  | .noteDurationExpiry | .eventDispatch | .reportPeriodExpiry _ | .minIntervalExpiry _ => true

end Sys2Proof
end

