-- ==== Sys2Proof/Safety.lean ====
section
/-! DEFINITION. The terms claims use: what a safe run keeps (the capacities of the queues, the order of answer
places, what may drive, what the drive budget bounds, what the transmitter never leaves lying), and the vocabulary in
which statements say what a command leaves. -/

namespace Sys2Proof.Machine

/-- No state queue holds more than its capacity (R4, section 1.3, R134, R150, R164, R165). -/
structure State.Capacities (s : State) : Prop where
  intake  : s.link.intake.length ≤ Config.intakePlaces
  places  : s.link.places.length ≤ Config.answerPlaces
  notes   : s.sound.queue.length ≤ Config.noteQueue
  events  : s.bus.events.length ≤ Config.eventQueue
  reports : s.reportQueue.length ≤ Config.reportQueue
  notices : s.bus.notices.length ≤ Config.noticeQueue

/-- Answer places stand in taking order, and the next order is above them all (section 1.3, R5). -/
structure State.PlacesOrdered (s : State) : Prop where
  rising : s.link.places.Pairwise (fun p q => p.order < q.order)
  below  : ∀ p ∈ s.link.places, p.order < s.link.nextOrder

/-- A port's query and re-probe work belongs to its state: a query try waits, runs or has a next one timed only in
PROBING, or in FAULT for a reason other than ID_SHORT, and the re-probe timer runs only in FAULT (R27, R34, R35). -/
structure Port.Phased (p : Port) : Prop where
  query   : p.queryDue = true ∨ p.queryTimer.isSome = true ∨ p.exchange.any (fun x => x.kind == .query) = true →
    p.state = .probing ∨ (p.state = .fault ∧ p.fault ≠ .idShort)
  reprobe : p.reprobeTimer.isSome = true → p.state = .fault

/-- Every port's work belongs to its state. -/
def State.PortsPhased (s : State) : Prop := ∀ n : PortNo, s.ports[n].Phased

/-- R107: a bound channel's regulation timer runs. -/
def State.BoundTimed (s : State) : Prop :=
  ∀ n : PortNo, (s.motorProfile n).isSome = true → s.motors[n].regTimer.isSome = true

/-- What a channel in a driving mode needs: its port motor-bound and out of service mode, the link ACTIVE and the
budget out of BROWNOUT (R40, R87, R105, R106). -/
structure State.MayDrive (s : State) (n : PortNo) : Prop where
  bound   : (s.motorProfile n).isSome = true
  service : s.inService n = false
  link    : s.link.state = .active
  budget  : s.budget.record.state ≠ .brownout

/-- Only a channel that may drive is in a driving mode. -/
def State.DrivesSafely (s : State) : Prop := ∀ n : PortNo, s.motors[n].mode.driving = true → s.MayDrive n

/-- R89, R100: a request lies in −1000–1000; a granted duty has the sign of its request, or is 0, and is no greater
than the smaller of the request and the allowance. -/
structure Motor.GrantBounded (m : Motor) : Prop where
  request : m.dutyRequest.natAbs ≤ 1000
  grant   : m.dutyGrant.natAbs ≤ min m.dutyRequest.natAbs m.allowance
  sign    : 0 ≤ m.dutyGrant * m.dutyRequest

/-- Every channel's granted duty is bounded. -/
def State.GrantsBounded (s : State) : Prop := ∀ n : PortNo, s.motors[n].GrantBounded

/-- R19: an IDLE transmitter finds nothing to send. -/
def State.NothingWaits (s : State) : Prop :=
  s.link.tx = none → s.link.readyAnswer = none ∧ s.bus.notices = [] ∧ s.reportQueue = []

/-- R5: a frame waits in the intake only while no command can be taken. -/
def State.IntakeBlocked (s : State) : Prop := s.link.intake ≠ [] → s.link.canTake = false

/-- R62: an entry of kind ENTRY names a lower index. -/
def State.ChainsDown (s : State) : Prop :=
  ∀ i : Fin 32, s.conv[i].cfg.sourceKind = .entry → s.conv[i].cfg.sourceIndex.toNat < i.val

/-- R77: no VALID entry's source lies, directly or through a chain, on a port that is not BOUND: a VALID entry of
kind ENTRY has a VALID source entry, and any other VALID entry's source lies on no port or on a BOUND one. -/
def State.ValidOverBound (s : State) : Prop :=
  ∀ i : Fin 32, s.conv[i].status = .valid →
    (∀ j : Fin 32, s.conv[i].dependsOn j = true → s.conv[j].status = .valid) ∧
    (∀ n : PortNo, s.sourcePort s.conv[i].cfg = some n → s.ports[n].state = .bound)

/-- R128, the sum of rated_load_mA times a permille, over the motor-bound channels. -/
def State.loadOver (s : State) (f : Motor → Nat) : Nat :=
  (allPorts.map fun n => match s.motorProfile n with
    | some p => f s.motors[n] * p.ratedLoad.toNat
    | none => 0).sum

/-- R128: the load of granted duties and effective volume, in mA × 1000, is within the ceiling of the last window. -/
def State.LoadWithin (s : State) : Prop :=
  s.loadOver (fun m => m.dutyGrant.natAbs) + 10 * s.sound.effective * s.settings.speakerLoad.toNat ≤
    1000 * s.budget.record.ceiling

/-- R128, R129: the load the allowances admit is within the ceiling, the speaker load they were formed against being
no smaller than the one that stands. -/
structure State.AllowancesWithin (s : State) : Prop where
  load    : s.loadOver Motor.allowance + 10 * s.sound.allowance * s.budget.loadOld ≤ 1000 * s.budget.record.ceiling
  speaker : s.settings.speakerLoad.toNat ≤ s.budget.loadOld

/-! ## Vocabulary of the statements -/

/-- The outcome is a next state, of which P holds. -/
def Answers (o : Host.Outcome State Fault Refusal) (P : State → Prop) : Prop := ∃ t, o = .next t ∧ P t

/-- The components of the state. -/
inductive Part where
  | link | settings | bus | ports | profiles | service | scan | lines | conv | encStamp | motors | marks | budget
  | sound | reactions | failures | blocked | reports | reportQueue | passSkipped | pending
  deriving DecidableEq, Repr

/-- Every component. -/
def Part.list : List Part :=
  [.link, .settings, .bus, .ports, .profiles, .service, .scan, .lines, .conv, .encStamp, .motors, .marks, .budget,
   .sound, .reactions, .failures, .blocked, .reports, .reportQueue, .passSkipped, .pending]

/-- A component of t is as it was in s. -/
def State.agrees (s t : State) : Part → Prop
  | .link => t.link = s.link
  | .settings => t.settings = s.settings
  | .bus => t.bus = s.bus
  | .ports => t.ports = s.ports
  | .profiles => t.profiles = s.profiles
  | .service => t.service = s.service
  | .scan => t.scan = s.scan
  | .lines => t.lines = s.lines
  | .conv => t.conv = s.conv
  | .encStamp => t.encStamp = s.encStamp
  | .motors => t.motors = s.motors
  | .marks => t.marks = s.marks
  | .budget => t.budget = s.budget
  | .sound => t.sound = s.sound
  | .reactions => t.reactions = s.reactions
  | .failures => t.failures = s.failures
  | .blocked => t.blocked = s.blocked
  | .reports => t.reports = s.reports
  | .reportQueue => t.reportQueue = s.reportQueue
  | .passSkipped => t.passSkipped = s.passSkipped
  | .pending => t.pending = s.pending

/-- The frame: every component but those listed is as it was. -/
def State.keepsBut (s t : State) (changed : List Part) : Prop := ∀ p ∈ Part.list, p ∉ changed → s.agrees t p

/-- The link as it was, but for what the transmitter has taken. -/
def State.linkKept (s t : State) : Prop := t.link = { s.link with tx := t.link.tx }

/-- R5: a command at the door of the intake is taken at once: no frame stands ahead of it, a place is FREE, no RESET
waits, and the order it would take is held by no place (PlacesOrdered). -/
structure State.Opens (s : State) : Prop where
  empty  : s.link.intake = []
  taking : s.link.canTake = true
  fresh  : ∀ p ∈ s.link.places, p.order ≠ s.link.nextOrder

/-- u with one more READY place, of a command taken and answered, the transmitter then choosing (R5, R6, R19). -/
def State.replied (u : State) (kind tag : Byte) (status : Status) (result : List Byte) : State :=
  State.transmitNext
    { u with link := { u.link with
        places := u.link.places ++ [{ order := u.link.nextOrder, kind := kind, tag := tag,
                                      answer := some { status := status, result := result } }],
        nextOrder := u.link.nextOrder + 1 } }

/-- The status of a taken command: ADJUSTED when a value was clamped. -/
def adjustedIf (clamped : Bool) : Status := if clamped then .adjusted else .ok

/-- A write of count records from first names index i. -/
abbrev within (first : Half) (count : Byte) (i : Nat) : Prop := first.toNat ≤ i ∧ i < first.toNat + count.toNat

/-- The index a failed decoding names. -/
def failing : Except Nat α → Option Nat
  | .error i => some i
  | .ok _ => none

/-- R8, check 5: the index of the first record that fails its owner's check. -/
def Table.firstBad (t : Table) (first count : Nat) (data : List Byte) : Option Nat :=
  match t with
  | .settings => failing (decodeAll (fun _ => Settings.decode) 11 count first data)
  | .profiles => failing (decodeAll (fun _ => Profile.decode) 32 count first data)
  | .scanList => failing (decodeAll (fun _ => ScanSlot.decode) 2 count first data)
  | .conversion => failing (decodeAll ConvConfig.decode 36 count first data)
  | .reactions => failing (decodeAll (fun _ => Reaction.decode) 20 count first data)
  | .marks => failing (decodeAll (fun _ => Mark.decode) 14 count first data)
  | .budget => failing (decodeAll (fun _ => BudgetRow.decode) 5 count first data)
  | .reports => failing (decodeAll (fun _ => Report.decode) 26 count first data)
  | .clips => failing (decodeAll (fun _ => Clip.decode) 7 count first data)
  | .sampleStore | .portState | .motorState | .budgetState | .soundState | .linkState | .rawImages => none

/-- R85: a channel whose operation, if it has one, has ended with an outcome. -/
def Motor.ended (m : Motor) (o : Outcome) : Motor := if m.mode.driving then { m.cleared with outcome := o } else m

/-- R85: the bus after the end of the operation of channel n, if it has one: RUN_END, and a notice if notify is set. -/
def State.endingBus (s : State) (n : PortNo) (o : Outcome) : Bus :=
  let m := s.motors[n]
  if m.mode.driving then
    let b := s.bus.post .runEnd (portByte n) (codeIn Outcome.list o)
    if m.notify then b.notify (.runEnd n m.operation o m.position) else b
  else s.bus

/-! ## Codes (R21: a value's place in the list its owner gives) -/

/-- 01, section 1.10.2. -/
def Status.code : Status → Byte
  | .ok => 0 | .adjusted => 1 | .unknownKind => 2 | .badLength => 3 | .badTable => 4 | .badIndex => 5 | .badEntry => 6
  | .inUse => 7 | .notMotor => 8 | .portEmpty => 9 | .portBusy => 10 | .noDevice => 11 | .deviceTimeout => 12
  | .deviceNak => 13 | .queueFull => 14 | .brownout => 15
/-- R17. -/
def LinkState.code : LinkState → Byte
  | .active => 0 | .silent => 1
/-- R17. -/
def ResetCause.code : ResetCause → Byte
  | .powerOn => 0 | .software => 1
/-- 02, section 2.1. -/
def PortState.code : PortState → Byte
  | .empty => 0 | .detecting => 1 | .probing => 2 | .bound => 3 | .unknown => 4 | .fault => 5
/-- 02, section 2.1 and R29. -/
def FaultReason.code : FaultReason → Byte
  | .none => 0 | .idShort => 1 | .noIdent => 2 | .silent => 3
/-- 01, section 1.10.3. -/
def Format.code : Format → Byte
  | .s8 => 0 | .u8 => 1 | .s16 => 2 | .u16 => 3 | .s32 => 4
/-- 02, section 2.4. -/
def Use.code : Use → Byte
  | .motor => 0 | .sensor => 1
/-- 02, section 2.4. -/
def LineMode.code : LineMode → Byte
  | .none => 0 | .quadrature => 1 | .digital => 2 | .pulse => 3 | .device => 4
/-- 02, section 2.4. -/
def SafeAction.code : SafeAction → Byte
  | .coast => 0 | .brake => 1
/-- 03, section 3.2. -/
def SlotState.code : SlotState → Byte
  | .idle => 0 | .pending => 1 | .converting => 2 | .done => 3
/-- 03, section 3.2. -/
def ScanMode.code : ScanMode → Byte
  | .off => 0 | .single => 1 | .continuous => 2
/-- 04, section 4.1. -/
def SourceKind.code : SourceKind → Byte
  | .none => 0 | .slot => 1 | .deviceField => 2 | .encoder => 3 | .pulseHigh => 4 | .pulsePeriod => 5 | .pulseDuty => 6
  | .entry => 7 | .motorSpeed => 8
/-- 04, section 4.1. -/
def ConvMode.code : ConvMode → Byte
  | .raw => 0 | .linear => 1 | .filtered => 2
/-- 04, section 4.1. -/
def Window.code : Window → Byte
  | .off => 0 | .high => 1 | .low => 2 | .both => 3
/-- R161. -/
def ConvStatus.code : ConvStatus → Byte
  | .empty => 0 | .valid => 1 | .stale => 2 | .noSource => 3 | .rail => 4
/-- 04, section 4.1. -/
def Alarm.code : Alarm → Byte
  | .normal => 0 | .pendHigh => 1 | .pendLow => 2 | .high => 3 | .low => 4
/-- 05, section 5.1. -/
def MotorMode.code : MotorMode → Byte
  | .coast => 0 | .brake => 1 | .duty => 2 | .speed => 3 | .runTo => 4 | .runFor => 5 | .hold => 6 | .follow => 7
/-- 05, section 5.1. -/
def Operation.code : Operation → Byte
  | .none => 0 | .duty => 1 | .speed => 2 | .runTo => 3 | .runFor => 4 | .hold => 5 | .follow => 6
/-- 05, section 5.1. -/
def EndAction.code : EndAction → Byte
  | .coast => 0 | .brake => 1 | .hold => 2
/-- 05, section 5.1. -/
def Outcome.code : Outcome → Byte
  | .none => 0 | .done => 1 | .stopped => 2 | .superseded => 3 | .stalled => 4 | .detached => 5 | .rebound => 6
  | .safeStop => 7 | .brownout => 8 | .sourceLost => 9
/-- 07, section 7.2. -/
def BudgetState.code : BudgetState → Byte
  | .normal => 0 | .limiting => 1 | .brownout => 2
/-- 08, section 8.1. -/
def Waveform.code : Waveform → Byte
  | .square => 0 | .triangle => 1 | .saw => 2
/-- 09, section 9.2. -/
def EventKind.code : EventKind → Byte
  | .none => 0 | .markA => 1 | .markB => 2 | .markOn => 3 | .markOff => 4 | .runEnd => 5 | .stallWarn => 6
  | .alarmHigh => 7 | .alarmLow => 8 | .alarmClear => 9 | .railFault => 10 | .lineRise => 11 | .lineFall => 12
  | .portAttach => 13 | .portBound => 14 | .portDetach => 15 | .portFault => 16 | .budgetLimit => 17
  | .budgetNormal => 18 | .brownout => 19 | .queueLow => 20 | .toneIdle => 21 | .clipEnd => 22 | .scanDone => 23
  | .linkSilent => 24
/-- 09, section 9.1. -/
def ActionKind.code : ActionKind → Byte
  | .none => 0 | .notify => 1 | .motor => 2 | .soundTone => 3 | .soundClip => 4 | .soundStop => 5 | .enable => 6
  | .disable => 7 | .markSet => 8 | .reportNow => 9 | .scanStart => 10 | .scanSingle => 11 | .scanStop => 12
/-- 10, section 10.1. -/
def ItemKind.code : ItemKind → Byte
  | .conv => 0 | .position => 1 | .speed => 2 | .duty => 3 | .mode => 4 | .port => 5 | .budget => 6 | .sound => 7
  | .lines => 8 | .raw => 9

/-- R21: a flag is 0 or 1. -/
def flagCode (b : Bool) : Byte := if b then 1 else 0

/-- R21: a number, or 255 for "none". -/
def indexOr255 (x : Option (Fin n)) : Byte :=
  match x with
  | some i => byteOf i.val
  | none => 255

/-! ## Commands and their frames -/

/-- The frame a command row stands for (01 section 1.10; log 9); none for the rows that are no command of the link. -/
def frameOf : Instr → Option Frame
  | .unknownKind kind tag payload => some ⟨kind, tag, payload⟩
  | .tableWrite tag payload => some ⟨0x01, tag, payload⟩
  | .settingsWrite tag first count data => some ⟨0x01, tag, 1 :: le16 first ++ count :: data⟩
  | .profilesWrite tag first count data => some ⟨0x01, tag, 2 :: le16 first ++ count :: data⟩
  | .scanListWrite tag first count data => some ⟨0x01, tag, 3 :: le16 first ++ count :: data⟩
  | .conversionWrite tag first count data => some ⟨0x01, tag, 4 :: le16 first ++ count :: data⟩
  | .reactionsWrite tag first count data => some ⟨0x01, tag, 5 :: le16 first ++ count :: data⟩
  | .marksWrite tag first count data => some ⟨0x01, tag, 6 :: le16 first ++ count :: data⟩
  | .budgetWrite tag first count data => some ⟨0x01, tag, 7 :: le16 first ++ count :: data⟩
  | .reportsWrite tag first count data => some ⟨0x01, tag, 8 :: le16 first ++ count :: data⟩
  | .clipsWrite tag first count data => some ⟨0x01, tag, 9 :: le16 first ++ count :: data⟩
  | .sampleStoreWrite tag offset count data => some ⟨0x01, tag, 10 :: le16 offset ++ count :: data⟩
  | .tableRead tag payload => some ⟨0x02, tag, payload⟩
  | .state tag payload => some ⟨0x60, tag, payload⟩
  | .reset tag payload => some ⟨0x70, tag, payload⟩
  | .motorCoast tag channel notify => some ⟨0x10, tag, [0, channel, notify]⟩
  | .motorBrake tag channel notify => some ⟨0x10, tag, [1, channel, notify]⟩
  | .motorDuty tag channel notify duty => some ⟨0x10, tag, [2, channel, notify] ++ le16 duty⟩
  | .motorSpeed tag channel notify speed => some ⟨0x10, tag, [3, channel, notify] ++ le16 speed⟩
  | .motorRunTo tag channel notify target vmax e =>
    some ⟨0x10, tag, [4, channel, notify] ++ le32 target ++ le16 vmax ++ [e]⟩
  | .motorRunFor tag channel notify speed duration e =>
    some ⟨0x10, tag, [5, channel, notify] ++ le16 speed ++ le16 duration ++ [e]⟩
  | .motorHold tag channel notify => some ⟨0x10, tag, [6, channel, notify]⟩
  | .motorFollow tag channel notify entry gain => some ⟨0x10, tag, [7, channel, notify, entry] ++ le16 gain⟩
  | .motorSetCount tag channel notify value => some ⟨0x10, tag, [8, channel, notify] ++ le32 value⟩
  | .soundTone tag pitch duration waveform level =>
    some ⟨0x20, tag, 0 :: le16 pitch ++ le16 duration ++ [waveform, level]⟩
  | .soundClip tag clip repeats level => some ⟨0x20, tag, [1, clip, repeats, level]⟩
  | .soundFlush tag => some ⟨0x20, tag, [2]⟩
  | .soundVolume tag volume => some ⟨0x20, tag, [3, volume]⟩
  | .soundStopTone tag => some ⟨0x20, tag, [4]⟩
  | .soundStopClip tag => some ⟨0x20, tag, [5]⟩
  | .soundStopAll tag => some ⟨0x20, tag, [6]⟩
  | .scanStart tag => some ⟨0x30, tag, [2]⟩
  | .scanSingle tag => some ⟨0x30, tag, [1]⟩
  | .scanStop tag => some ⟨0x30, tag, [0]⟩
  | .portSend tag port data => some ⟨0x40, tag, [0, port] ++ data⟩
  | .portServiceOn tag port on => some ⟨0x40, tag, [1, port, on]⟩
  | .portServiceOff tag port => some ⟨0x40, tag, [1, port, 0]⟩
  | .portForward tag port on => some ⟨0x40, tag, [2, port, on]⟩
  | .portProbe tag port => some ⟨0x40, tag, [3, port]⟩
  | .reportNow tag entry => some ⟨0x50, tag, [entry]⟩
  | .powerOnReset _ | .frameReceived _ | .gapTimeout | .silenceTimeout | .stampTick | .frameTransmitted | .detChange ..
  | .detDebounceExpiry _ | .idConversionDone _ | .queryTryDue _ | .deviceFrameSent _ | .queryWindowClose _
  | .identReceived .. | .dataReceived .. | .ackReceived .. | .nakReceived .. | .badDeviceFrame ..
  | .pollTimerExpiry _ | .pollWindowClose _ | .writeWindowClose _ | .reprobeExpiry _ | .digitalLineChange ..
  | .lineDebounceExpiry .. | .quadratureChange .. | .pulseEdge .. | .noEdgeExpiry _ | .scanConversionDone _
  | .regulationExpiry _ | .runForExpiry _ | .budgetWindowExpiry | .outputSample | .noteDurationExpiry
  | .eventDispatch | .reportPeriodExpiry _ | .minIntervalExpiry _ => none

/-- The typed row of a TABLE WRITE to a writable table. -/
def typedWrite (tag : Byte) (first : Half) (count : Byte) (data : List Byte) : Table → Option Instr
  | .settings => some (.settingsWrite tag first count data)
  | .profiles => some (.profilesWrite tag first count data)
  | .scanList => some (.scanListWrite tag first count data)
  | .conversion => some (.conversionWrite tag first count data)
  | .reactions => some (.reactionsWrite tag first count data)
  | .marks => some (.marksWrite tag first count data)
  | .budget => some (.budgetWrite tag first count data)
  | .reports => some (.reportsWrite tag first count data)
  | .clips => some (.clipsWrite tag first count data)
  | .sampleStore => some (.sampleStoreWrite tag first count data)
  | .portState | .motorState | .budgetState | .soundState | .linkState | .rawImages => none

/-- Tag, channel and operation of a MOTOR row; no operation where its end action code is 3–255 (R87, check 1). -/
def motorOperands : Instr → Option (Byte × Byte × Option MotorOp)
  | .motorCoast tag channel _ => some (tag, channel, some .coast)
  | .motorBrake tag channel _ => some (tag, channel, some .brake)
  | .motorDuty tag channel _ duty => some (tag, channel, some (.duty duty.toInt))
  | .motorSpeed tag channel _ speed => some (tag, channel, some (.speed speed.toInt))
  | .motorRunTo tag channel _ target vmax e =>
    some (tag, channel, (EndAction.list[e.toNat]?).map (MotorOp.runTo target vmax.toNat))
  | .motorRunFor tag channel _ speed duration e =>
    some (tag, channel, (EndAction.list[e.toNat]?).map (MotorOp.runFor speed.toInt duration.toNat))
  | .motorHold tag channel _ => some (tag, channel, some .hold)
  | .motorFollow tag channel _ entry gain => some (tag, channel, some (.follow entry.toNat gain))
  | .motorSetCount tag channel _ value => some (tag, channel, some (.setCount value))
  | .unknownKind .. | .tableWrite .. | .settingsWrite .. | .profilesWrite .. | .scanListWrite .. | .conversionWrite ..
  | .reactionsWrite .. | .marksWrite .. | .budgetWrite .. | .reportsWrite .. | .clipsWrite .. | .sampleStoreWrite ..
  | .tableRead .. | .state .. | .reset .. | .soundTone .. | .soundClip .. | .soundFlush _ | .soundVolume ..
  | .soundStopTone _ | .soundStopClip _ | .soundStopAll _ | .scanStart _ | .scanSingle _ | .scanStop _ | .portSend ..
  | .portServiceOn .. | .portServiceOff .. | .portForward .. | .portProbe .. | .reportNow .. | .powerOnReset _
  | .frameReceived _ | .gapTimeout | .silenceTimeout | .stampTick | .frameTransmitted | .detChange ..
  | .detDebounceExpiry _ | .idConversionDone _ | .queryTryDue _ | .deviceFrameSent _ | .queryWindowClose _
  | .identReceived .. | .dataReceived .. | .ackReceived .. | .nakReceived .. | .badDeviceFrame .. | .pollTimerExpiry _
  | .pollWindowClose _ | .writeWindowClose _ | .reprobeExpiry _ | .digitalLineChange .. | .lineDebounceExpiry ..
  | .quadratureChange .. | .pulseEdge .. | .noEdgeExpiry _ | .scanConversionDone _ | .regulationExpiry _
  | .runForExpiry _ | .budgetWindowExpiry | .outputSample | .noteDurationExpiry | .eventDispatch
  | .reportPeriodExpiry _ | .minIntervalExpiry _ => none

end Sys2Proof.Machine
end

