-- ==== Sys2Proof/Certificates/Slice0/Obligations.lean ====
section
/-! DEFINITION. The statements for the provers. Names are the manual's; each docstring names the rule it formalises.
`s.Opens` is the premise that a command at the intake's door is taken at once; what happens to a command that is not
is the statement CommandsWaitOrDrop, and that every open premise can be met in a run follows from QueuesStayOrderly. -/

open Sys2Proof Sys2Proof.Machine

/-! ## Steps and resets -/

/-- One step carries out the command at the front of the queue on the state with the queue's rest; on an empty queue
the part idles, which is the model's choice (logs 1, 16). -/
def Obligations.StepRunsFrontCommand : Prop :=
  ∀ (s : State) (c : Instr) (rest : List Instr),
    step { s with pending := c :: rest } = exec c { s with pending := rest } ∧
    step { s with pending := [] } = .next { s with pending := [] }

/-- R13, R45, R61, R81, R109, R117, R131, R147, R159, R166: POWER_ON_RESET from any state is carried out, and leaves this
whole state: the straps sampled, every block in its reset state, STARTED on its way. Of these values, that the transmitter
has taken STARTED is log 4, the taking order 0 log 3, that pins and the commands outside the part stand log 6, and the
reset values of the debounce time, the edge times and the sound engine's working registers logs 7 and 8. -/
def Obligations.PowerOnResetLeavesResetState : Prop :=
  ∀ (s : State) (straps : BitVec 2),
    exec (.powerOnReset straps) s = .next
      { link := { receiver := .hunt, intake := [], places := [], nextOrder := 0, resetOrder := none,
                  tx := some (.notice { body := .started .powerOn straps, dropped := false, stamp := 0 }),
                  state := .active, strap := straps, cause := .powerOn, silence := none, framesGood := 0,
                  lengthErrors := 0, checkErrors := 0, gapErrors := 0, byteErrors := 0, intakeDrops := 0,
                  silenceCount := 0 }
        settings := { silenceMs := 0, budgetWindowMs := 10, budgetSource := 255, brownoutRecover := 3,
                      speakerLoad := 300, soundFloor := 20, queueLowMark := 4, scanStart := 0, scanStop := 0 }
        bus := { stamp := 0, events := [], overflow := false, dispatch := none, notices := [], dropped := false,
                 noticesDropped := 0 }
        ports := Vector.ofFn fun n =>
          { state := .empty, fault := .none, profile := none, cls := 0, variant := 0, formats := [], minPoll := 0,
            missed := 0, forward := false, fields := Vector.replicate 6 0, band := none, det := s.ports[n].det,
            detAccepted := false, detTimer := some 20, exchange := none, pass := none, pollDue := false,
            queryDue := false, tries := 0, queryTimer := none, pollTimer := none, resumes := false,
            reprobeTimer := none }
        profiles := Vector.replicate 16
          { valid := false, cls := 0, variant := 0, use := .motor, lineUse := .none, debounceMs := 0,
            positionSource := 0, safeAction := .coast, cpr := 0, ratedLoad := 0, regPeriod := 0, inposCount := 0,
            tolerance := 0, approachGain := 0, kp := 0, ki := 0, imax := 0, stallDuty := 0, stallSpeed := 0,
            stallWarn := 0, stallStop := 0, pollMs := 0 }
        service := none
        scan := { slots := Vector.replicate 16 { input := 0, average := 1 }
                  images := Vector.replicate 16
                    { raw := 0, conversions := 0, sequence := 0, stamp := 0, input := 0, slotState := .idle }
                  mode := .off, passDue := false, pass := none, cut := false, work := .idle,
                  idReq := Vector.replicate 6 false }
        lines := Vector.ofFn fun n =>
          { pin1 := s.lines[n].pin1, pin2 := s.lines[n].pin2, mode := .none, level1 := false, level2 := false,
            timer1 := none, timer2 := none, debounce := 0, count := 0, errors := 0, high := 0, period := 0, duty := 0,
            lastRise := 0, lastFall := 0, armed := false, noEdge := none }
        conv := Vector.replicate 32
          { cfg := { sourceKind := .none, sourceIndex := 0, sourceField := 0, mode := .raw, offset := 0, gain := 0,
                     filterShift := 0, tripCount := 1, maxChange := 0, low := 0, high := 0, hysteresis := 0,
                     window := .off, railCheck := false }
            value := 0, status := .empty, alarm := .normal, updateCount := 0, stamp := 0, prevIn := none,
            prevOut := none, railRun := 0, pending := 0 }
        encStamp := Vector.replicate 6 none
        motors := Vector.replicate 6
          { mode := .coast, operation := .none, notify := false, endAction := .coast, outcome := .none, position := 0,
            prevPosition := 0, speed := 0, targetSpeed := 0, targetPosition := 0, vmax := 0, runEnd := 0,
            followEntry := 0, followGain := 0, integral := 0, dutyRequest := 0, dutyGrant := 0, allowance := 1000,
            stallCount := 0, stallEpisode := false, inposCount := 0, regTimer := none, runForTimer := none,
            firstField := false }
        marks := Vector.replicate 6 { enabled := false, isOn := false, markA := 0, markB := 0, step := 0 }
        budget := { rows := Vector.ofFn fun n =>
                      { valid := decide (n = 0), minMv := 0, ceiling := if n = 0 then 1500 else 0 }
                    record := { state := .normal, ceiling := 1500, row := some 0, batteryValid := false, batteryMv := 0,
                                motorDemand := 0, soundDemand := 0, soundVolume := 0, share := 0, scale := 1024,
                                soundGrant := 0, soundAllowance := 100, recovery := 0, windowCount := 0 }
                    window := some 10, loadOld := 300 }
        sound := { tonePlaying := false, note := { pitch := 0, duration := 0, waveform := .square, level := 0 },
                   noteSamples := 0, phase := 0, step := 0, noteTimer := none, queue := [], clipPlaying := false,
                   clipIndex := 0, clipStart := 0, clipLength := 0, clipRate := 0, clipPos := 0, clipInc := 0,
                   playsLeft := 0, clipLevel := 0, master := 50, granted := 0, allowance := 100, out := 0,
                   clips := Vector.replicate 16 { start := 0, length := 0, rate := 0, valid := false }, store := [] }
        reactions := Vector.replicate 24
          { enabled := false, always := false, triggerKind := .none, triggerIndex := 0, triggerDetail := 0,
            level := false, actionKind := .none, actionTarget := 0, arg0 := 0, arg1 := 0, arg2 := 0, hitCount := 0 }
        failures := 0
        blocked := 0
        reports := Vector.replicate 12
          { enabled := false, periodMs := 0, minInterval := 0, changeDelta := 0, itemCount := 1,
            items := Vector.replicate 8 { kind := .conv, index := 0 }, lastSent := Vector.replicate 8 none,
            pending := false, skipped := 0, periodTimer := none, minTimer := none }
        reportQueue := []
        passSkipped := Vector.replicate 6 0
        pending := s.pending }

/-! ## Reception -/

/-- R1, R2, R3: one byte in each state of the receiver, and the gap timer's expiry; a good check byte is the statement
FramesCarryTheirCommands. -/
def Obligations.ReceiverTakesOneByte : Prop :=
  ∀ (s : State) (b n : Byte) (got : List Byte),
    (s.link.receiver = .hunt →
      exec (.frameReceived [⟨b, true⟩]) s = .next s ∧ exec .gapTimeout s = .next s ∧
      exec (.frameReceived [⟨b, false⟩]) s =
        .next { s with link := { s.link with receiver := if b = 0xC3 then .length else .hunt } }) ∧
    (s.link.receiver ≠ .hunt →
      exec (.frameReceived [⟨b, true⟩]) s =
        .next { s with link := { s.link with receiver := .hunt, byteErrors := satInc s.link.byteErrors } } ∧
      exec .gapTimeout s =
        .next { s with link := { s.link with receiver := .hunt, gapErrors := satInc s.link.gapErrors } }) ∧
    (s.link.receiver = .length →
      exec (.frameReceived [⟨b, false⟩]) s =
        .next { s with link :=
          if 2 ≤ b.toNat ∧ b.toNat ≤ 250 then { s.link with receiver := .body b [] }
          else { s.link with receiver := .hunt, lengthErrors := satInc s.link.lengthErrors } }) ∧
    (s.link.receiver = .body n got →
      exec (.frameReceived [⟨b, false⟩]) s =
        .next { s with link := { s.link with
          receiver := if got.length + 1 = n.toNat then .check n (got ++ [b]) else .body n (got ++ [b]) } }) ∧
    (s.link.receiver = .check n got → crc8 (n :: got) ≠ b →
      exec (.frameReceived [⟨b, false⟩]) s =
        .next { s with link := { s.link with receiver := .hunt, checkErrors := satInc s.link.checkErrors } })

/-- R1, R3, R5, R6, R15, R16: the bytes of the frame of any command row, received from HUNT, do what the row does on a
link whose good frame is counted, whose silence timer is restarted and which is ACTIVE. Every operand of every command
is therefore carried by its encoding (section 1.10). -/
def Obligations.FramesCarryTheirCommands : Prop :=
  ∀ (s : State) (c : Instr) (f : Frame), frameOf c = some f → c.wellFormed = true → s.link.receiver = .hunt →
    exec (.frameReceived (onLine (frameBytes f.kind f.tag f.payload))) s =
      exec c { s with link := { s.link with
        framesGood := s.link.framesGood + 1, state := .active,
        silence := if s.settings.silenceMs = 0 then none else some s.settings.silenceMs.toNat } }

/-- R4, R5: while no command can be taken (every place held, or a RESET waiting), a command's frame waits at the
intake's tail; at four frames it is dropped and counted, with one INTAKE_OVERFLOW notice at a time. -/
def Obligations.CommandsWaitOrDrop : Prop :=
  ∀ (s : State) (c : Instr) (f : Frame), frameOf c = some f →
    (4 ≤ s.link.places.length ∨ s.link.resetOrder.isSome = true) →
    (s.link.intake.length < 4 →
      exec c s = .next (State.transmitNext { s with link := { s.link with intake := s.link.intake ++ [f] } })) ∧
    (4 ≤ s.link.intake.length →
      exec c s = .next (State.transmitNext
        { s with
          link := { s.link with intakeDrops := satInc s.link.intakeDrops }
          bus := if s.bus.notices.any (fun n => n.body.isIntakeOverflow) then s.bus
                 else s.bus.notify (.intakeOverflow (satInc s.link.intakeDrops)) }))

/-- R19, R20, R21, R22, R164, R165, section 1.10: bytes on the two links. A frame's check byte closes its CRC at 0, the
manual's example checks, and the bytes of a device-line frame sum to 255. Numbers are little-endian. The transmitter's
frames: an ANSWER (80h) with the tag, kind and status it answers, a NOTICE (A0h), a REPORT (90h) and a PASS (B0h) with tag
0, each with the fields of its payload in order. -/
def Obligations.CheckBytesClose : Prop :=
  let framed (kind tag : Byte) (payload : List Byte) : List Byte :=
    let body := byteOf (payload.length + 2) :: kind :: tag :: payload
    0xC3 :: body ++ [crc8 body]
  let noticed (n : Notice) (kind : Byte) (body : List Byte) : Prop :=
    Sending.wire (.notice n) = framed 0xA0 0 (kind :: flagCode n.dropped :: le16 n.stamp ++ body)
  (∀ bs : List Byte, crc8 (bs ++ [crc8 bs]) = 0) ∧ crc8 [0x02, 0x60, 0x01] = 0x24 ∧
  (∀ (type : BitVec 3) (payload : List Byte), byteSum (deviceFrame type payload) = 255) ∧
  (∀ (h : Half) (w : Word),
    le16 h = [byteOf h.toNat, byteOf (h.toNat / 256)] ∧
    le32 w = [byteOf w.toNat, byteOf (w.toNat / 256), byteOf (w.toNat / 65536), byteOf (w.toNat / 16777216)]) ∧
  (∀ (order : Nat) (kind tag : Byte) (status : Status) (result : List Byte),
    Sending.wire (.answer order kind tag { status := status, result := result }) =
      framed 0x80 tag (kind :: status.code :: result)) ∧
  (∀ (entry : Fin 12) (stamp skipped : Half) (items : List ReportItem),
    Sending.wire (.report (.report entry stamp skipped items)) =
      framed 0x90 0 (byteOf entry.val :: le16 stamp ++ le16 skipped ++
        items.flatMap fun it => it.kind.code :: it.status :: le32 it.value)) ∧
  (∀ (n : PortNo) (skipped stamp : Half) (data : List Byte),
    Sending.wire (.report (.pass n skipped stamp data)) =
      framed 0xB0 0 (byteOf n.val :: le16 skipped ++ le16 stamp ++ data)) ∧
  (∀ (n : Notice) (port : PortNo) (entry : Fin 24) (e : Event) (kind : EventKind) (b c : Byte) (count depth : Nat)
      (half : Half) (word : Word) (mv : Int) (flag : Bool) (row : Option (Fin 6)) (profile : Option (Fin 16))
      (cause : ResetCause) (strap : BitVec 2) (state : PortState) (fault : FaultReason) (operation : Operation)
      (outcome : Outcome) (now before : BudgetState),
    (n.body = .started cause strap → noticed n 0 [cause.code, byteOf strap.toNat]) ∧
    (n.body = .portChange port state fault profile b c →
      noticed n 1 [byteOf port.val, state.code, fault.code, indexOr255 profile, b, c]) ∧
    (n.body = .runEnd port operation outcome word →
      noticed n 2 (byteOf port.val :: operation.code :: outcome.code :: le32 word)) ∧
    (n.body = .reaction entry e →
      noticed n 3 ([byteOf entry.val, e.kind.code, e.index, e.detail, byteOf e.depth] ++ le16 e.stamp ++
        [flagCode e.directed.isSome])) ∧
    (n.body = .budgetChange now before count row flag mv depth →
      noticed n 4 ([now.code, before.code] ++ le16 (halfOf count) ++ [indexOr255 row, flagCode flag] ++
        le32 (BitVec.ofInt 32 mv) ++ le16 (halfOf depth))) ∧
    (n.body = .queueLow b c → noticed n 5 [b, c]) ∧
    (n.body = .intakeOverflow half → noticed n 6 (le16 half)) ∧
    (n.body = .eventOverflow kind b → noticed n 7 [kind.code, b]) ∧
    (n.body = .depthLimit kind b depth entry → noticed n 8 [kind.code, b, byteOf depth, byteOf entry.val]))

/-! ## Commands of the link controller -/

/-- R11: STATE with an empty payload answers OK with the identity record, its capacities in ascending id order; any
other length gives BAD_LENGTH. -/
def Obligations.StateAnswersIdentity : Prop :=
  ∀ (s : State) (tag : Byte) (payload : List Byte), s.Opens →
    exec (.state tag payload) s = .next (
      if payload = [] then
        s.replied 0x60 tag .ok
          ([41, 62, 3, s.link.strap.zeroExtend 8, (match s.link.cause with | .powerOn => 0 | .software => 1), 16] ++
           [1, 1, 0, 2, 16, 0, 3, 16, 0, 4, 32, 0, 5, 24, 0, 6, 6, 0, 7, 6, 0, 8, 12, 0, 9, 16, 0, 10, 0, 128] ++
           [16, 6, 0, 17, 6, 0, 18, 1, 0, 19, 1, 0, 20, 1, 0, 21, 16, 0])
      else s.replied 0x60 tag .badLength [])

/-- R6: a kind that is no downstream kind is answered UNKNOWN_KIND, the answer echoing tag and kind, and nothing else
changes. -/
def Obligations.UnknownKindsAnswered : Prop :=
  ∀ (s : State) (kind tag : Byte) (payload : List Byte), s.Opens → unknownCode kind = true →
    exec (.unknownKind kind tag payload) s = .next (s.replied kind tag .unknownKind [])

/-- R12: RESET with an empty payload is answered OK and from then on no command is taken; any other length gives
BAD_LENGTH and does not reset. -/
def Obligations.ResetWaitsForItsAnswer : Prop :=
  ∀ (s : State) (tag : Byte) (payload : List Byte), s.Opens →
    exec (.reset tag payload) s = .next (
      if payload = [] then
        State.replied { s with link := { s.link with resetOrder := some s.link.nextOrder } } 0x70 tag .ok []
      else s.replied 0x70 tag .badLength []) ∧
    (State.replied { s with link := { s.link with resetOrder := some s.link.nextOrder } } 0x70 tag .ok []).link.canTake
      = false

/-- R5, R12, R19: FRAME_TRANSMITTED. The transmitter is free and takes the READY answer of the command taken earliest,
else the head notice, else the head report; the place of the answer it sent is FREE, and with frames waiting they are taken
then (log 10), the head first and one after another while a place is FREE and no RESET waits, each doing what its command
row does. The answer of a RESET brings the software reset, which keeps straps, pins, clips and sample store: STARTED is
taken at once (log 4), the pins stand (log 6), and working registers without a reset value of the manual are 0 (logs 7,
8). -/
def Obligations.TransmissionCompletes : Prop :=
  (∀ (s : State) (x : Sending), s.link.tx = some x → (x.order = none ∨ x.order ≠ s.link.resetOrder) →
    let u := State.transmitNext
      { s with link := { s.link with tx := none, places := s.link.places.filter fun p => some p.order != x.order } }
    exec .frameTransmitted s = .next (if s.link.intake = [] then u else u.takeAll.transmitNext)) ∧
  (∀ (s : State) (a : Sending) (n : Notice) (ns : List Notice) (r : ReportRecord) (rs : List ReportRecord),
    s.link.tx = none →
    (s.link.readyAnswer = some a → s.transmitNext = { s with link := { s.link with tx := some a } }) ∧
    (s.link.readyAnswer = none → s.bus.notices = n :: ns →
      s.transmitNext =
        { s with link := { s.link with tx := some (.notice n) }, bus := { s.bus with notices := ns } }) ∧
    (s.link.readyAnswer = none → s.bus.notices = [] → s.reportQueue = r :: rs →
      s.transmitNext = { s with link := { s.link with tx := some (.report r) }, reportQueue := rs }) ∧
    (s.link.readyAnswer = none → s.bus.notices = [] → s.reportQueue = [] → s.transmitNext = s)) ∧
  (∀ (s : State) (p : Place) (a : Answer), p ∈ s.link.places → p.answer = some a →
    s.link.places.Pairwise (fun q r => q.order < r.order) →
    (∀ q ∈ s.link.places, q.answer.isSome = true → p.order ≤ q.order) →
    s.link.readyAnswer = some (.answer p.order p.kind p.tag a)) ∧
  (∀ s : State, s.link.readyAnswer = none ↔ ∀ q ∈ s.link.places, q.answer = none) ∧
  (∀ (s : State) (f : Frame) (rest : List Frame) (c : Instr),
    (s.link.intake = [] ∨ 4 ≤ s.link.places.length ∨ s.link.resetOrder.isSome = true → s.takeAll = s) ∧
    (s.link.intake = f :: rest → s.link.places.length < 4 → s.link.resetOrder = none →
      s.takeAll = State.takeAll (State.runFrame { s with link := { s.link with intake := rest } } f)) ∧
    (frameOf c = some f → c.wellFormed = true → s.Opens → exec c s = .next (State.runFrame s f).transmitNext)) ∧
  (∀ (s : State) (order : Nat) (kind tag : Byte) (a : Answer),
    s.link.tx = some (.answer order kind tag a) → s.link.resetOrder = some order →
    Answers (exec .frameTransmitted s) fun t =>
      t.link = { State.reset.link with
        strap := s.link.strap, cause := .software,
        tx := some (.notice { body := .started .software s.link.strap, dropped := false, stamp := 0 }) } ∧
      t.sound = { State.reset.sound with clips := s.sound.clips, store := s.sound.store } ∧
      (∀ n : PortNo, t.ports[n] = { State.reset.ports[n] with det := s.ports[n].det } ∧
        t.lines[n] = { State.reset.lines[n] with pin1 := s.lines[n].pin1, pin2 := s.lines[n].pin2 }) ∧
      t.pending = s.pending ∧
      State.reset.keepsBut t [.link, .sound, .ports, .lines, .pending])

/-- R15, R16, R86, R105, R145: at the expiry of the silence timer the link is SILENT, the entry is counted, LINK_SILENT is
posted, every channel in a driving mode ends SAFE_STOP with its safe action, and both voices stop. The events in their
order: LINK_SILENT, then the RUN_ENDs, then TONE_IDLE and CLIP_END, that order among the blocks being log 26 and that of
the channels, ascending, log 12; each RUN_END with its notice where notify is set. The position of the clip stands (log
25). -/
def Obligations.SilenceStopsMotorsAndSound : Prop :=
  ∀ (s : State) (ms : Nat), s.link.silence = some ms →
    Answers (exec .silenceTimeout s) fun t =>
      t.link = { s.link with state := .silent, silence := none, silenceCount := satInc s.link.silenceCount,
                             tx := t.link.tx } ∧
      (∀ n : PortNo, t.motors[n] =
        if s.motors[n].mode.driving then
          { s.motors[n].ended .safeStop with
              mode := (match s.boundProfile n with
                       | some p => (match p.safeAction with | .coast => .coast | .brake => .brake)
                       | none => .coast),
              dutyRequest := 0, dutyGrant := 0 }
        else s.motors[n]) ∧
      t.sound = { s.sound with
        tonePlaying := false, queue := [], clipPlaying := false,
        noteTimer := if s.sound.tonePlaying ∨ s.sound.queue ≠ [] then none else s.sound.noteTimer } ∧
      (s.bus.dispatch = none → s.bus.events.length < 16 →
        t.bus.events[s.bus.events.length]? = some { kind := .linkSilent, index := 0, detail := 0, depth := 0,
                                                    stamp := s.bus.stamp, directed := none }) ∧
      (let ends : Bus := (List.finRange 6).foldl (fun b n => State.endingBus { s with bus := b } n .safeStop)
         (s.bus.post .linkSilent 0 0)
       let toned : Bus := if s.sound.tonePlaying = true ∨ s.sound.queue ≠ [] then ends.post .toneIdle 0 0 else ends
       let silent : Bus := if s.sound.clipPlaying then toned.post .clipEnd 0 3 else toned
       t.bus.events = silent.events ∧ (s.link.tx ≠ none → t.bus = silent)) ∧
      s.keepsBut t [.link, .motors, .sound, .bus, .reportQueue]

/-! ## Events and notices -/

/-- R150, R153: posting an event. Outside a dispatch it has depth 0; caused by an action it has the dispatched depth
plus 1. A queue with room appends it; a full one drops it, and the first drop sets the overflow flag and queues
EVENT_OVERFLOW. At depth 5 it is cut, and the first cut of a dispatch queues DEPTH_LIMIT. R165: a notice is appended to a
queue with room, carrying the dropped flag, which clears; at a full queue it is dropped and counted and the flag set.
R18: the time stamp counter that both carry advances by 1 and wraps. -/
def Obligations.EventsAndNoticesAreQueued : Prop :=
  (∀ s : State, exec .stampTick s = .next { s with bus := { s.bus with stamp := s.bus.stamp + 1 } }) ∧
  ∀ (b : Bus) (kind : EventKind) (index detail : Byte) (d : Dispatch) (body : NoticeBody),
    let posted (depth : Nat) : Bus :=
      if b.events.length < 16 then
        { b with events := b.events ++ [{ kind := kind, index := index, detail := detail, depth := depth,
                                          stamp := b.stamp, directed := none }] }
      else if b.overflow then b
      else Bus.notify { b with overflow := true } (.eventOverflow kind index)
    (b.dispatch = none → b.post kind index detail = posted 0) ∧
    (b.dispatch = some d → d.record.depth ≤ 3 → b.post kind index detail = posted (d.record.depth + 1)) ∧
    (b.dispatch = some d → 4 ≤ d.record.depth →
      b.post kind index detail =
        if d.cut then b
        else Bus.notify { b with dispatch := some { d with cut := true } }
          (.depthLimit d.record.kind d.record.index d.record.depth d.entry)) ∧
    b.notify body =
      (if b.notices.length < 16 then
        { b with notices := b.notices ++ [{ body := body, dropped := b.dropped, stamp := b.stamp }],
                 dropped := false }
      else { b with noticesDropped := satInc b.noticesDropped, dropped := true })

/-! ## Tables -/

/-- R8, R9: a TABLE WRITE. Its checks in their order, each answering and writing nothing: short payload, unknown or
read-only table, length, count and range, and the first record its owner's check fails (RecordsSurviveEncoding says which
do), whose table index the answer carries. A write that passes them is carried out and answered OK or ADJUSTED, shown whole
for MARKS and for the SAMPLE STORE. The typed row of each table is the TABLE WRITE of that table. -/
def Obligations.TableWriteChecks : Prop :=
  (∀ (s : State) (tag : Byte) (payload : List Byte) (t : Table), s.Opens →
    let first := (u16At payload 1).toNat
    let count := (u8At payload 3).toNat
    let data := payload.drop 4
    let answered (status : Status) : List Place :=
      s.link.places ++ [{ order := s.link.nextOrder, kind := 0x01, tag := tag,
                          answer := some { status := status, result := [] } }]
    (payload.length < 4 → exec (.tableWrite tag payload) s = .next (s.replied 0x01 tag .badLength [])) ∧
    (4 ≤ payload.length → (Table.ofId (u8At payload 0) = none ∨ 16 ≤ (u8At payload 0).toNat) →
      exec (.tableWrite tag payload) s = .next (s.replied 0x01 tag .badTable [])) ∧
    (4 ≤ payload.length → u8At payload 0 = t.id → t.id.toNat ≤ 10 →
      (payload.length ≠ 4 + count * t.size →
        exec (.tableWrite tag payload) s = .next (s.replied 0x01 tag .badLength [])) ∧
      (payload.length = 4 + count * t.size →
        (count = 0 ∨ t.records < first + count ∨ (t = .sampleStore ∧ 240 < count) →
          exec (.tableWrite tag payload) s = .next (s.replied 0x01 tag .badIndex [])) ∧
        (0 < count → first + count ≤ t.records → ∀ bad : Fin 32, first ≤ bad.val →
          t.firstBad first count data = some bad.val →
          exec (.tableWrite tag payload) s = .next (s.replied 0x01 tag .badEntry [byteOf bad.val, 0])) ∧
        (0 < count → first + count ≤ t.records → (t = .sampleStore → count ≤ 240) →
          t.firstBad first count data = none → s.sound.clipPlaying = false →
          (t = .budget → ∃ i : Fin 6, s.budget.rows[i].valid = true ∧ (i.val < first ∨ first + count ≤ i.val)) →
          Answers (exec (.tableWrite tag payload) s) fun u =>
            u.link.places = answered .ok ∨ u.link.places = answered .adjusted)))) ∧
  (∀ (s : State) (tag enabled on : Byte) (n : PortNo) (a b step : Word), s.Opens → on.toNat ≤ 1 →
    exec (.tableWrite tag ([6, byteOf n.val, 0, 1, enabled, on] ++ le32 a ++ le32 b ++ le32 step)) s =
      .next (State.replied
        { s with
          marks := s.marks.set n
            { enabled := enabled != 0, isOn := on == 1, markA := a, markB := b, step := step } }
        0x01 tag (adjustedIf (decide (2 ≤ enabled.toNat))) [])) ∧
  (∀ (s : State) (tag : Byte) (first : Half) (count : Byte) (data : List Byte), s.Opens →
    Memory.wf s.sound.store = true → s.sound.clipPlaying = false → 0 < count.toNat → count.toNat ≤ 240 →
    first.toNat + count.toNat ≤ 32768 → data.length = count.toNat →
    Answers (exec (.tableWrite tag (10 :: le16 first ++ count :: data)) s) fun t =>
      (∀ a : Nat, Memory.read t.sound.store a =
        if within first count a then data.getD (a - first.toNat) 0 else Memory.read s.sound.store a) ∧
      t = State.replied { s with sound := { s.sound with store := t.sound.store } } 0x01 tag .ok []) ∧
  (∀ (s : State) (tag : Byte) (first : Half) (count : Byte) (data : List Byte) (t : Table) (c : Instr),
    typedWrite tag first count data t = some c →
    exec c s = exec (.tableWrite tag (t.id :: le16 first ++ count :: data)) s)

/-- R14, R30, R46, R62, R110, R118, R135, R148, R160, R21: the records of a write. Each owner's own conditions, over the
bytes of a record: which records fail, what is clamped, and when the answer is ADJUSTED. And the record a table holds,
encoded and written back, is read as it was, with nothing clamped: no bit of a record is lost. -/
def Obligations.RecordsSurviveEncoding : Prop :=
  (∀ (silence load : Half) (window source recover floor mark start stop : Byte),
    let r : Settings :=
      { silenceMs := silence, budgetWindowMs := window, budgetSource := source, brownoutRecover := recover,
        speakerLoad := load, soundFloor := floor, queueLowMark := mark, scanStart := start, scanStop := stop }
    let c : Settings :=
      { r with silenceMs := if silence = 0 then 0 else halfOf (max 50 (min 5000 silence.toNat)),
               budgetWindowMs := byteOf (max 5 (min 50 window.toNat)),
               brownoutRecover := if recover = 0 then 1 else recover,
               speakerLoad := halfOf (min 1000 load.toNat), soundFloor := byteOf (min 100 floor.toNat),
               queueLowMark := byteOf (min 31 mark.toNat), scanStart := byteOf (min 15 start.toNat),
               scanStop := byteOf (min 15 stop.toNat) }
    Settings.decode (le16 silence ++ [window, source, recover] ++ le16 load ++ [floor, mark, start, stop]) =
      if 32 ≤ source.toNat ∧ source.toNat ≤ 254 then none else some (c, decide (c ≠ r))) ∧
  (∀ (valid cls variant debounce source period inpos tolerance gain warn stop poll pad : Byte)
      (use : Use) (line : LineMode) (safe : SafeAction) (cpr load kp ki stallDuty stallSpeed : Half) (imax : Word),
    let r : Profile :=
      { valid := valid != 0, cls := cls, variant := variant, use := use, lineUse := line, debounceMs := debounce,
        positionSource := source, safeAction := safe, cpr := cpr, ratedLoad := load, regPeriod := period,
        inposCount := inpos, tolerance := tolerance, approachGain := gain, kp := kp, ki := ki, imax := imax,
        stallDuty := stallDuty, stallSpeed := stallSpeed, stallWarn := warn, stallStop := stop, pollMs := poll }
    let c : Profile :=
      { r with debounceMs := byteOf (min 31 debounce.toNat), cpr := halfOf (max 1 (min 4096 cpr.toNat)),
               ratedLoad := halfOf (min 3000 load.toNat), regPeriod := byteOf (max 4 (min 50 period.toNat)),
               inposCount := byteOf (max 1 (min 16 inpos.toNat)), approachGain := byteOf (max 1 (min 16 gain.toNat)),
               kp := halfOf (min 1023 kp.toNat), ki := halfOf (min 1023 ki.toNat),
               imax := BitVec.ofNat 32 (min 4000000 imax.toNat),
               stallDuty := halfOf (max 100 (min 1000 stallDuty.toNat)),
               stallSpeed := halfOf (min 500 stallSpeed.toNat), pollMs := byteOf (max 5 (min 250 poll.toNat)) }
    let passive : Prop := 1 ≤ cls.toNat ∧ cls.toNat ≤ 6
    Profile.decode ([valid, cls, variant, use.code, line.code, debounce, source, safe.code] ++ le16 cpr ++ le16 load ++
        [period, inpos, tolerance, gain] ++ le16 kp ++ le16 ki ++ le32 imax ++ le16 stallDuty ++ le16 stallSpeed ++
        [warn, stop, poll, pad]) =
      if valid = 0 then some (r, false)
      else if cls = 0 ∨ (7 ≤ cls.toNat ∧ cls.toNat ≤ 15) ∨ (passive ∧ variant ≠ 0) ∨ (passive ∧ line = .device) ∨
          (16 ≤ cls.toNat ∧ line ≠ .device) ∨ (6 ≤ source.toNat ∧ source.toNat ≤ 254) ∨
          (use = .motor ∧ source = 255 ∧ line ≠ .quadrature) ∨
          (use = .motor ∧ source.toNat ≤ 5 ∧ line ≠ .device) then none
      else some (c, decide (2 ≤ valid.toNat ∨ c ≠ r))) ∧
  (∀ input average : Byte,
    let stored : Nat := if average.toNat ≤ 1 then 1 else if average = 2 then 2 else if average.toNat ≤ 5 then 4 else 8
    (8 ≤ input.toNat → ScanSlot.decode [input, average] = none) ∧
    (∀ i : Fin 8, input = byteOf i.val →
      ScanSlot.decode [input, average] = some ({ input := i, average := stored }, decide (stored ≠ average.toNat)))) ∧
  (∀ (i : Fin 32) (kind : SourceKind) (mode : ConvMode) (window : Window) (index field shift trips rail : Byte)
      (offset gain hysteresis : Half) (change low high : Word) (image : List Byte),
    let r : ConvConfig :=
      { sourceKind := kind, sourceIndex := index, sourceField := field, mode := mode, offset := offset, gain := gain,
        filterShift := shift.toNat, tripCount := trips.toNat, maxChange := change, low := low, high := high,
        hysteresis := hysteresis, window := window, railCheck := rail != 0 }
    let c : ConvConfig := { r with filterShift := min 7 shift.toNat, tripCount := max 1 (min 8 trips.toNat) }
    ConvConfig.decode i.val ([kind.code, index, field, mode.code] ++ le16 offset ++ le16 gain ++ [shift, trips] ++
        le32 change ++ le32 low ++ le32 high ++ le16 hysteresis ++ [window.code, rail] ++ image) =
      if (kind = .slot ∧ 16 ≤ index.toNat) ∨ (kind = .entry ∧ i.val ≤ index.toNat) ∨
          (kind ≠ .none ∧ kind ≠ .slot ∧ kind ≠ .entry ∧ 6 ≤ index.toNat) ∨
          (kind = .deviceField ∧ 6 ≤ field.toNat) ∨ (rail ≠ 0 ∧ kind ≠ .slot) ∨
          (window = .both ∧ high.toInt < low.toInt) then none
      else some (c, decide (2 ≤ rail.toNat ∨ c ≠ r))) ∧
  (∀ (enabled index detail target : Byte) (always level : Bool) (kind : EventKind) (action : ActionKind)
      (arg0 arg1 : Word) (arg2 hits : Half),
    let indices : Nat :=
      if 7 ≤ kind.code.toNat ∧ kind.code.toNat ≤ 10 then 32
      else if 1 ≤ kind.code.toNat ∧ kind.code.toNat ≤ 16 then 6 else 256
    let targets : Nat :=
      match action with
      | .motor | .markSet => 6
      | .soundClip => 16
      | .enable | .disable => 24
      | .reportNow => 12
      | .none | .notify | .soundTone | .soundStop | .scanStart | .scanSingle | .scanStop => 256
    Reaction.decode ([enabled, flagCode always, kind.code, index, detail, flagCode level, action.code, target] ++
        le32 arg0 ++ le32 arg1 ++ le16 arg2 ++ le16 hits) =
      if (index ≠ 255 ∧ indices ≤ index.toNat) ∨ targets ≤ target.toNat then none
      else some
        ({ enabled := enabled != 0, always := always, triggerKind := kind, triggerIndex := index,
           triggerDetail := detail, level := level, actionKind := action, actionTarget := target, arg0 := arg0,
           arg1 := arg1, arg2 := arg2, hitCount := 0 }, decide (2 ≤ enabled.toNat))) ∧
  (∀ (enabled on valid : Byte) (a b step : Word) (mv ceiling : Half),
    Mark.decode ([enabled, on] ++ le32 a ++ le32 b ++ le32 step) =
      (if 2 ≤ on.toNat then none
       else some ({ enabled := enabled != 0, isOn := on == 1, markA := a, markB := b, step := step },
                  decide (2 ≤ enabled.toNat))) ∧
    BudgetRow.decode ([valid] ++ le16 mv ++ le16 ceiling) =
      some ({ valid := valid != 0, minMv := mv, ceiling := halfOf (min 8000 ceiling.toNat) },
            decide (2 ≤ valid.toNat ∨ 8000 < ceiling.toNat))) ∧
  (∀ (enabled count : Byte) (period interval : Half) (delta : Word) (items : Vector Item 8),
    let carried : Nat := max 1 (min 8 count.toNat)
    let ms : Half := if period = 0 then 0 else halfOf (max 10 (min 60000 period.toNat))
    Report.decode ([enabled] ++ le16 period ++ le16 interval ++ le32 delta ++ [count] ++
        items.toList.flatMap fun it => [it.kind.code, it.index]) =
      if ∃ k : Fin 8, k.val < carried ∧
          ((items[k].kind = .conv ∧ 32 ≤ items[k].index.toNat) ∨ (items[k].kind = .raw ∧ 16 ≤ items[k].index.toNat) ∨
           (items[k].kind ≠ .conv ∧ items[k].kind ≠ .raw ∧ items[k].kind ≠ .budget ∧ items[k].kind ≠ .sound ∧
            6 ≤ items[k].index.toNat)) then none
      else some
        ({ enabled := enabled != 0, periodMs := ms, minInterval := interval, changeDelta := delta,
           itemCount := carried, items := items, lastSent := Vector.replicate 8 none, pending := false, skipped := 0,
           periodTimer := if enabled ≠ 0 ∧ ms ≠ 0 then some ms.toNat else none, minTimer := none },
         decide (2 ≤ enabled.toNat ∨ carried ≠ count.toNat ∨ ms ≠ period))) ∧
  (∀ (start length rate : Half) (valid : Byte),
    let r : Clip := { start := start, length := length, rate := rate, valid := valid != 0 }
    let c : Clip :=
      { r with length := halfOf (max 1 (min 32768 length.toNat)), rate := halfOf (max 2000 (min 16000 rate.toNat)) }
    Clip.decode (le16 start ++ le16 length ++ le16 rate ++ [valid]) =
      if valid = 0 then some (r, false)
      else if 32768 < start.toNat + max 1 (min 32768 length.toNat) then none
      else some (c, decide (2 ≤ valid.toNat ∨ c ≠ r))) ∧
  (∀ (bs : List Byte) (i : Fin 32) (k : Fin 8),
    (2 ≤ (u8At bs 3).toNat ∨ 5 ≤ (u8At bs 4).toNat ∨ 2 ≤ (u8At bs 7).toNat → Profile.decode bs = none) ∧
    (9 ≤ (u8At bs 0).toNat ∨ 3 ≤ (u8At bs 3).toNat ∨ 4 ≤ (u8At bs 24).toNat → ConvConfig.decode i.val bs = none) ∧
    (2 ≤ (u8At bs 1).toNat ∨ 25 ≤ (u8At bs 2).toNat ∨ 2 ≤ (u8At bs 5).toNat ∨ 13 ≤ (u8At bs 6).toNat →
      Reaction.decode bs = none) ∧
    (10 ≤ (u8At bs (10 + 2 * k.val)).toNat → Report.decode bs = none)) ∧
  (∀ r : Settings, r.clamped = r → (r.budgetSource.toNat < 32 ∨ r.budgetSource = 255) →
    Settings.decode r.encode = some (r, false)) ∧
  (∀ r : Profile, (r.valid = true → r.bad = false ∧ r.clamped = r) → Profile.decode r.encode = some (r, false)) ∧
  (∀ r : ScanSlot, (r.average = 1 ∨ r.average = 2 ∨ r.average = 4 ∨ r.average = 8) →
    ScanSlot.decode r.encode = some (r, false)) ∧
  (∀ (r : ConvConfig) (i : Fin 32), r.bad i.val = false → r.clamped = r →
    ConvConfig.decode i.val (ConvEntry.fresh r).encode = some (r, false)) ∧
  (∀ r : Reaction, r.bad = false → Reaction.decode r.encode = some ({ r with hitCount := 0 }, false)) ∧
  (∀ r : Mark, Mark.decode r.encode = some (r, false)) ∧
  (∀ r : BudgetRow, r.ceiling.toNat ≤ 8000 → BudgetRow.decode r.encode = some (r, false)) ∧
  (∀ r : Report, 1 ≤ r.itemCount → r.itemCount ≤ 8 →
    (r.periodMs = 0 ∨ (10 ≤ r.periodMs.toNat ∧ r.periodMs.toNat ≤ 60000)) →
    (∀ it ∈ r.carried, it.index.toNat < it.kind.indices) →
    Report.decode r.encode = some
      ({ r with lastSent := Vector.replicate 8 none, pending := false, skipped := 0, minTimer := none,
                periodTimer := if r.enabled = true ∧ r.periodMs ≠ 0 then some r.periodMs.toNat else none }, false)) ∧
  (∀ r : Clip, (r.valid = true → r.clamped = r ∧ r.start.toNat + r.length.toNat ≤ 32768) →
    Clip.decode r.encode = some (r, false))

/-- R9, R14, R15, R129: a SETTINGS write replaces the record, restarts the silence timer (which stays stopped while
SILENT or with silence_ms 0), and cuts the volume allowance when it raises speaker_load_mA above Ls_old. -/
def Obligations.SettingsWriteTakesEffect : Prop :=
  ∀ (s : State) (tag : Byte) (data : List Byte) (r : Settings) (clamped : Bool), s.Opens → data.length = 11 →
    Settings.decode data = some (r, clamped) →
    let v := if s.budget.loadOld < r.speakerLoad.toNat then
        s.sound.allowance * s.budget.loadOld / r.speakerLoad.toNat else s.sound.allowance
    exec (.settingsWrite tag 0 1 data) s = .next (State.replied
      { s with
        settings := r
        link := { s.link with silence :=
          if s.link.state = .active ∧ r.silenceMs ≠ 0 then some r.silenceMs.toNat else none }
        sound := { s.sound with allowance := v }
        budget :=
          if s.budget.loadOld < r.speakerLoad.toNat then
            { s.budget with record := { s.budget.record with soundAllowance := v }, loadOld := r.speakerLoad.toNat }
          else s.budget }
      0x01 tag (adjustedIf clamped) [])

/-- R9, R28, R29, R30, R31, R77, R107: a PROFILES write replaces its records and then looks ports up once each: a port
BOUND to a written index loses its binding (its operation ends REBOUND, its entries take NO_SOURCE) and is bound afresh or
becomes UNKNOWN; an UNKNOWN port is looked up when a written record is valid; any other port is left as it is, and so is
every entry that lies on no port which lost its binding. Port by port in ascending order (log 12), the RUN_END of the
operation stands ahead of PORT_BOUND and its PORT_CHANGE (log 26); a port that becomes UNKNOWN queues a PORT_CHANGE, one
that was UNKNOWN none (log 18). -/
def Obligations.ProfilesWriteRebinds : Prop :=
  ∀ (s : State) (tag : Byte) (first : Half) (count : Byte) (data : List Byte) (rs : List Profile) (clamped : Bool),
    s.Opens → 0 < count.toNat → first.toNat + count.toNat ≤ 16 → data.length = count.toNat * 32 →
    decodeAll (fun _ => Profile.decode) 32 count.toNat first.toNat data = .ok (rs, clamped) →
    Answers (exec (.profilesWrite tag first count data) s) fun t =>
      (∀ i : Fin 16, t.profiles[i] =
        if within first count i.val then
          rs.getD (i.val - first.toNat) Profile.reset else s.profiles[i]) ∧
      (∀ (n : PortNo),
        ((s.ports[n].state = .bound ∧ ∃ i : Fin 16, s.ports[n].profile = some i ∧ within first count i.val) ∨
         (s.ports[n].state = .unknown ∧ rs.any Profile.valid = true) →
          (∀ i : Fin 16, lookup t.profiles s.ports[n].cls s.ports[n].variant = some i →
            t.ports[n].state = .bound ∧ t.ports[n].profile = some i ∧ t.ports[n].missed = 0 ∧
            t.lines[n].mode = t.profiles[i].lineUse ∧
            (t.profiles[i].use = .motor →
              t.motors[n].mode = .coast ∧ t.motors[n].position = 0 ∧ t.motors[n].dutyGrant = 0 ∧
              t.motors[n].allowance = 0 ∧ t.motors[n].regTimer = some t.profiles[i].regPeriod.toNat)) ∧
          (lookup t.profiles s.ports[n].cls s.ports[n].variant = none →
            t.ports[n].state = .unknown ∧ t.ports[n].profile = none ∧ t.lines[n].mode = .none) ∧
          (s.ports[n].state = .bound → s.motors[n].mode.driving = true → s.motors[n].regTimer ≠ none →
            t.motors[n].outcome = .rebound ∧ t.motors[n].mode = .coast) ∧
          t.ports[n].forward = s.ports[n].forward ∧ t.ports[n].pass = s.ports[n].pass) ∧
        (¬ (s.ports[n].state = .bound ∧ ∃ i : Fin 16, s.ports[n].profile = some i ∧ within first count i.val) →
          ¬ (s.ports[n].state = .unknown ∧ rs.any Profile.valid = true) →
          t.ports[n] = s.ports[n] ∧ t.lines[n] = s.lines[n] ∧ t.motors[n] = s.motors[n])) ∧
      (let rebound (n : PortNo) : Bool :=
         s.ports[n].state == .bound && s.ports[n].profile.any (fun i => decide (within first count i.val))
       let announced (b : Bus) (n : PortNo) : Bus :=
         let p := s.ports[n]
         let lost : Bus := if rebound n = true ∧ s.motors[n].regTimer ≠ none then
           State.endingBus { s with bus := b } n .rebound else b
         if rebound n = true ∨ (p.state = .unknown ∧ rs.any Profile.valid = true) then
           match lookup t.profiles p.cls p.variant with
           | some i => (lost.post .portBound (portByte n) (byteOf i.val)).notify
               (.portChange n .bound .none (some i) p.cls p.variant)
           | none =>
             if p.state = .unknown then lost else lost.notify (.portChange n .unknown .none none p.cls p.variant)
         else b
       t.bus = (List.finRange 6).foldl announced s.bus ∧
       (∀ (i : Fin 32) (n : PortNo), s.sourcePort s.conv[i].cfg = some n →
         (rebound n = true → s.conv[i].status ≠ .empty →
           t.conv[i].status = .noSource ∧ t.conv[i].value = s.conv[i].value ∧
           (s.conv[i].status ≠ .noSource → t.conv[i].prevIn = none ∧ t.conv[i].prevOut = none)) ∧
         (rebound n = false → t.conv[i] = s.conv[i])) ∧
       (∀ i : Fin 32, s.conv[i].cfg.sourceKind ≠ .entry → s.sourcePort s.conv[i].cfg = none →
         t.conv[i] = s.conv[i])) ∧
      t.link = { s.link with
        tx := t.link.tx, nextOrder := s.link.nextOrder + 1,
        places := s.link.places ++ [{ order := s.link.nextOrder, kind := 0x01, tag := tag,
                                      answer := some { status := adjustedIf clamped, result := [] } }] } ∧
      s.keepsBut t [.link, .profiles, .ports, .lines, .motors, .conv, .bus, .reportQueue]

/-- R9, R46, R77, R78: a SCAN LIST write replaces its slots, leaves images and sequence counts, takes the result of the
slot being converted, and gives NO_SOURCE to the SLOT entries over a written slot that lies on a port not BOUND. -/
def Obligations.ScanListWriteReplacesSlots : Prop :=
  ∀ (s : State) (tag : Byte) (first : Half) (count : Byte) (data : List Byte) (rs : List ScanSlot) (clamped : Bool),
    s.Opens → 0 < count.toNat → first.toNat + count.toNat ≤ 16 → data.length = count.toNat * 2 →
    decodeAll (fun _ => ScanSlot.decode) 2 count.toNat first.toNat data = .ok (rs, clamped) →
    Answers (exec (.scanListWrite tag first count data) s) fun t =>
      (∀ i : Fin 16, t.scan.slots[i] =
        if within first count i.val then
          rs.getD (i.val - first.toNat) { input := 0, average := 1 } else s.scan.slots[i]) ∧
      t.scan = { s.scan with
        slots := t.scan.slots,
        work := match s.scan.work with
          | .slot i input n done sum discard =>
            .slot i input n done sum
              (discard || decide (within first count i.val))
          | .idle => .idle
          | .ident n v => .ident n v } ∧
      (∀ (e : Fin 32) (i : Fin 16), within first count i.val → s.conv[e].cfg.sourceKind = .slot →
        s.conv[e].cfg.sourceIndex.toNat = i.val → s.conv[e].status ≠ .empty →
        (∃ n : PortNo, inputPort t.scan.slots[i].input = some n ∧ s.ports[n].state ≠ .bound) →
        t.conv[e].status = .noSource) ∧
      ((∀ (i : Fin 16) (n : PortNo), within first count i.val → inputPort t.scan.slots[i].input = some n →
          s.ports[n].state = .bound) → t.conv = s.conv) ∧
      t.link = { s.link with
        tx := t.link.tx, nextOrder := s.link.nextOrder + 1,
        places := s.link.places ++ [{ order := s.link.nextOrder, kind := 0x01, tag := tag,
                                      answer := some { status := adjustedIf clamped, result := [] } }] } ∧
      s.keepsBut t [.link, .scan, .conv, .bus, .reportQueue]

/-- R9, R63, R79: each written CONVERSION entry starts over with its configuration; an entry not written that reads a
written one takes NO_SOURCE; an entry not written that reads no entry is as it was. -/
def Obligations.ConversionWriteStartsOver : Prop :=
  ∀ (s : State) (tag : Byte) (first : Half) (count : Byte) (data : List Byte) (rs : List ConvConfig) (clamped : Bool),
    s.Opens → 0 < count.toNat → first.toNat + count.toNat ≤ 32 → data.length = count.toNat * 36 →
    decodeAll ConvConfig.decode 36 count.toNat first.toNat data = .ok (rs, clamped) →
    Answers (exec (.conversionWrite tag first count data) s) fun t =>
      (∀ i : Fin 32,
        (within first count i.val → t.conv[i] =
          { cfg := rs.getD (i.val - first.toNat) ConvConfig.reset, value := 0, status := .empty, alarm := .normal,
            updateCount := 0, stamp := 0, prevIn := none, prevOut := none, railRun := 0, pending := 0 }) ∧
        (¬ within first count i.val → t.conv[i].cfg = s.conv[i].cfg ∧ t.conv[i].value = s.conv[i].value ∧
          (s.conv[i].cfg.sourceKind ≠ .entry → t.conv[i] = s.conv[i]) ∧
          (∀ j : Fin 32, within first count j.val → s.conv[i].cfg.sourceKind = .entry → s.conv[i].cfg.sourceIndex.toNat = j.val →
            t.conv[i].status = .noSource ∧
            (s.conv[i].status ≠ .noSource → t.conv[i].prevIn = none ∧ t.conv[i].prevOut = none)))) ∧
      t.link = { s.link with
        tx := t.link.tx, nextOrder := s.link.nextOrder + 1,
        places := s.link.places ++ [{ order := s.link.nextOrder, kind := 0x01, tag := tag,
                                      answer := some { status := adjustedIf clamped, result := [] } }] } ∧
      s.keepsBut t [.link, .conv, .bus, .reportQueue]

/-- R9, R55, R149, R154: a REACTIONS write replaces its entries with hit count 0. With no written entry enabled at LEVEL
nothing else happens. One written entry that is offers its directed level record when the condition of its trigger kind
holds: at the lowest index the entry names, the lower line that holds or the profile bound as its detail, and none when no
index holds. -/
def Obligations.ReactionsWriteReplacesEntries : Prop :=
  (∀ (s : State) (tag : Byte) (first : Half) (count : Byte) (data : List Byte) (rs : List Reaction) (clamped : Bool),
    s.Opens → 0 < count.toNat → first.toNat + count.toNat ≤ 24 → data.length = count.toNat * 20 →
    decodeAll (fun _ => Reaction.decode) 20 count.toNat first.toNat data = .ok (rs, clamped) →
    rs.all (fun r => !(r.enabled && r.level)) = true →
    exec (.reactionsWrite tag first count data) s = .next (State.replied
      { s with reactions := Vector.ofFn fun i =>
          if within first count i.val then
            rs.getD (i.val - first.toNat) Reaction.reset else s.reactions[i] }
      0x01 tag (adjustedIf clamped) [])) ∧
  (∀ (s : State) (tag : Byte) (i : Fin 24) (data : List Byte) (r : Reaction) (clamped : Bool) (n : PortNo) (e : Fin 32),
    s.Opens → data.length = 20 → Reaction.decode data = some (r, clamped) → r.enabled = true → r.level = true →
    s.bus.dispatch = none → s.bus.events.length < 16 →
    let writes (events : List Event) : Prop :=
      exec (.reactionsWrite tag (halfOf i.val) 1 data) s = .next (State.replied
        { s with reactions := s.reactions.set i r, bus := { s.bus with events := s.bus.events ++ events } }
        0x01 tag (adjustedIf clamped) [])
    let offers (index detail : Byte) : Prop :=
      s.holding r = some (index, detail) ∧
      writes [{ kind := r.triggerKind, index := index, detail := detail, depth := 0, stamp := s.bus.stamp,
                directed := some i }]
    let names (k : Nat) : Prop := r.triggerIndex = 255 ∨ r.triggerIndex.toNat = k
    let level (k : PortNo) : Line → Bool
      | .l1 => match s.lines[k].mode with
        | .none | .device => false
        | .digital | .quadrature | .pulse => s.lines[k].level1
      | .l2 => match s.lines[k].mode with
        | .none | .device => false
        | .digital | .quadrature => s.lines[k].level2
        | .pulse => s.lines[k].pin2
    let on1 (k : PortNo) (high : Bool) : Prop := (r.triggerDetail = 255 ∨ r.triggerDetail = 0) ∧ level k .l1 = high
    let on2 (k : PortNo) (high : Bool) : Prop := (r.triggerDetail = 255 ∨ r.triggerDetail = 1) ∧ level k .l2 = high
    let atPort (k : PortNo) : Prop :=
      (r.triggerKind = .markOn ∧ s.marks[k].isOn = true) ∨ (r.triggerKind = .markOff ∧ s.marks[k].isOn = false) ∨
      (r.triggerKind = .lineRise ∧ (on1 k true ∨ on2 k true)) ∨
      (r.triggerKind = .lineFall ∧ (on1 k false ∨ on2 k false)) ∨
      (r.triggerKind = .portBound ∧ s.ports[k].state = .bound ∧
        (r.triggerDetail = 255 ∨ indexOr255 s.ports[k].profile = r.triggerDetail))
    let atEntry (k : Fin 32) : Prop :=
      (r.triggerKind = .alarmHigh ∧ s.conv[k].alarm = .high) ∨ (r.triggerKind = .alarmLow ∧ s.conv[k].alarm = .low)
    let atState : Prop :=
      (r.triggerKind = .brownout ∧ s.budget.record.state = .brownout) ∨
      (r.triggerKind = .linkSilent ∧ s.link.state = .silent)
    (atPort n → names n.val → (∀ k : PortNo, k < n → names k.val → ¬ atPort k) →
      (r.triggerKind = .markOn ∨ r.triggerKind = .markOff → offers (byteOf n.val) 0) ∧
      (r.triggerKind = .lineRise → on1 n true → offers (byteOf n.val) 0) ∧
      (r.triggerKind = .lineRise → ¬ on1 n true → offers (byteOf n.val) 1) ∧
      (r.triggerKind = .lineFall → on1 n false → offers (byteOf n.val) 0) ∧
      (r.triggerKind = .lineFall → ¬ on1 n false → offers (byteOf n.val) 1) ∧
      (r.triggerKind = .portBound → offers (byteOf n.val) (indexOr255 s.ports[n].profile))) ∧
    (atEntry e → names e.val → (∀ k : Fin 32, k < e → names k.val → ¬ atEntry k) → offers (byteOf e.val) 0) ∧
    (atState → offers 0 0) ∧
    ((∀ k : PortNo, names k.val → ¬ atPort k) → (∀ k : Fin 32, names k.val → ¬ atEntry k) → ¬ atState →
      s.holding r = none ∧ writes []))

/-- R9, R110, R118, R135, R136, R160: a write of MARKS, BUDGET, REPORTS or CLIPS that passes its checks replaces its
records and touches nothing else; a BUDGET write that would leave no valid row is BAD_ENTRY with its first index, and a
CLIPS write that names the entry of the clip playing is IN_USE. -/
def Obligations.PlainWritesReplaceRecords : Prop :=
  ∀ (s : State) (tag : Byte) (first : Half) (count : Byte) (data : List Byte) (clamped : Bool)
    (ms : List Mark) (bs : List BudgetRow) (ps : List Report) (cs : List Clip), s.Opens → 0 < count.toNat →
    (first.toNat + count.toNat ≤ 6 → data.length = count.toNat * 14 →
      decodeAll (fun _ => Mark.decode) 14 count.toNat first.toNat data = .ok (ms, clamped) →
      exec (.marksWrite tag first count data) s = .next (State.replied
        { s with marks := Vector.ofFn fun i =>
            if within first count i.val then
              ms.getD (i.val - first.toNat) Mark.reset else s.marks[i] }
        0x01 tag (adjustedIf clamped) [])) ∧
    (first.toNat + count.toNat ≤ 6 → data.length = count.toNat * 5 →
      decodeAll (fun _ => BudgetRow.decode) 5 count.toNat first.toNat data = .ok (bs, clamped) →
      let rows : Vector BudgetRow 6 := Vector.ofFn fun i =>
        if within first count i.val then
          bs.getD (i.val - first.toNat) BudgetRow.reset else s.budget.rows[i]
      exec (.budgetWrite tag first count data) s = .next (
        if ∃ i : Fin 6, rows[i].valid = true then
          State.replied { s with budget := { s.budget with rows := rows } } 0x01 tag (adjustedIf clamped) []
        else s.replied 0x01 tag .badEntry (le16 first))) ∧
    (first.toNat + count.toNat ≤ 12 → data.length = count.toNat * 26 →
      decodeAll (fun _ => Report.decode) 26 count.toNat first.toNat data = .ok (ps, clamped) →
      exec (.reportsWrite tag first count data) s = .next (State.replied
        { s with reports := Vector.ofFn fun i =>
            if within first count i.val then
              ps.getD (i.val - first.toNat) Report.reset else s.reports[i] }
        0x01 tag (adjustedIf clamped) [])) ∧
    (first.toNat + count.toNat ≤ 16 → data.length = count.toNat * 7 →
      decodeAll (fun _ => Clip.decode) 7 count.toNat first.toNat data = .ok (cs, clamped) →
      exec (.clipsWrite tag first count data) s = .next (
        if s.sound.clipPlaying = true ∧ within first count s.sound.clipIndex.val then
          s.replied 0x01 tag .inUse []
        else State.replied
          { s with sound := { s.sound with
              clips := Vector.ofFn fun i =>
                if within first count i.val then cs.getD (i.val - first.toNat) Clip.reset else s.sound.clips[i] } }
          0x01 tag (adjustedIf clamped) []))

/-- R8, R9, R136: a SAMPLE STORE write puts its bytes at its offset and leaves every other byte of the store; a write
that meets the extent of the clip playing is IN_USE and changes nothing. -/
def Obligations.StoreWriteTouchesItsBytes : Prop :=
  ∀ (s : State) (tag : Byte) (offset : Half) (count : Byte) (data : List Byte), s.Opens →
    Memory.wf s.sound.store = true → 0 < count.toNat → count.toNat ≤ 240 → offset.toNat + count.toNat ≤ 32768 →
    data.length = count.toNat →
    (s.sound.clipPlaying = true → s.sound.clipStart < offset.toNat + count.toNat →
      offset.toNat < s.sound.clipStart + s.sound.clipLength → 0 < s.sound.clipLength →
      exec (.sampleStoreWrite tag offset count data) s = .next (s.replied 0x01 tag .inUse [])) ∧
    (s.sound.clipPlaying = false ∨ offset.toNat + count.toNat ≤ s.sound.clipStart ∨
      s.sound.clipStart + s.sound.clipLength ≤ offset.toNat →
      Answers (exec (.sampleStoreWrite tag offset count data) s) fun t =>
        (∀ a : Nat, Memory.read t.sound.store a =
          if within offset count a then data.getD (a - offset.toNat) 0
          else Memory.read s.sound.store a) ∧
        t = State.replied { s with sound := { s.sound with store := t.sound.store } } 0x01 tag .ok [])

/-- R8, R10, R17, R21, R82, R119, R132: the checks of a TABLE READ in their order, and a read
that passes: OK with id, first index and count, then the records as they stand, the read's own place being RESERVED (R17).
The records of the read-only tables, field by field, with the read-only fields of CONVERSION and REACTIONS; a writable
table's record is its owner's encoding (RecordsSurviveEncoding). note_remaining counts output samples (log 8). -/
def Obligations.TableReadReturnsRecords : Prop :=
  (∀ (s : State) (tag lo hi count id : Byte) (payload : List Byte) (t : Table), s.Opens →
    let first := (hi ++ lo : Half).toNat
    (payload.length ≠ 4 → exec (.tableRead tag payload) s = .next (s.replied 0x02 tag .badLength [])) ∧
    (Table.ofId id = none →
      exec (.tableRead tag [id, lo, hi, count]) s = .next (s.replied 0x02 tag .badTable [])) ∧
    (count = 0 ∨ t.records < first + count.toNat ∨ (t = .sampleStore ∧ 240 < count.toNat) →
      exec (.tableRead tag [t.id, lo, hi, count]) s = .next (s.replied 0x02 tag .badIndex [])) ∧
    (0 < count.toNat → first + count.toNat ≤ t.records → (t = .sampleStore → count.toNat ≤ 240) →
      (242 < count.toNat * t.size →
        exec (.tableRead tag [t.id, lo, hi, count]) s = .next (s.replied 0x02 tag .badLength [])) ∧
      (count.toNat * t.size ≤ 242 →
        exec (.tableRead tag [t.id, lo, hi, count]) s = .next (s.replied 0x02 tag .ok
          ([t.id, lo, hi, count] ++ (List.range count.toNat).flatMap fun k =>
            State.record
              { s with link := { s.link with
                  nextOrder := s.link.nextOrder + 1,
                  places := s.link.places ++ [{ order := s.link.nextOrder, kind := 0x02, tag := tag, answer := none }] } }
              t (first + k)))))) ∧
  (∀ (s : State) (n : PortNo) (i : Fin 16) (e : Fin 32) (x : Fin 24) (q : Fin 12) (a : Nat),
    let p := s.ports[n]
    let m := s.motors[n]
    let b := s.budget.record
    let v := s.sound
    let g := s.scan.images[i]
    s.record .portState n.val =
      [p.state.code, p.fault.code, indexOr255 p.profile, p.cls, p.variant, byteOf p.formats.length] ++
      ((List.range 6).map fun k => match p.formats[k]? with | some f => f.code | none => 0) ++
      [p.minPoll, byteOf p.missed, flagCode (decide (s.service = some n)), flagCode p.forward] ++
      ((List.finRange 6).flatMap fun k => le32 p.fields[k]) ∧
    s.record .motorState n.val =
      [m.mode.code, m.operation.code, flagCode m.notify, m.endAction.code, m.outcome.code] ++ le32 m.position ++
      le32 m.prevPosition ++ le16 (BitVec.ofInt 16 m.speed) ++ le16 (BitVec.ofInt 16 m.targetSpeed) ++
      le32 m.targetPosition ++ le16 (halfOf m.vmax) ++ le16 m.runEnd ++ [byteOf m.followEntry.val] ++
      le16 m.followGain ++ le32 (BitVec.ofInt 32 m.integral) ++ le16 (BitVec.ofInt 16 m.dutyRequest) ++
      le16 (BitVec.ofInt 16 m.dutyGrant) ++ le16 (halfOf m.allowance) ++
      [byteOf m.stallCount, flagCode m.stallEpisode, byteOf m.inposCount] ∧
    s.record .budgetState 0 =
      [b.state.code] ++ le16 (halfOf b.ceiling) ++ [indexOr255 b.row, flagCode b.batteryValid] ++
      le32 (BitVec.ofInt 32 b.batteryMv) ++ le16 (halfOf b.motorDemand) ++ le16 (halfOf b.soundDemand) ++
      [byteOf b.soundVolume] ++ le16 (halfOf b.share) ++ le16 (halfOf b.scale) ++
      [byteOf b.soundGrant, byteOf b.soundAllowance, byteOf b.recovery] ++ le16 b.windowCount ∧
    s.record .soundState 0 =
      [flagCode v.tonePlaying] ++ le16 (halfOf v.note.pitch) ++ [v.note.waveform.code, byteOf v.note.level] ++
      le16 (halfOf (if v.tonePlaying then (16 * v.note.duration - v.noteSamples) / 16 else 0)) ++
      [byteOf v.queue.length, flagCode v.clipPlaying, byteOf v.clipIndex.val] ++ le16 (halfOf (v.clipPos / 65536)) ++
      [byteOf v.playsLeft, byteOf v.clipLevel, byteOf v.master, byteOf v.granted, byteOf v.allowance,
       byteOf (min v.master v.allowance)] ∧
    s.record .linkState 0 =
      [s.link.state.code, byteOf s.link.strap.toNat, s.link.cause.code, byteOf s.link.intake.length,
       byteOf s.link.places.length, byteOf (s.link.places.countP fun r => r.answer.isNone)] ++
      le16 s.link.framesGood ++ le16 s.link.lengthErrors ++ le16 s.link.checkErrors ++ le16 s.link.gapErrors ++
      le16 s.link.byteErrors ++ le16 s.link.intakeDrops ++ le16 s.link.silenceCount ++ le16 s.bus.noticesDropped ++
      le16 s.failures ++ le16 s.blocked ++ le16 s.bus.stamp ∧
    s.record .rawImages i.val =
      le16 g.raw ++ [byteOf g.conversions] ++ le16 g.sequence ++ le16 g.stamp ++
      [byteOf g.input.val, g.slotState.code, s.scan.mode.code] ∧
    s.record .conversion e.val = s.conv[e].encode ∧
    s.conv[e].encode.drop 26 =
      le32 s.conv[e].value ++ [s.conv[e].status.code, s.conv[e].alarm.code] ++ le16 s.conv[e].updateCount ++
      le16 s.conv[e].stamp ∧
    s.conv[e].encode.take 26 = (ConvEntry.fresh s.conv[e].cfg).encode.take 26 ∧
    s.record .reactions x.val = s.reactions[x].encode ∧
    s.reactions[x].encode.drop 18 = le16 s.reactions[x].hitCount ∧
    s.record .settings 0 = s.settings.encode ∧ s.record .profiles i.val = s.profiles[i].encode ∧
    s.record .scanList i.val = s.scan.slots[i].encode ∧ s.record .marks n.val = s.marks[n].encode ∧
    s.record .budget n.val = s.budget.rows[n].encode ∧ s.record .reports q.val = s.reports[q].encode ∧
    s.record .clips i.val = v.clips[i].encode ∧ s.record .sampleStore a = [Memory.read v.store a])

/-! ## Motor channels -/

/-- R87: the checks of a MOTOR command in their order, each answering and changing nothing: end action code, channel,
FOLLOW entry, motor-bound port, SET_COUNT's own two, and for a driving operation BROWNOUT, service mode and SILENT. -/
def Obligations.MotorCommandChecks : Prop :=
  (∀ (s : State) (c : Instr) (tag channel : Byte), s.Opens → motorOperands c = some (tag, channel, none) →
    exec c s = .next (s.replied 0x10 tag .badLength [])) ∧
  (∀ (s : State) (c : Instr) (tag channel : Byte) (op : MotorOp) (status : Status), s.Opens →
    motorOperands c = some (tag, channel, some op) →
    let n : PortNo := Fin.ofNat 6 channel.toNat
    (if 6 ≤ channel.toNat then some Status.badIndex
     else if (match op with
              | .follow entry _ => 32 ≤ entry
              | .coast | .brake | .duty _ | .speed _ | .runTo .. | .runFor .. | .hold | .setCount _ => false) = true then
       some .badIndex
     else match s.motorProfile n with
       | none => some .notMotor
       | some p =>
         match op with
         | .setCount _ =>
           if p.positionSource ≠ 255 then some .badIndex
           else if s.motors[n].mode.driving = true then some .inUse else none
         | .coast | .brake => none
         | .duty _ | .speed _ | .runTo .. | .runFor .. | .hold | .follow .. =>
           if s.budget.record.state = .brownout then some .brownout
           else if s.service = some n ∨ s.link.state = .silent then some .inUse else none) = some status →
    exec c s = .next (s.replied 0x10 tag status []))

/-- R83, R85, R88: COAST and BRAKE on a motor-bound channel: a running operation ends STOPPED with its RUN_END, and its
notice if notify is set; a channel in COAST or BRAKE only takes the mode. Requested and granted duty are 0, and the
drive pair is open in COAST and shorted in BRAKE. R95:
SET_COUNT on a quadrature motor in COAST or BRAKE sets position, prev_position and the quadrature count; the mark unit and
the ENCODER entries see no update. -/
def Obligations.NonDrivingOperationsAct : Prop :=
  ∀ (s : State) (n : PortNo) (p : Profile) (tag notify : Byte) (value : Word), s.Opens → s.motorProfile n = some p →
    let stopped : Motor :=
      if s.motors[n].mode.driving then
        { s.motors[n] with outcome := .stopped, integral := 0, stallCount := 0, inposCount := 0, stallEpisode := false,
                           targetSpeed := 0, runForTimer := none, dutyRequest := 0, dutyGrant := 0 }
      else { s.motors[n] with dutyRequest := 0, dutyGrant := 0 }
    exec (.motorCoast tag (portByte n) notify) s = .next (State.replied
      { s with motors := s.motors.set n { stopped with mode := .coast }, bus := s.endingBus n .stopped }
      0x10 tag .ok []) ∧
    exec (.motorBrake tag (portByte n) notify) s = .next (State.replied
      { s with motors := s.motors.set n { stopped with mode := .brake }, bus := s.endingBus n .stopped }
      0x10 tag .ok []) ∧
    { stopped with mode := .coast }.drivePair = .opened ∧ { stopped with mode := .brake }.drivePair = .shorted ∧
    (p.positionSource = 255 → s.motors[n].mode.driving = false →
      exec (.motorSetCount tag (portByte n) notify value) s = .next (State.replied
        { s with
          motors := s.motors.set n { s.motors[n] with position := value, prevPosition := value }
          lines := s.lines.set n { s.lines[n] with count := value } }
        0x10 tag .ok []))

/-- R84, R85, R89, R101: DUTY supersedes a running operation, clamps the duty to −1000–1000, and grants at once the
smaller of the request and the allowance with the sign of the request. The fields that no rule names keep their values
(log 23). -/
def Obligations.DutyDrivesAtOnce : Prop :=
  ∀ (s : State) (n : PortNo) (p : Profile) (tag notify : Byte) (duty : Half), s.Opens → s.motorProfile n = some p →
    s.budget.record.state ≠ .brownout → s.service ≠ some n → s.link.state = .active →
    let d : Int := max (-1000) (min 1000 duty.toInt)
    exec (.motorDuty tag (portByte n) notify duty) s = .next (State.replied
      { s with
        motors := s.motors.set n
          { s.motors[n].ended .superseded with
              mode := .duty, operation := .duty, notify := notify != 0, integral := 0, stallCount := 0, inposCount := 0,
              stallEpisode := false, targetSpeed := 0, dutyRequest := d,
              dutyGrant := d.sign * min |d| s.motors[n].allowance }
        bus := s.endingBus n .superseded }
      0x10 tag (adjustedIf (decide (d ≠ duty.toInt ∨ 2 ≤ notify.toNat))) [])

/-- R84, R90–R94: SPEED, RUN_TO, RUN_FOR, HOLD and FOLLOW supersede a running operation and begin their own, with their
clamps; requested and granted duty stay as they stand until the next regulation, and so do the fields that the operation's
own rule does not state (log 23). -/
def Obligations.RegulatedOperationsBegin : Prop :=
  ∀ (s : State) (n : PortNo) (p : Profile) (tag notify endCode entry : Byte) (speed vmax duration gain : Half)
      (target : Word) (e : EndAction), s.Opens → s.motorProfile n = some p →
    s.budget.record.state ≠ .brownout → s.service ≠ some n → s.link.state = .active →
    EndAction.list[endCode.toNat]? = some e → entry.toNat < 32 →
    let m : Motor :=
      { s.motors[n].ended .superseded with
          notify := notify != 0, integral := 0, stallCount := 0, inposCount := 0, stallEpisode := false }
    let flagged := decide (2 ≤ notify.toNat)
    let v : Int := max (-2000) (min 2000 speed.toInt)
    let limit : Nat := max 20 (min 2000 vmax.toNat)
    let time : Nat := max 1 duration.toNat
    let begins (m' : Motor) : State := { s with motors := s.motors.set n m', bus := s.endingBus n .superseded }
    exec (.motorSpeed tag (portByte n) notify speed) s = .next (State.replied
      (begins { m with mode := .speed, operation := .speed, targetSpeed := v })
      0x10 tag (adjustedIf (decide (v ≠ speed.toInt) || flagged)) []) ∧
    exec (.motorRunTo tag (portByte n) notify target vmax endCode) s = .next (State.replied
      (begins { m with mode := .runTo, operation := .runTo, targetPosition := target, vmax := limit, endAction := e })
      0x10 tag (adjustedIf (decide (limit ≠ vmax.toNat) || flagged)) []) ∧
    exec (.motorRunFor tag (portByte n) notify speed duration endCode) s = .next (State.replied
      (begins { m with mode := .runFor, operation := .runFor, targetSpeed := v, endAction := e,
                       runForTimer := some time, runEnd := s.bus.stamp + BitVec.ofNat 16 time })
      0x10 tag (adjustedIf (decide (v ≠ speed.toInt ∨ time ≠ duration.toNat) || flagged)) []) ∧
    exec (.motorHold tag (portByte n) notify) s = .next (State.replied
      (begins { m with mode := .hold, operation := .hold, targetPosition := s.motors[n].position, vmax := 200 })
      0x10 tag (adjustedIf flagged) []) ∧
    exec (.motorFollow tag (portByte n) notify entry gain) s = .next (State.replied
      (begins { m with mode := .follow, operation := .follow, followEntry := Fin.ofNat 32 entry.toNat,
                       followGain := gain })
      0x10 tag (adjustedIf flagged) [])

/-- R98, R104: a regulation measures the speed in every mode and hands it to the conversion table: a RAW entry over the
channel without a change limit shows it. In COAST and BRAKE it ends there; a DUTY that is no stall clears the stall count
and episode. -/
def Obligations.RegulationMeasuresSpeed : Prop :=
  ∀ (s : State) (n : PortNo) (p : Profile) (ms : Nat), s.motors[n].regTimer = some ms → s.motorProfile n = some p →
    let v : Int := max (-4000) (min 4000 (((s.motors[n].position - s.motors[n].prevPosition).toInt * 360000).tdiv
      (p.cpr.toNat * p.regPeriod.toNat)))
    Answers (exec (.regulationExpiry n) s) fun t =>
      t.motors[n].speed = v ∧ t.motors[n].position = s.motors[n].position ∧
      t.motors[n].prevPosition = s.motors[n].position ∧ t.motors[n].regTimer = some ms ∧
      (∀ k : PortNo, k ≠ n → t.motors[k] = s.motors[k]) ∧
      (s.motors[n].mode.driving = false →
        t.motors[n] = { s.motors[n] with speed := v, prevPosition := s.motors[n].position }) ∧
      (s.motors[n].mode = .duty →
        ¬ ((p.stallDuty.toNat : Int) ≤ |s.motors[n].dutyGrant| ∧ |v| < (p.stallSpeed.toNat : Int)) →
        t.motors[n] = { s.motors[n] with speed := v, prevPosition := s.motors[n].position, stallCount := 0,
                                         stallEpisode := false }) ∧
      (∀ i : Fin 32, s.conv[i].cfg.sourceKind = .motorSpeed → s.conv[i].cfg.sourceIndex = portByte n →
        s.conv[i].cfg.mode = .raw → s.conv[i].cfg.maxChange = 0 → s.conv[i].cfg.railCheck = false →
        s.service ≠ some n →
        t.conv[i].value = BitVec.ofInt 32 v ∧ t.conv[i].status = .valid ∧ t.conv[i].stamp = s.bus.stamp ∧
        t.conv[i].updateCount = s.conv[i].updateCount + 1) ∧
      s.linkKept t ∧ s.keepsBut t [.link, .motors, .conv, .bus, .reports, .reportQueue]

/-- R99, R100, R102: one regulation of a regulated mode that neither completes, stalls nor loses its source: target
speed, error, integral held against the allowance, requested and granted duty, and the in-position count. -/
def Obligations.RegulationStepsRegulator : Prop :=
  ∀ (s : State) (n : PortNo) (p : Profile) (ms : Nat), s.motors[n].regTimer = some ms → s.motorProfile n = some p →
    s.motors[n].mode.regulated = true → ¬ (p.positionSource ≠ 255 ∧ s.ports[n].missed = 2) →
    Answers (exec (.regulationExpiry n) s) fun t =>
      let m := s.motors[n]
      let v : Int := max (-4000) (min 4000 (((m.position - m.prevPosition).toInt * 360000).tdiv
        (p.cpr.toNat * p.regPeriod.toNat)))
      let D : Int := (m.targetPosition - m.position).toInt
      let target : Int :=
        match m.mode with
        | .runTo | .hold =>
          if |D| ≤ (p.tolerance.toNat : Int) then 0
          else D.sign * min (m.vmax : Int) (max 20 (|(D * 360).tdiv p.cpr.toNat| * p.approachGain.toNat))
        | .follow =>
          if t.conv[m.followEntry].status = .valid then
            max (-2000) (min 2000 ((t.conv[m.followEntry].value.toInt * m.followGain.toInt).tdiv 256))
          else 0
        | .coast | .brake | .duty | .speed | .runFor => m.targetSpeed
      let e := target - v
      let A : Int := max (-(p.imax.toNat : Int)) (min p.imax.toNat (m.integral + e * p.regPeriod.toNat))
      let u : Int := ((p.kp.toNat : Int) * e + ((p.ki.toNat : Int) * A).tdiv 1000).tdiv 64
      let d : Int := max (-1000) (min 1000 u)
      let g : Int := d.sign * min |d| m.allowance
      let inpos : Nat := if m.mode = .runTo then (if |D| ≤ (p.tolerance.toNat : Int) then m.inposCount + 1 else 0)
        else m.inposCount
      (m.mode = .runTo → inpos < p.inposCount.toNat) →
      ¬ ((p.stallDuty.toNat : Int) ≤ |g| ∧ |v| < (p.stallSpeed.toNat : Int)) →
      t.motors = s.motors.set n
        { m with speed := v, prevPosition := m.position, targetSpeed := target, dutyRequest := d, dutyGrant := g,
                 integral := if |u| > (m.allowance : Int) ∧ ((0 < e ∧ 0 < u) ∨ (e < 0 ∧ u < 0)) then m.integral else A,
                 inposCount := inpos, stallCount := 0, stallEpisode := false } ∧
      s.linkKept t ∧ s.keepsBut t [.link, .motors, .conv, .bus, .reports, .reportQueue]

/-- R86, R97, R102, R104: the regulations that end an operation: a lost device position source ends it SOURCE_LOST with
the safe action; a RUN_TO whose in-position count completes ends it DONE with its end action; a stall regulation, of
DUTY or, after the regulator's step, of a regulated mode, counts, warns once an episode, and at stall_stop ends STALLED
with the safe action, STALL_WARN ahead of RUN_END. Each end posts RUN_END with its outcome and queues a notice where notify
is set. A HOLD that follows DONE keeps the duties that the regulation has formed. The fields that no rule names at an end
keep their values (log 23). -/
def Obligations.RegulationEndsOperations : Prop :=
  ∀ (s : State) (n : PortNo) (p : Profile) (ms : Nat), s.motors[n].regTimer = some ms → s.motorProfile n = some p →
    let m := s.motors[n]
    let v : Int := max (-4000) (min 4000 (((m.position - m.prevPosition).toInt * 360000).tdiv
      (p.cpr.toNat * p.regPeriod.toNat)))
    let safe : MotorMode := match p.safeAction with | .coast => .coast | .brake => .brake
    let ended : Motor := { m with speed := v, prevPosition := m.position, integral := 0, stallCount := 0, inposCount := 0,
                                  stallEpisode := false, targetSpeed := 0, runForTimer := none }
    let ends (t : State) (o : Outcome) : Prop :=
      ((∀ i : Fin 32, s.conv[i].cfg.sourceKind = .motorSpeed → s.conv[i].cfg.sourceIndex ≠ portByte n) →
        t.bus.events = (s.endingBus n o).events ∧ (s.link.tx ≠ none → t.bus = s.endingBus n o)) ∧
      (s.bus.dispatch = none → t.bus.events.length < 16 →
        t.bus.events.getLast? = some { kind := .runEnd, index := portByte n, detail := o.code, depth := 0,
                                       stamp := s.bus.stamp, directed := none })
    (m.mode.regulated = true → p.positionSource ≠ 255 → s.ports[n].missed = 2 →
      Answers (exec (.regulationExpiry n) s) fun t =>
        t.motors = s.motors.set n
          { ended with mode := safe, outcome := .sourceLost, dutyRequest := 0, dutyGrant := 0 } ∧
        ends t .sourceLost ∧
        s.linkKept t ∧ s.keepsBut t [.link, .motors, .conv, .bus, .reports, .reportQueue]) ∧
    (m.mode = .runTo → ¬ (p.positionSource ≠ 255 ∧ s.ports[n].missed = 2) →
      |(m.targetPosition - m.position).toInt| ≤ (p.tolerance.toNat : Int) → p.inposCount.toNat ≤ m.inposCount + 1 →
      let A : Int := max (-(p.imax.toNat : Int)) (min p.imax.toNat (m.integral + (0 - v) * p.regPeriod.toNat))
      let u : Int := ((p.kp.toNat : Int) * (0 - v) + ((p.ki.toNat : Int) * A).tdiv 1000).tdiv 64
      let d : Int := max (-1000) (min 1000 u)
      Answers (exec (.regulationExpiry n) s) fun t =>
        (m.endAction = .coast →
          t.motors = s.motors.set n
            { ended with mode := .coast, outcome := .done, dutyRequest := 0, dutyGrant := 0 }) ∧
        (m.endAction = .brake →
          t.motors = s.motors.set n
            { ended with mode := .brake, outcome := .done, dutyRequest := 0, dutyGrant := 0 }) ∧
        (m.endAction = .hold →
          t.motors = s.motors.set n
            { ended with mode := .hold, operation := .hold, outcome := .done, vmax := 200, dutyRequest := d,
                         dutyGrant := d.sign * min |d| m.allowance }) ∧
        ends t .done ∧
        s.linkKept t ∧ s.keepsBut t [.link, .motors, .conv, .bus, .reports, .reportQueue]) ∧
    (m.mode = .duty → (p.stallDuty.toNat : Int) ≤ |m.dutyGrant| → |v| < (p.stallSpeed.toNat : Int) →
      (∀ i : Fin 32, s.conv[i].cfg.sourceKind = .motorSpeed → s.conv[i].cfg.sourceIndex ≠ portByte n) →
      s.bus.dispatch = none → s.bus.events.length ≤ 14 →
      let count := min 255 (m.stallCount + 1)
      let warns : Bool := decide (p.stallWarn ≠ 0 ∧ p.stallWarn.toNat ≤ count ∧ m.stallEpisode = false)
      let stops : Bool := decide (p.stallStop ≠ 0 ∧ p.stallStop.toNat ≤ count)
      Answers (exec (.regulationExpiry n) s) fun t =>
        t.motors = s.motors.set n
          (if stops then { ended with mode := safe, outcome := .stalled, dutyRequest := 0, dutyGrant := 0 }
           else { m with speed := v, prevPosition := m.position, stallCount := count,
                         stallEpisode := m.stallEpisode || warns }) ∧
        t.bus.events = s.bus.events ++
          (if warns then [{ kind := .stallWarn, index := portByte n, detail := 0, depth := 0, stamp := s.bus.stamp,
                            directed := none }] else []) ++
          (if stops then [{ kind := .runEnd, index := portByte n, detail := 4, depth := 0, stamp := s.bus.stamp,
                            directed := none }] else []) ∧
        s.linkKept t ∧ s.keepsBut t [.link, .motors, .bus, .reportQueue]) ∧
    (m.mode.regulated = true → ¬ (p.positionSource ≠ 255 ∧ s.ports[n].missed = 2) →
      (∀ i : Fin 32, s.conv[i].cfg.sourceKind = .motorSpeed → s.conv[i].cfg.sourceIndex ≠ portByte n) →
      s.bus.dispatch = none → s.bus.events.length ≤ 14 →
      let D : Int := (m.targetPosition - m.position).toInt
      let target : Int :=
        match m.mode with
        | .runTo | .hold =>
          if |D| ≤ (p.tolerance.toNat : Int) then 0
          else D.sign * min (m.vmax : Int) (max 20 (|(D * 360).tdiv p.cpr.toNat| * p.approachGain.toNat))
        | .follow =>
          if s.conv[m.followEntry].status = .valid then
            max (-2000) (min 2000 ((s.conv[m.followEntry].value.toInt * m.followGain.toInt).tdiv 256))
          else 0
        | .coast | .brake | .duty | .speed | .runFor => m.targetSpeed
      let e := target - v
      let A : Int := max (-(p.imax.toNat : Int)) (min p.imax.toNat (m.integral + e * p.regPeriod.toNat))
      let u : Int := ((p.kp.toNat : Int) * e + ((p.ki.toNat : Int) * A).tdiv 1000).tdiv 64
      let d : Int := max (-1000) (min 1000 u)
      let g : Int := d.sign * min |d| m.allowance
      let inpos : Nat := if m.mode = .runTo then (if |D| ≤ (p.tolerance.toNat : Int) then m.inposCount + 1 else 0)
        else m.inposCount
      (m.mode = .runTo → inpos < p.inposCount.toNat) →
      (p.stallDuty.toNat : Int) ≤ |g| → |v| < (p.stallSpeed.toNat : Int) →
      let count := min 255 (m.stallCount + 1)
      let warns : Bool := decide (p.stallWarn ≠ 0 ∧ p.stallWarn.toNat ≤ count ∧ m.stallEpisode = false)
      let stops : Bool := decide (p.stallStop ≠ 0 ∧ p.stallStop.toNat ≤ count)
      Answers (exec (.regulationExpiry n) s) fun t =>
        t.motors = s.motors.set n
          (if stops then { ended with mode := safe, outcome := .stalled, dutyRequest := 0, dutyGrant := 0 }
           else { m with speed := v, prevPosition := m.position, targetSpeed := target, dutyRequest := d, dutyGrant := g,
                         integral := if |u| > (m.allowance : Int) ∧ ((0 < e ∧ 0 < u) ∨ (e < 0 ∧ u < 0)) then m.integral
                                     else A,
                         inposCount := inpos, stallCount := count, stallEpisode := m.stallEpisode || warns }) ∧
        t.bus.events = s.bus.events ++
          (if warns then [{ kind := .stallWarn, index := portByte n, detail := 0, depth := 0, stamp := s.bus.stamp,
                            directed := none }] else []) ++
          (if stops then [{ kind := .runEnd, index := portByte n, detail := 4, depth := 0, stamp := s.bus.stamp,
                            directed := none }] else []) ∧
        s.linkKept t ∧ s.keepsBut t [.link, .motors, .bus, .reportQueue])

/-- R86, R103: the expiry of a RUN_FOR's duration timer ends it DONE and applies its end action; a HOLD begins at the
position of that moment and keeps the notify flag, and the fields that no rule names keep their values (log 23). -/
def Obligations.RunForEndsAtItsTime : Prop :=
  ∀ (s : State) (n : PortNo) (ms : Nat), s.motors[n].runForTimer = some ms → s.motors[n].mode = .runFor →
    let ended : Motor := { s.motors[n] with
      outcome := .done, integral := 0, stallCount := 0, inposCount := 0, stallEpisode := false, targetSpeed := 0,
      runForTimer := none }
    exec (.runForExpiry n) s = .next (State.transmitNext
      { s with
        motors := s.motors.set n (match s.motors[n].endAction with
          | .coast => { ended with mode := .coast, dutyRequest := 0, dutyGrant := 0 }
          | .brake => { ended with mode := .brake, dutyRequest := 0, dutyGrant := 0 }
          | .hold => { ended with mode := .hold, operation := .hold, targetPosition := s.motors[n].position,
                                  vmax := 200 })
        bus := s.endingBus n .done })

/-! ## Line inputs and mark units -/

/-- R56: DIGITAL lines. With a debounce time a change of level restarts the line's timer; with none it is accepted at
once; at the expiry a level that differs from the accepted one is accepted, LINE_RISE or LINE_FALL naming port and line.
Outside DIGITAL only the level changes (log 17), and the expiry of a stopped timer changes nothing (log 14). -/
def Obligations.DigitalLinesAreFiltered : Prop :=
  ∀ (s : State) (n : PortNo) (line : Line) (high : Bool) (ms : Nat),
    let l := s.lines[n]
    let code : Byte := match line with | .l1 => 0 | .l2 => 1
    let event : EventKind := if high then .lineRise else .lineFall
    (l.pin line = high → exec (.digitalLineChange n line high) s = .next s) ∧
    (l.pin line ≠ high → l.mode ≠ .digital →
      exec (.digitalLineChange n line high) s = .next { s with lines := s.lines.set n (l.setPin line high) }) ∧
    (l.pin line ≠ high → l.mode = .digital → l.debounce ≠ 0 →
      exec (.digitalLineChange n line high) s =
        .next { s with lines := s.lines.set n ((l.setPin line high).setTimer line (some l.debounce)) }) ∧
    (l.pin line ≠ high → l.mode = .digital → l.debounce = 0 →
      exec (.digitalLineChange n line high) s = .next (State.transmitNext
        { s with
          lines := s.lines.set n ((l.setPin line high).setLevel line high)
          bus := if l.level line = high then s.bus else s.bus.post event (portByte n) code })) ∧
    (l.timer line = none → exec (.lineDebounceExpiry n line) s = .next s) ∧
    (l.timer line = some ms → l.pin line = high →
      exec (.lineDebounceExpiry n line) s = .next (State.transmitNext
        { s with
          lines := s.lines.set n ((l.setTimer line none).setLevel line high)
          bus := if l.level line = high then s.bus else s.bus.post event (portByte n) code }))

/-- R57, R58, R96, R111: QUADRATURE counts up where L1 leads, down where L2 leads, and counts a double transition as an
error. A change of the count is the position of a quadrature motor and is tested by an enabled mark unit. R66: at its
first change in a millisecond of the time stamp it goes to the conversion table: an ENCODER entry that is RAW, without a
change limit, over a BOUND port out of service mode shows it. Outside QUADRATURE only the levels change (log 17). -/
def Obligations.QuadratureCounts : Prop :=
  ∀ (s : State) (n : PortNo) (h1 h2 : Bool),
    let l := s.lines[n]
    let seen : Lines := { l with pin1 := h1, pin2 := h2, level1 := h1, level2 := h2 }
    let last := (l.level1, l.level2)
    let up : Bool := (last, (h1, h2)) ∈
      [((false, false), (true, false)), ((true, false), (true, true)), ((true, true), (false, true)),
       ((false, true), (false, false))]
    let both : Bool := l.level1 != h1 && l.level2 != h2
    let count : Word := if up then l.count + 1 else l.count - 1
    (l.mode ≠ .quadrature ∨ last = (h1, h2) →
      exec (.quadratureChange n h1 h2) s = .next { s with lines := s.lines.set n { l with pin1 := h1, pin2 := h2 } }) ∧
    (l.mode = .quadrature → last ≠ (h1, h2) → both = true →
      exec (.quadratureChange n h1 h2) s =
        .next { s with lines := s.lines.set n { seen with errors := satInc l.errors } }) ∧
    (l.mode = .quadrature → last ≠ (h1, h2) → both = false →
      Answers (exec (.quadratureChange n h1 h2) s) fun t =>
        t.lines = s.lines.set n { seen with count := count } ∧
        (t.motors = if (s.motorProfile n).any (fun p => p.positionSource == 255) then
            s.motors.set n { s.motors[n] with position := count } else s.motors) ∧
        (t.marks = if (s.motorProfile n).isSome = true ∧ s.marks[n].enabled = true then
            s.marks.set n (s.marks[n].update l.count count).1 else s.marks) ∧
        t.encStamp = s.encStamp.set n (some s.bus.stamp) ∧
        (s.encStamp[n] = some s.bus.stamp → t.conv = s.conv) ∧
        (s.encStamp[n] ≠ some s.bus.stamp → s.ports[n].state = .bound → s.service ≠ some n →
          ∀ i : Fin 32, s.conv[i].cfg.sourceKind = .encoder → s.conv[i].cfg.sourceIndex = portByte n →
            s.conv[i].cfg.mode = .raw → s.conv[i].cfg.maxChange = 0 → s.conv[i].cfg.railCheck = false →
            t.conv[i].value = count ∧ t.conv[i].status = .valid ∧ t.conv[i].stamp = s.bus.stamp ∧
            t.conv[i].updateCount = s.conv[i].updateCount + 1) ∧
        s.linkKept t ∧
        s.keepsBut t [.link, .lines, .motors, .marks, .encStamp, .conv, .bus, .reports, .reportQueue])

/-- R59, R60: PULSE. A falling edge is timed; the first rising edge arms the meter; a later one measures period, high time
and duty; 100 ms without an edge store period and high time 0 and duty 0 or 1000 by the level of L1. Each edge restarts
the no-edge timer. The three values go to the conversion table: a PULSE entry that is RAW, without a change limit, over
a BOUND port out of service mode shows its own (a time above the s32 range saturated). Period 0 gives the free duty of log
11, edge times wrap in 32 bits (log 15), outside PULSE only the level changes (log 17), and the expiry of a stopped
timer changes nothing (log 14). -/
def Obligations.PulseMeterMeasures : Prop :=
  ∀ (s : State) (n : PortNo) (rising : Bool) (time : Word) (ms : Nat),
    let l := s.lines[n]
    let seen : Lines := { l with pin1 := rising, level1 := rising, noEdge := some 100 }
    let period := time - l.lastRise
    let high := l.lastFall - l.lastRise
    let shows (t : State) (kind : SourceKind) (x : Nat) : Prop :=
      s.ports[n].state = .bound → s.service ≠ some n → ∀ i : Fin 32, s.conv[i].cfg.sourceKind = kind →
        s.conv[i].cfg.sourceIndex = portByte n → s.conv[i].cfg.mode = .raw → s.conv[i].cfg.maxChange = 0 →
        s.conv[i].cfg.railCheck = false →
        t.conv[i].value = BitVec.ofNat 32 (min 2147483647 x) ∧ t.conv[i].status = .valid ∧
        t.conv[i].stamp = s.bus.stamp ∧ t.conv[i].updateCount = s.conv[i].updateCount + 1
    (l.mode ≠ .pulse ∨ l.level1 = rising →
      exec (.pulseEdge n rising time) s = .next { s with lines := s.lines.set n { l with pin1 := rising } }) ∧
    (l.mode = .pulse → l.level1 ≠ rising → rising = false →
      exec (.pulseEdge n rising time) s = .next { s with lines := s.lines.set n { seen with lastFall := time } }) ∧
    (l.mode = .pulse → l.level1 ≠ rising → rising = true → l.armed = false →
      exec (.pulseEdge n rising time) s =
        .next { s with lines := s.lines.set n { seen with lastRise := time, armed := true } }) ∧
    (l.mode = .pulse → l.level1 ≠ rising → rising = true → l.armed = true →
      Answers (exec (.pulseEdge n rising time) s) fun t =>
        t.lines = s.lines.set n
          { seen with lastRise := time, period := period, high := high,
                      duty := if period = 0 then (Config.zeroPeriodDuty high).val
                              else high.toNat * 1000 / period.toNat } ∧
        shows t .pulseHigh high.toNat ∧ shows t .pulsePeriod period.toNat ∧
        (period ≠ 0 → shows t .pulseDuty (high.toNat * 1000 / period.toNat)) ∧
        s.linkKept t ∧ s.keepsBut t [.link, .lines, .conv, .bus, .reports, .reportQueue]) ∧
    (l.noEdge = none → exec (.noEdgeExpiry n) s = .next s) ∧
    (l.noEdge = some ms →
      Answers (exec (.noEdgeExpiry n) s) fun t =>
        t.lines = s.lines.set n
          { l with period := 0, high := 0, duty := if l.level1 then 1000 else 0, armed := false, noEdge := none } ∧
        (l.mode = .pulse →
          shows t .pulseHigh 0 ∧ shows t .pulsePeriod 0 ∧ shows t .pulseDuty (if l.level1 then 1000 else 0)) ∧
        s.linkKept t ∧ s.keepsBut t [.link, .lines, .conv, .bus, .reports, .reportQueue])

/-- R112, R113, R114: a position update crosses a mark that lies in its direction within its distance. A crossing toggles
the state, posts the mark's event and MARK_ON or MARK_OFF with the direction, and moves the other mark by step. With both
crossed the nearer is first, mark_a at equal distances, and the other follows only with step 0. -/
def Obligations.MarksAreCrossed : Prop :=
  ∀ (m : Mark) (p0 p1 : Word),
    let d := (p1 - p0).toInt
    let da := (m.markA - p0).toInt
    let db := (m.markB - p0).toInt
    let crosses (x : Int) : Prop := (0 < d ∧ 0 < x ∧ x ≤ d) ∨ (d < 0 ∧ d ≤ x ∧ x < 0)
    let dir : Byte := if 0 < d then 1 else 2
    let move (mark : Word) : Word := if 0 < d then mark + m.step else mark - m.step
    let flip (on : Bool) : EventKind := if on then .markOff else .markOn
    let onlyA : Mark × List (EventKind × Byte) :=
      ({ m with isOn := !m.isOn, markB := move m.markB }, [(.markA, dir), (flip m.isOn, dir)])
    let onlyB : Mark × List (EventKind × Byte) :=
      ({ m with isOn := !m.isOn, markA := move m.markA }, [(.markB, dir), (flip m.isOn, dir)])
    (¬ crosses da → ¬ crosses db → m.update p0 p1 = (m, [])) ∧
    (crosses da → ¬ crosses db → m.update p0 p1 = onlyA) ∧
    (¬ crosses da → crosses db → m.update p0 p1 = onlyB) ∧
    (crosses da → crosses db → m.step ≠ 0 → m.update p0 p1 = if |da| ≤ |db| then onlyA else onlyB) ∧
    (crosses da → crosses db → m.step = 0 → m.update p0 p1 =
      (m, (if |da| ≤ |db| then [(.markA, dir), (flip m.isOn, dir), (.markB, dir), (flip (!m.isOn), dir)]
           else [(.markB, dir), (flip m.isOn, dir), (.markA, dir), (flip (!m.isOn), dir)])))

/-! ## Drive budget -/

/-- R119–R122: the record of a window: battery value, the row and ceiling it chooses, the two demands, the count; the
window timer restarts at budget_window_ms as it stands. -/
def Obligations.WindowRecordsItsWork : Prop :=
  ∀ s : State, Answers (exec .budgetWindowExpiry s) fun t =>
    let r := t.budget.record
    let rows := s.budget.rows
    let source := s.settings.budgetSource
    (∀ i : Fin 32, source.toNat = i.val → s.conv[i].status = .valid →
      r.batteryValid = true ∧ r.batteryMv = s.conv[i].value.toInt) ∧
    ((32 ≤ source.toNat ∨ (∀ i : Fin 32, source.toNat = i.val → s.conv[i].status ≠ .valid)) →
      r.batteryValid = false ∧ r.batteryMv = 0) ∧
    (∀ i : Fin 6, r.row = some i →
      r.ceiling = rows[i].ceiling.toNat ∧ rows[i].valid = true ∧
      (r.batteryValid = true → (rows[i].minMv.toNat : Int) ≤ r.batteryMv ∧
        ∀ j : Fin 6, rows[j].valid = true → (rows[j].minMv.toNat : Int) ≤ r.batteryMv →
          rows[j].minMv.toNat < rows[i].minMv.toNat ∨ (rows[j].minMv = rows[i].minMv ∧ i ≤ j)) ∧
      (r.batteryValid = false →
        ∀ j : Fin 6, rows[j].valid = true →
          rows[i].ceiling.toNat < rows[j].ceiling.toNat ∨ (rows[j].ceiling = rows[i].ceiling ∧ i ≤ j))) ∧
    (r.row = none → r.ceiling = 0 ∧
      ∀ j : Fin 6, rows[j].valid = true → r.batteryValid = true ∧ r.batteryMv < rows[j].minMv.toNat) ∧
    r.motorDemand = (allPorts.map fun n => match s.motorProfile n with
      | some p => (s.motors[n].dutyRequest.natAbs * p.ratedLoad.toNat + 999) / 1000
      | none => 0).sum ∧
    r.soundVolume =
      (if s.sound.tonePlaying = true ∨ s.sound.clipPlaying = true ∨ s.sound.queue ≠ [] then s.sound.master else 0) ∧
    r.soundDemand = (r.soundVolume * s.settings.speakerLoad.toNat + 99) / 100 ∧
    r.windowCount = s.budget.record.windowCount + 1 ∧
    t.budget.window = some s.settings.budgetWindowMs.toNat ∧ t.budget.rows = s.budget.rows ∧
    t.budget.loadOld = s.settings.speakerLoad.toNat ∧
    t.sound = { s.sound with granted := r.soundGrant, allowance := r.soundAllowance } ∧
    s.linkKept t ∧ s.keepsBut t [.link, .bus, .budget, .sound, .motors, .reportQueue]

/-- R123–R127, R130: what a window grants by the state it ends in. C of 0 enters or keeps BROWNOUT; recovery counts the
windows above 0; then M + S ≤ C is NORMAL, with the headroom shared, and otherwise LIMITING, the sound protected first
and the motors scaled together only when they do not fit. A change of state is posted and, with the transmitter busy,
stands in the notice queue as a BUDGET_CHANGE with both states, ceiling, row, battery and scale, ahead of what the
channels it stops cause (log 26). -/
def Obligations.WindowGrantsByState : Prop :=
  ∀ s : State, Answers (exec .budgetWindowExpiry s) fun t =>
    let r := t.budget.record
    let before := s.budget.record
    let C := r.ceiling
    let M := r.motorDemand
    let Ls := s.settings.speakerLoad.toNat
    let v := r.soundVolume
    let counted := min 255 (before.recovery + 1)
    let leaves : Bool := decide (before.state ≠ .brownout ∨ s.settings.brownoutRecover.toNat ≤ counted)
    let consumers := (allPorts.countP fun n => (s.motorProfile n).isSome) + (if 0 < Ls then 1 else 0)
    let protectedVolume := if 0 < Ls then min v (min s.settings.soundFloor.toNat (C * 100 / Ls)) else v
    let motorsPart := C - (protectedVolume * Ls + 99) / 100
    let channels (f : Motor → Profile → Motor) : Prop := ∀ n : PortNo, t.motors[n] =
      match s.motorProfile n with
      | some p => f s.motors[n] p
      | none => s.motors[n]
    (C = 0 → r.state = .brownout ∧ r.recovery = 0) ∧
    (0 < C → leaves = false → r.state = .brownout ∧ r.recovery = counted) ∧
    (0 < C → leaves = true → r.recovery = if before.state = .brownout then 0 else before.recovery) ∧
    (r.state = .brownout →
      r.share = 0 ∧ r.scale = 0 ∧ r.soundGrant = 0 ∧ r.soundAllowance = 0 ∧
      (∀ n : PortNo, (s.motorProfile n).isSome = true → t.motors[n].allowance = 0 ∧ t.motors[n].dutyGrant = 0) ∧
      (∀ n : PortNo, before.state ≠ .brownout → s.motors[n].mode.driving = true →
        t.motors[n].outcome = .brownout ∧ t.motors[n].mode.driving = false ∧ t.motors[n].dutyRequest = 0)) ∧
    (0 < C → leaves = true → M + r.soundDemand ≤ C →
      r.state = .normal ∧ r.share = (C - M - r.soundDemand) / consumers ∧ r.scale = 1024 ∧ r.soundGrant = v ∧
      r.soundAllowance = (if 0 < Ls then min 100 (v + r.share * 100 / Ls) else 100) ∧
      channels fun m p => { m with dutyGrant := m.dutyRequest, allowance :=
        if p.ratedLoad = 0 then 1000 else min 1000 (m.dutyRequest.natAbs + r.share * 1000 / p.ratedLoad.toNat) }) ∧
    (0 < C → leaves = true → C < M + r.soundDemand → M ≤ motorsPart →
      r.state = .limiting ∧ r.share = 0 ∧ r.scale = 1024 ∧ r.soundGrant = min v ((C - M) * 100 / Ls) ∧
      r.soundAllowance = r.soundGrant ∧
      channels fun m p => { m with dutyGrant := m.dutyRequest, allowance :=
        if p.ratedLoad = 0 then 1000 else m.dutyRequest.natAbs }) ∧
    (0 < C → leaves = true → C < M + r.soundDemand → motorsPart < M →
      r.state = .limiting ∧ r.share = 0 ∧ r.scale = motorsPart * 1024 / M ∧ r.soundGrant = protectedVolume ∧
      r.soundAllowance = protectedVolume ∧
      channels fun m p => { m with dutyGrant := (m.dutyRequest * r.scale).tdiv 1024, allowance :=
        if p.ratedLoad = 0 then 1000 else ((m.dutyRequest * r.scale).tdiv 1024).natAbs }) ∧
    (r.state ≠ before.state → s.bus.dispatch = none → s.bus.events.length < 16 →
      t.bus.events[s.bus.events.length]? = some
        { kind := (match r.state with | .normal => .budgetNormal | .limiting => .budgetLimit | .brownout => .brownout),
          index := 0,
          detail := (match before.state with | .normal => 0 | .limiting => 1 | .brownout => 2),
          depth := 0, stamp := s.bus.stamp, directed := none }) ∧
    (r.state ≠ before.state → s.bus.dispatch = none → s.bus.events.length < 16 → s.bus.notices.length < 16 →
      s.link.tx ≠ none →
      t.bus.notices[s.bus.notices.length]? = some
        { body := .budgetChange r.state before.state r.ceiling r.row r.batteryValid r.batteryMv r.scale,
          dropped := s.bus.dropped, stamp := s.bus.stamp }) ∧
    (r.state = before.state → t.bus.events = s.bus.events ∧ (s.link.tx ≠ none → t.bus = s.bus))

/-- R128: after a window, from any state at all, the load of the granted duties and the effective volume, and the load
the allowances admit, are within the ceiling the window chose. -/
def Obligations.WindowStaysWithinCeiling : Prop :=
  ∀ s : State, Answers (exec .budgetWindowExpiry s) fun t => t.LoadWithin ∧ t.AllowancesWithin

/-! ## Sound engine -/

/-- R134, R140, R141: SOUND TONE: a waveform code of 3–255 is BAD_LENGTH and a full queue QUEUE_FULL; otherwise the note,
clamped, begins at once on an IDLE voice or joins the tail of the queue. A note's duration expiry takes the head note,
with QUEUE_LOW and its notice when that brings the count to the mark, or leaves the voice IDLE with TONE_IDLE. -/
def Obligations.NotesPlayInOrder : Prop :=
  (∀ (s : State) (tag waveform level : Byte) (pitch duration : Half) (w : Waveform), s.Opens →
    let note : Note :=
      { pitch := if pitch = 0 then 0 else max 20 (min 8000 pitch.toNat),
        duration := max 1 (min 4000 duration.toNat), waveform := w, level := min 100 level.toNat }
    let status := adjustedIf (decide
      (note.pitch ≠ pitch.toNat ∨ note.duration ≠ duration.toNat ∨ note.level ≠ level.toNat))
    (3 ≤ waveform.toNat →
      exec (.soundTone tag pitch duration waveform level) s = .next (s.replied 0x20 tag .badLength [])) ∧
    (Waveform.list[waveform.toNat]? = some w →
      (s.sound.tonePlaying = true → 32 ≤ s.sound.queue.length →
        exec (.soundTone tag pitch duration waveform level) s = .next (s.replied 0x20 tag .queueFull [])) ∧
      (s.sound.tonePlaying = true → s.sound.queue.length < 32 →
        exec (.soundTone tag pitch duration waveform level) s = .next (State.replied
          { s with sound := { s.sound with queue := s.sound.queue ++ [note] } } 0x20 tag status [])) ∧
      (s.sound.tonePlaying = false →
        exec (.soundTone tag pitch duration waveform level) s = .next (State.replied
          { s with sound := { s.sound with
              tonePlaying := true, note := note, noteSamples := 0, phase := 0,
              step := BitVec.ofNat 16 (note.pitch * 65536 / 16000), noteTimer := some note.duration } }
          0x20 tag status [])))) ∧
  (∀ (s : State) (ms : Nat) (note : Note) (rest : List Note), s.sound.noteTimer = some ms →
    (s.sound.queue = [] →
      exec .noteDurationExpiry s = .next (State.transmitNext
        { s with sound := { s.sound with tonePlaying := false, noteTimer := none },
                 bus := s.bus.post .toneIdle 0 0 })) ∧
    (s.sound.queue = note :: rest →
      exec .noteDurationExpiry s = .next (State.transmitNext
        { s with
          sound := { s.sound with
            tonePlaying := true, note := note, noteSamples := 0, phase := 0,
            step := BitVec.ofNat 16 (note.pitch * 65536 / 16000), noteTimer := some note.duration, queue := rest }
          bus := if rest.length = s.settings.queueLowMark.toNat then
              (s.bus.post .queueLow 0 (byteOf rest.length)).notify
                (.queueLow (byteOf rest.length) s.settings.queueLowMark)
            else s.bus })))

/-- R142–R145: SOUND CLIP starts its entry, ending a playing clip SUPERSEDED, or is BAD_INDEX; VOLUME clamps and sets the
master; FLUSH empties the queue; the STOPs end the voices with their events and leave an IDLE voice as it is; the position of a clip they end stands (log
25). -/
def Obligations.SoundCommandsAct : Prop :=
  ∀ (s : State) (tag clip repeats level volume : Byte), s.Opens →
    let e := s.sound
    let toneOn : Bool := decide (e.tonePlaying = true ∨ e.queue ≠ [])
    let tone : Sound := if toneOn then { e with tonePlaying := false, noteTimer := none, queue := [] } else e
    let toneBus : Bus := if toneOn then s.bus.post .toneIdle 0 0 else s.bus
    let stopped (b : Bus) : Bus := if e.clipPlaying then b.post .clipEnd 0 3 else b
    (16 ≤ clip.toNat → exec (.soundClip tag clip repeats level) s = .next (s.replied 0x20 tag .badIndex [])) ∧
    (∀ i : Fin 16, clip = byteOf i.val →
      exec (.soundClip tag clip repeats level) s = .next (
        if e.clips[i].valid then
          State.replied
            { s with
              sound := { e with
                clipPlaying := true, clipIndex := i, clipStart := e.clips[i].start.toNat,
                clipLength := e.clips[i].length.toNat, clipRate := e.clips[i].rate.toNat, clipPos := 0,
                clipInc := e.clips[i].rate.toNat * 65536 / 16000, playsLeft := repeats.toNat,
                clipLevel := min 100 level.toNat }
              bus := if e.clipPlaying then s.bus.post .clipEnd 0 2 else s.bus }
            0x20 tag (adjustedIf (decide (100 < level.toNat))) []
        else s.replied 0x20 tag .badIndex [])) ∧
    exec (.soundVolume tag volume) s = .next (State.replied
      { s with sound := { e with master := min 100 volume.toNat } }
      0x20 tag (adjustedIf (decide (100 < volume.toNat))) []) ∧
    exec (.soundFlush tag) s = .next (State.replied { s with sound := { e with queue := [] } } 0x20 tag .ok []) ∧
    exec (.soundStopTone tag) s = .next (State.replied { s with sound := tone, bus := toneBus } 0x20 tag .ok []) ∧
    exec (.soundStopClip tag) s = .next (State.replied
      { s with sound := { e with clipPlaying := false }, bus := stopped s.bus } 0x20 tag .ok []) ∧
    exec (.soundStopAll tag) s = .next (State.replied
      { s with sound := { tone with clipPlaying := false }, bus := stopped toneBus } 0x20 tag .ok [])

/-- R133, R137, R138, R139: one output sample: the tone value of the waveform at the phase and the clip's sample, mixed
by their levels and the effective volume; then phase and clip position advance, a clip that reaches its length repeating
or ending with CLIP_END FINISHED, the position then as it stands (log 25). The sample drives the speaker, which holds 0
while both voices are IDLE and the sample last made from the start of a voice to its first (log 34); the samples of a note
are counted (log 8). -/
def Obligations.OutputSampleMixes : Prop :=
  ∀ s : State,
    let e := s.sound
    let x : Int := e.phase.toNat
    let t : Int :=
      if e.tonePlaying = true ∧ e.note.pitch ≠ 0 then
        match e.note.waveform with
        | .square => if x < 32768 then 127 else -127
        | .triangle => if x < 32768 then -127 + (x * 254).tdiv 32768 else 127 - ((x - 32768) * 254).tdiv 32768
        | .saw => (x * 255).tdiv 65536 - 127
      else 0
    let c : Int :=
      if e.clipPlaying then max (-127) (Memory.read e.store (e.clipStart + e.clipPos / 65536)).toInt else 0
    let out : Int :=
      max (-127) (min 127
        (((t * e.note.level + c * e.clipLevel).tdiv 100 * (min e.master e.allowance : Nat)).tdiv 100))
    let toned : Sound :=
      if e.tonePlaying then { e with out := out, phase := e.phase + e.step, noteSamples := e.noteSamples + 1 }
      else { e with out := out }
    let pos := e.clipPos + e.clipInc
    let ends : Bool := decide (e.clipPlaying = true ∧ e.clipLength ≤ pos / 65536)
    (e.tonePlaying = true ∨ e.clipPlaying = true → e.speaker = e.out) ∧
    (e.tonePlaying = false → e.clipPlaying = false → e.speaker = 0) ∧
    exec .outputSample s = .next (State.transmitNext
      { s with
        sound :=
          if ends then
            if e.playsLeft = 1 then { toned with clipPos := pos, playsLeft := 0, clipPlaying := false }
            else { toned with clipPos := pos - e.clipLength * 65536, playsLeft := e.playsLeft - 1 }
          else if e.clipPlaying then { toned with clipPos := pos } else toned
        bus := if ends = true ∧ e.playsLeft = 1 then s.bus.post .clipEnd 0 1 else s.bus })

/-! ## Converter scan -/

/-- R48–R50, R53: the SCAN commands. With a slot's conversion in flight the pass is cut there; with the converter on an
ID measurement the pass ends at once; with the converter IDLE and no ID request a due pass starts at once from
scan_start, and STOP leaves every slot IDLE. -/
def Obligations.ScanCommandsAct : Prop :=
  ∀ (s : State) (tag : Byte) (c : Instr) (mode : ScanMode), s.Opens →
    (c = .scanStart tag ∧ mode = .continuous) ∨ (c = .scanSingle tag ∧ mode = .single) ∨
      (c = .scanStop tag ∧ mode = .off) →
    let first : Fin 16 := Fin.ofNat 16 s.settings.scanStart.toNat
    let last : Fin 16 :=
      if Fin.ofNat 16 s.settings.scanStop.toNat < first then first else Fin.ofNat 16 s.settings.scanStop.toNat
    let idled : Vector RawImage 16 := Vector.ofFn fun i => { s.scan.images[i] with slotState := .idle }
    (∀ i : Fin 16, (match s.scan.work with | .slot k .. => decide (k = i) | .idle | .ident .. => false) = true →
      exec c s = .next (State.replied
        { s with scan := { s.scan with mode := mode, passDue := decide (mode ≠ .off), cut := true } }
        0x30 tag .ok [])) ∧
    (∀ n : PortNo, (s.scan.work = .ident n true ∨ s.scan.work = .ident n false) →
      exec c s = .next (State.replied
        { s with scan := { s.scan with
            mode := mode, passDue := decide (mode ≠ .off), pass := none, cut := false,
            images := if mode = .off then idled else s.scan.images } }
        0x30 tag .ok [])) ∧
    (s.scan.work = .idle → (∀ n : PortNo, s.scan.idReq[n] = false) →
      exec c s = .next (State.replied
        { s with scan :=
            if mode = .off then
              { s.scan with mode := .off, passDue := false, pass := none, cut := false, images := idled }
            else
              { s.scan with
                mode := mode, passDue := false, cut := false, pass := some { next := first, last := last },
                images := Vector.ofFn fun i =>
                  { s.scan.images[i] with slotState :=
                      if i = first then .converting else if first ≤ i ∧ i ≤ last then .pending else .idle },
                work := .slot first s.scan.slots[first].input s.scan.slots[first].average 0 0 false } }
        0x30 tag .ok []))

/-- R46, R47, R49–R53: a scan conversion. A slot not complete goes on with its next conversion. A completed slot, in
full or short, takes the truncated mean of its codes into its image, unless its record was rewritten, and hands it to the
conversion table: a RAW entry over a slot on no port shows it. The pass then goes on, ends, or, cut, has ended. SCAN_DONE
is posted where the last slot of a SINGLE pass completes in full, a discarded result included, after what the hand-off
posts (log 26), and nowhere else. The converter then serves the lowest ID request, or starts the pass that is due after a
cut or a CONTINUOUS pass, from scan_start. -/
def Obligations.ScanConversionCompletes : Prop :=
  ∀ (s : State) (code : BitVec 12) (i : Fin 16) (input : Fin 8) (n done sum : Nat) (discard : Bool),
    s.scan.work = .slot i input n done sum discard →
    let k := done + 1
    let total := sum + code.toNat
    (s.scan.cut = false → k < n →
      exec (.scanConversionDone code) s = .next (State.transmitNext
        { s with scan := { s.scan with work := .slot i input n k total discard } })) ∧
    (s.scan.cut = true ∨ n ≤ k →
      Answers (exec (.scanConversionDone code) s) fun t =>
        (discard = false →
          t.scan.images[i].raw = BitVec.ofNat 16 (total / k) ∧ t.scan.images[i].conversions = k ∧
          t.scan.images[i].sequence = s.scan.images[i].sequence + 1 ∧ t.scan.images[i].stamp = s.bus.stamp ∧
          t.scan.images[i].input = input) ∧
        (∀ j : Fin 16, (j ≠ i ∨ discard = true) →
          t.scan.images[j].raw = s.scan.images[j].raw ∧ t.scan.images[j].sequence = s.scan.images[j].sequence ∧
          t.scan.images[j].stamp = s.scan.images[j].stamp) ∧
        (∀ e : Fin 32, discard = false → s.conv[e].cfg.sourceKind = .slot → s.conv[e].cfg.sourceIndex = byteOf i.val →
          6 ≤ s.scan.slots[i].input.val → s.conv[e].cfg.mode = .raw → s.conv[e].cfg.maxChange = 0 →
          s.conv[e].cfg.railCheck = false →
          t.conv[e].value = BitVec.ofNat 32 (BitVec.ofNat 16 (total / k)).toNat ∧ t.conv[e].status = .valid) ∧
        (discard = true → t.conv = s.conv) ∧
        (s.scan.cut = true →
          t.scan.mode = s.scan.mode ∧ t.scan.cut = false ∧
          (s.scan.mode = .off → s.scan.passDue = false → t.scan.pass = none ∧
            (∀ j : Fin 16, t.scan.images[j].slotState = .idle) ∧
            ((∀ m : PortNo, s.scan.idReq[m] = false) → t.scan.work = .idle))) ∧
        (∀ p : ScanPass, s.scan.cut = false → s.scan.pass = some p →
          (i < p.last → (∀ m : PortNo, s.scan.idReq[m] = false) →
            t.scan.pass = some { p with next := i + 1 } ∧
            t.scan.work = .slot (i + 1) s.scan.slots[i + 1].input s.scan.slots[i + 1].average 0 0 false ∧
            t.scan.images[i].slotState = .done ∧ t.scan.images[i + 1].slotState = .converting) ∧
          (p.last ≤ i → s.scan.mode = .single → s.scan.passDue = false →
            t.scan.mode = .off ∧ t.scan.pass = none ∧
            (discard = true → s.bus.dispatch = none → s.bus.events.length < 16 →
              t.bus.events = s.bus.events ++ [{ kind := .scanDone, index := 0, detail := 0, depth := 0,
                                                stamp := s.bus.stamp, directed := none }])) ∧
          (p.last ≤ i → s.scan.mode = .continuous → t.scan.mode = .continuous)) ∧
        (let ended : Bool := decide (s.scan.cut = false ∧ s.scan.mode = .single ∧ ∃ q : Fin 16, q ≤ i ∧
           s.scan.pass.map ScanPass.last = some q)
         let done : Event := { kind := .scanDone, index := 0, detail := 0, depth := 0, stamp := s.bus.stamp,
                               directed := none }
         s.bus.dispatch = none →
         (ended = true → t.bus.events.length < 16 → t.bus.events.getLast? = some done) ∧
         (s.bus.events.length < 16 → (discard = true ∨ ∀ e : Fin 32, s.conv[e].cfg.sourceKind = .slot →
             s.conv[e].cfg.sourceIndex ≠ byteOf i.val) →
           t.bus.events = s.bus.events ++ if ended then [done] else [])) ∧
        (let passEnds : Prop := s.scan.cut = true ∨ (∃ q : Fin 16, q ≤ i ∧ s.scan.pass.map ScanPass.last = some q)
         let due : Prop := s.scan.passDue = true ∨ (s.scan.cut = false ∧ s.scan.mode = .continuous)
         let first : Fin 16 := Fin.ofNat 16 s.settings.scanStart.toNat
         let last : Fin 16 :=
           if Fin.ofNat 16 s.settings.scanStop.toNat < first then first else Fin.ofNat 16 s.settings.scanStop.toNat
         passEnds →
         (∀ n : PortNo, s.scan.idReq[n] = true → (∀ k : PortNo, k < n → s.scan.idReq[k] = false) →
           t.scan.work = .ident n false ∧ t.scan.idReq = s.scan.idReq.set n false ∧ t.scan.pass = none ∧
           (due → t.scan.passDue = true)) ∧
         ((∀ n : PortNo, s.scan.idReq[n] = false) → due →
           t.scan.passDue = false ∧ t.scan.cut = false ∧ t.scan.pass = some { next := first, last := last } ∧
           t.scan.work = .slot first s.scan.slots[first].input s.scan.slots[first].average 0 0 false ∧
           ∀ j : Fin 16, t.scan.images[j].slotState =
             if j = first then .converting else if first ≤ j ∧ j ≤ last then .pending else .idle) ∧
         ((∀ n : PortNo, s.scan.idReq[n] = false) → ¬ due → t.scan.work = .idle ∧ t.scan.pass = none)) ∧
        t.scan.slots = s.scan.slots ∧
        s.linkKept t ∧ s.keepsBut t [.link, .scan, .conv, .bus, .reports, .reportQueue])

/-- R23, R26, R28, R34, R54: the result of an ID measurement. A void one changes no port. A port in DETECTING takes the
band: short is FAULT ID_SHORT with the re-probe timer at 500 ms, a class band is looked up at once, and the open band is
PROBING with its first query try. R35: a FAULT ID_SHORT port measured again stays as it is in the short band, and any
other band makes it leave FAULT as the result leaves DETECTING. Elsewhere the result is discarded. R29: with the
transmitter busy, what is posted and noticed: PORT_FAULT, PORT_BOUND and a PORT_CHANGE for each state entered, the event
ahead of the notice (log 26). -/
def Obligations.IdentBandsDecide : Prop :=
  ∀ (s : State) (code : BitVec 12) (n : PortNo) (void : Bool), s.scan.work = .ident n void →
    Answers (exec (.idConversionDone code) s) fun t =>
      let p := s.ports[n]
      let c := code.toNat
      let cls : Byte := if c < 800 then 1 else if c < 1400 then 2 else if c < 2000 then 3 else if c < 2600 then 4
        else if c < 3200 then 5 else 6
      (∀ k : PortNo, k ≠ n → t.ports[k] = s.ports[k] ∧ t.lines[k] = s.lines[k] ∧ t.motors[k] = s.motors[k]) ∧
      (void = true ∨ (p.state ≠ .detecting ∧ ¬ (p.state = .fault ∧ p.fault = .idShort)) →
        t.ports = s.ports ∧ t.lines = s.lines ∧ t.motors = s.motors ∧ t.conv = s.conv ∧
        (s.link.tx ≠ none → t.bus = s.bus)) ∧
      (void = false → p.state = .detecting → c < 200 →
        t.ports[n] = { p with state := .fault, fault := .idShort, profile := none, band := some .short,
                              pollDue := false, pollTimer := none, resumes := false, queryDue := false,
                              queryTimer := none, reprobeTimer := some 500 } ∧
        t.lines[n].mode = .none ∧
        (s.link.tx ≠ none → t.bus =
          (s.bus.post .portFault (portByte n) 1).notify (.portChange n .fault .idShort none p.cls p.variant))) ∧
      (void = false → p.state = .fault → p.fault = .idShort → c < 200 →
        t.ports = s.ports.set n { p with band := some .short } ∧ t.lines = s.lines ∧ t.motors = s.motors ∧
        t.conv = s.conv ∧ (s.link.tx ≠ none → t.bus = s.bus)) ∧
      (void = false → (p.state = .detecting ∨ (p.state = .fault ∧ p.fault = .idShort)) →
        (200 ≤ c → p.state = .fault → t.ports[n].missed = 0 ∧ t.ports[n].reprobeTimer = none) ∧
        (200 ≤ c → c < 3900 →
          t.ports[n].band = some (.passive cls) ∧ t.ports[n].cls = cls ∧ t.ports[n].variant = 0 ∧
          (∀ i : Fin 16, lookup s.profiles cls 0 = some i →
            t.ports[n].state = .bound ∧ t.ports[n].profile = some i ∧ t.ports[n].fault = .none ∧
            t.lines[n].mode = s.profiles[i].lineUse ∧
            (s.profiles[i].use = .motor →
              t.motors[n].mode = .coast ∧ t.motors[n].position = 0 ∧ t.motors[n].allowance = 0 ∧
              t.motors[n].regTimer = some s.profiles[i].regPeriod.toNat) ∧
            (s.link.tx ≠ none → t.bus =
              (s.bus.post .portBound (portByte n) (byteOf i.val)).notify
                (.portChange n .bound .none (some i) cls 0))) ∧
          (lookup s.profiles cls 0 = none →
            t.ports[n].state = .unknown ∧ t.ports[n].profile = none ∧ t.ports[n].fault = .none ∧
            t.lines[n].mode = .none ∧
            (s.link.tx ≠ none → t.bus = s.bus.notify (.portChange n .unknown .none none cls 0)))) ∧
        (3900 ≤ c → p.exchange = none → p.pass = none → p.pollDue = false →
          t.ports[n] = { p with
            state := .probing, fault := if p.state = .fault then .none else p.fault,
            missed := if p.state = .fault then 0 else p.missed,
            reprobeTimer := if p.state = .fault then none else p.reprobeTimer,
            band := some .openLine, tries := 1, queryDue := false, queryTimer := some 50,
            exchange := some { kind := .query, sent := [0x00, 0xFF], windowMs := 20, windowOpen := false,
                               got := [] } } ∧
          (s.link.tx ≠ none → t.bus = s.bus.notify
            (.portChange n .probing (if p.state = .fault then .none else p.fault) p.profile p.cls p.variant)))) ∧
      s.linkKept t ∧ s.keepsBut t [.link, .scan, .ports, .lines, .motors, .conv, .bus, .reportQueue]

/-! ## Port manager -/

/-- R24, R25, R44: the detect filter. A change of DET restarts the timer at 20 ms; a level at the expiry equal to the
accepted one leaves no trace; a closed contact on an EMPTY port is an attach, to DETECTING with an ID request; an open one
on any other port a detach, to EMPTY, undoing what the port held. R29: with the transmitter busy, PORT_ATTACH or
PORT_DETACH is posted and a PORT_CHANGE queued, the RUN_END of a running operation ahead (log 26). -/
def Obligations.DetectFilterAttachesAndDetaches : Prop :=
  ∀ (s : State) (n : PortNo) (closed : Bool) (ms : Nat) (w : Pass),
    let p := s.ports[n]
    let cleared : Port := { p with cls := 0, variant := 0, formats := [], minPoll := 0, missed := 0,
                                   fields := Vector.replicate 6 0, fault := .none, profile := none, band := none,
                                   detTimer := none, detAccepted := p.det }
    (p.det = closed → exec (.detChange n closed) s = .next s) ∧
    (p.det ≠ closed →
      exec (.detChange n closed) s =
        .next { s with ports := s.ports.set n { p with det := closed, detTimer := some 20 } }) ∧
    (p.detTimer = some ms → p.det = p.detAccepted →
      exec (.detDebounceExpiry n) s =
        .next (State.transmitNext { s with ports := s.ports.set n { p with detTimer := none } })) ∧
    (p.detTimer = some ms → p.det = true → p.detAccepted = false → p.state = .empty →
      Answers (exec (.detDebounceExpiry n) s) fun t =>
        t.ports = s.ports.set n { cleared with state := .detecting } ∧
        (t.scan.idReq[n] = true ∨ t.scan.work = .ident n false) ∧
        (s.bus.dispatch = none → s.bus.events.length < 16 →
          t.bus.events = s.bus.events ++ [{ kind := .portAttach, index := portByte n, detail := 0, depth := 0,
                                            stamp := s.bus.stamp, directed := none }]) ∧
        (s.link.tx ≠ none → t.bus =
          (s.bus.post .portAttach (portByte n) 0).notify (.portChange n .detecting .none none 0 0)) ∧
        s.linkKept t ∧ s.keepsBut t [.link, .ports, .scan, .bus, .reportQueue]) ∧
    (p.detTimer = some ms → p.det = false → p.detAccepted = true → p.state ≠ .empty →
      Answers (exec (.detDebounceExpiry n) s) fun t =>
        t.ports = s.ports.set n
          { cleared with state := .empty, exchange := none, pass := none, pollDue := false, queryDue := false, tries := 0,
                         queryTimer := none, pollTimer := none, resumes := false, reprobeTimer := none,
                         forward := false } ∧
        (s.link.tx ≠ none →
          let lost : Bus := if s.motors[n].regTimer = none then s.bus else s.endingBus n .detached
          t.bus = (lost.post .portDetach (portByte n) 0).notify (.portChange n .empty .none none 0 0)) ∧
        t.service = (if s.service = some n then none else s.service) ∧ t.lines[n].mode = .none ∧
        (∀ k : PortNo, k ≠ n → t.lines[k] = s.lines[k] ∧ t.motors[k] = s.motors[k]) ∧
        (s.motors[n].regTimer ≠ none →
          t.motors[n].mode = .coast ∧ t.motors[n].dutyRequest = 0 ∧ t.motors[n].dutyGrant = 0 ∧
          t.motors[n].regTimer = none ∧
          (s.motors[n].mode.driving = true → t.motors[n].outcome = .detached)) ∧
        (∀ i : Fin 32, s.sourcePort s.conv[i].cfg = some n → s.conv[i].status ≠ .empty →
          t.conv[i].status = .noSource) ∧
        t.scan.idReq[n] = false ∧ t.scan.work ≠ .ident n false ∧
        (p.pass = none → s.linkKept t) ∧
        (p.pass = some w → t.link = { s.link with tx := t.link.tx, places := s.link.places.map fun q =>
          if q.order = w.place ∧ q.answer = none then
            { q with answer := some { status := .noDevice, result := [] } } else q }) ∧
        s.keepsBut t [.link, .ports, .service, .lines, .motors, .conv, .scan, .bus, .reportQueue])

/-- R27, R32, R35, R36, R40: the engine's own times. With the line free the query try, POLL or re-probe try that falls due
is sent at once; otherwise it waits, and a POLL due adds no second. In service mode a poll expiry makes nothing due; the
first one after it resumes polling with missed at 0 (R41, log 36). The end of a transmission opens the reply window. -/
def Obligations.EngineTimersStartExchanges : Prop :=
  ∀ (s : State) (n : PortNo) (ms : Nat) (x : Exchange),
    let p := s.ports[n]
    let free : Prop := p.exchange = none ∧ p.pass = none ∧ p.pollDue = false
    let query : Exchange := { kind := .query, sent := [0x00, 0xFF], windowMs := 20, windowOpen := false, got := [] }
    let poll : Exchange := { kind := .poll, sent := [0x20, 0xDF], windowMs := 5, windowOpen := false, got := [] }
    let setPort (q : Port) : State := { s with ports := s.ports.set n q }
    (p.queryTimer = some ms → p.state = .probing → free →
      exec (.queryTryDue n) s = .next (setPort
        { p with exchange := some query, queryDue := false, tries := p.tries + 1,
                 queryTimer := if p.tries + 1 < 3 then some 50 else none })) ∧
    (p.queryTimer = some ms → p.exchange = some x →
      exec (.queryTryDue n) s = .next (setPort { p with queryTimer := none, queryDue := true })) ∧
    (p.exchange = some x →
      exec (.deviceFrameSent n) s = .next (setPort { p with exchange := some { x with windowOpen := true } })) ∧
    (p.pollTimer = some ms → s.service = some n → exec (.pollTimerExpiry n) s = .next s) ∧
    (p.pollTimer = some ms → s.service ≠ some n → p.exchange = none → p.pass = none →
      exec (.pollTimerExpiry n) s = .next (setPort
        { p with exchange := some poll, pollDue := false, resumes := false, missed := if p.resumes then 0 else p.missed })) ∧
    (p.pollTimer = some ms → s.service ≠ some n → p.exchange = some x →
      exec (.pollTimerExpiry n) s = .next (setPort
        { p with pollDue := true, resumes := false, missed := if p.resumes then 0 else p.missed })) ∧
    (p.reprobeTimer = some ms → p.fault ≠ .idShort → p.state = .fault → free →
      exec (.reprobeExpiry n) s =
        .next (setPort { p with reprobeTimer := some 500, exchange := some query, queryDue := false })) ∧
    (p.reprobeTimer = some ms → p.fault = .idShort →
      Answers (exec (.reprobeExpiry n) s) fun t =>
        t.ports = s.ports.set n { p with reprobeTimer := some 500 } ∧
        (t.scan.idReq[n] = true ∨ t.scan.work = .ident n false) ∧ s.keepsBut t [.ports, .scan])

/-- R27, R34, R38: a reply window that closes. A query try has failed, the third of PROBING entering FAULT NO_IDENT; a
poll is missed, the third in a row entering FAULT SILENT; a pass-through is answered DEVICE_TIMEOUT. R29: with the
transmitter busy, an entry to FAULT posts PORT_FAULT with its reason and queues a PORT_CHANGE, ahead of the RUN_END of an
operation it ends (log 26). -/
def Obligations.ClosingWindowsFailExchanges : Prop :=
  ∀ (s : State) (n : PortNo) (w : Pass),
    let p := s.ports[n]
    let faulted (p' : Port) (reason : FaultReason) : Port :=
      { p' with state := .fault, fault := reason, profile := none, exchange := none, pollDue := false, pollTimer := none,
                resumes := false, queryDue := false, queryTimer := none, reprobeTimer := some 500 }
    (p.window = some .query → p.pass = none → p.pollDue = false → p.queryDue = false →
      ¬ (p.state = .probing ∧ 3 ≤ p.tries) →
      exec (.queryWindowClose n) s =
        .next (State.transmitNext { s with ports := s.ports.set n { p with exchange := none } })) ∧
    (p.window = some .query → p.pass = none → p.state = .probing → 3 ≤ p.tries →
      Answers (exec (.queryWindowClose n) s) fun t =>
        t.ports = s.ports.set n (faulted p .noIdent) ∧ t.lines[n].mode = .none ∧
        (s.link.tx ≠ none → t.bus =
          (s.bus.post .portFault (portByte n) 2).notify (.portChange n .fault .noIdent none p.cls p.variant)) ∧
        (∀ k : PortNo, k ≠ n → t.lines[k] = s.lines[k]) ∧
        s.linkKept t ∧ s.keepsBut t [.link, .ports, .lines, .conv, .bus, .reportQueue]) ∧
    (p.window = some .poll → p.pass = none → p.pollDue = false → p.queryDue = false → p.missed < 2 →
      exec (.pollWindowClose n) s = .next (State.transmitNext
        { s with ports := s.ports.set n { p with exchange := none, missed := p.missed + 1 } })) ∧
    (p.window = some .poll → p.pass = none → p.missed = 2 →
      Answers (exec (.pollWindowClose n) s) fun t =>
        t.ports = s.ports.set n (faulted { p with missed := 0 } .silent) ∧ t.lines[n].mode = .none ∧
        (s.link.tx ≠ none →
          let noticed : Bus :=
            (s.bus.post .portFault (portByte n) 3).notify (.portChange n .fault .silent none p.cls p.variant)
          t.bus = if p.state = .bound ∧ s.motors[n].regTimer ≠ none then
            State.endingBus { s with bus := noticed } n .sourceLost else noticed) ∧
        (∀ k : PortNo, k ≠ n → t.lines[k] = s.lines[k] ∧ t.motors[k] = s.motors[k]) ∧
        (p.state = .bound → s.motors[n].regTimer ≠ none →
          t.motors[n].mode = .coast ∧ t.motors[n].regTimer = none ∧ t.motors[n].dutyGrant = 0 ∧
          (s.motors[n].mode.driving = true → t.motors[n].outcome = .sourceLost)) ∧
        (∀ i : Fin 32, s.sourcePort s.conv[i].cfg = some n → s.conv[i].status ≠ .empty →
          t.conv[i].status = .stale) ∧
        s.linkKept t ∧ s.keepsBut t [.link, .ports, .lines, .motors, .conv, .bus, .reportQueue]) ∧
    (p.window = some .write → p.pass = some w → p.pollDue = false → p.queryDue = false →
      exec (.writeWindowClose n) s = .next (State.transmitNext
        { s with
          ports := s.ports.set n { p with exchange := none, pass := none }
          link := { s.link with places := s.link.places.map fun q =>
            if q.order = w.place ∧ q.answer = none then
              { q with answer := some { status := .deviceTimeout, result := [] } } else q } }))

/-- R27, R28, R32, R35: an IDENT in a query window. A good one records the identity and is looked up: the port becomes
BOUND, its polling started with a POLL at once, or UNKNOWN, and leaves FAULT. One that fails the tests ends the try. R29:
with the transmitter busy, a binding posts PORT_BOUND with its profile, and either state queues a PORT_CHANGE (in that
order: log 26). -/
def Obligations.IdentsAreTaken : Prop :=
  ∀ (s : State) (n : PortNo) (x : Exchange) (cls variant minPoll : Byte) (formats : List Format) (other : List Byte),
    s.ports[n].exchange = some x → x.kind = .query → x.windowOpen = true → x.got = [] →
    let p := s.ports[n]
    let payload := [cls, variant, byteOf formats.length] ++ formats.map (codeIn Format.list) ++ [minPoll]
    (1 ≤ formats.length → formats.length ≤ 6 → 16 ≤ cls.toNat → p.pass = none →
      (p.state = .probing ∨ (p.state = .fault ∧ p.fault ≠ .idShort)) → p.band = some .openLine →
      Answers (exec (.identReceived n payload) s) fun t =>
        t.ports[n].cls = cls ∧ t.ports[n].variant = variant ∧ t.ports[n].formats = formats ∧
        t.ports[n].minPoll = minPoll ∧ t.ports[n].fault = .none ∧ t.ports[n].reprobeTimer =
          (if p.state = .fault then none else p.reprobeTimer) ∧
        (∀ i : Fin 16, lookup s.profiles cls variant = some i →
          t.ports[n].state = .bound ∧ t.ports[n].profile = some i ∧ t.ports[n].missed = 0 ∧
          t.lines[n].mode = s.profiles[i].lineUse ∧
          t.ports[n].pollTimer = some (max s.profiles[i].pollMs.toNat minPoll.toNat) ∧
          t.ports[n].exchange = (if s.service = some n then none else some
            { kind := .poll, sent := [0x20, 0xDF], windowMs := 5, windowOpen := false, got := [] }) ∧
          (s.profiles[i].use = .motor →
            t.motors[n].mode = .coast ∧ t.motors[n].position = 0 ∧ t.motors[n].allowance = 0 ∧
            t.motors[n].regTimer = some s.profiles[i].regPeriod.toNat) ∧
          (s.link.tx ≠ none → t.bus =
            (s.bus.post .portBound (portByte n) (byteOf i.val)).notify
              (.portChange n .bound .none (some i) cls variant))) ∧
        (lookup s.profiles cls variant = none →
          t.ports[n].state = .unknown ∧ t.ports[n].profile = none ∧ t.ports[n].exchange = none ∧
          t.ports[n].pollTimer = none ∧ t.lines[n].mode = .none ∧
          (s.link.tx ≠ none → t.bus = s.bus.notify (.portChange n .unknown .none none cls variant))) ∧
        (∀ k : PortNo, k ≠ n → t.ports[k] = s.ports[k] ∧ t.lines[k] = s.lines[k] ∧ t.motors[k] = s.motors[k]) ∧
        s.linkKept t ∧ s.keepsBut t [.link, .ports, .lines, .motors, .bus, .reportQueue]) ∧
    (goodIdent other = none → other.length ≤ 24 → p.pass = none → p.pollDue = false → p.queryDue = false →
      ¬ (p.state = .probing ∧ 3 ≤ p.tries) →
      exec (.identReceived n other) s =
        .next (State.transmitNext { s with ports := s.ports.set n { p with exchange := none } }))

/-- R33, R34, R36, R96, R164: a DATA frame in a poll window. With the declared length all fields are replaced at once and
missed is 0; the channel of a device-field motor takes its field, the first after binding without a speed; with forwarding
a PASS record is offered. Any other length is a miss. R64: the fields go to the conversion table: a DEVICE_FIELD entry
over a BOUND smart port that is RAW, without a change limit, shows its own, and in service mode takes STALE. -/
def Obligations.DataRepliesAreTaken : Prop :=
  ∀ (s : State) (n : PortNo) (x : Exchange) (payload : List Byte) (pr : Profile), s.ports[n].exchange = some x →
    x.kind = .poll → x.windowOpen = true → x.got = [] → payload.length ≤ 24 →
    s.ports[n].pass = none → s.ports[n].pollDue = false → s.ports[n].queryDue = false →
    let p := s.ports[n]
    let sizes : Nat := (p.formats.map fun f => match f with | .s8 | .u8 => 1 | .s16 | .u16 => 2 | .s32 => 4).sum
    let values := readFields p.formats payload
    (payload.length = sizes →
      Answers (exec (.dataReceived n payload) s) fun t =>
        t.ports = s.ports.set n
          { p with exchange := none, missed := 0, fields := Vector.ofFn fun k => values.getD k.val 0 } ∧
        (s.motorProfile n = some pr → ∀ k : Fin 6, pr.positionSource = byteOf k.val →
          t.motors[n] = { s.motors[n] with
            position := values.getD k.val 0, firstField := false,
            prevPosition := if s.motors[n].firstField then values.getD k.val 0 else s.motors[n].prevPosition } ∧
          t.marks[n] = if s.motors[n].firstField = false ∧ values.getD k.val 0 ≠ s.motors[n].position ∧
              s.marks[n].enabled = true then (s.marks[n].update s.motors[n].position (values.getD k.val 0)).1
            else s.marks[n]) ∧
        (s.motorProfile n = none → t.motors = s.motors ∧ t.marks = s.marks) ∧
        (∀ k : PortNo, k ≠ n → t.motors[k] = s.motors[k] ∧ t.marks[k] = s.marks[k]) ∧
        (p.forward = true → s.link.tx ≠ none → (∀ i : Fin 12, s.reports[i].enabled = false) →
          s.reportQueue.any (ReportRecord.isPassOf n) = false → s.reportQueue.length < 8 →
          t.reportQueue = s.reportQueue ++ [.pass n s.passSkipped[n] s.bus.stamp payload] ∧
          t.passSkipped = s.passSkipped.set n 0) ∧
        (p.state = .bound → p.band = some .openLine → ∀ (i : Fin 32) (k : Fin 6), k.val < p.formats.length →
          s.conv[i].cfg.sourceKind = .deviceField → s.conv[i].cfg.sourceIndex = portByte n →
          s.conv[i].cfg.sourceField = byteOf k.val →
          (s.service ≠ some n → s.conv[i].cfg.mode = .raw → s.conv[i].cfg.maxChange = 0 →
            s.conv[i].cfg.railCheck = false →
            t.conv[i].value = values.getD k.val 0 ∧ t.conv[i].status = .valid ∧ t.conv[i].stamp = s.bus.stamp ∧
            t.conv[i].updateCount = s.conv[i].updateCount + 1) ∧
          (s.service = some n → t.conv[i].status = .stale ∧ t.conv[i].value = s.conv[i].value)) ∧
        (p.forward = false → t.passSkipped = s.passSkipped) ∧
        s.linkKept t ∧
        s.keepsBut t [.link, .ports, .motors, .marks, .conv, .bus, .reports, .reportQueue, .passSkipped]) ∧
    (payload.length ≠ sizes → p.missed < 2 →
      exec (.dataReceived n payload) s = .next (State.transmitNext
        { s with ports := s.ports.set n { p with exchange := none, missed := p.missed + 1 } }))

/-- R33: the fields of a DATA payload, in declared order and little-endian, sign- or zero-extended by their formats. -/
def Obligations.FieldsAreExtended : Prop :=
  ∀ (fs : List Format) (b0 b1 b2 b3 : Byte) (rest : List Byte),
    readFields (.s8 :: fs) (b0 :: rest) = b0.signExtend 32 :: readFields fs rest ∧
    readFields (.u8 :: fs) (b0 :: rest) = b0.zeroExtend 32 :: readFields fs rest ∧
    readFields (.s16 :: fs) (b0 :: b1 :: rest) = (b1 ++ b0).signExtend 32 :: readFields fs rest ∧
    readFields (.u16 :: fs) (b0 :: b1 :: rest) = (b1 ++ b0).zeroExtend 32 :: readFields fs rest ∧
    readFields (.s32 :: fs) (b0 :: b1 :: b2 :: b3 :: rest) = (b3 ++ b2 ++ b1 ++ b0 : Word) :: readFields fs rest ∧
    readFields [] rest = []

/-- R7, R22, R34, R36, R38: replies to a pass-through, and bad frames. An ACK of at most 16 bytes answers OK with them, a
NAK DEVICE_NAK; a longer ACK or a bad frame leaves the window open. A byte with its stop bit low, a header length of
25–31 and a wrong check byte are bad frames: in a poll window a miss, in a query window a failed try. Bytes outside an
open window are ignored. -/
def Obligations.RepliesEndExchanges : Prop :=
  ∀ (s : State) (n : PortNo) (x : Exchange) (w : Pass) (payload : List Byte) (type : BitVec 3) (check b : Byte),
    let p := s.ports[n]
    let answered (status : Status) (result : List Byte) : State := State.transmitNext
      { s with
        ports := s.ports.set n { p with exchange := none, pass := none }
        link := { s.link with places := s.link.places.map fun q =>
          if q.order = w.place ∧ q.answer = none then { q with answer := some { status := status, result := result } }
          else q } }
    (p.exchange = none ∨ (p.exchange = some x ∧ x.windowOpen = false) →
      exec (.badDeviceFrame n [⟨b, false⟩]) s = .next s.transmitNext) ∧
    (p.exchange = some x → x.windowOpen = true → x.got = [] → p.pollDue = false → p.queryDue = false →
      payload.length ≤ 24 →
      (x.kind = .write → p.pass = some w →
        exec (.ackReceived n payload) s =
          .next (if payload.length ≤ 16 then answered .ok payload else s.transmitNext) ∧
        exec (.nakReceived n payload) s = .next (answered .deviceNak []) ∧
        exec (.badDeviceFrame n [⟨b, true⟩]) s = .next s.transmitNext) ∧
      (x.kind = .poll → p.pass = none → p.missed < 2 →
        exec (.badDeviceFrame n [⟨b, true⟩]) s = .next (State.transmitNext
          { s with ports := s.ports.set n { p with exchange := none, missed := p.missed + 1 } })) ∧
      (x.kind = .query → p.pass = none → ¬ (p.state = .probing ∧ 3 ≤ p.tries) →
        exec (.badDeviceFrame n [⟨b, true⟩]) s = .next (State.transmitNext
          { s with ports := s.ports.set n { p with exchange := none } })) ∧
      (25 ≤ b.toNat % 32 →
        exec (.badDeviceFrame n [⟨b, false⟩]) s = exec (.badDeviceFrame n [⟨b, true⟩]) s) ∧
      (check ≠ 255 - byteSum (deviceHeader type payload.length :: payload) →
        exec (.badDeviceFrame n (onLine (deviceHeader type payload.length :: payload ++ [check]))) s =
          exec (.badDeviceFrame n [⟨b, true⟩]) s))

/-- R37, R38, R40, R43: the checks of the PORT commands: argument length, port number, the table of port states, and
what a taken operation can still refuse. A refused command changes nothing. -/
def Obligations.PortCommandChecks : Prop :=
  ∀ (s : State) (tag port on : Byte) (data : List Byte), s.Opens →
    let n : PortNo := Fin.ofNat 6 port.toNat
    let p := s.ports[n]
    let smart : Bool := p.band == some .openLine
    let far : Bool := decide (6 ≤ port.toNat)
    let answers (c : Instr) (status : Status) : Prop := exec c s = .next (s.replied 0x40 tag status [])
    (data.length = 0 ∨ 16 < data.length → answers (.portSend tag port data) .badLength) ∧
    (far = true →
      (1 ≤ data.length → data.length ≤ 16 → answers (.portSend tag port data) .badIndex) ∧
      answers (.portServiceOn tag port on) .badIndex ∧ answers (.portServiceOff tag port) .badIndex ∧
      answers (.portForward tag port on) .badIndex ∧ answers (.portProbe tag port) .badIndex) ∧
    (far = false → 1 ≤ data.length → data.length ≤ 16 → on ≠ 0 →
      (p.state = .empty →
        answers (.portSend tag port data) .portEmpty ∧ answers (.portServiceOn tag port on) .portEmpty ∧
        answers (.portForward tag port on) .portEmpty ∧ answers (.portProbe tag port) .portEmpty) ∧
      (p.state = .detecting →
        answers (.portSend tag port data) .inUse ∧ answers (.portServiceOn tag port on) .inUse ∧
        answers (.portForward tag port on) .inUse ∧ answers (.portProbe tag port) .inUse) ∧
      (p.state = .probing →
        answers (.portSend tag port data) .inUse ∧ answers (.portServiceOn tag port on) .inUse ∧
        answers (.portProbe tag port) .inUse) ∧
      (((p.state = .bound ∨ p.state = .unknown) ∧ smart = false) ∨ (p.state = .fault ∧ p.fault = .idShort) →
        answers (.portSend tag port data) .badIndex ∧ answers (.portServiceOn tag port on) .badIndex ∧
        answers (.portForward tag port on) .badIndex) ∧
      (p.state = .fault ∧ p.fault ≠ .idShort →
        answers (.portSend tag port data) .inUse ∧ answers (.portServiceOn tag port on) .inUse) ∧
      ((p.state = .bound ∨ p.state = .unknown) ∧ smart = true →
        (p.pass ≠ none → answers (.portSend tag port data) .portBusy ∧ answers (.portServiceOn tag port on) .inUse) ∧
        (s.motors[n].mode.driving = true → answers (.portServiceOn tag port on) .inUse)) ∧
      (p.state = .bound ∨ p.state = .unknown ∨ p.state = .fault →
        (s.service = some n → answers (.portProbe tag port) .inUse) ∧
        (s.service ≠ some n → p.pass ≠ none → answers (.portProbe tag port) .portBusy)))

/-- R7, R38, R40–R43: the PORT commands that pass their checks. SEND becomes the pending pass-through, its place RESERVED,
and is sent at once on a free line with a window of 10 ms, or 100 in service mode; SERVICE takes the selection, drops
missed and a due POLL and makes the port's entries STALE; SERVICE off, or on for another port, frees it, and the port that
held it resumes polling at its next expiry (R41, log 36); FORWARD sets its flag; PROBE sends the port back to DETECTING,
with the transmitter busy posting PORT_ATTACH and queuing a PORT_CHANGE, the RUN_END of a running operation ahead (log
26). -/
def Obligations.PortCommandsAct : Prop :=
  ∀ (s : State) (tag on : Byte) (data : List Byte) (n : PortNo), s.Opens → 1 ≤ data.length → data.length ≤ 16 →
    let p := s.ports[n]
    let ready : Bool := decide ((p.state = .bound ∨ p.state = .unknown) ∧ p.band = some .openLine ∧ p.pass = none)
    (ready = true →
      exec (.portSend tag (portByte n) data) s = .next (State.transmitNext
        { s with
          ports := s.ports.set n { p with
            pass := some { place := s.link.nextOrder, data := data },
            exchange := if p.exchange = none then some
                { kind := .write, sent := deviceFrame 2 data, windowMs := if s.service = some n then 100 else 10,
                  windowOpen := false, got := [] }
              else p.exchange }
          link := { s.link with
            places := s.link.places ++ [{ order := s.link.nextOrder, kind := 0x40, tag := tag, answer := none }],
            nextOrder := s.link.nextOrder + 1 } })) ∧
    (on ≠ 0 → ready = true → s.motors[n].mode.driving = false →
      Answers (exec (.portServiceOn tag (portByte n) on) s) fun t =>
        (s.service = some n → t = s.replied 0x40 tag (adjustedIf (decide (2 ≤ on.toNat))) []) ∧
        (s.service ≠ some n →
          t.service = some n ∧
          t.ports = Vector.set (match s.service with
              | some k => s.ports.set k { s.ports[k] with resumes := s.ports[k].pollTimer.isSome }
              | none => s.ports) n { p with missed := 0, pollDue := false, resumes := false } ∧
          (∀ i : Fin 32, s.sourcePort s.conv[i].cfg = some n → s.conv[i].status ≠ .empty →
            t.conv[i].status = .stale) ∧
          t = State.replied { s with service := some n, ports := t.ports, conv := t.conv } 0x40 tag
            (adjustedIf (decide (2 ≤ on.toNat))) [])) ∧
    exec (.portServiceOff tag (portByte n)) s = .next (State.replied
      (if s.service = some n then
        { s with service := none, ports := s.ports.set n { p with resumes := p.pollTimer.isSome } }
       else s) 0x40 tag .ok []) ∧
    (on = 0 ∨ p.state = .probing ∨ ((p.state = .bound ∨ p.state = .unknown) ∧ p.band = some .openLine) ∨
        (p.state = .fault ∧ p.fault ≠ .idShort) →
      exec (.portForward tag (portByte n) on) s = .next (State.replied
        { s with ports := s.ports.set n { p with forward := on != 0 } } 0x40 tag
        (adjustedIf (decide (2 ≤ on.toNat))) [])) ∧
    (p.state = .bound ∨ p.state = .unknown ∨ p.state = .fault → s.service ≠ some n → p.pass = none →
      Answers (exec (.portProbe tag (portByte n)) s) fun t =>
        t.ports = s.ports.set n { p with
          state := .detecting, fault := .none, profile := none, cls := 0, variant := 0, formats := [], minPoll := 0,
          missed := 0, fields := Vector.replicate 6 0, band := none, exchange := none, pollDue := false,
          queryDue := false, tries := 0, queryTimer := none, pollTimer := none, resumes := false, reprobeTimer := none } ∧
        (s.link.tx ≠ none →
          let lost : Bus := if p.state = .bound ∧ s.motors[n].regTimer ≠ none then s.endingBus n .rebound else s.bus
          t.bus = (lost.post .portAttach (portByte n) 0).notify (.portChange n .detecting .none none 0 0)) ∧
        t.lines[n].mode = .none ∧ (t.scan.idReq[n] = true ∨ t.scan.work = .ident n false) ∧
        (p.state = .bound → s.motors[n].mode.driving = true → s.motors[n].regTimer ≠ none →
          t.motors[n].mode = .coast ∧ t.motors[n].outcome = .rebound ∧ t.motors[n].regTimer = none) ∧
        (∀ k : PortNo, k ≠ n → t.lines[k] = s.lines[k] ∧ t.motors[k] = s.motors[k]) ∧
        (∀ i : Fin 32, s.sourcePort s.conv[i].cfg = some n → s.conv[i].status ≠ .empty →
          t.conv[i].status = .noSource) ∧
        t.link = { s.link with
          tx := t.link.tx, nextOrder := s.link.nextOrder + 1,
          places := s.link.places ++ [{ order := s.link.nextOrder, kind := 0x40, tag := tag,
                                        answer := some { status := .ok, result := [] } }] } ∧
        s.keepsBut t [.link, .ports, .scan, .lines, .motors, .conv, .bus, .reportQueue])

/-! ## Conversion, reactions, reports -/

/-- R64, R67–R74, R79: one evaluation of an entry: the rail check; scaling, change limit and filter; the alarm window
with its events; the image. An evaluation that ends VALID evaluates the entry's dependents in ascending order, each with
its own chain, on the value it left; any other gives every entry of the chain below NO_SOURCE and a fresh start; an
EMPTY entry of the chain is treated as the others (log 30). At an
update of its source an entry first takes STALE or NO_SOURCE where the port of the source cannot supply it, its chain
following when it leaves VALID; that the port's state at the update decides, also after a FAULT, is log 37. An update
reaches the entries that read the source in ascending order (log 12), and the report entries check after it (log 13). -/
def Obligations.EvaluationRunsStages : Prop :=
  (∀ (e : ConvEntry) (x : Int) (stamp : Half),
    let c := e.cfg
    let rail : Bool := decide (c.railCheck = true ∧ (x ≤ 8 ∨ 4087 ≤ x))
    let scaled : Int := max (-2147483648) (min 2147483647
      (if c.mode = .raw then x else ((x + c.offset.toInt) * c.gain.toInt).tdiv 256))
    let y : Int := match e.prevIn with
      | some q => if 0 < c.maxChange.toNat then max (q - c.maxChange.toNat) (min (q + c.maxChange.toNat) scaled) else scaled
      | none => scaled
    let v : Int := match e.prevOut with
      | some q => if c.mode = .filtered then q + (y - q).tdiv (2 ^ c.filterShift) else y
      | none => y
    let high : Bool := decide ((c.window = .high ∨ c.window = .both) ∧ c.high.toInt < v)
    let low : Bool := decide ((c.window = .low ∨ c.window = .both) ∧ v < c.low.toInt)
    let above (k : Nat) : Alarm × Nat × List (EventKind × Byte) :=
      if c.tripCount ≤ k then (.high, 0, [(.alarmHigh, 0)]) else (.pendHigh, k, [])
    let below (k : Nat) : Alarm × Nat × List (EventKind × Byte) :=
      if c.tripCount ≤ k then (.low, 0, [(.alarmLow, 0)]) else (.pendLow, k, [])
    let normal : Alarm × Nat × List (EventKind × Byte) :=
      if high then above 1 else if low then below 1 else (.normal, 0, [])
    let alarm : Alarm × Nat × List (EventKind × Byte) :=
      if c.window = .off then (e.alarm, e.pending, [])
      else match e.alarm with
        | .normal => normal
        | .pendHigh => if c.high.toInt < v then above (e.pending + 1) else normal
        | .pendLow => if v < c.low.toInt then below (e.pending + 1) else normal
        | .high =>
          if v < c.high.toInt - c.hysteresis.toNat then (normal.1, normal.2.1, (.alarmClear, 1) :: normal.2.2)
          else (.high, e.pending, [])
        | .low =>
          if c.low.toInt + c.hysteresis.toNat < v then (normal.1, normal.2.1, (.alarmClear, 2) :: normal.2.2)
          else (.low, e.pending, [])
    let evaluated (run : Nat) : ConvEntry × List (EventKind × Byte) :=
      ({ e with railRun := run, prevIn := some y, prevOut := some v, alarm := alarm.1, pending := alarm.2.1,
                value := BitVec.ofInt 32 v, status := .valid, updateCount := e.updateCount + 1, stamp := stamp },
       alarm.2.2)
    (rail = false → e.evaluate x stamp = evaluated (if c.railCheck then 0 else e.railRun)) ∧
    (rail = true → e.status = .rail → e.evaluate x stamp = (e, [])) ∧
    (rail = true → e.status ≠ .rail → c.tripCount ≤ e.railRun + 1 →
      e.evaluate x stamp = ({ e with status := .rail, railRun := c.tripCount }, [(.railFault, 0)])) ∧
    (rail = true → e.status ≠ .rail → e.railRun + 1 < c.tripCount →
      e.evaluate x stamp = evaluated (e.railRun + 1))) ∧
  (∀ (s : State) (i : Fin 32) (x : Int) (st : ConvStatus), s.ChainsDown →
    let source (j : Fin 32) : Option (Fin 32) :=
      if s.conv[j].cfg.sourceKind = .entry ∧ s.conv[j].cfg.sourceIndex.toNat < 32 then
        some (Fin.ofNat 32 s.conv[j].cfg.sourceIndex.toNat) else none
    let below (j : Fin 32) : Prop := ∃ k : Fin 32, (fun o => o.bind source)^[k.val + 1] (some j) = some i
    let freshened (e : ConvEntry) : ConvEntry :=
      if e.status = .noSource then e
      else { e with status := .noSource, prevIn := none, prevOut := none, railRun := 0, pending := 0,
                    alarm := match e.alarm with
                      | .pendHigh | .pendLow | .normal => .normal
                      | .high => .high
                      | .low => .low }
    let out := s.conv[i].evaluate x s.bus.stamp
    let first : State :=
      { s with conv := s.conv.set i out.1, bus := out.2.foldl (fun b v => b.post v.1 (byteOf i.val) v.2) s.bus }
    let conv (e : ConvEntry) (lost : Bool) : Vector ConvEntry 32 := Vector.ofFn fun j =>
      if j = i then e else if lost = true ∧ below j then freshened s.conv[j] else s.conv[j]
    (out.1.status = .valid →
      State.evaluateChain 32 s i x =
        ((List.finRange 32).filter fun j => source j == some i).foldl
          (fun acc j =>
            let next := State.evaluateChain 32 acc.1 j out.1.value.toInt
            (next.1, acc.2 ++ next.2))
          (first, [i])) ∧
    (out.1.status ≠ .valid →
      State.evaluateChain 32 s i x = ({ first with conv := conv out.1 true }, [])) ∧
    (s.conv[i].status = st → s.takeStatus i st = s) ∧
    (s.conv[i].status ≠ st → st = .stale →
      s.takeStatus i st =
        { s with conv := conv { s.conv[i] with status := .stale } (decide (s.conv[i].status = .valid)) }) ∧
    (s.conv[i].status ≠ st → st = .noSource →
      s.takeStatus i st =
        { s with conv := conv (freshened s.conv[i]) (decide (s.conv[i].status = .valid)) })) ∧
  (∀ (s : State) (i : Fin 32) (x : Int) (done : List (Fin 32)) (n : PortNo),
    let c := s.conv[i].cfg
    let p := s.ports[n]
    let lies : Prop :=
      (c.sourceKind = .slot ∧ ∃ k : Fin 16, c.sourceIndex.toNat = k.val ∧ s.scan.slots[k].input.val = n.val) ∨
      (c.sourceKind ≠ .none ∧ c.sourceKind ≠ .entry ∧ c.sourceKind ≠ .slot ∧ c.sourceIndex.toNat = n.val)
    let supplies : Prop :=
      (c.sourceKind = .deviceField → p.band = some .openLine ∧ c.sourceField.toNat < p.formats.length) ∧
      (c.sourceKind = .encoder → s.lines[n].mode = .quadrature) ∧
      (c.sourceKind = .pulseHigh ∨ c.sourceKind = .pulsePeriod ∨ c.sourceKind = .pulseDuty →
        s.lines[n].mode = .pulse) ∧
      (c.sourceKind = .motorSpeed → ∃ k : Fin 16, p.profile = some k ∧ s.profiles[k].use = .motor)
    let updated := State.updateEntry (s, done) i x
    let evaluated : Prop :=
      updated = ((State.evaluateChain 32 s i x).1, done ++ (State.evaluateChain 32 s i x).2)
    (lies →
      (p.state = .fault → updated = (s.takeStatus i .stale, done)) ∧
      (s.service = some n → updated = (s.takeStatus i .stale, done)) ∧
      (p.state = .empty ∨ p.state = .detecting ∨ p.state = .probing ∨ p.state = .unknown → s.service ≠ some n →
        updated = (s.takeStatus i .noSource, done)) ∧
      (p.state = .bound → s.service ≠ some n → ¬ supplies → updated = (s.takeStatus i .noSource, done)) ∧
      (p.state = .bound → s.service ≠ some n → supplies → evaluated)) ∧
    (c.sourceKind = .none ∨ c.sourceKind = .entry → evaluated) ∧
    (∀ k : Fin 16, c.sourceKind = .slot → c.sourceIndex.toNat = k.val → 6 ≤ s.scan.slots[k].input.val → evaluated)) ∧
  (∀ (s : State) (kind : SourceKind) (k : Nat) (x : Int),
    let r := ((List.finRange 32).filter fun i =>
        s.conv[i].cfg.sourceKind == kind && s.conv[i].cfg.sourceIndex.toNat == k).foldl
      (fun acc i => State.updateEntry acc i x) (s, [])
    s.sourceUpdate (readsIndex kind k x) = r.2.foldl State.reportChecks r.1)

/-- R108, R116, R146, R150–R158: EVENT_DISPATCH. The head record leaves the queue. Without a match nothing else happens.
Every entry that matches fires, in ascending order, unless an earlier one has disabled it: it counts its hit, a ONCE entry
disabling itself, and its action is carried out. A level record fires its directed entry, if that is enabled and has LEVEL
sense and the kind. NOTIFY queues its notice; ENABLE and DISABLE set an entry, an ENABLE at LEVEL whose condition holds
offering the entry's record. A MOTOR action carries out each of the nine operations, with the arguments of R108, their
clamps and notify 0, or fails where the channel refuses it; a driving one is blocked while SILENT. The sound actions,
MARK_SET, REPORT_NOW and the scan actions do what their operations do. What an action causes is one deeper, and cut at
depth 5; a refused action is a failure. The samples of a note are counted from 0 (log 8), channel fields that no rule names
keep their values (log 23), so does the position of a stopped clip (log 25), and a negative FOLLOW entry is a failure (log
31). -/
def Obligations.DispatchFiresEntries : Prop :=
  ∀ (s : State) (e : Event) (rest : List Event) (i j : Fin 24), s.bus.events = e :: rest → s.bus.dispatch = none →
    let noIndex : Bool := e.kind ∈ [.budgetLimit, .budgetNormal, .brownout, .queueLow, .toneIdle, .clipEnd, .scanDone,
      .linkSilent, .none]
    let hits (r : Reaction) : Bool := decide (r.enabled = true ∧ r.triggerKind = e.kind ∧ e.kind ≠ .none ∧
      (noIndex = true ∨ r.triggerIndex = 255 ∨ r.triggerIndex = e.index) ∧
      (r.triggerDetail = 255 ∨ r.triggerDetail = e.detail))
    let r := s.reactions[i]
    let fired : Vector Reaction 24 :=
      s.reactions.set i { r with hitCount := satInc r.hitCount, enabled := r.always }
    let taken : Bus := { s.bus with events := rest, overflow := if rest = [] then false else s.bus.overflow }
    let only : Bool := decide (e.directed = none ∧ hits r = true ∧ ∀ j : Fin 24, j ≠ i → hits s.reactions[j] = false)
    let directed : Bool :=
      decide (e.directed = some i ∧ r.enabled = true ∧ r.level = true ∧ r.triggerKind = e.kind)
    let fires (t : State) : Prop := exec .eventDispatch s = .next t.transmitNext
    let causes (kind : EventKind) (index detail : Byte) (aim : Option (Fin 24)) : Event :=
      { kind := kind, index := index, detail := detail, depth := e.depth + 1, stamp := s.bus.stamp, directed := aim }
    let failed : State := { s with bus := taken, reactions := fired, failures := satInc s.failures }
    (e.directed = none → (∀ j : Fin 24, hits s.reactions[j] = false) →
      exec .eventDispatch s = .next (State.transmitNext { s with bus := taken })) ∧
    (e.directed = some i → (r.enabled = false ∨ r.level = false ∨ r.triggerKind ≠ e.kind) →
      exec .eventDispatch s = .next (State.transmitNext { s with bus := taken })) ∧
    (only = true ∨ directed = true →
      (r.actionKind = .none →
        exec .eventDispatch s = .next (State.transmitNext { s with bus := taken, reactions := fired })) ∧
      (r.actionKind = .notify →
        exec .eventDispatch s = .next (State.transmitNext
          { s with bus := taken.notify (.reaction i e), reactions := fired })) ∧
      (r.actionKind = .motor → ∀ n : PortNo, r.actionTarget = portByte n →
        (2 ≤ r.arg2.toNat → r.arg2.toNat ≤ 7 → s.link.state = .silent →
          exec .eventDispatch s = .next (State.transmitNext
            { s with bus := taken, reactions := fired, blocked := satInc s.blocked })) ∧
        (9 ≤ r.arg2.toNat ∨ (r.arg2.toNat ≤ 1 ∧ s.motorProfile n = none) →
          exec .eventDispatch s = .next (State.transmitNext
            { s with bus := taken, reactions := fired, failures := satInc s.failures })) ∧
        (r.arg2 = 1 → (s.motorProfile n).isSome = true → s.motors[n].mode.driving = true →
          s.motors[n].notify = false → e.depth ≤ 3 → rest.length < 16 →
          exec .eventDispatch s = .next (State.transmitNext
            { s with
              motors := s.motors.set n
                { s.motors[n].ended .stopped with mode := .brake, dutyRequest := 0, dutyGrant := 0 }
              reactions := fired
              bus := { taken with events := rest ++
                [{ kind := .runEnd, index := portByte n, detail := 2, depth := e.depth + 1, stamp := s.bus.stamp,
                   directed := none }] } }))) ∧
      (r.actionKind = .motor → ∀ n : PortNo, r.actionTarget = portByte n →
        let op : Nat := r.arg2.toNat
        let driven : Prop := 2 ≤ op ∧ op ≤ 7 ∧ s.link.state = .active
        let low : Nat := (r.arg1.toInt % 65536).toNat
        let code : Int := r.arg1.toInt / 65536
        let m := s.motors[n]
        let ends (o : Outcome) : Bus :=
          { State.endingBus
              { s with bus := { taken with dispatch := some { record := e, entry := i, cut := false } } } n o with
            dispatch := none }
        let acts (o : Outcome) (m' : Motor) : Prop :=
          fires { s with motors := s.motors.set n m', reactions := fired, bus := ends o }
        let stopped : Motor := { m.ended .stopped with dutyRequest := 0, dutyGrant := 0 }
        let begun : Motor :=
          { m.ended .superseded with
              notify := false, integral := 0, stallCount := 0, inposCount := 0, stallEpisode := false }
        let v : Int := max (-2000) (min 2000 r.arg0.toInt)
        (driven → (op = 4 ∨ op = 5) → (code < 0 ∨ 2 < code) → fires failed) ∧
        (driven → op = 7 → (r.arg0.toInt < 0 ∨ 31 < r.arg0.toInt) → fires failed) ∧
        (driven ∨ op ≤ 1 ∨ op = 8 → s.motorProfile n = none → fires failed) ∧
        (driven → s.budget.record.state = .brownout ∨ s.service = some n → fires failed) ∧
        (∀ p : Profile, s.motorProfile n = some p →
          (op = 0 → acts .stopped { stopped with mode := .coast }) ∧
          (op = 1 → acts .stopped { stopped with mode := .brake }) ∧
          (op = 8 → p.positionSource ≠ 255 ∨ m.mode.driving = true → fires failed) ∧
          (op = 8 → p.positionSource = 255 → m.mode.driving = false →
            fires { s with
              motors := s.motors.set n { m with position := r.arg0, prevPosition := r.arg0 }
              lines := s.lines.set n { s.lines[n] with count := r.arg0 }
              reactions := fired
              bus := taken }) ∧
          (driven → s.budget.record.state ≠ .brownout → s.service ≠ some n →
            (op = 2 →
              let d : Int := max (-1000) (min 1000 r.arg0.toInt)
              acts .superseded { begun with mode := .duty, operation := .duty, targetSpeed := 0, dutyRequest := d,
                                            dutyGrant := d.sign * min |d| m.allowance }) ∧
            (op = 3 → acts .superseded { begun with mode := .speed, operation := .speed, targetSpeed := v }) ∧
            (∀ x : EndAction, code = x.code.toNat →
              (op = 4 →
                acts .superseded { begun with mode := .runTo, operation := .runTo, targetPosition := r.arg0,
                                              vmax := max 20 (min 2000 low), endAction := x }) ∧
              (op = 5 →
                acts .superseded { begun with mode := .runFor, operation := .runFor, targetSpeed := v, endAction := x,
                                              runForTimer := some (max 1 low),
                                              runEnd := s.bus.stamp + BitVec.ofNat 16 (max 1 low) })) ∧
            (op = 6 →
              acts .superseded { begun with mode := .hold, operation := .hold, targetPosition := m.position,
                                            vmax := 200 }) ∧
            (∀ k : Fin 32, op = 7 → r.arg0.toInt = k.val →
              acts .superseded { begun with mode := .follow, operation := .follow, followEntry := k,
                                            followGain := BitVec.ofInt 16 (max (-32768) (min 32767 r.arg1.toInt)) })))) ∧
      (r.actionKind = .disable → r.actionTarget = byteOf j.val →
        fires { s with bus := taken, reactions := fired.set j { fired[j] with enabled := false } }) ∧
      (r.actionKind = .enable → r.actionTarget = byteOf j.val →
        (fired[j].enabled = true → fires { s with bus := taken, reactions := fired }) ∧
        (fired[j].enabled = false → (fired[j].level = false ∨ s.holding s.reactions[j] = none) →
          fires { s with bus := taken, reactions := fired.set j { fired[j] with enabled := true } }) ∧
        (∀ index detail : Byte, fired[j].enabled = false → fired[j].level = true →
          s.holding s.reactions[j] = some (index, detail) → e.depth ≤ 3 → rest.length < 16 →
          fires { s with
            bus := { taken with events := rest ++ [causes fired[j].triggerKind index detail (some j)] }
            reactions := fired.set j { fired[j] with enabled := true } })) ∧
      (r.actionKind = .soundTone →
        let code := r.arg2.toNat % 256
        let pitch : Nat := r.arg0.toInt.toNat
        let note (w : Waveform) : Note :=
          { pitch := if pitch = 0 then 0 else max 20 (min 8000 pitch),
            duration := (max 1 (min 4000 r.arg1.toInt)).toNat, waveform := w, level := min 100 (r.arg2.toNat / 256) }
        (3 ≤ code ∨ (s.sound.tonePlaying = true ∧ 32 ≤ s.sound.queue.length) → fires failed) ∧
        (∀ w : Waveform, code = w.code.toNat →
          (s.sound.tonePlaying = true → s.sound.queue.length < 32 →
            fires { s with
              bus := taken, reactions := fired, sound := { s.sound with queue := s.sound.queue ++ [note w] } }) ∧
          (s.sound.tonePlaying = false →
            fires { s with
              bus := taken
              reactions := fired
              sound := { s.sound with
                tonePlaying := true, note := note w, noteSamples := 0, phase := 0,
                step := BitVec.ofNat 16 ((note w).pitch * 65536 / 16000), noteTimer := some (note w).duration } }))) ∧
      (r.actionKind = .soundClip → ∀ k : Fin 16, r.actionTarget = byteOf k.val →
        (s.sound.clips[k].valid = false → fires failed) ∧
        (s.sound.clips[k].valid = true → e.depth ≤ 3 → rest.length < 16 →
          fires { s with
            reactions := fired
            sound := { s.sound with
              clipPlaying := true, clipIndex := k, clipStart := s.sound.clips[k].start.toNat,
              clipLength := s.sound.clips[k].length.toNat, clipRate := s.sound.clips[k].rate.toNat, clipPos := 0,
              clipInc := s.sound.clips[k].rate.toNat * 65536 / 16000,
              playsLeft := (max 0 (min 255 r.arg0.toInt)).toNat, clipLevel := (max 0 (min 100 r.arg1.toInt)).toNat }
            bus := { taken with events :=
              rest ++ if s.sound.clipPlaying then [causes .clipEnd 0 2 none] else [] } })) ∧
      (r.actionKind = .soundStop →
        let toneOn : Bool := decide (s.sound.tonePlaying = true ∨ s.sound.queue ≠ [])
        let tone : Sound :=
          if toneOn then { s.sound with tonePlaying := false, noteTimer := none, queue := [] } else s.sound
        let idled : List Event := if toneOn then [causes .toneIdle 0 0 none] else []
        let ended : List Event := if s.sound.clipPlaying then [causes .clipEnd 0 3 none] else []
        let stops (sound : Sound) (events : List Event) : Prop :=
          fires { s with sound := sound, reactions := fired, bus := { taken with events := rest ++ events } }
        (r.arg0 ≠ 0 ∧ r.arg0 ≠ 1 ∧ r.arg0 ≠ 2 → fires failed) ∧
        (e.depth ≤ 3 → rest.length < 15 →
          (r.arg0 = 0 → stops tone idled) ∧
          (r.arg0 = 1 → stops { s.sound with clipPlaying := false } ended) ∧
          (r.arg0 = 2 → stops { tone with clipPlaying := false } (idled ++ ended)))) ∧
      (r.actionKind = .markSet → ∀ n : PortNo, r.actionTarget = portByte n →
        let on : Bool := decide (r.arg0 = 1)
        let set : Vector Mark 6 := s.marks.set n { s.marks[n] with isOn := on }
        (r.arg0 ≠ 0 ∧ r.arg0 ≠ 1 → fires failed) ∧
        (r.arg0 = 0 ∨ r.arg0 = 1 →
          (s.marks[n].isOn = on → fires { s with bus := taken, reactions := fired }) ∧
          (s.marks[n].isOn ≠ on → e.depth ≤ 3 → rest.length < 16 →
            fires { s with
              marks := set
              reactions := fired
              bus := { taken with events :=
                rest ++ [causes (if on then .markOn else .markOff) (portByte n) 0 none] } }) ∧
          (s.marks[n].isOn ≠ on → 4 ≤ e.depth →
            fires { s with
              marks := set, reactions := fired, bus := taken.notify (.depthLimit e.kind e.index e.depth i) }))) ∧
      (r.actionKind = .reportNow → ∀ q : Fin 12, r.actionTarget = byteOf q.val →
        fires { s.reportDue q with bus := taken, reactions := fired }) ∧
      (∀ (c : Instr) (tag : Byte) (scan : Scan),
        (r.actionKind = .scanStart ∧ c = .scanStart tag) ∨ (r.actionKind = .scanSingle ∧ c = .scanSingle tag) ∨
          (r.actionKind = .scanStop ∧ c = .scanStop tag) →
        exec c s = .next (State.replied { s with scan := scan } 0x30 tag .ok []) →
        fires { s with scan := scan, bus := taken, reactions := fired })) ∧
    (e.directed = none → (∀ k : Fin 24, hits s.reactions[k] = true → s.reactions[k].actionKind = .notify) →
      fires { s with
        reactions := Vector.ofFn fun k =>
          if hits s.reactions[k] then
            { s.reactions[k] with hitCount := satInc s.reactions[k].hitCount, enabled := s.reactions[k].always }
          else s.reactions[k]
        bus := ((List.finRange 24).filter fun k => hits s.reactions[k]).foldl
          (fun b k => b.notify (.reaction k e)) taken }) ∧
    (e.directed = none → i < j → hits r = true → hits s.reactions[j] = true →
      (∀ k : Fin 24, k ≠ i → k ≠ j → hits s.reactions[k] = false) → r.actionKind = .disable →
      r.actionTarget = byteOf j.val →
      fires { s with bus := taken, reactions := fired.set j { s.reactions[j] with enabled := false } })

/-- R55, R139, R161–R164: what makes a report: REPORT NOW, the period's expiry, a change found at an evaluation that ended
VALID, at once or, with the minimum interval running, at its end. The record takes the place of the entry's waiting one, or
is appended with the skipped count, or is counted as skipped at a full queue. Each item is read from its owner: status byte
and value by its kind. The entries check themselves in ascending order (log 12), which is the order of their records in
the queue. -/
def Obligations.DueEntriesOfferReports : Prop :=
  (∀ (s : State) (tag entry : Byte) (i : Fin 12) (ms : Nat) (e : Fin 32),
    let r := s.reports[i]
    let named (e : Fin 32) : Prop :=
      ∃ k : Fin 8, k.val < r.itemCount ∧ r.items[k].kind = .conv ∧ r.items[k].index.toNat = e.val
    let changed : Prop :=
      ∃ (k : Fin 8) (e : Fin 32), k.val < r.itemCount ∧ r.items[k].kind = .conv ∧ r.items[k].index.toNat = e.val ∧
        r.lastSent[k].all (fun v => decide ((r.changeDelta.toNat : Int) ≤ |s.conv[e].value.toInt - v|)) = true
    let ranged : Prop := ∀ k : Fin 8, k.val < r.itemCount → r.items[k].kind = .conv → r.items[k].index.toNat < 32
    let onChange : Prop := r.enabled = true ∧ r.periodMs = 0
    let items : List ReportItem := (r.items.toList.take r.itemCount).map fun it =>
      { kind := it.kind, status := (s.readItem it).1, value := (s.readItem it).2 }
    let sent (r : Report) : Report :=
      { r with pending := false, minTimer := if r.minInterval = 0 then none else some r.minInterval.toNat,
               lastSent := Vector.ofFn fun k =>
                 if k.val < r.itemCount ∧ r.items[k].kind = .conv then some (s.readItem r.items[k]).2.toInt
                 else r.lastSent[k] }
    let offered (r : Report) : State :=
      if s.reportQueue.any (ReportRecord.isReportOf i) then
        { s with
          reports := s.reports.set i (sent r)
          reportQueue := s.reportQueue.map fun q =>
            match q with
            | .report e _ skipped _ => if e = i then .report i s.bus.stamp skipped items else q
            | .pass .. => q }
      else if s.reportQueue.length < 8 then
        { s with
          reports := s.reports.set i { sent r with skipped := 0 }
          reportQueue := s.reportQueue ++ [.report i s.bus.stamp r.skipped items] }
      else { s with reports := s.reports.set i { sent r with skipped := satInc r.skipped } }
    (s.Opens → 12 ≤ entry.toNat → exec (.reportNow tag entry) s = .next (s.replied 0x50 tag .badIndex [])) ∧
    (s.Opens → exec (.reportNow tag (byteOf i.val)) s = .next ((offered r).replied 0x50 tag .ok [])) ∧
    (r.periodTimer = some ms →
      exec (.reportPeriodExpiry i) s =
        .next (offered { r with periodTimer := some r.periodMs.toNat }).transmitNext) ∧
    (r.minTimer = some ms → r.pending = true →
      exec (.minIntervalExpiry i) s = .next (offered r).transmitNext) ∧
    (r.minTimer = some ms → r.pending = false →
      exec (.minIntervalExpiry i) s = .next { s with reports := s.reports.set i { r with minTimer := none } }) ∧
    s.reportDue i = offered r ∧
    (ranged →
      (¬ (onChange ∧ named e ∧ changed) → s.reportCheck e i = s) ∧
      (onChange → named e → changed → r.minTimer = none → s.reportCheck e i = offered r) ∧
      (onChange → named e → changed → r.minTimer = some ms →
        s.reportCheck e i = { s with reports := s.reports.set i { r with pending := true } })) ∧
    s.reportChecks e = (List.finRange 12).foldl (fun u k => u.reportCheck e k) s) ∧
  (∀ (s : State) (n : PortNo) (e : Fin 32) (slot : Fin 16) (any : Byte),
    let l := s.lines[n]
    let bound : Byte := flagCode (s.motorProfile n).isSome
    let level1 : Bool := match l.mode with
      | .none | .device => false
      | .digital | .quadrature | .pulse => l.level1
    let level2 : Bool := match l.mode with
      | .none | .device => false
      | .digital | .quadrature => l.level2
      | .pulse => l.pin2
    let reads (kind : ItemKind) (index : Nat) (status : Byte) (value : Word) : Prop :=
      s.readItem { kind := kind, index := byteOf index } = (status, value)
    reads .conv e.val s.conv[e].status.code s.conv[e].value ∧
    reads .position n.val bound s.motors[n].position ∧
    reads .speed n.val bound (BitVec.ofInt 32 s.motors[n].speed) ∧
    reads .duty n.val bound (BitVec.ofInt 32 s.motors[n].dutyGrant) ∧
    reads .mode n.val s.motors[n].mode.code (BitVec.ofNat 32 s.motors[n].outcome.code.toNat) ∧
    reads .port n.val s.ports[n].state.code (BitVec.ofNat 32 s.ports[n].cls.toNat) ∧
    reads .budget any.toNat s.budget.record.state.code (BitVec.ofNat 32 s.budget.record.ceiling) ∧
    reads .sound any.toNat (flagCode s.sound.tonePlaying + 2 * flagCode s.sound.clipPlaying)
      (BitVec.ofNat 32 (min s.sound.master s.sound.allowance)) ∧
    reads .lines n.val (flagCode level1 + 2 * flagCode level2)
      (if l.mode = .quadrature then BitVec.ofNat 32 l.errors.toNat else 0) ∧
    reads .raw slot.val s.scan.images[slot].slotState.code (BitVec.ofNat 32 s.scan.images[slot].raw.toNat))

/-! ## Invariants -/

/-- Every invariant below holds right after reset, and so does the bound on the load. -/
def Obligations.ResetMeetsInvariants : Prop :=
  State.reset.Capacities ∧ State.reset.PlacesOrdered ∧ State.reset.NothingWaits ∧ State.reset.IntakeBlocked ∧
  Memory.wf State.reset.sound.store = true ∧ State.reset.GrantsBounded ∧ State.reset.AllowancesWithin ∧
  State.reset.LoadWithin ∧ State.reset.PortsPhased ∧ State.reset.BoundTimed ∧ State.reset.DrivesSafely ∧
  State.reset.ChainsDown ∧ State.reset.ValidOverBound

/-- R4, R5, R19, R134, R150, R164, R165, section 1.3: every step keeps the queues within their capacities, the answer
places in taking order, an IDLE transmitter with nothing to send, a waiting frame only where none can be taken, and the
sample store in its canonical form. -/
def Obligations.QueuesStayOrderly : Prop :=
  ∀ s t : State, s.Capacities → s.PlacesOrdered → s.NothingWaits → s.IntakeBlocked →
    Memory.wf s.sound.store = true → step s = .next t →
    t.Capacities ∧ t.PlacesOrdered ∧ t.NothingWaits ∧ t.IntakeBlocked ∧ Memory.wf t.sound.store = true

/-- R100, R101, R128, R129: every step keeps each granted duty within its request and its allowance, with the request's
sign, and the load the allowances admit within the ceiling of the last window; so the load itself is within it. -/
def Obligations.LoadStaysWithinCeiling : Prop :=
  ∀ s t : State, s.GrantsBounded → s.AllowancesWithin → step s = .next t →
    t.GrantsBounded ∧ t.AllowancesWithin ∧ t.LoadWithin

/-- R40, R83, R87, R105, R106, R107: every step keeps a driving mode to channels that may drive: motor-bound, out of
service mode, the link ACTIVE and the budget out of BROWNOUT; with a bound channel's regulation timer running and a port's
query and re-probe work in their states, which this needs. -/
def Obligations.DrivingStaysSafe : Prop :=
  ∀ s t : State, s.PortsPhased → s.BoundTimed → s.DrivesSafely → step s = .next t →
    t.PortsPhased ∧ t.BoundTimed ∧ t.DrivesSafely

/-- R62, R77: every step keeps chains running to lower entries, and no VALID entry over a port that is not BOUND, directly
or through a chain. -/
def Obligations.ValidEntriesStayOverBoundPorts : Prop :=
  ∀ s t : State, s.PortsPhased → s.ChainsDown → s.ValidOverBound → step s = .next t →
    t.ChainsDown ∧ t.ValidOverBound
end

