-- ==== Sys2Proof/Laws/Bus.lean ====
section
/-! SUPPORT. What posting an event and queuing a notice can do to the bus. -/

namespace Sys2Proof.Machine

/-- The bus with other event and notice contents, and nothing else: what every posting can do. -/
structure Bus.Queued (b c : Bus) : Prop where
  stamp   : c.stamp = b.stamp
  record  : c.dispatch.map (fun d => (d.record, d.entry)) = b.dispatch.map (fun d => (d.record, d.entry))
  events  : c.events = b.events ∨ ∃ e, c.events = b.events ++ [e] ∧ b.events.length < Config.eventQueue
  notices : c.notices = b.notices ∨ ∃ n, c.notices = b.notices ++ [n] ∧ b.notices.length < Config.noticeQueue

/-- Queuing a notice touches the notice queue, the dropped flag and the dropped count. -/
theorem Bus.notify_frame (b : Bus) (body : NoticeBody) :
    b.notify body = { b with notices := (b.notify body).notices,
                             dropped := (b.notify body).dropped,
                             noticesDropped := (b.notify body).noticesDropped } := by
  unfold Bus.notify; split <;> rfl

@[simp] theorem Bus.notify_stamp (b : Bus) (body : NoticeBody) : (b.notify body).stamp = b.stamp := by
  rw [Bus.notify_frame]
@[simp] theorem Bus.notify_events (b : Bus) (body : NoticeBody) : (b.notify body).events = b.events := by
  rw [Bus.notify_frame]
@[simp] theorem Bus.notify_overflow (b : Bus) (body : NoticeBody) : (b.notify body).overflow = b.overflow := by
  rw [Bus.notify_frame]
@[simp] theorem Bus.notify_dispatch (b : Bus) (body : NoticeBody) : (b.notify body).dispatch = b.dispatch := by
  rw [Bus.notify_frame]

/-- A notice is appended or dropped. -/
theorem Bus.notify_notices (b : Bus) (body : NoticeBody) :
    (b.notify body).notices = b.notices ∨
      ∃ n, (b.notify body).notices = b.notices ++ [n] ∧ b.notices.length < Config.noticeQueue := by
  unfold Bus.notify
  split
  · rename_i h; exact Or.inr ⟨_, rfl, h⟩
  · exact Or.inl rfl

/-- Everything queuing a notice can do. -/
theorem Bus.notify_queued (b : Bus) (body : NoticeBody) : b.Queued (b.notify body) :=
  ⟨by simp, by simp, Or.inl (by simp), b.notify_notices body⟩

/-- Everything offering an event record can do. -/
theorem Bus.offer_queued (b : Bus) (e : Event) : b.Queued (b.offer e) := by
  unfold Bus.offer
  split
  · rename_i h; exact ⟨rfl, rfl, Or.inr ⟨e, rfl, h⟩, Or.inl rfl⟩
  · split
    · exact ⟨rfl, rfl, Or.inl rfl, Or.inl rfl⟩
    · exact ⟨by simp, by simp, Or.inl (by simp), Bus.notify_notices { b with overflow := true } _⟩

/-- Everything posting an event can do. -/
theorem Bus.postRecord_queued (b : Bus) (kind : EventKind) (index detail : Byte) (directed : Option (Fin 24)) :
    b.Queued (b.postRecord kind index detail directed) := by
  unfold Bus.postRecord
  split
  · exact b.offer_queued _
  · split
    · exact b.offer_queued _
    · split
      · exact ⟨rfl, rfl, Or.inl rfl, Or.inl rfl⟩
      · rename_i d hd _ _
        exact ⟨by simp, by simp [hd], Or.inl (by simp),
          Bus.notify_notices { b with dispatch := some { d with cut := true } } _⟩

/-- A posting outside a dispatch, to a queue with room, appends the event at depth 0 with the time stamp (R150). -/
theorem Bus.post_idle (b : Bus) (kind : EventKind) (index detail : Byte) (hd : b.dispatch = none)
    (hq : b.events.length < Config.eventQueue) :
    b.post kind index detail =
      { b with events := b.events ++ [{ kind := kind, index := index, detail := detail, depth := 0, stamp := b.stamp,
                                        directed := none }] } := by
  simp [Bus.post, Bus.postRecord, hd, Bus.offer, hq]

/-- A notice to a queue with room is appended with the dropped flag, which clears (R165). -/
theorem Bus.notify_room (b : Bus) (body : NoticeBody) (h : b.notices.length < Config.noticeQueue) :
    b.notify body =
      { b with notices := b.notices ++ [{ body := body, dropped := b.dropped, stamp := b.stamp }],
               dropped := false } := by
  simp [Bus.notify, h]

/-- An invariant of the bus that one queuing keeps holds after posting a list of events. -/
theorem Bus.postAll_keeps (P : Bus → Prop) (h : ∀ b c : Bus, b.Queued c → P b → P c) (index : Byte)
    (l : List (EventKind × Byte)) (b : Bus) (hb : P b) : P (b.postAll index l) := by
  unfold Bus.postAll
  induction l generalizing b with
  | nil => exact hb
  | cons e l ih => exact ih _ (h _ _ (Bus.postRecord_queued _ _ _ _ _) hb)

/-- Posting a list of events leaves the clock. -/
@[simp] theorem Bus.postAll_stamp (b : Bus) (index : Byte) (l : List (EventKind × Byte)) :
    (b.postAll index l).stamp = b.stamp :=
  Bus.postAll_keeps (fun c => c.stamp = b.stamp) (fun _ _ h e => h.stamp.trans e) index l b rfl

@[simp] theorem Bus.post_stamp (b : Bus) (kind : EventKind) (index detail : Byte) :
    (b.post kind index detail).stamp = b.stamp := (b.postRecord_queued kind index detail none).stamp

/-- The two queues of the bus are within their capacities (R150, R165). -/
def Bus.Fits (b : Bus) : Prop :=
  b.events.length ≤ Config.eventQueue ∧ b.notices.length ≤ Config.noticeQueue

/-- One queuing keeps the capacities. -/
theorem Bus.Queued.fits {b c : Bus} (h : b.Queued c) (hb : b.Fits) : c.Fits := by
  constructor
  · rcases h.events with e | ⟨_, e, hl⟩
    · rw [e]; exact hb.1
    · rw [e, List.length_append]; simp; omega
  · rcases h.notices with e | ⟨_, e, hl⟩
    · rw [e]; exact hb.2
    · rw [e, List.length_append]; simp; omega

end Sys2Proof.Machine
end

