-- ==== Sys2Proof/Laws/Keeps.lean ====
section
/-! SUPPORT. What each shared operation can touch, said once: an observation F of the state that ignores the fields
an operation can write has the same value before and after it. With F a field, this is the operation's frame; with
F an invariant, it is preserved. -/

set_option linter.unusedSimpArgs false
set_option linter.unusedTactic false
set_option linter.unnecessarySeqFocus false
set_option linter.unusedVariables false

namespace Sys2Proof.Machine

/-- F does not look at `link`. -/
abbrev IgnoresLink {β : Type} (F : State → β) : Prop := ∀ (s : State) (x : Link), F { s with link := x } = F s
/-- F does not look at `settings`. -/
abbrev IgnoresSettings {β : Type} (F : State → β) : Prop := ∀ (s : State) (x : Settings), F { s with settings := x } = F s
/-- F does not look at `bus`. -/
abbrev IgnoresBus {β : Type} (F : State → β) : Prop := ∀ (s : State) (x : Bus), F { s with bus := x } = F s
/-- F does not look at `ports`. -/
abbrev IgnoresPorts {β : Type} (F : State → β) : Prop := ∀ (s : State) (x : Vector Port 6), F { s with ports := x } = F s
/-- F does not look at `profiles`. -/
abbrev IgnoresProfiles {β : Type} (F : State → β) : Prop := ∀ (s : State) (x : Vector Profile 16), F { s with profiles := x } = F s
/-- F does not look at `service`. -/
abbrev IgnoresService {β : Type} (F : State → β) : Prop := ∀ (s : State) (x : Option PortNo), F { s with service := x } = F s
/-- F does not look at `scan`. -/
abbrev IgnoresScan {β : Type} (F : State → β) : Prop := ∀ (s : State) (x : Scan), F { s with scan := x } = F s
/-- F does not look at `lines`. -/
abbrev IgnoresLines {β : Type} (F : State → β) : Prop := ∀ (s : State) (x : Vector Lines 6), F { s with lines := x } = F s
/-- F does not look at `conv`. -/
abbrev IgnoresConv {β : Type} (F : State → β) : Prop := ∀ (s : State) (x : Vector ConvEntry 32), F { s with conv := x } = F s
/-- F does not look at `encStamp`. -/
abbrev IgnoresEncStamp {β : Type} (F : State → β) : Prop := ∀ (s : State) (x : Vector (Option Half) 6), F { s with encStamp := x } = F s
/-- F does not look at `motors`. -/
abbrev IgnoresMotors {β : Type} (F : State → β) : Prop := ∀ (s : State) (x : Vector Motor 6), F { s with motors := x } = F s
/-- F does not look at `marks`. -/
abbrev IgnoresMarks {β : Type} (F : State → β) : Prop := ∀ (s : State) (x : Vector Mark 6), F { s with marks := x } = F s
/-- F does not look at `budget`. -/
abbrev IgnoresBudget {β : Type} (F : State → β) : Prop := ∀ (s : State) (x : Budget), F { s with budget := x } = F s
/-- F does not look at `sound`. -/
abbrev IgnoresSound {β : Type} (F : State → β) : Prop := ∀ (s : State) (x : Sound), F { s with sound := x } = F s
/-- F does not look at `reactions`. -/
abbrev IgnoresReactions {β : Type} (F : State → β) : Prop := ∀ (s : State) (x : Vector Reaction 24), F { s with reactions := x } = F s
/-- F does not look at `failures`. -/
abbrev IgnoresFailures {β : Type} (F : State → β) : Prop := ∀ (s : State) (x : Half), F { s with failures := x } = F s
/-- F does not look at `blocked`. -/
abbrev IgnoresBlocked {β : Type} (F : State → β) : Prop := ∀ (s : State) (x : Half), F { s with blocked := x } = F s
/-- F does not look at `reports`. -/
abbrev IgnoresReports {β : Type} (F : State → β) : Prop := ∀ (s : State) (x : Vector Report 12), F { s with reports := x } = F s
/-- F does not look at `reportQueue`. -/
abbrev IgnoresReportQueue {β : Type} (F : State → β) : Prop := ∀ (s : State) (x : List ReportRecord), F { s with reportQueue := x } = F s
/-- F does not look at `passSkipped`. -/
abbrev IgnoresPassSkipped {β : Type} (F : State → β) : Prop := ∀ (s : State) (x : Vector Half 6), F { s with passSkipped := x } = F s
/-- F does not look at `pending`. -/
abbrev IgnoresPending {β : Type} (F : State → β) : Prop := ∀ (s : State) (x : List Instr), F { s with pending := x } = F s

variable {β : Type} (F : State → β)

theorem foldl_keeps {γ : Type} (f : State → γ → State) (h : ∀ s a, F (f s a) = F s) (l : List γ) (s : State) :
    F (l.foldl f s) = F s := by
  induction l generalizing s with
  | nil => rfl
  | cons a l ih => rw [List.foldl_cons, ih, h]

theorem State.setPort_keeps (hPorts : IgnoresPorts F) (s : State) (n : PortNo) (p : Port) :
    F (s.setPort n p) = F s := by
  exact hPorts s _

theorem State.setLines_keeps (hLines : IgnoresLines F) (s : State) (n : PortNo) (l : Lines) :
    F (s.setLines n l) = F s := by
  exact hLines s _

theorem State.setConv_keeps (hConv : IgnoresConv F) (s : State) (i : Fin 32) (e : ConvEntry) :
    F (s.setConv i e) = F s := by
  exact hConv s _

theorem State.setMotor_keeps (hMotors : IgnoresMotors F) (s : State) (n : PortNo) (m : Motor) :
    F (s.setMotor n m) = F s := by
  exact hMotors s _

theorem State.setMark_keeps (hMarks : IgnoresMarks F) (s : State) (n : PortNo) (m : Mark) :
    F (s.setMark n m) = F s := by
  exact hMarks s _

theorem State.setReaction_keeps (hReactions : IgnoresReactions F) (s : State) (i : Fin 24) (r : Reaction) :
    F (s.setReaction i r) = F s := by
  exact hReactions s _

theorem State.setReport_keeps (hReports : IgnoresReports F) (s : State) (i : Fin 12) (r : Report) :
    F (s.setReport i r) = F s := by
  exact hReports s _

theorem State.post_keeps (hBus : IgnoresBus F) (s : State) (kind : EventKind) (index detail : Byte) :
    F (s.post kind index detail) = F s := by
  exact hBus s _

theorem State.notify_keeps (hBus : IgnoresBus F) (s : State) (body : NoticeBody) :
    F (s.notify body) = F s := by
  exact hBus s _

theorem State.finish_keeps (hLink : IgnoresLink F) (s : State) (order : Nat) (status : Status) (result : List Byte) :
    F (s.finish order status result) = F s := by
  exact hLink s _

theorem State.offerReport_keeps (hReports : IgnoresReports F) (hReportQueue : IgnoresReportQueue F) (s : State) (i : Fin 12) (items : List ReportItem) :
    F (s.offerReport i items) = F s := by
  unfold State.offerReport
  (try dsimp only)
  (repeat' split) <;> (try simp only [hReports, hReportQueue, State.setReport_keeps F hReports])

theorem State.offerPass_keeps (hReportQueue : IgnoresReportQueue F) (hPassSkipped : IgnoresPassSkipped F) (s : State) (n : PortNo) (data : List Byte) :
    F (s.offerPass n data) = F s := by
  unfold State.offerPass
  split
  · exact hReportQueue s _
  · split
    · have h : ∀ x y, F { s with reportQueue := x, passSkipped := y } = F s := fun x y =>
        (hPassSkipped { s with reportQueue := x } y).trans (hReportQueue s x)
      exact h _ _
    · exact hPassSkipped s _

theorem State.reportDue_keeps (hReports : IgnoresReports F) (hReportQueue : IgnoresReportQueue F) (s : State) (i : Fin 12) :
    F (s.reportDue i) = F s := by
  unfold State.reportDue
  (try dsimp only)
  (repeat' split) <;> (try simp only [hReports, hReportQueue, State.setReport_keeps F hReports, State.offerReport_keeps F hReports hReportQueue])

theorem State.reportCheck_keeps (hReports : IgnoresReports F) (hReportQueue : IgnoresReportQueue F) (e : Fin 32) (s : State) (i : Fin 12) :
    F (State.reportCheck e s i) = F s := by
  unfold State.reportCheck
  (try dsimp only)
  (repeat' split) <;> (try simp only [hReports, hReportQueue, State.setReport_keeps F hReports, State.reportDue_keeps F hReports hReportQueue])

theorem State.reportChecks_keeps (hReports : IgnoresReports F) (hReportQueue : IgnoresReportQueue F) (s : State) (e : Fin 32) :
    F (s.reportChecks e) = F s := by
  exact foldl_keeps F _ (State.reportCheck_keeps F hReports hReportQueue e) _ _

theorem State.noSourceBelow_keeps (hConv : IgnoresConv F) (s : State) (i : Fin 32) (kept : List (Fin 32)) :
    F (s.noSourceBelow i kept) = F s := by
  exact foldl_keeps F _ (fun s j => State.setConv_keeps F hConv s j _) _ _

theorem State.takeStatus_keeps (hConv : IgnoresConv F) (s : State) (i : Fin 32) (st : ConvStatus) :
    F (s.takeStatus i st) = F s := by
  unfold State.takeStatus
  (try dsimp only)
  (repeat' split) <;> (try simp only [hConv, State.noSourceBelow_keeps F hConv, State.setConv_keeps F hConv])

theorem State.evaluateChain_keeps (hBus : IgnoresBus F) (hConv : IgnoresConv F) (fuel : Nat) (s : State) (i : Fin 32) (x : Int) :
    F ((State.evaluateChain fuel s i x).1) = F s := by
  induction fuel generalizing s i x with
  | zero => rfl
  | succ fuel ih =>
    have hstep : ∀ (l : List (Fin 32)) (acc : State × List (Fin 32)),
        F (l.foldl (fun acc j =>
          let next := State.evaluateChain fuel acc.1 j acc.1.conv[j].value.toInt
          (next.1, acc.2 ++ next.2)) acc).1 = F acc.1 := by
      intro l
      induction l with
      | nil => intro acc; rfl
      | cons j l ihl => intro acc; rw [List.foldl_cons, ihl]; exact ih _ _ _
    have hfold : ∀ (y : Int) (l : List (Fin 32)) (acc : State × List (Fin 32)),
        F (l.foldl (fun acc j =>
          let next := State.evaluateChain fuel acc.1 j acc.1.conv[i].value.toInt
          (next.1, acc.2 ++ next.2)) acc).1 = F acc.1 := by
      intro y l
      induction l with
      | nil => intro acc; rfl
      | cons j l ihl => intro acc; rw [List.foldl_cons, ihl]; exact ih _ _ _
    have hset : ∀ (e : ConvEntry) (b : Bus), F { s.setConv i e with bus := b } = F s := fun e b =>
      (hBus (s.setConv i e) b).trans (State.setConv_keeps F hConv s i e)
    unfold State.evaluateChain
    dsimp only
    split
    · exact (hfold 0 _ _).trans (hset _ _)
    · exact (State.noSourceBelow_keeps F hConv _ _ _).trans (hset _ _)

theorem State.updateEntry_keeps (hBus : IgnoresBus F) (hConv : IgnoresConv F) (acc : State × List (Fin 32)) (i : Fin 32) (x : Int) :
    F (State.updateEntry acc i x).1 = F acc.1 := by
  unfold State.updateEntry
  split
  · exact State.takeStatus_keeps F hConv _ _ _
  · exact State.evaluateChain_keeps F hBus hConv _ _ _ _

theorem State.sourceUpdate_keeps (hBus : IgnoresBus F) (hConv : IgnoresConv F) (hReports : IgnoresReports F) (hReportQueue : IgnoresReportQueue F) (s : State) (reads : ConvConfig → Option Int) :
    F (s.sourceUpdate reads) = F s := by
  unfold State.sourceUpdate
  dsimp only
  rw [foldl_keeps F _ (State.reportChecks_keeps F hReports hReportQueue)]
  have h : ∀ (l : List (Fin 32)) (acc : State × List (Fin 32)),
      F (l.foldl (fun acc i => match reads s.conv[i].cfg with
        | none => acc
        | some x => State.updateEntry acc i x) acc).1 = F acc.1 := by
    intro l
    induction l with
    | nil => intro acc; rfl
    | cons i l ih =>
      intro acc
      rw [List.foldl_cons, ih]
      split
      · rfl
      · exact State.updateEntry_keeps F hBus hConv acc i _
  exact h _ _

theorem State.portStatus_keeps (hConv : IgnoresConv F) (s : State) (n : PortNo) (st : ConvStatus) :
    F (s.portStatus n st) = F s := by
  refine foldl_keeps F _ (fun s i => ?_) _ _
  split
  · exact State.takeStatus_keeps F hConv _ _ _
  · rfl

theorem State.fieldUpdate_keeps (hBus : IgnoresBus F) (hConv : IgnoresConv F) (hReports : IgnoresReports F) (hReportQueue : IgnoresReportQueue F) (s : State) (n : PortNo) :
    F (s.fieldUpdate n) = F s := by
  exact State.sourceUpdate_keeps F hBus hConv hReports hReportQueue s _

theorem State.pulseUpdate_keeps (hBus : IgnoresBus F) (hConv : IgnoresConv F) (hReports : IgnoresReports F) (hReportQueue : IgnoresReportQueue F) (s : State) (n : PortNo) :
    F (s.pulseUpdate n) = F s := by
  exact State.sourceUpdate_keeps F hBus hConv hReports hReportQueue s _

theorem State.speedUpdate_keeps (hBus : IgnoresBus F) (hConv : IgnoresConv F) (hReports : IgnoresReports F) (hReportQueue : IgnoresReportQueue F) (s : State) (n : PortNo) :
    F (s.speedUpdate n) = F s := by
  exact State.sourceUpdate_keeps F hBus hConv hReports hReportQueue s _

theorem State.slotUpdate_keeps (hBus : IgnoresBus F) (hConv : IgnoresConv F) (hReports : IgnoresReports F) (hReportQueue : IgnoresReportQueue F) (s : State) (n : Fin 16) :
    F (s.slotUpdate n) = F s := by
  exact State.sourceUpdate_keeps F hBus hConv hReports hReportQueue s _

theorem State.encoderUpdate_keeps (hBus : IgnoresBus F) (hConv : IgnoresConv F) (hEncStamp : IgnoresEncStamp F) (hReports : IgnoresReports F) (hReportQueue : IgnoresReportQueue F) (s : State) (n : PortNo) :
    F (s.encoderUpdate n) = F s := by
  unfold State.encoderUpdate
  split
  · rfl
  · exact (State.sourceUpdate_keeps F hBus hConv hReports hReportQueue _ _).trans (hEncStamp s _)

theorem State.markUpdate_keeps (hBus : IgnoresBus F) (hMarks : IgnoresMarks F) (s : State) (n : PortNo) (p0 p1 : Word) :
    F (s.markUpdate n p0 p1) = F s := by
  unfold State.markUpdate
  split
  · exact (hBus (s.setMark n _) _).trans (State.setMark_keeps F hMarks s n _)
  · rfl

theorem State.endOperation_keeps (hBus : IgnoresBus F) (hMotors : IgnoresMotors F) (s : State) (n : PortNo) (o : Outcome) :
    F (s.endOperation n o) = F s := by
  unfold State.endOperation
  (try dsimp only)
  (repeat' split) <;> (try simp only [hBus, hMotors, State.notify_keeps F hBus, State.post_keeps F hBus, State.setMotor_keeps F hMotors])

theorem State.stopMotor_keeps (hBus : IgnoresBus F) (hMotors : IgnoresMotors F) (s : State) (n : PortNo) (o : Outcome) (mode : MotorMode) :
    F (s.stopMotor n o mode) = F s := by
  unfold State.stopMotor
  (try dsimp only)
  (repeat' split) <;> (try simp only [hBus, hMotors, State.endOperation_keeps F hBus hMotors, State.setMotor_keeps F hMotors])

theorem State.safeEnd_keeps (hBus : IgnoresBus F) (hMotors : IgnoresMotors F) (s : State) (n : PortNo) (o : Outcome) :
    F (s.safeEnd n o) = F s := by
  unfold State.safeEnd
  (try dsimp only)
  (repeat' split) <;> (try simp only [hBus, hMotors, State.stopMotor_keeps F hBus hMotors])

theorem State.finishMotor_keeps (hBus : IgnoresBus F) (hMotors : IgnoresMotors F) (s : State) (n : PortNo) (target : Word) :
    F (s.finishMotor n target) = F s := by
  unfold State.finishMotor
  (try dsimp only)
  (repeat' split) <;> (try simp only [hBus, hMotors, State.stopMotor_keeps F hBus hMotors, State.endOperation_keeps F hBus hMotors, State.setMotor_keeps F hMotors])

theorem State.runMotorOp_keeps (hBus : IgnoresBus F) (hLines : IgnoresLines F) (hMotors : IgnoresMotors F) (s : State) (n : PortNo) (op : MotorOp) (notify : Bool) :
    F (s.runMotorOp n op notify) = F s := by
  unfold State.runMotorOp
  (try dsimp only)
  (repeat' split) <;> (try simp only [hBus, hLines, hMotors, State.stopMotor_keeps F hBus hMotors, State.endOperation_keeps F hBus hMotors, State.setMotor_keeps F hMotors, State.setLines_keeps F hLines])

theorem State.quadraturePosition_keeps (hBus : IgnoresBus F) (hMotors : IgnoresMotors F) (hMarks : IgnoresMarks F) (s : State) (n : PortNo) (p0 p1 : Word) :
    F (s.quadraturePosition n p0 p1) = F s := by
  unfold State.quadraturePosition
  (try dsimp only)
  (repeat' split) <;> (try simp only [hBus, hMotors, hMarks, State.markUpdate_keeps F hBus hMarks, State.setMotor_keeps F hMotors])

theorem State.fieldPosition_keeps (hBus : IgnoresBus F) (hMotors : IgnoresMotors F) (hMarks : IgnoresMarks F) (s : State) (n : PortNo) :
    F (s.fieldPosition n) = F s := by
  unfold State.fieldPosition
  (try dsimp only)
  (repeat' split) <;> (try simp only [hBus, hMotors, hMarks, State.markUpdate_keeps F hBus hMarks, State.setMotor_keeps F hMotors])

theorem State.stallCheck_keeps (hBus : IgnoresBus F) (hMotors : IgnoresMotors F) (s : State) (n : PortNo) (p : Profile) :
    F (s.stallCheck n p) = F s := by
  unfold State.stallCheck
  (try dsimp only)
  (repeat' split) <;> (try simp only [hBus, hMotors, State.stopMotor_keeps F hBus hMotors, State.setMotor_keeps F hMotors, State.post_keeps F hBus])

theorem State.completionCheck_keeps (hBus : IgnoresBus F) (hMotors : IgnoresMotors F) (s : State) (n : PortNo) (p : Profile) :
    F (s.completionCheck n p) = F s := by
  unfold State.completionCheck
  (try dsimp only)
  (repeat' split) <;> (try simp only [hBus, hMotors, State.stallCheck_keeps F hBus hMotors, State.finishMotor_keeps F hBus hMotors, State.setMotor_keeps F hMotors])

theorem State.measure_keeps (hBus : IgnoresBus F) (hConv : IgnoresConv F) (hMotors : IgnoresMotors F) (hReports : IgnoresReports F) (hReportQueue : IgnoresReportQueue F) (s : State) (n : PortNo) (p : Profile) :
    F (s.measure n p) = F s := by
  unfold State.measure
  (try dsimp only)
  (repeat' split) <;> (try simp only [hBus, hConv, hMotors, hReports, hReportQueue, State.speedUpdate_keeps F hBus hConv hReports hReportQueue, State.setMotor_keeps F hMotors])

theorem State.regulation_keeps (hBus : IgnoresBus F) (hConv : IgnoresConv F) (hMotors : IgnoresMotors F) (hReports : IgnoresReports F) (hReportQueue : IgnoresReportQueue F) (s : State) (n : PortNo) (p : Profile) :
    F (s.regulation n p) = F s := by
  unfold State.regulation
  (try dsimp only)
  (repeat' split) <;> (try simp only [hBus, hConv, hMotors, hReports, hReportQueue, State.measure_keeps F hBus hConv hMotors hReports hReportQueue, State.stopMotor_keeps F hBus hMotors, State.completionCheck_keeps F hBus hMotors, State.setMotor_keeps F hMotors, State.stallCheck_keeps F hBus hMotors])

theorem State.stopAll_keeps (hBus : IgnoresBus F) (hMotors : IgnoresMotors F) (s : State) (o : Outcome) :
    F (s.stopAll o) = F s := by
  exact foldl_keeps F _ (fun s n => State.safeEnd_keeps F hBus hMotors s n o) _ _

theorem State.loseMotor_keeps (hBus : IgnoresBus F) (hMotors : IgnoresMotors F) (s : State) (n : PortNo) (o : Outcome) :
    F (s.loseMotor n o) = F s := by
  unfold State.loseMotor
  (try dsimp only)
  (repeat' split) <;> (try simp only [hBus, hMotors, State.endOperation_keeps F hBus hMotors, State.setMotor_keeps F hMotors])

theorem State.setLineMode_keeps (hLines : IgnoresLines F) (s : State) (n : PortNo) (mode : LineMode) (debounce : Nat) :
    F (s.setLineMode n mode debounce) = F s := by
  unfold State.setLineMode
  (try dsimp only)
  (repeat' split) <;> (try simp only [hLines, State.setLines_keeps F hLines])

theorem State.acceptLine_keeps (hBus : IgnoresBus F) (hLines : IgnoresLines F) (s : State) (n : PortNo) (line : Line) :
    F (s.acceptLine n line) = F s := by
  unfold State.acceptLine
  (try dsimp only)
  (repeat' split) <;> (try simp only [hBus, hLines, State.setLines_keeps F hLines, State.post_keeps F hBus])

theorem State.noteExpiry_keeps (hBus : IgnoresBus F) (hSound : IgnoresSound F) (s : State) :
    F (s.noteExpiry) = F s := by
  unfold State.noteExpiry
  (try dsimp only)
  (repeat' split) <;> (try simp only [hBus, hSound, State.post_keeps F hBus, State.notify_keeps F hBus])

theorem State.sample_keeps (hBus : IgnoresBus F) (hSound : IgnoresSound F) (s : State) :
    F (s.sample) = F s := by
  unfold State.sample
  (try dsimp only)
  (repeat' split) <;> (try simp only [hBus, hSound, State.post_keeps F hBus, State.notify_keeps F hBus])

theorem State.stopTone_keeps (hBus : IgnoresBus F) (hSound : IgnoresSound F) (s : State) :
    F (s.stopTone) = F s := by
  unfold State.stopTone
  (try dsimp only)
  (repeat' split) <;> (try simp only [hBus, hSound, State.post_keeps F hBus, State.notify_keeps F hBus])

theorem State.stopClip_keeps (hBus : IgnoresBus F) (hSound : IgnoresSound F) (s : State) :
    F (s.stopClip) = F s := by
  unfold State.stopClip
  (try dsimp only)
  (repeat' split) <;> (try simp only [hBus, hSound, State.post_keeps F hBus, State.notify_keeps F hBus])

theorem State.stopSound_keeps (hBus : IgnoresBus F) (hSound : IgnoresSound F) (s : State) :
    F (s.stopSound) = F s := by
  unfold State.stopSound
  (try dsimp only)
  (repeat' split) <;> (try simp only [hBus, hSound, State.stopTone_keeps F hBus hSound, State.stopClip_keeps F hBus hSound])

theorem State.playClip_keeps (hBus : IgnoresBus F) (hSound : IgnoresSound F) (s : State) (i : Fin 16) (repeats level : Nat) :
    F (s.playClip i repeats level) = F s := by
  unfold State.playClip
  (try dsimp only)
  (repeat' split) <;> (try simp only [hBus, hSound, State.post_keeps F hBus])

theorem State.runSoundOp_keeps (hBus : IgnoresBus F) (hSound : IgnoresSound F) (s : State) (op : SoundOp) :
    F (s.runSoundOp op) = F s := by
  unfold State.runSoundOp
  (try dsimp only)
  (repeat' split) <;> (try simp only [hBus, hSound, State.playClip_keeps F hBus hSound, State.stopTone_keeps F hBus hSound, State.stopClip_keeps F hBus hSound, State.stopSound_keeps F hBus hSound])

theorem State.converterWake_keeps (hScan : IgnoresScan F) (s : State) :
    F (s.converterWake) = F s := by
  unfold State.converterWake
  (try dsimp only)
  (repeat' split) <;> (try simp only [hScan])

theorem State.converterNext_keeps (hScan : IgnoresScan F) (s : State) :
    F (s.converterNext) = F s := by
  unfold State.converterNext
  (try dsimp only)
  (repeat' split) <;> (try simp only [hScan])

theorem State.requestIdent_keeps (hScan : IgnoresScan F) (s : State) (n : PortNo) :
    F (s.requestIdent n) = F s := by
  unfold State.requestIdent
  (try dsimp only)
  (repeat' split) <;> (try simp only [hScan, State.converterWake_keeps F hScan])

theorem State.cancelIdent_keeps (hScan : IgnoresScan F) (s : State) (n : PortNo) :
    F (s.cancelIdent n) = F s := by
  unfold State.cancelIdent
  (try dsimp only)
  (repeat' split) <;> (try simp only [hScan])

theorem State.scanOp_keeps (hScan : IgnoresScan F) (s : State) (op : ScanOp) :
    F (s.scanOp op) = F s := by
  unfold State.scanOp
  (try dsimp only)
  (repeat' split) <;> (try simp only [hScan, State.converterWake_keeps F hScan])

theorem State.completeSlot_keeps (hBus : IgnoresBus F) (hScan : IgnoresScan F) (hConv : IgnoresConv F) (hReports : IgnoresReports F) (hReportQueue : IgnoresReportQueue F) (s : State) (i : Fin 16) (input : Fin 8) (k sum : Nat) (discard : Bool) :
    F (s.completeSlot i input k sum discard) = F s := by
  unfold State.completeSlot
  (try dsimp only)
  (repeat' split) <;> (try simp only [hBus, hScan, hConv, hReports, hReportQueue, State.slotUpdate_keeps F hBus hConv hReports hReportQueue])

theorem State.scanConversion_keeps (hBus : IgnoresBus F) (hScan : IgnoresScan F) (hConv : IgnoresConv F) (hReports : IgnoresReports F) (hReportQueue : IgnoresReportQueue F) (s : State) (code : BitVec 12) (i : Fin 16) (input : Fin 8) (n done sum : Nat) (discard : Bool) :
    F (s.scanConversion code i input n done sum discard) = F s := by
  unfold State.scanConversion
  (try dsimp only)
  (repeat' split) <;> (try simp only [hBus, hScan, hConv, hReports, hReportQueue, State.converterNext_keeps F hScan, State.completeSlot_keeps F hBus hScan hConv hReports hReportQueue, State.post_keeps F hBus])

theorem State.portNotice_keeps (hBus : IgnoresBus F) (s : State) (n : PortNo) :
    F (s.portNotice n) = F s := by
  unfold State.portNotice
  (try dsimp only)
  (repeat' split) <;> (try simp only [hBus, State.notify_keeps F hBus])

theorem State.startWork_keeps (hPorts : IgnoresPorts F) (s : State) (n : PortNo) :
    F (s.startWork n) = F s := by
  unfold State.startWork
  (try dsimp only)
  (repeat' split) <;> (try simp only [hPorts, State.setPort_keeps F hPorts])

theorem State.endExchange_keeps (hPorts : IgnoresPorts F) (s : State) (n : PortNo) :
    F (s.endExchange n) = F s := by
  unfold State.endExchange
  (try dsimp only)
  (repeat' split) <;> (try simp only [hPorts, State.setPort_keeps F hPorts])

theorem State.enterFault_keeps (hBus : IgnoresBus F) (hPorts : IgnoresPorts F) (hLines : IgnoresLines F) (hConv : IgnoresConv F) (hMotors : IgnoresMotors F) (s : State) (n : PortNo) (reason : FaultReason) :
    F (s.enterFault n reason) = F s := by
  unfold State.enterFault
  (try dsimp only)
  (repeat' split) <;> (try simp only [hBus, hPorts, hLines, hConv, hMotors, State.setPort_keeps F hPorts, State.post_keeps F hBus, State.portNotice_keeps F hBus, State.setLineMode_keeps F hLines, State.loseMotor_keeps F hBus hMotors, State.portStatus_keeps F hConv])

theorem State.enterDetecting_keeps (hBus : IgnoresBus F) (hPorts : IgnoresPorts F) (hScan : IgnoresScan F) (s : State) (n : PortNo) :
    F (s.enterDetecting n) = F s := by
  unfold State.enterDetecting
  (try dsimp only)
  (repeat' split) <;> (try simp only [hBus, hPorts, hScan, State.setPort_keeps F hPorts, State.post_keeps F hBus, State.portNotice_keeps F hBus, State.requestIdent_keeps F hScan])

theorem State.enterProbing_keeps (hBus : IgnoresBus F) (hPorts : IgnoresPorts F) (s : State) (n : PortNo) :
    F (s.enterProbing n) = F s := by
  unfold State.enterProbing
  (try dsimp only)
  (repeat' split) <;> (try simp only [hBus, hPorts, State.setPort_keeps F hPorts, State.portNotice_keeps F hBus, State.startWork_keeps F hPorts])

theorem State.startPolling_keeps (hPorts : IgnoresPorts F) (s : State) (n : PortNo) (pr : Profile) :
    F (s.startPolling n pr) = F s := by
  unfold State.startPolling
  (try dsimp only)
  (repeat' split) <;> (try simp only [hPorts, State.setPort_keeps F hPorts, State.startWork_keeps F hPorts])

theorem State.bindPort_keeps (hBus : IgnoresBus F) (hPorts : IgnoresPorts F) (hLines : IgnoresLines F) (hMotors : IgnoresMotors F) (s : State) (n : PortNo) (i : Fin 16) :
    F (s.bindPort n i) = F s := by
  unfold State.bindPort
  (try dsimp only)
  (repeat' split) <;> (try simp only [hBus, hPorts, hLines, hMotors, State.setPort_keeps F hPorts, State.post_keeps F hBus, State.portNotice_keeps F hBus, State.setLineMode_keeps F hLines, State.startPolling_keeps F hPorts, State.setMotor_keeps F hMotors])

theorem State.becomeUnknown_keeps (hBus : IgnoresBus F) (hPorts : IgnoresPorts F) (hLines : IgnoresLines F) (s : State) (n : PortNo) :
    F (s.becomeUnknown n) = F s := by
  unfold State.becomeUnknown
  (try dsimp only)
  (repeat' split) <;> (try simp only [hBus, hPorts, hLines, State.setPort_keeps F hPorts, State.portNotice_keeps F hBus, State.setLineMode_keeps F hLines])

theorem State.lookupPort_keeps (hBus : IgnoresBus F) (hPorts : IgnoresPorts F) (hLines : IgnoresLines F) (hMotors : IgnoresMotors F) (s : State) (n : PortNo) :
    F (s.lookupPort n) = F s := by
  unfold State.lookupPort
  (try dsimp only)
  (repeat' split) <;> (try simp only [hBus, hPorts, hLines, hMotors, State.bindPort_keeps F hBus hPorts hLines hMotors, State.becomeUnknown_keeps F hBus hPorts hLines])

theorem State.loseBinding_keeps (hBus : IgnoresBus F) (hLines : IgnoresLines F) (hConv : IgnoresConv F) (hMotors : IgnoresMotors F) (s : State) (n : PortNo) :
    F (s.loseBinding n) = F s := by
  unfold State.loseBinding
  (try dsimp only)
  (repeat' split) <;> (try simp only [hBus, hLines, hConv, hMotors, State.loseMotor_keeps F hBus hMotors, State.portStatus_keeps F hConv, State.setLineMode_keeps F hLines])

theorem State.rebindPort_keeps (hBus : IgnoresBus F) (hPorts : IgnoresPorts F) (hLines : IgnoresLines F) (hConv : IgnoresConv F) (hMotors : IgnoresMotors F) (named : Fin 16 → Bool) (anyValid : Bool) (s : State) (n : PortNo) :
    F (State.rebindPort named anyValid s n) = F s := by
  unfold State.rebindPort
  (try dsimp only)
  (repeat' split) <;> (try simp only [hBus, hPorts, hLines, hConv, hMotors, State.loseBinding_keeps F hBus hLines hConv hMotors, State.lookupPort_keeps F hBus hPorts hLines hMotors])

theorem State.identResult_keeps (hBus : IgnoresBus F) (hPorts : IgnoresPorts F) (hLines : IgnoresLines F) (hConv : IgnoresConv F) (hMotors : IgnoresMotors F) (s : State) (n : PortNo) (code : BitVec 12) :
    F (s.identResult n code) = F s := by
  unfold State.identResult
  (try dsimp only)
  (repeat' split) <;> (try simp only [hBus, hPorts, hLines, hConv, hMotors, State.setPort_keeps F hPorts, State.enterFault_keeps F hBus hPorts hLines hConv hMotors, State.lookupPort_keeps F hBus hPorts hLines hMotors, State.enterProbing_keeps F hBus hPorts])

theorem State.takeIdent_keeps (hBus : IgnoresBus F) (hPorts : IgnoresPorts F) (hLines : IgnoresLines F) (hMotors : IgnoresMotors F) (s : State) (n : PortNo) (d : Ident) :
    F (s.takeIdent n d) = F s := by
  unfold State.takeIdent
  (try dsimp only)
  (repeat' split) <;> (try simp only [hBus, hPorts, hLines, hMotors, State.setPort_keeps F hPorts, State.lookupPort_keeps F hBus hPorts hLines hMotors])

theorem State.queryFailed_keeps (hBus : IgnoresBus F) (hPorts : IgnoresPorts F) (hLines : IgnoresLines F) (hConv : IgnoresConv F) (hMotors : IgnoresMotors F) (s : State) (n : PortNo) :
    F (s.queryFailed n) = F s := by
  unfold State.queryFailed
  (try dsimp only)
  (repeat' split) <;> (try simp only [hBus, hPorts, hLines, hConv, hMotors, State.enterFault_keeps F hBus hPorts hLines hConv hMotors])

theorem State.takeData_keeps (hBus : IgnoresBus F) (hPorts : IgnoresPorts F) (hConv : IgnoresConv F) (hMotors : IgnoresMotors F) (hMarks : IgnoresMarks F) (hReports : IgnoresReports F) (hReportQueue : IgnoresReportQueue F) (hPassSkipped : IgnoresPassSkipped F) (s : State) (n : PortNo) (payload : List Byte) :
    F (s.takeData n payload) = F s := by
  unfold State.takeData
  (try dsimp only)
  (repeat' split) <;> (try simp only [hBus, hPorts, hConv, hMotors, hMarks, hReports, hReportQueue, hPassSkipped, State.setPort_keeps F hPorts, State.fieldUpdate_keeps F hBus hConv hReports hReportQueue, State.fieldPosition_keeps F hBus hMotors hMarks, State.offerPass_keeps F hReportQueue hPassSkipped])

theorem State.pollMissed_keeps (hBus : IgnoresBus F) (hPorts : IgnoresPorts F) (hLines : IgnoresLines F) (hConv : IgnoresConv F) (hMotors : IgnoresMotors F) (s : State) (n : PortNo) :
    F (s.pollMissed n) = F s := by
  unfold State.pollMissed
  (try dsimp only)
  (repeat' split) <;> (try simp only [hBus, hPorts, hLines, hConv, hMotors, State.setPort_keeps F hPorts, State.enterFault_keeps F hBus hPorts hLines hConv hMotors])

theorem State.answerPass_keeps (hLink : IgnoresLink F) (hPorts : IgnoresPorts F) (s : State) (n : PortNo) (status : Status) (result : List Byte) :
    F (s.answerPass n status result) = F s := by
  unfold State.answerPass
  (try dsimp only)
  (repeat' split) <;> (try simp only [hLink, hPorts, State.setPort_keeps F hPorts, State.finish_keeps F hLink])

theorem State.queryReply_keeps (hBus : IgnoresBus F) (hPorts : IgnoresPorts F) (hLines : IgnoresLines F) (hConv : IgnoresConv F) (hMotors : IgnoresMotors F) (s : State) (n : PortNo) (f : DeviceFrame) :
    F (s.queryReply n f) = F s := by
  unfold State.queryReply
  (try dsimp only)
  (repeat' split) <;> (try simp only [hBus, hPorts, hLines, hConv, hMotors, State.endExchange_keeps F hPorts, State.takeIdent_keeps F hBus hPorts hLines hMotors, State.queryFailed_keeps F hBus hPorts hLines hConv hMotors])

theorem State.pollReply_keeps (hBus : IgnoresBus F) (hPorts : IgnoresPorts F) (hLines : IgnoresLines F) (hConv : IgnoresConv F) (hMotors : IgnoresMotors F) (hMarks : IgnoresMarks F) (hReports : IgnoresReports F) (hReportQueue : IgnoresReportQueue F) (hPassSkipped : IgnoresPassSkipped F) (s : State) (n : PortNo) (f : DeviceFrame) :
    F (s.pollReply n f) = F s := by
  unfold State.pollReply
  (try dsimp only)
  (repeat' split) <;> (try simp only [hBus, hPorts, hLines, hConv, hMotors, hMarks, hReports, hReportQueue, hPassSkipped, State.endExchange_keeps F hPorts, State.takeData_keeps F hBus hPorts hConv hMotors hMarks hReports hReportQueue hPassSkipped, State.pollMissed_keeps F hBus hPorts hLines hConv hMotors])

theorem State.writeReply_keeps (hLink : IgnoresLink F) (hPorts : IgnoresPorts F) (s : State) (n : PortNo) (f : DeviceFrame) :
    F (s.writeReply n f) = F s := by
  unfold State.writeReply
  (try dsimp only)
  (repeat' split) <;> (try simp only [hLink, hPorts, State.endExchange_keeps F hPorts, State.answerPass_keeps F hLink hPorts])

theorem State.deviceFrameIn_keeps (hLink : IgnoresLink F) (hBus : IgnoresBus F) (hPorts : IgnoresPorts F) (hLines : IgnoresLines F) (hConv : IgnoresConv F) (hMotors : IgnoresMotors F) (hMarks : IgnoresMarks F) (hReports : IgnoresReports F) (hReportQueue : IgnoresReportQueue F) (hPassSkipped : IgnoresPassSkipped F) (s : State) (n : PortNo) (f : DeviceFrame) :
    F (s.deviceFrameIn n f) = F s := by
  unfold State.deviceFrameIn
  (try dsimp only)
  (repeat' split) <;> (try simp only [hLink, hBus, hPorts, hLines, hConv, hMotors, hMarks, hReports, hReportQueue, hPassSkipped, State.queryReply_keeps F hBus hPorts hLines hConv hMotors, State.pollReply_keeps F hBus hPorts hLines hConv hMotors hMarks hReports hReportQueue hPassSkipped, State.writeReply_keeps F hLink hPorts, State.startWork_keeps F hPorts])

theorem State.setGot_keeps (hPorts : IgnoresPorts F) (s : State) (n : PortNo) (x : Exchange) (got : List Byte) :
    F (s.setGot n x got) = F s := by
  unfold State.setGot
  (try dsimp only)
  (repeat' split) <;> (try simp only [hPorts, State.setPort_keeps F hPorts])

theorem State.deviceByte_keeps (hLink : IgnoresLink F) (hBus : IgnoresBus F) (hPorts : IgnoresPorts F) (hLines : IgnoresLines F) (hConv : IgnoresConv F) (hMotors : IgnoresMotors F) (hMarks : IgnoresMarks F) (hReports : IgnoresReports F) (hReportQueue : IgnoresReportQueue F) (hPassSkipped : IgnoresPassSkipped F) (n : PortNo) (s : State) (b : LineByte) :
    F (State.deviceByte n s b) = F s := by
  unfold State.deviceByte
  (try dsimp only)
  (repeat' split) <;> (try simp only [hLink, hBus, hPorts, hLines, hConv, hMotors, hMarks, hReports, hReportQueue, hPassSkipped, State.setGot_keeps F hPorts, State.deviceFrameIn_keeps F hLink hBus hPorts hLines hConv hMotors hMarks hReports hReportQueue hPassSkipped])

theorem State.deviceBytes_keeps (hLink : IgnoresLink F) (hBus : IgnoresBus F) (hPorts : IgnoresPorts F) (hLines : IgnoresLines F) (hConv : IgnoresConv F) (hMotors : IgnoresMotors F) (hMarks : IgnoresMarks F) (hReports : IgnoresReports F) (hReportQueue : IgnoresReportQueue F) (hPassSkipped : IgnoresPassSkipped F) (s : State) (n : PortNo) (bs : List LineByte) :
    F (s.deviceBytes n bs) = F s := by
  exact foldl_keeps F _ (State.deviceByte_keeps F hLink hBus hPorts hLines hConv hMotors hMarks hReports hReportQueue hPassSkipped n) _ _

theorem State.serviceOff_keeps (hPorts : IgnoresPorts F) (hService : IgnoresService F) (s : State) (n : PortNo) :
    F (s.serviceOff n) = F s := by
  unfold State.serviceOff
  (try dsimp only)
  (repeat' split) <;> (try simp only [hService, State.setPort_keeps F hPorts])

theorem State.serviceEnds_keeps (hPorts : IgnoresPorts F) (hService : IgnoresService F) (s : State) :
    F s.serviceEnds = F s := by
  unfold State.serviceEnds
  (repeat' split) <;> (try simp only [State.serviceOff_keeps F hPorts hService])

theorem State.serviceOn_keeps (hPorts : IgnoresPorts F) (hService : IgnoresService F) (hConv : IgnoresConv F) (s : State) (n : PortNo) :
    F (s.serviceOn n) = F s := by
  unfold State.serviceOn
  (try dsimp only)
  (repeat' split) <;> (try simp only [hPorts, hService, hConv, State.serviceEnds_keeps F hPorts hService, State.setPort_keeps F hPorts, State.portStatus_keeps F hConv])

theorem State.probe_keeps (hBus : IgnoresBus F) (hPorts : IgnoresPorts F) (hScan : IgnoresScan F) (hLines : IgnoresLines F) (hConv : IgnoresConv F) (hMotors : IgnoresMotors F) (s : State) (n : PortNo) :
    F (s.probe n) = F s := by
  unfold State.probe
  (try dsimp only)
  (repeat' split) <;> (try simp only [hBus, hPorts, hScan, hLines, hConv, hMotors, State.setPort_keeps F hPorts, State.loseMotor_keeps F hBus hMotors, State.portStatus_keeps F hConv, State.setLineMode_keeps F hLines, State.enterDetecting_keeps F hBus hPorts hScan])

theorem State.runPortOp_keeps (hBus : IgnoresBus F) (hPorts : IgnoresPorts F) (hService : IgnoresService F) (hScan : IgnoresScan F) (hLines : IgnoresLines F) (hConv : IgnoresConv F) (hMotors : IgnoresMotors F) (s : State) (n : PortNo) (op : PortOp) (place : Nat) :
    F (s.runPortOp n op place) = F s := by
  unfold State.runPortOp
  (try dsimp only)
  (repeat' split) <;> (try simp only [hBus, hPorts, hService, hScan, hLines, hConv, hMotors, State.setPort_keeps F hPorts, State.startWork_keeps F hPorts, State.serviceOn_keeps F hPorts hService hConv, State.serviceOff_keeps F hPorts hService, State.probe_keeps F hBus hPorts hScan hLines hConv hMotors])

theorem State.detach_keeps (hLink : IgnoresLink F) (hBus : IgnoresBus F) (hPorts : IgnoresPorts F) (hService : IgnoresService F) (hScan : IgnoresScan F) (hLines : IgnoresLines F) (hConv : IgnoresConv F) (hMotors : IgnoresMotors F) (s : State) (n : PortNo) :
    F (s.detach n) = F s := by
  unfold State.detach
  (try dsimp only)
  (repeat' split) <;> (try simp only [hLink, hBus, hPorts, hService, hScan, hLines, hConv, hMotors, State.answerPass_keeps F hLink hPorts, State.loseMotor_keeps F hBus hMotors, State.portStatus_keeps F hConv, State.setLineMode_keeps F hLines, State.serviceOff_keeps F hPorts hService, State.cancelIdent_keeps F hScan, State.setPort_keeps F hPorts, State.post_keeps F hBus, State.portNotice_keeps F hBus])

theorem State.acceptDet_keeps (hLink : IgnoresLink F) (hBus : IgnoresBus F) (hPorts : IgnoresPorts F) (hService : IgnoresService F) (hScan : IgnoresScan F) (hLines : IgnoresLines F) (hConv : IgnoresConv F) (hMotors : IgnoresMotors F) (s : State) (n : PortNo) :
    F (s.acceptDet n) = F s := by
  unfold State.acceptDet
  (try dsimp only)
  (repeat' split) <;> (try simp only [hLink, hBus, hPorts, hService, hScan, hLines, hConv, hMotors, State.setPort_keeps F hPorts, State.enterDetecting_keeps F hBus hPorts hScan, State.detach_keeps F hLink hBus hPorts hService hScan hLines hConv hMotors])

theorem State.grantChannel_keeps (hMotors : IgnoresMotors F) (g : WindowGrant) (s : State) (n : PortNo) :
    F (State.grantChannel g s n) = F s := by
  unfold State.grantChannel
  (try dsimp only)
  (repeat' split) <;> (try simp only [hMotors, State.setMotor_keeps F hMotors])

theorem State.budgetChange_keeps (hBus : IgnoresBus F) (hMotors : IgnoresMotors F) (s : State) (before : BudgetState) :
    F (s.budgetChange before) = F s := by
  unfold State.budgetChange
  (try dsimp only)
  (repeat' split) <;> (try simp only [hBus, hMotors, State.post_keeps F hBus, State.notify_keeps F hBus, State.stopAll_keeps F hBus hMotors])

theorem State.windowWrite_keeps (hBudget : IgnoresBudget F) (hSound : IgnoresSound F) (s : State) :
    F (s.windowWrite) = F s := by
  have h : ∀ x y, F { s with budget := x, sound := y } = F s := fun x y =>
    (hSound { s with budget := x } y).trans (hBudget s x)
  exact h _ _

theorem State.window_keeps (hBus : IgnoresBus F) (hMotors : IgnoresMotors F) (hBudget : IgnoresBudget F) (hSound : IgnoresSound F) (s : State) :
    F (s.window) = F s := by
  unfold State.window
  rw [foldl_keeps F _ (State.grantChannel_keeps F hMotors _), State.budgetChange_keeps F hBus hMotors,
    State.windowWrite_keeps F hBudget hSound]

theorem State.allowanceCut_keeps (hBudget : IgnoresBudget F) (hSound : IgnoresSound F) (s : State) (load : Nat) :
    F (s.allowanceCut load) = F s := by
  unfold State.allowanceCut
  split
  · have h : ∀ x y, F { s with budget := x, sound := y } = F s := fun x y =>
      (hSound { s with budget := x } y).trans (hBudget s x)
    exact h _ _
  · rfl

theorem State.becomesEnabled_keeps (hBus : IgnoresBus F) (s : State) (i : Fin 24) :
    F (s.becomesEnabled i) = F s := by
  unfold State.becomesEnabled
  (try dsimp only)
  (repeat' split) <;> (try simp only [hBus])

theorem State.enable_keeps (hBus : IgnoresBus F) (hReactions : IgnoresReactions F) (s : State) (i : Fin 24) :
    F (s.enable i) = F s := by
  unfold State.enable
  (try dsimp only)
  (repeat' split) <;> (try simp only [hBus, hReactions, State.setReaction_keeps F hReactions, State.becomesEnabled_keeps F hBus])

theorem State.disable_keeps (hReactions : IgnoresReactions F) (s : State) (i : Fin 24) :
    F (s.disable i) = F s := by
  unfold State.disable
  (try dsimp only)
  (repeat' split) <;> (try simp only [hReactions, State.setReaction_keeps F hReactions])

theorem State.fail_keeps (hFailures : IgnoresFailures F) (s : State) :
    F (s.fail) = F s := by
  unfold State.fail
  (try dsimp only)
  (repeat' split) <;> (try simp only [hFailures])

theorem State.motorAction_keeps (hBus : IgnoresBus F) (hLines : IgnoresLines F) (hMotors : IgnoresMotors F) (hFailures : IgnoresFailures F) (hBlocked : IgnoresBlocked F) (s : State) (r : Reaction) :
    F (s.motorAction r) = F s := by
  unfold State.motorAction
  (try dsimp only)
  (repeat' split) <;> (try simp only [hBus, hLines, hMotors, hFailures, hBlocked, State.fail_keeps F hFailures, State.runMotorOp_keeps F hBus hLines hMotors])

theorem State.soundAction_keeps (hBus : IgnoresBus F) (hSound : IgnoresSound F) (hFailures : IgnoresFailures F) (s : State) (r : Reaction) :
    F (s.soundAction r) = F s := by
  unfold State.soundAction
  (try dsimp only)
  (repeat' split) <;> (try simp only [hBus, hSound, hFailures, State.fail_keeps F hFailures, State.runSoundOp_keeps F hBus hSound])

theorem State.markAction_keeps (hBus : IgnoresBus F) (hMarks : IgnoresMarks F) (hFailures : IgnoresFailures F) (s : State) (r : Reaction) :
    F (s.markAction r) = F s := by
  unfold State.markAction State.markSet
  split
  · split
    · split
      · rfl
      · exact (State.post_keeps F hBus _ _ _ _).trans (State.setMark_keeps F hMarks _ _ _)
    · exact State.fail_keeps F hFailures s
  · exact State.fail_keeps F hFailures s

theorem State.act_keeps (hBus : IgnoresBus F) (hScan : IgnoresScan F) (hLines : IgnoresLines F) (hMotors : IgnoresMotors F) (hMarks : IgnoresMarks F) (hSound : IgnoresSound F) (hReactions : IgnoresReactions F) (hFailures : IgnoresFailures F) (hBlocked : IgnoresBlocked F) (hReports : IgnoresReports F) (hReportQueue : IgnoresReportQueue F) (s : State) (i : Fin 24) (r : Reaction) (e : Event) :
    F (s.act i r e) = F s := by
  unfold State.act
  (try dsimp only)
  (repeat' split) <;> (try simp only [hBus, hScan, hLines, hMotors, hMarks, hSound, hReactions, hFailures, hBlocked, hReports, hReportQueue, State.notify_keeps F hBus, State.motorAction_keeps F hBus hLines hMotors hFailures hBlocked, State.soundAction_keeps F hBus hSound hFailures, State.enable_keeps F hBus hReactions, State.disable_keeps F hReactions, State.markAction_keeps F hBus hMarks hFailures, State.reportDue_keeps F hReports hReportQueue, State.scanOp_keeps F hScan])

theorem State.fire_keeps (hBus : IgnoresBus F) (hScan : IgnoresScan F) (hLines : IgnoresLines F) (hMotors : IgnoresMotors F) (hMarks : IgnoresMarks F) (hSound : IgnoresSound F) (hReactions : IgnoresReactions F) (hFailures : IgnoresFailures F) (hBlocked : IgnoresBlocked F) (hReports : IgnoresReports F) (hReportQueue : IgnoresReportQueue F) (s : State) (i : Fin 24) (e : Event) :
    F (s.fire i e) = F s := by
  unfold State.fire
  dsimp only
  rw [State.act_keeps F hBus hScan hLines hMotors hMarks hSound hReactions hFailures hBlocked hReports hReportQueue]
  exact (hBus (s.setReaction i _) _).trans (State.setReaction_keeps F hReactions s i _)

theorem State.reach_keeps (hBus : IgnoresBus F) (hScan : IgnoresScan F) (hLines : IgnoresLines F) (hMotors : IgnoresMotors F) (hMarks : IgnoresMarks F) (hSound : IgnoresSound F) (hReactions : IgnoresReactions F) (hFailures : IgnoresFailures F) (hBlocked : IgnoresBlocked F) (hReports : IgnoresReports F) (hReportQueue : IgnoresReportQueue F) (e : Event) (s : State) (i : Fin 24) :
    F (State.reach e s i) = F s := by
  unfold State.reach
  (try dsimp only)
  (repeat' split) <;> (try simp only [hBus, hScan, hLines, hMotors, hMarks, hSound, hReactions, hFailures, hBlocked, hReports, hReportQueue, State.fire_keeps F hBus hScan hLines hMotors hMarks hSound hReactions hFailures hBlocked hReports hReportQueue])

theorem State.dispatchEvent_keeps (hBus : IgnoresBus F) (hScan : IgnoresScan F) (hLines : IgnoresLines F) (hMotors : IgnoresMotors F) (hMarks : IgnoresMarks F) (hSound : IgnoresSound F) (hReactions : IgnoresReactions F) (hFailures : IgnoresFailures F) (hBlocked : IgnoresBlocked F) (hReports : IgnoresReports F) (hReportQueue : IgnoresReportQueue F) (s : State) (e : Event) (rest : List Event) :
    F (s.dispatchEvent e rest) = F s := by
  unfold State.dispatchEvent
  dsimp only
  rw [hBus, foldl_keeps F _ (State.reach_keeps F hBus hScan hLines hMotors hMarks hSound hReactions hFailures hBlocked hReports hReportQueue e), hBus]

theorem State.slotNoSource_keeps (hConv : IgnoresConv F) (s : State) (slot : Fin 16) :
    F (s.slotNoSource slot) = F s := by
  refine foldl_keeps F _ (fun s i => ?_) _ _
  split
  · exact State.takeStatus_keeps F hConv _ _ _
  · rfl

theorem State.writeSettings_keeps (hLink : IgnoresLink F) (hSettings : IgnoresSettings F) (hBudget : IgnoresBudget F) (hSound : IgnoresSound F) (s : State) (r : Settings) :
    F (s.writeSettings r) = F s := by
  unfold State.writeSettings
  rw [State.allowanceCut_keeps F hBudget hSound]
  have h : ∀ x, F { s with settings := r, link := x } = F s := fun x =>
    (hLink { s with settings := r } x).trans (hSettings s r)
  exact h _

theorem State.writeProfiles_keeps (hBus : IgnoresBus F) (hPorts : IgnoresPorts F) (hProfiles : IgnoresProfiles F) (hLines : IgnoresLines F) (hConv : IgnoresConv F) (hMotors : IgnoresMotors F) (s : State) (first : Nat) (rs : List Profile) :
    F (s.writeProfiles first rs) = F s := by
  unfold State.writeProfiles
  rw [foldl_keeps F _ (State.rebindPort_keeps F hBus hPorts hLines hConv hMotors _ _), hProfiles]

theorem State.writeScanList_keeps (hScan : IgnoresScan F) (hConv : IgnoresConv F) (s : State) (first : Nat) (rs : List ScanSlot) :
    F (s.writeScanList first rs) = F s := by
  unfold State.writeScanList
  dsimp only
  rw [foldl_keeps F, hScan]
  intro s i
  split
  · exact State.slotNoSource_keeps F hConv s i
  · rfl

theorem State.writeConversion_keeps (hConv : IgnoresConv F) (s : State) (first : Nat) (rs : List ConvConfig) :
    F (s.writeConversion first rs) = F s := by
  unfold State.writeConversion
  dsimp only
  rw [foldl_keeps F _ (fun s i => State.noSourceBelow_keeps F hConv s i _), hConv]

theorem State.writeReactions_keeps (hBus : IgnoresBus F) (hReactions : IgnoresReactions F) (s : State) (first : Nat) (rs : List Reaction) :
    F (s.writeReactions first rs) = F s := by
  unfold State.writeReactions
  rw [foldl_keeps F _ (State.becomesEnabled_keeps F hBus), hReactions]

theorem State.transmitNext_keeps (hLink : IgnoresLink F) (hBus : IgnoresBus F) (hReportQueue : IgnoresReportQueue F) (s : State) :
    F (s.transmitNext) = F s := by
  unfold State.transmitNext
  split
  · rfl
  · split
    · exact hLink s _
    · have h : ∀ x y, F { s with link := x, bus := y } = F s := fun x y =>
        (hBus { s with link := x } y).trans (hLink s x)
      exact h _ _
    · have h : ∀ x y, F { s with link := x, reportQueue := y } = F s := fun x y =>
        (hReportQueue { s with link := x } y).trans (hLink s x)
      exact h _ _
    · rfl

end Sys2Proof.Machine
end

