-- ==== Sys2Proof/Laws/Memory.lean ====
section
/-! SUPPORT. The sample store: reading after writing, and the canonical form kept by every operation. -/

namespace Sys2Proof.Machine

/-- Offsets of the list rise strictly, from a lower bound. -/
def Memory.rises : Nat → List Host.Cell → Prop
  | _, [] => True
  | lo, (k, _) :: rest => lo ≤ k ∧ Memory.rises (k + 1) rest

/-- Every entry lies in the store and is not what an unlisted offset reads as. -/
def Memory.listed (m : List Host.Cell) : Prop := ∀ c ∈ m, c.1 < Config.storeBytes ∧ c.2 ≠ 0

/-- The canonical form in two parts. -/
theorem Memory.wf_iff (m : List Host.Cell) : Memory.wf m = true ↔ Memory.rises 0 m ∧ Memory.listed m := by
  have key : ∀ (m : List Host.Cell) (k : Nat) (v : Byte),
      Memory.wf ((k, v) :: m) = true ↔
        (k < Config.storeBytes ∧ v ≠ 0) ∧ Memory.rises (k + 1) m ∧ Memory.listed m := by
    intro m
    induction m with
    | nil => intro k v; simp [Memory.wf, Memory.rises, Memory.listed]
    | cons c rest ih =>
      intro k v
      obtain ⟨k', v'⟩ := c
      simp only [Memory.wf, Bool.and_eq_true, decide_eq_true_eq, bne_iff_ne, ih, Memory.rises, Memory.listed,
        List.mem_cons, forall_eq_or_imp]
      constructor
      · rintro ⟨⟨⟨h1, h2⟩, h3⟩, h4, h5, h6⟩; exact ⟨⟨h2, h3⟩, ⟨h1, h5⟩, h4, h6⟩
      · rintro ⟨⟨h2, h3⟩, ⟨h1, h5⟩, h4, h6⟩; exact ⟨⟨⟨h1, h2⟩, h3⟩, h4, h5, h6⟩
  cases m with
  | nil => simp [Memory.wf, Memory.rises, Memory.listed]
  | cons c rest =>
    obtain ⟨k, v⟩ := c
    rw [key]
    simp only [Memory.rises, Memory.listed, List.mem_cons, forall_eq_or_imp, Nat.zero_le, true_and]
    constructor
    · rintro ⟨h1, h2, h3⟩; exact ⟨h2, h1, h3⟩
    · rintro ⟨h2, h1, h3⟩; exact ⟨h1, h2, h3⟩

theorem Memory.rises_mono {lo hi : Nat} (h : lo ≤ hi) : ∀ {m : List Host.Cell}, Memory.rises hi m → Memory.rises lo m
  | [], _ => trivial
  | (_, _) :: _, hm => ⟨Nat.le_trans h hm.1, hm.2⟩

theorem Memory.rises_write (a : Nat) (v : Byte) :
    ∀ (lo : Nat) (m : List Host.Cell), lo ≤ a → Memory.rises lo m → Memory.rises lo (Memory.write m a v)
  | lo, [], ha, _ => by unfold Memory.write; split <;> simp [Memory.rises, ha]
  | lo, (k, w) :: rest, ha, hm => by
    unfold Memory.write
    split
    · rename_i h1
      split
      · exact hm
      · exact ⟨ha, h1, hm.2⟩
    · split
      · split
        · exact Memory.rises_mono (by have := hm.1; omega) hm.2
        · rename_i h2 _; exact ⟨ha, by rw [h2]; exact hm.2⟩
      · exact ⟨hm.1, Memory.rises_write a v (k + 1) rest (by omega) hm.2⟩

theorem Memory.listed_write (a : Nat) (v : Byte) (ha : a < Config.storeBytes) :
    ∀ m : List Host.Cell, Memory.listed m → Memory.listed (Memory.write m a v)
  | [], _ => by unfold Memory.write; split <;> simp_all [Memory.listed]
  | (k, w) :: rest, hm => by
    have hr : Memory.listed rest := fun c hc => hm c (List.mem_cons_of_mem _ hc)
    have hk := hm (k, w) List.mem_cons_self
    have ih := Memory.listed_write a v ha rest hr
    unfold Memory.write
    intro c hc
    split at hc <;> split at hc
    all_goals first
      | exact hm c hc
      | (split at hc
         · exact hr c hc
         · rcases List.mem_cons.mp hc with rfl | h
           · exact ⟨ha, by assumption⟩
           · exact hr c h)
      | (rcases List.mem_cons.mp hc with rfl | h
         · first | exact hk | exact ⟨ha, by assumption⟩
         · first | exact ih c h | exact hm c h)

/-- A write inside the store keeps the canonical form. -/
theorem Memory.wf_write {m : List Host.Cell} (a : Nat) (v : Byte) (hm : Memory.wf m = true)
    (ha : a < Config.storeBytes) : Memory.wf (Memory.write m a v) = true := by
  rw [Memory.wf_iff] at hm ⊢
  exact ⟨Memory.rises_write a v 0 m (Nat.zero_le _) hm.1, Memory.listed_write a v ha m hm.2⟩

/-- A run of bytes inside the store keeps the canonical form. -/
theorem Memory.wf_writeAll (bs : List Byte) :
    ∀ {m : List Host.Cell} (a : Nat), Memory.wf m = true → a + bs.length ≤ Config.storeBytes →
      Memory.wf (Memory.writeAll m a bs) = true := by
  induction bs with
  | nil => intro m a hm _; exact hm
  | cons v vs ih =>
    intro m a hm ha
    rw [List.length_cons] at ha
    exact ih (a + 1) (Memory.wf_write a v hm (by omega)) (by omega)

theorem Memory.read_below : ∀ (m : List Host.Cell) (lo b : Nat), Memory.rises lo m → b < lo → Memory.read m b = 0
  | [], _, _, _, _ => rfl
  | (k, v) :: rest, lo, b, hm, hb => by
    unfold Memory.read
    rw [if_neg (by have := hm.1; omega)]
    exact Memory.read_below rest (k + 1) b hm.2 (by have := hm.1; omega)

/-- Reading after one write. -/
theorem Memory.read_write (a : Nat) (v : Byte) (b : Nat) :
    ∀ (lo : Nat) (m : List Host.Cell), Memory.rises lo m →
      Memory.read (Memory.write m a v) b = if b = a then v else Memory.read m b
  | _, [], _ => by
    unfold Memory.write
    by_cases hv : v = 0
    · simp [hv, Memory.read]
    · simp only [hv, if_false, Memory.read]
      by_cases h : b = a
      · simp [h]
      · simp [h, Ne.symm h]
  | lo, (k, w) :: rest, hm => by
    unfold Memory.write
    by_cases h1 : a < k
    · rw [if_pos h1]
      by_cases hv : v = 0
      · rw [if_pos hv]
        by_cases hb : b = a
        · subst hb; rw [if_pos rfl, hv]
          exact Memory.read_below ((k, w) :: rest) k b ⟨Nat.le_refl _, hm.2⟩ h1
        · rw [if_neg hb]
      · rw [if_neg hv]
        by_cases hb : b = a
        · subst hb; simp [Memory.read]
        · rw [if_neg hb]; rw [Memory.read]; rw [if_neg (Ne.symm hb)]
    · rw [if_neg h1]
      by_cases h2 : a = k
      · subst h2
        rw [if_pos rfl]
        by_cases hv : v = 0
        · rw [if_pos hv]
          by_cases hb : b = a
          · subst hb; rw [if_pos rfl, hv]; exact Memory.read_below rest (b + 1) b hm.2 (Nat.lt_succ_self _)
          · rw [if_neg hb]; conv_rhs => rw [Memory.read]
            rw [if_neg (Ne.symm hb)]
        · rw [if_neg hv]
          by_cases hb : b = a
          · subst hb; simp [Memory.read]
          · rw [if_neg hb]; simp [Memory.read, Ne.symm hb]
      · rw [if_neg h2]
        by_cases hk : k = b
        · subst hk; simp [Memory.read, Ne.symm h2]
        · rw [Memory.read, if_neg hk, Memory.read_write a v b (k + 1) rest hm.2, Memory.read, if_neg hk]

/-- Reading after a run of writes: the bytes written inside the run, what stood before outside it. -/
theorem Memory.read_writeAll (bs : List Byte) :
    ∀ {m : List Host.Cell} (a b : Nat), Memory.rises 0 m →
      Memory.read (Memory.writeAll m a bs) b =
        if a ≤ b ∧ b < a + bs.length then bs.getD (b - a) 0 else Memory.read m b := by
  induction bs with
  | nil => intro m a b _; rw [if_neg (by simp)]; rfl
  | cons v vs ih =>
    intro m a b hm
    rw [Memory.writeAll, ih (a + 1) b (Memory.rises_write a v 0 m (Nat.zero_le _) hm), Memory.read_write a v b 0 m hm]
    by_cases h : b = a
    · subst h; simp
    · by_cases h2 : a + 1 ≤ b ∧ b < a + 1 + vs.length
      · rw [if_pos h2, if_pos (by simp; omega)]
        have : b - a = (b - (a + 1)) + 1 := by omega
        rw [this, List.getD_cons_succ]
      · rw [if_neg h2, if_neg h, if_neg (by simp; omega)]

end Sys2Proof.Machine
end

