-- ==== Sys2Proof/Laws/State.lean ====
section
/-! SUPPORT. One lemma per field per update of the state, true by rfl, and the same for the shared operations that
touch one field. -/

namespace Sys2Proof.Machine

variable (s : State)

/-! ### setPort -/

@[simp] theorem State.setPort_ports (n : PortNo) (p : Port) : (s.setPort n p).ports = s.ports.set n p := rfl
@[simp] theorem State.setPort_link (n : PortNo) (p : Port) : (s.setPort n p).link = s.link := rfl
@[simp] theorem State.setPort_settings (n : PortNo) (p : Port) : (s.setPort n p).settings = s.settings := rfl
@[simp] theorem State.setPort_bus (n : PortNo) (p : Port) : (s.setPort n p).bus = s.bus := rfl
@[simp] theorem State.setPort_profiles (n : PortNo) (p : Port) : (s.setPort n p).profiles = s.profiles := rfl
@[simp] theorem State.setPort_service (n : PortNo) (p : Port) : (s.setPort n p).service = s.service := rfl
@[simp] theorem State.setPort_scan (n : PortNo) (p : Port) : (s.setPort n p).scan = s.scan := rfl
@[simp] theorem State.setPort_lines (n : PortNo) (p : Port) : (s.setPort n p).lines = s.lines := rfl
@[simp] theorem State.setPort_conv (n : PortNo) (p : Port) : (s.setPort n p).conv = s.conv := rfl
@[simp] theorem State.setPort_encStamp (n : PortNo) (p : Port) : (s.setPort n p).encStamp = s.encStamp := rfl
@[simp] theorem State.setPort_motors (n : PortNo) (p : Port) : (s.setPort n p).motors = s.motors := rfl
@[simp] theorem State.setPort_marks (n : PortNo) (p : Port) : (s.setPort n p).marks = s.marks := rfl
@[simp] theorem State.setPort_budget (n : PortNo) (p : Port) : (s.setPort n p).budget = s.budget := rfl
@[simp] theorem State.setPort_sound (n : PortNo) (p : Port) : (s.setPort n p).sound = s.sound := rfl
@[simp] theorem State.setPort_reactions (n : PortNo) (p : Port) : (s.setPort n p).reactions = s.reactions := rfl
@[simp] theorem State.setPort_failures (n : PortNo) (p : Port) : (s.setPort n p).failures = s.failures := rfl
@[simp] theorem State.setPort_blocked (n : PortNo) (p : Port) : (s.setPort n p).blocked = s.blocked := rfl
@[simp] theorem State.setPort_reports (n : PortNo) (p : Port) : (s.setPort n p).reports = s.reports := rfl
@[simp] theorem State.setPort_reportQueue (n : PortNo) (p : Port) : (s.setPort n p).reportQueue = s.reportQueue := rfl
@[simp] theorem State.setPort_passSkipped (n : PortNo) (p : Port) : (s.setPort n p).passSkipped = s.passSkipped := rfl
@[simp] theorem State.setPort_pending (n : PortNo) (p : Port) : (s.setPort n p).pending = s.pending := rfl
theorem State.setPort_same (n : PortNo) (p : Port) : (s.setPort n p).ports[n] = p := by simp
theorem State.setPort_other (n j : PortNo) (p : Port) (h : n ≠ j) : (s.setPort n p).ports[j] = s.ports[j] := by
  have h' : n.val ≠ j.val := fun e => h (Fin.ext e)
  simp [h']
theorem State.setPort_get (n j : PortNo) (p : Port) :
    (s.setPort n p).ports[j] = if n = j then p else s.ports[j] := by
  by_cases h : n = j
  · subst h; simp
  · simp only [h, if_false]; exact State.setPort_other s n j p h

/-! ### setLines -/

@[simp] theorem State.setLines_lines (n : PortNo) (l : Lines) : (s.setLines n l).lines = s.lines.set n l := rfl
@[simp] theorem State.setLines_link (n : PortNo) (l : Lines) : (s.setLines n l).link = s.link := rfl
@[simp] theorem State.setLines_settings (n : PortNo) (l : Lines) : (s.setLines n l).settings = s.settings := rfl
@[simp] theorem State.setLines_bus (n : PortNo) (l : Lines) : (s.setLines n l).bus = s.bus := rfl
@[simp] theorem State.setLines_ports (n : PortNo) (l : Lines) : (s.setLines n l).ports = s.ports := rfl
@[simp] theorem State.setLines_profiles (n : PortNo) (l : Lines) : (s.setLines n l).profiles = s.profiles := rfl
@[simp] theorem State.setLines_service (n : PortNo) (l : Lines) : (s.setLines n l).service = s.service := rfl
@[simp] theorem State.setLines_scan (n : PortNo) (l : Lines) : (s.setLines n l).scan = s.scan := rfl
@[simp] theorem State.setLines_conv (n : PortNo) (l : Lines) : (s.setLines n l).conv = s.conv := rfl
@[simp] theorem State.setLines_encStamp (n : PortNo) (l : Lines) : (s.setLines n l).encStamp = s.encStamp := rfl
@[simp] theorem State.setLines_motors (n : PortNo) (l : Lines) : (s.setLines n l).motors = s.motors := rfl
@[simp] theorem State.setLines_marks (n : PortNo) (l : Lines) : (s.setLines n l).marks = s.marks := rfl
@[simp] theorem State.setLines_budget (n : PortNo) (l : Lines) : (s.setLines n l).budget = s.budget := rfl
@[simp] theorem State.setLines_sound (n : PortNo) (l : Lines) : (s.setLines n l).sound = s.sound := rfl
@[simp] theorem State.setLines_reactions (n : PortNo) (l : Lines) : (s.setLines n l).reactions = s.reactions := rfl
@[simp] theorem State.setLines_failures (n : PortNo) (l : Lines) : (s.setLines n l).failures = s.failures := rfl
@[simp] theorem State.setLines_blocked (n : PortNo) (l : Lines) : (s.setLines n l).blocked = s.blocked := rfl
@[simp] theorem State.setLines_reports (n : PortNo) (l : Lines) : (s.setLines n l).reports = s.reports := rfl
@[simp] theorem State.setLines_reportQueue (n : PortNo) (l : Lines) : (s.setLines n l).reportQueue = s.reportQueue := rfl
@[simp] theorem State.setLines_passSkipped (n : PortNo) (l : Lines) : (s.setLines n l).passSkipped = s.passSkipped := rfl
@[simp] theorem State.setLines_pending (n : PortNo) (l : Lines) : (s.setLines n l).pending = s.pending := rfl
theorem State.setLines_same (n : PortNo) (l : Lines) : (s.setLines n l).lines[n] = l := by simp
theorem State.setLines_other (n j : PortNo) (l : Lines) (h : n ≠ j) : (s.setLines n l).lines[j] = s.lines[j] := by
  have h' : n.val ≠ j.val := fun e => h (Fin.ext e)
  simp [h']
theorem State.setLines_get (n j : PortNo) (l : Lines) :
    (s.setLines n l).lines[j] = if n = j then l else s.lines[j] := by
  by_cases h : n = j
  · subst h; simp
  · simp only [h, if_false]; exact State.setLines_other s n j l h

/-! ### setConv -/

@[simp] theorem State.setConv_conv (i : Fin 32) (e : ConvEntry) : (s.setConv i e).conv = s.conv.set i e := rfl
@[simp] theorem State.setConv_link (i : Fin 32) (e : ConvEntry) : (s.setConv i e).link = s.link := rfl
@[simp] theorem State.setConv_settings (i : Fin 32) (e : ConvEntry) : (s.setConv i e).settings = s.settings := rfl
@[simp] theorem State.setConv_bus (i : Fin 32) (e : ConvEntry) : (s.setConv i e).bus = s.bus := rfl
@[simp] theorem State.setConv_ports (i : Fin 32) (e : ConvEntry) : (s.setConv i e).ports = s.ports := rfl
@[simp] theorem State.setConv_profiles (i : Fin 32) (e : ConvEntry) : (s.setConv i e).profiles = s.profiles := rfl
@[simp] theorem State.setConv_service (i : Fin 32) (e : ConvEntry) : (s.setConv i e).service = s.service := rfl
@[simp] theorem State.setConv_scan (i : Fin 32) (e : ConvEntry) : (s.setConv i e).scan = s.scan := rfl
@[simp] theorem State.setConv_lines (i : Fin 32) (e : ConvEntry) : (s.setConv i e).lines = s.lines := rfl
@[simp] theorem State.setConv_encStamp (i : Fin 32) (e : ConvEntry) : (s.setConv i e).encStamp = s.encStamp := rfl
@[simp] theorem State.setConv_motors (i : Fin 32) (e : ConvEntry) : (s.setConv i e).motors = s.motors := rfl
@[simp] theorem State.setConv_marks (i : Fin 32) (e : ConvEntry) : (s.setConv i e).marks = s.marks := rfl
@[simp] theorem State.setConv_budget (i : Fin 32) (e : ConvEntry) : (s.setConv i e).budget = s.budget := rfl
@[simp] theorem State.setConv_sound (i : Fin 32) (e : ConvEntry) : (s.setConv i e).sound = s.sound := rfl
@[simp] theorem State.setConv_reactions (i : Fin 32) (e : ConvEntry) : (s.setConv i e).reactions = s.reactions := rfl
@[simp] theorem State.setConv_failures (i : Fin 32) (e : ConvEntry) : (s.setConv i e).failures = s.failures := rfl
@[simp] theorem State.setConv_blocked (i : Fin 32) (e : ConvEntry) : (s.setConv i e).blocked = s.blocked := rfl
@[simp] theorem State.setConv_reports (i : Fin 32) (e : ConvEntry) : (s.setConv i e).reports = s.reports := rfl
@[simp] theorem State.setConv_reportQueue (i : Fin 32) (e : ConvEntry) : (s.setConv i e).reportQueue = s.reportQueue := rfl
@[simp] theorem State.setConv_passSkipped (i : Fin 32) (e : ConvEntry) : (s.setConv i e).passSkipped = s.passSkipped := rfl
@[simp] theorem State.setConv_pending (i : Fin 32) (e : ConvEntry) : (s.setConv i e).pending = s.pending := rfl
theorem State.setConv_same (i : Fin 32) (e : ConvEntry) : (s.setConv i e).conv[i] = e := by simp
theorem State.setConv_other (i j : Fin 32) (e : ConvEntry) (h : i ≠ j) : (s.setConv i e).conv[j] = s.conv[j] := by
  have h' : i.val ≠ j.val := fun e => h (Fin.ext e)
  simp [h']
theorem State.setConv_get (i j : Fin 32) (e : ConvEntry) :
    (s.setConv i e).conv[j] = if i = j then e else s.conv[j] := by
  by_cases h : i = j
  · subst h; simp
  · simp only [h, if_false]; exact State.setConv_other s i j e h

/-! ### setMotor -/

@[simp] theorem State.setMotor_motors (n : PortNo) (m : Motor) : (s.setMotor n m).motors = s.motors.set n m := rfl
@[simp] theorem State.setMotor_link (n : PortNo) (m : Motor) : (s.setMotor n m).link = s.link := rfl
@[simp] theorem State.setMotor_settings (n : PortNo) (m : Motor) : (s.setMotor n m).settings = s.settings := rfl
@[simp] theorem State.setMotor_bus (n : PortNo) (m : Motor) : (s.setMotor n m).bus = s.bus := rfl
@[simp] theorem State.setMotor_ports (n : PortNo) (m : Motor) : (s.setMotor n m).ports = s.ports := rfl
@[simp] theorem State.setMotor_profiles (n : PortNo) (m : Motor) : (s.setMotor n m).profiles = s.profiles := rfl
@[simp] theorem State.setMotor_service (n : PortNo) (m : Motor) : (s.setMotor n m).service = s.service := rfl
@[simp] theorem State.setMotor_scan (n : PortNo) (m : Motor) : (s.setMotor n m).scan = s.scan := rfl
@[simp] theorem State.setMotor_lines (n : PortNo) (m : Motor) : (s.setMotor n m).lines = s.lines := rfl
@[simp] theorem State.setMotor_conv (n : PortNo) (m : Motor) : (s.setMotor n m).conv = s.conv := rfl
@[simp] theorem State.setMotor_encStamp (n : PortNo) (m : Motor) : (s.setMotor n m).encStamp = s.encStamp := rfl
@[simp] theorem State.setMotor_marks (n : PortNo) (m : Motor) : (s.setMotor n m).marks = s.marks := rfl
@[simp] theorem State.setMotor_budget (n : PortNo) (m : Motor) : (s.setMotor n m).budget = s.budget := rfl
@[simp] theorem State.setMotor_sound (n : PortNo) (m : Motor) : (s.setMotor n m).sound = s.sound := rfl
@[simp] theorem State.setMotor_reactions (n : PortNo) (m : Motor) : (s.setMotor n m).reactions = s.reactions := rfl
@[simp] theorem State.setMotor_failures (n : PortNo) (m : Motor) : (s.setMotor n m).failures = s.failures := rfl
@[simp] theorem State.setMotor_blocked (n : PortNo) (m : Motor) : (s.setMotor n m).blocked = s.blocked := rfl
@[simp] theorem State.setMotor_reports (n : PortNo) (m : Motor) : (s.setMotor n m).reports = s.reports := rfl
@[simp] theorem State.setMotor_reportQueue (n : PortNo) (m : Motor) : (s.setMotor n m).reportQueue = s.reportQueue := rfl
@[simp] theorem State.setMotor_passSkipped (n : PortNo) (m : Motor) : (s.setMotor n m).passSkipped = s.passSkipped := rfl
@[simp] theorem State.setMotor_pending (n : PortNo) (m : Motor) : (s.setMotor n m).pending = s.pending := rfl
theorem State.setMotor_same (n : PortNo) (m : Motor) : (s.setMotor n m).motors[n] = m := by simp
theorem State.setMotor_other (n j : PortNo) (m : Motor) (h : n ≠ j) : (s.setMotor n m).motors[j] = s.motors[j] := by
  have h' : n.val ≠ j.val := fun e => h (Fin.ext e)
  simp [h']
theorem State.setMotor_get (n j : PortNo) (m : Motor) :
    (s.setMotor n m).motors[j] = if n = j then m else s.motors[j] := by
  by_cases h : n = j
  · subst h; simp
  · simp only [h, if_false]; exact State.setMotor_other s n j m h

/-! ### setMark -/

@[simp] theorem State.setMark_marks (n : PortNo) (m : Mark) : (s.setMark n m).marks = s.marks.set n m := rfl
@[simp] theorem State.setMark_link (n : PortNo) (m : Mark) : (s.setMark n m).link = s.link := rfl
@[simp] theorem State.setMark_settings (n : PortNo) (m : Mark) : (s.setMark n m).settings = s.settings := rfl
@[simp] theorem State.setMark_bus (n : PortNo) (m : Mark) : (s.setMark n m).bus = s.bus := rfl
@[simp] theorem State.setMark_ports (n : PortNo) (m : Mark) : (s.setMark n m).ports = s.ports := rfl
@[simp] theorem State.setMark_profiles (n : PortNo) (m : Mark) : (s.setMark n m).profiles = s.profiles := rfl
@[simp] theorem State.setMark_service (n : PortNo) (m : Mark) : (s.setMark n m).service = s.service := rfl
@[simp] theorem State.setMark_scan (n : PortNo) (m : Mark) : (s.setMark n m).scan = s.scan := rfl
@[simp] theorem State.setMark_lines (n : PortNo) (m : Mark) : (s.setMark n m).lines = s.lines := rfl
@[simp] theorem State.setMark_conv (n : PortNo) (m : Mark) : (s.setMark n m).conv = s.conv := rfl
@[simp] theorem State.setMark_encStamp (n : PortNo) (m : Mark) : (s.setMark n m).encStamp = s.encStamp := rfl
@[simp] theorem State.setMark_motors (n : PortNo) (m : Mark) : (s.setMark n m).motors = s.motors := rfl
@[simp] theorem State.setMark_budget (n : PortNo) (m : Mark) : (s.setMark n m).budget = s.budget := rfl
@[simp] theorem State.setMark_sound (n : PortNo) (m : Mark) : (s.setMark n m).sound = s.sound := rfl
@[simp] theorem State.setMark_reactions (n : PortNo) (m : Mark) : (s.setMark n m).reactions = s.reactions := rfl
@[simp] theorem State.setMark_failures (n : PortNo) (m : Mark) : (s.setMark n m).failures = s.failures := rfl
@[simp] theorem State.setMark_blocked (n : PortNo) (m : Mark) : (s.setMark n m).blocked = s.blocked := rfl
@[simp] theorem State.setMark_reports (n : PortNo) (m : Mark) : (s.setMark n m).reports = s.reports := rfl
@[simp] theorem State.setMark_reportQueue (n : PortNo) (m : Mark) : (s.setMark n m).reportQueue = s.reportQueue := rfl
@[simp] theorem State.setMark_passSkipped (n : PortNo) (m : Mark) : (s.setMark n m).passSkipped = s.passSkipped := rfl
@[simp] theorem State.setMark_pending (n : PortNo) (m : Mark) : (s.setMark n m).pending = s.pending := rfl
theorem State.setMark_same (n : PortNo) (m : Mark) : (s.setMark n m).marks[n] = m := by simp
theorem State.setMark_other (n j : PortNo) (m : Mark) (h : n ≠ j) : (s.setMark n m).marks[j] = s.marks[j] := by
  have h' : n.val ≠ j.val := fun e => h (Fin.ext e)
  simp [h']
theorem State.setMark_get (n j : PortNo) (m : Mark) :
    (s.setMark n m).marks[j] = if n = j then m else s.marks[j] := by
  by_cases h : n = j
  · subst h; simp
  · simp only [h, if_false]; exact State.setMark_other s n j m h

/-! ### setReaction -/

@[simp] theorem State.setReaction_reactions (i : Fin 24) (r : Reaction) : (s.setReaction i r).reactions = s.reactions.set i r := rfl
@[simp] theorem State.setReaction_link (i : Fin 24) (r : Reaction) : (s.setReaction i r).link = s.link := rfl
@[simp] theorem State.setReaction_settings (i : Fin 24) (r : Reaction) : (s.setReaction i r).settings = s.settings := rfl
@[simp] theorem State.setReaction_bus (i : Fin 24) (r : Reaction) : (s.setReaction i r).bus = s.bus := rfl
@[simp] theorem State.setReaction_ports (i : Fin 24) (r : Reaction) : (s.setReaction i r).ports = s.ports := rfl
@[simp] theorem State.setReaction_profiles (i : Fin 24) (r : Reaction) : (s.setReaction i r).profiles = s.profiles := rfl
@[simp] theorem State.setReaction_service (i : Fin 24) (r : Reaction) : (s.setReaction i r).service = s.service := rfl
@[simp] theorem State.setReaction_scan (i : Fin 24) (r : Reaction) : (s.setReaction i r).scan = s.scan := rfl
@[simp] theorem State.setReaction_lines (i : Fin 24) (r : Reaction) : (s.setReaction i r).lines = s.lines := rfl
@[simp] theorem State.setReaction_conv (i : Fin 24) (r : Reaction) : (s.setReaction i r).conv = s.conv := rfl
@[simp] theorem State.setReaction_encStamp (i : Fin 24) (r : Reaction) : (s.setReaction i r).encStamp = s.encStamp := rfl
@[simp] theorem State.setReaction_motors (i : Fin 24) (r : Reaction) : (s.setReaction i r).motors = s.motors := rfl
@[simp] theorem State.setReaction_marks (i : Fin 24) (r : Reaction) : (s.setReaction i r).marks = s.marks := rfl
@[simp] theorem State.setReaction_budget (i : Fin 24) (r : Reaction) : (s.setReaction i r).budget = s.budget := rfl
@[simp] theorem State.setReaction_sound (i : Fin 24) (r : Reaction) : (s.setReaction i r).sound = s.sound := rfl
@[simp] theorem State.setReaction_failures (i : Fin 24) (r : Reaction) : (s.setReaction i r).failures = s.failures := rfl
@[simp] theorem State.setReaction_blocked (i : Fin 24) (r : Reaction) : (s.setReaction i r).blocked = s.blocked := rfl
@[simp] theorem State.setReaction_reports (i : Fin 24) (r : Reaction) : (s.setReaction i r).reports = s.reports := rfl
@[simp] theorem State.setReaction_reportQueue (i : Fin 24) (r : Reaction) : (s.setReaction i r).reportQueue = s.reportQueue := rfl
@[simp] theorem State.setReaction_passSkipped (i : Fin 24) (r : Reaction) : (s.setReaction i r).passSkipped = s.passSkipped := rfl
@[simp] theorem State.setReaction_pending (i : Fin 24) (r : Reaction) : (s.setReaction i r).pending = s.pending := rfl
theorem State.setReaction_same (i : Fin 24) (r : Reaction) : (s.setReaction i r).reactions[i] = r := by simp
theorem State.setReaction_other (i j : Fin 24) (r : Reaction) (h : i ≠ j) : (s.setReaction i r).reactions[j] = s.reactions[j] := by
  have h' : i.val ≠ j.val := fun e => h (Fin.ext e)
  simp [h']
theorem State.setReaction_get (i j : Fin 24) (r : Reaction) :
    (s.setReaction i r).reactions[j] = if i = j then r else s.reactions[j] := by
  by_cases h : i = j
  · subst h; simp
  · simp only [h, if_false]; exact State.setReaction_other s i j r h

/-! ### setReport -/

@[simp] theorem State.setReport_reports (i : Fin 12) (r : Report) : (s.setReport i r).reports = s.reports.set i r := rfl
@[simp] theorem State.setReport_link (i : Fin 12) (r : Report) : (s.setReport i r).link = s.link := rfl
@[simp] theorem State.setReport_settings (i : Fin 12) (r : Report) : (s.setReport i r).settings = s.settings := rfl
@[simp] theorem State.setReport_bus (i : Fin 12) (r : Report) : (s.setReport i r).bus = s.bus := rfl
@[simp] theorem State.setReport_ports (i : Fin 12) (r : Report) : (s.setReport i r).ports = s.ports := rfl
@[simp] theorem State.setReport_profiles (i : Fin 12) (r : Report) : (s.setReport i r).profiles = s.profiles := rfl
@[simp] theorem State.setReport_service (i : Fin 12) (r : Report) : (s.setReport i r).service = s.service := rfl
@[simp] theorem State.setReport_scan (i : Fin 12) (r : Report) : (s.setReport i r).scan = s.scan := rfl
@[simp] theorem State.setReport_lines (i : Fin 12) (r : Report) : (s.setReport i r).lines = s.lines := rfl
@[simp] theorem State.setReport_conv (i : Fin 12) (r : Report) : (s.setReport i r).conv = s.conv := rfl
@[simp] theorem State.setReport_encStamp (i : Fin 12) (r : Report) : (s.setReport i r).encStamp = s.encStamp := rfl
@[simp] theorem State.setReport_motors (i : Fin 12) (r : Report) : (s.setReport i r).motors = s.motors := rfl
@[simp] theorem State.setReport_marks (i : Fin 12) (r : Report) : (s.setReport i r).marks = s.marks := rfl
@[simp] theorem State.setReport_budget (i : Fin 12) (r : Report) : (s.setReport i r).budget = s.budget := rfl
@[simp] theorem State.setReport_sound (i : Fin 12) (r : Report) : (s.setReport i r).sound = s.sound := rfl
@[simp] theorem State.setReport_reactions (i : Fin 12) (r : Report) : (s.setReport i r).reactions = s.reactions := rfl
@[simp] theorem State.setReport_failures (i : Fin 12) (r : Report) : (s.setReport i r).failures = s.failures := rfl
@[simp] theorem State.setReport_blocked (i : Fin 12) (r : Report) : (s.setReport i r).blocked = s.blocked := rfl
@[simp] theorem State.setReport_reportQueue (i : Fin 12) (r : Report) : (s.setReport i r).reportQueue = s.reportQueue := rfl
@[simp] theorem State.setReport_passSkipped (i : Fin 12) (r : Report) : (s.setReport i r).passSkipped = s.passSkipped := rfl
@[simp] theorem State.setReport_pending (i : Fin 12) (r : Report) : (s.setReport i r).pending = s.pending := rfl
theorem State.setReport_same (i : Fin 12) (r : Report) : (s.setReport i r).reports[i] = r := by simp
theorem State.setReport_other (i j : Fin 12) (r : Report) (h : i ≠ j) : (s.setReport i r).reports[j] = s.reports[j] := by
  have h' : i.val ≠ j.val := fun e => h (Fin.ext e)
  simp [h']
theorem State.setReport_get (i j : Fin 12) (r : Report) :
    (s.setReport i r).reports[j] = if i = j then r else s.reports[j] := by
  by_cases h : i = j
  · subst h; simp
  · simp only [h, if_false]; exact State.setReport_other s i j r h

/-! ### post -/

@[simp] theorem State.post_bus (kind : EventKind) (index detail : Byte) : (s.post kind index detail).bus = s.bus.post kind index detail := rfl
@[simp] theorem State.post_link (kind : EventKind) (index detail : Byte) : (s.post kind index detail).link = s.link := rfl
@[simp] theorem State.post_settings (kind : EventKind) (index detail : Byte) : (s.post kind index detail).settings = s.settings := rfl
@[simp] theorem State.post_ports (kind : EventKind) (index detail : Byte) : (s.post kind index detail).ports = s.ports := rfl
@[simp] theorem State.post_profiles (kind : EventKind) (index detail : Byte) : (s.post kind index detail).profiles = s.profiles := rfl
@[simp] theorem State.post_service (kind : EventKind) (index detail : Byte) : (s.post kind index detail).service = s.service := rfl
@[simp] theorem State.post_scan (kind : EventKind) (index detail : Byte) : (s.post kind index detail).scan = s.scan := rfl
@[simp] theorem State.post_lines (kind : EventKind) (index detail : Byte) : (s.post kind index detail).lines = s.lines := rfl
@[simp] theorem State.post_conv (kind : EventKind) (index detail : Byte) : (s.post kind index detail).conv = s.conv := rfl
@[simp] theorem State.post_encStamp (kind : EventKind) (index detail : Byte) : (s.post kind index detail).encStamp = s.encStamp := rfl
@[simp] theorem State.post_motors (kind : EventKind) (index detail : Byte) : (s.post kind index detail).motors = s.motors := rfl
@[simp] theorem State.post_marks (kind : EventKind) (index detail : Byte) : (s.post kind index detail).marks = s.marks := rfl
@[simp] theorem State.post_budget (kind : EventKind) (index detail : Byte) : (s.post kind index detail).budget = s.budget := rfl
@[simp] theorem State.post_sound (kind : EventKind) (index detail : Byte) : (s.post kind index detail).sound = s.sound := rfl
@[simp] theorem State.post_reactions (kind : EventKind) (index detail : Byte) : (s.post kind index detail).reactions = s.reactions := rfl
@[simp] theorem State.post_failures (kind : EventKind) (index detail : Byte) : (s.post kind index detail).failures = s.failures := rfl
@[simp] theorem State.post_blocked (kind : EventKind) (index detail : Byte) : (s.post kind index detail).blocked = s.blocked := rfl
@[simp] theorem State.post_reports (kind : EventKind) (index detail : Byte) : (s.post kind index detail).reports = s.reports := rfl
@[simp] theorem State.post_reportQueue (kind : EventKind) (index detail : Byte) : (s.post kind index detail).reportQueue = s.reportQueue := rfl
@[simp] theorem State.post_passSkipped (kind : EventKind) (index detail : Byte) : (s.post kind index detail).passSkipped = s.passSkipped := rfl
@[simp] theorem State.post_pending (kind : EventKind) (index detail : Byte) : (s.post kind index detail).pending = s.pending := rfl

/-! ### notify -/

@[simp] theorem State.notify_bus (body : NoticeBody) : (s.notify body).bus = s.bus.notify body := rfl
@[simp] theorem State.notify_link (body : NoticeBody) : (s.notify body).link = s.link := rfl
@[simp] theorem State.notify_settings (body : NoticeBody) : (s.notify body).settings = s.settings := rfl
@[simp] theorem State.notify_ports (body : NoticeBody) : (s.notify body).ports = s.ports := rfl
@[simp] theorem State.notify_profiles (body : NoticeBody) : (s.notify body).profiles = s.profiles := rfl
@[simp] theorem State.notify_service (body : NoticeBody) : (s.notify body).service = s.service := rfl
@[simp] theorem State.notify_scan (body : NoticeBody) : (s.notify body).scan = s.scan := rfl
@[simp] theorem State.notify_lines (body : NoticeBody) : (s.notify body).lines = s.lines := rfl
@[simp] theorem State.notify_conv (body : NoticeBody) : (s.notify body).conv = s.conv := rfl
@[simp] theorem State.notify_encStamp (body : NoticeBody) : (s.notify body).encStamp = s.encStamp := rfl
@[simp] theorem State.notify_motors (body : NoticeBody) : (s.notify body).motors = s.motors := rfl
@[simp] theorem State.notify_marks (body : NoticeBody) : (s.notify body).marks = s.marks := rfl
@[simp] theorem State.notify_budget (body : NoticeBody) : (s.notify body).budget = s.budget := rfl
@[simp] theorem State.notify_sound (body : NoticeBody) : (s.notify body).sound = s.sound := rfl
@[simp] theorem State.notify_reactions (body : NoticeBody) : (s.notify body).reactions = s.reactions := rfl
@[simp] theorem State.notify_failures (body : NoticeBody) : (s.notify body).failures = s.failures := rfl
@[simp] theorem State.notify_blocked (body : NoticeBody) : (s.notify body).blocked = s.blocked := rfl
@[simp] theorem State.notify_reports (body : NoticeBody) : (s.notify body).reports = s.reports := rfl
@[simp] theorem State.notify_reportQueue (body : NoticeBody) : (s.notify body).reportQueue = s.reportQueue := rfl
@[simp] theorem State.notify_passSkipped (body : NoticeBody) : (s.notify body).passSkipped = s.passSkipped := rfl
@[simp] theorem State.notify_pending (body : NoticeBody) : (s.notify body).pending = s.pending := rfl

/-! ### finish -/

@[simp] theorem State.finish_link (order : Nat) (status : Status) (result : List Byte) : (s.finish order status result).link = s.link.finish order { status := status, result := result } := rfl
@[simp] theorem State.finish_settings (order : Nat) (status : Status) (result : List Byte) : (s.finish order status result).settings = s.settings := rfl
@[simp] theorem State.finish_bus (order : Nat) (status : Status) (result : List Byte) : (s.finish order status result).bus = s.bus := rfl
@[simp] theorem State.finish_ports (order : Nat) (status : Status) (result : List Byte) : (s.finish order status result).ports = s.ports := rfl
@[simp] theorem State.finish_profiles (order : Nat) (status : Status) (result : List Byte) : (s.finish order status result).profiles = s.profiles := rfl
@[simp] theorem State.finish_service (order : Nat) (status : Status) (result : List Byte) : (s.finish order status result).service = s.service := rfl
@[simp] theorem State.finish_scan (order : Nat) (status : Status) (result : List Byte) : (s.finish order status result).scan = s.scan := rfl
@[simp] theorem State.finish_lines (order : Nat) (status : Status) (result : List Byte) : (s.finish order status result).lines = s.lines := rfl
@[simp] theorem State.finish_conv (order : Nat) (status : Status) (result : List Byte) : (s.finish order status result).conv = s.conv := rfl
@[simp] theorem State.finish_encStamp (order : Nat) (status : Status) (result : List Byte) : (s.finish order status result).encStamp = s.encStamp := rfl
@[simp] theorem State.finish_motors (order : Nat) (status : Status) (result : List Byte) : (s.finish order status result).motors = s.motors := rfl
@[simp] theorem State.finish_marks (order : Nat) (status : Status) (result : List Byte) : (s.finish order status result).marks = s.marks := rfl
@[simp] theorem State.finish_budget (order : Nat) (status : Status) (result : List Byte) : (s.finish order status result).budget = s.budget := rfl
@[simp] theorem State.finish_sound (order : Nat) (status : Status) (result : List Byte) : (s.finish order status result).sound = s.sound := rfl
@[simp] theorem State.finish_reactions (order : Nat) (status : Status) (result : List Byte) : (s.finish order status result).reactions = s.reactions := rfl
@[simp] theorem State.finish_failures (order : Nat) (status : Status) (result : List Byte) : (s.finish order status result).failures = s.failures := rfl
@[simp] theorem State.finish_blocked (order : Nat) (status : Status) (result : List Byte) : (s.finish order status result).blocked = s.blocked := rfl
@[simp] theorem State.finish_reports (order : Nat) (status : Status) (result : List Byte) : (s.finish order status result).reports = s.reports := rfl
@[simp] theorem State.finish_reportQueue (order : Nat) (status : Status) (result : List Byte) : (s.finish order status result).reportQueue = s.reportQueue := rfl
@[simp] theorem State.finish_passSkipped (order : Nat) (status : Status) (result : List Byte) : (s.finish order status result).passSkipped = s.passSkipped := rfl
@[simp] theorem State.finish_pending (order : Nat) (status : Status) (result : List Byte) : (s.finish order status result).pending = s.pending := rfl

/-! ### transmitNext -/

/-- Everything the transmitter's choice can do: `tx`, and the head of the notice or report queue. -/
theorem State.transmitNext_frame :
    ∃ tx notices reports,
      s.transmitNext =
        { s with link := { s.link with tx := tx },
                 bus := { s.bus with notices := notices },
                 reportQueue := reports } ∧
      (∃ k, notices = s.bus.notices.drop k) ∧ (∃ k, reports = s.reportQueue.drop k) := by
  unfold State.transmitNext
  split
  · exact ⟨_, _, _, rfl, ⟨0, rfl⟩, ⟨0, rfl⟩⟩
  · split
    · exact ⟨_, _, _, rfl, ⟨0, rfl⟩, ⟨0, rfl⟩⟩
    · rename_i n ns _ hn; exact ⟨_, ns, _, rfl, ⟨1, by simp [hn]⟩, ⟨0, rfl⟩⟩
    · rename_i r rs _ _ hr; exact ⟨_, s.bus.notices, rs, rfl, ⟨0, rfl⟩, ⟨1, by simp [hr]⟩⟩
    · exact ⟨_, _, _, rfl, ⟨0, rfl⟩, ⟨0, rfl⟩⟩

@[simp] theorem State.transmitNext_settings : s.transmitNext.settings = s.settings := by
  obtain ⟨_, _, _, h, _⟩ := s.transmitNext_frame; rw [h]
@[simp] theorem State.transmitNext_ports : s.transmitNext.ports = s.ports := by
  obtain ⟨_, _, _, h, _⟩ := s.transmitNext_frame; rw [h]
@[simp] theorem State.transmitNext_profiles : s.transmitNext.profiles = s.profiles := by
  obtain ⟨_, _, _, h, _⟩ := s.transmitNext_frame; rw [h]
@[simp] theorem State.transmitNext_service : s.transmitNext.service = s.service := by
  obtain ⟨_, _, _, h, _⟩ := s.transmitNext_frame; rw [h]
@[simp] theorem State.transmitNext_scan : s.transmitNext.scan = s.scan := by
  obtain ⟨_, _, _, h, _⟩ := s.transmitNext_frame; rw [h]
@[simp] theorem State.transmitNext_lines : s.transmitNext.lines = s.lines := by
  obtain ⟨_, _, _, h, _⟩ := s.transmitNext_frame; rw [h]
@[simp] theorem State.transmitNext_conv : s.transmitNext.conv = s.conv := by
  obtain ⟨_, _, _, h, _⟩ := s.transmitNext_frame; rw [h]
@[simp] theorem State.transmitNext_encStamp : s.transmitNext.encStamp = s.encStamp := by
  obtain ⟨_, _, _, h, _⟩ := s.transmitNext_frame; rw [h]
@[simp] theorem State.transmitNext_motors : s.transmitNext.motors = s.motors := by
  obtain ⟨_, _, _, h, _⟩ := s.transmitNext_frame; rw [h]
@[simp] theorem State.transmitNext_marks : s.transmitNext.marks = s.marks := by
  obtain ⟨_, _, _, h, _⟩ := s.transmitNext_frame; rw [h]
@[simp] theorem State.transmitNext_budget : s.transmitNext.budget = s.budget := by
  obtain ⟨_, _, _, h, _⟩ := s.transmitNext_frame; rw [h]
@[simp] theorem State.transmitNext_sound : s.transmitNext.sound = s.sound := by
  obtain ⟨_, _, _, h, _⟩ := s.transmitNext_frame; rw [h]
@[simp] theorem State.transmitNext_reactions : s.transmitNext.reactions = s.reactions := by
  obtain ⟨_, _, _, h, _⟩ := s.transmitNext_frame; rw [h]
@[simp] theorem State.transmitNext_failures : s.transmitNext.failures = s.failures := by
  obtain ⟨_, _, _, h, _⟩ := s.transmitNext_frame; rw [h]
@[simp] theorem State.transmitNext_blocked : s.transmitNext.blocked = s.blocked := by
  obtain ⟨_, _, _, h, _⟩ := s.transmitNext_frame; rw [h]
@[simp] theorem State.transmitNext_reports : s.transmitNext.reports = s.reports := by
  obtain ⟨_, _, _, h, _⟩ := s.transmitNext_frame; rw [h]
@[simp] theorem State.transmitNext_passSkipped : s.transmitNext.passSkipped = s.passSkipped := by
  obtain ⟨_, _, _, h, _⟩ := s.transmitNext_frame; rw [h]
@[simp] theorem State.transmitNext_pending : s.transmitNext.pending = s.pending := by
  obtain ⟨_, _, _, h, _⟩ := s.transmitNext_frame; rw [h]
@[simp] theorem State.transmitNext_link_receiver : s.transmitNext.link.receiver = s.link.receiver := by
  obtain ⟨_, _, _, h, _⟩ := s.transmitNext_frame; rw [h]
@[simp] theorem State.transmitNext_link_intake : s.transmitNext.link.intake = s.link.intake := by
  obtain ⟨_, _, _, h, _⟩ := s.transmitNext_frame; rw [h]
@[simp] theorem State.transmitNext_link_places : s.transmitNext.link.places = s.link.places := by
  obtain ⟨_, _, _, h, _⟩ := s.transmitNext_frame; rw [h]
@[simp] theorem State.transmitNext_link_nextOrder : s.transmitNext.link.nextOrder = s.link.nextOrder := by
  obtain ⟨_, _, _, h, _⟩ := s.transmitNext_frame; rw [h]
@[simp] theorem State.transmitNext_link_resetOrder : s.transmitNext.link.resetOrder = s.link.resetOrder := by
  obtain ⟨_, _, _, h, _⟩ := s.transmitNext_frame; rw [h]
@[simp] theorem State.transmitNext_link_state : s.transmitNext.link.state = s.link.state := by
  obtain ⟨_, _, _, h, _⟩ := s.transmitNext_frame; rw [h]
@[simp] theorem State.transmitNext_link_strap : s.transmitNext.link.strap = s.link.strap := by
  obtain ⟨_, _, _, h, _⟩ := s.transmitNext_frame; rw [h]
@[simp] theorem State.transmitNext_link_cause : s.transmitNext.link.cause = s.link.cause := by
  obtain ⟨_, _, _, h, _⟩ := s.transmitNext_frame; rw [h]
@[simp] theorem State.transmitNext_link_silence : s.transmitNext.link.silence = s.link.silence := by
  obtain ⟨_, _, _, h, _⟩ := s.transmitNext_frame; rw [h]
@[simp] theorem State.transmitNext_link_framesGood : s.transmitNext.link.framesGood = s.link.framesGood := by
  obtain ⟨_, _, _, h, _⟩ := s.transmitNext_frame; rw [h]
@[simp] theorem State.transmitNext_link_lengthErrors : s.transmitNext.link.lengthErrors = s.link.lengthErrors := by
  obtain ⟨_, _, _, h, _⟩ := s.transmitNext_frame; rw [h]
@[simp] theorem State.transmitNext_link_checkErrors : s.transmitNext.link.checkErrors = s.link.checkErrors := by
  obtain ⟨_, _, _, h, _⟩ := s.transmitNext_frame; rw [h]
@[simp] theorem State.transmitNext_link_gapErrors : s.transmitNext.link.gapErrors = s.link.gapErrors := by
  obtain ⟨_, _, _, h, _⟩ := s.transmitNext_frame; rw [h]
@[simp] theorem State.transmitNext_link_byteErrors : s.transmitNext.link.byteErrors = s.link.byteErrors := by
  obtain ⟨_, _, _, h, _⟩ := s.transmitNext_frame; rw [h]
@[simp] theorem State.transmitNext_link_intakeDrops : s.transmitNext.link.intakeDrops = s.link.intakeDrops := by
  obtain ⟨_, _, _, h, _⟩ := s.transmitNext_frame; rw [h]
@[simp] theorem State.transmitNext_link_silenceCount : s.transmitNext.link.silenceCount = s.link.silenceCount := by
  obtain ⟨_, _, _, h, _⟩ := s.transmitNext_frame; rw [h]
@[simp] theorem State.transmitNext_bus_stamp : s.transmitNext.bus.stamp = s.bus.stamp := by
  obtain ⟨_, _, _, h, _⟩ := s.transmitNext_frame; rw [h]
@[simp] theorem State.transmitNext_bus_events : s.transmitNext.bus.events = s.bus.events := by
  obtain ⟨_, _, _, h, _⟩ := s.transmitNext_frame; rw [h]
@[simp] theorem State.transmitNext_bus_overflow : s.transmitNext.bus.overflow = s.bus.overflow := by
  obtain ⟨_, _, _, h, _⟩ := s.transmitNext_frame; rw [h]
@[simp] theorem State.transmitNext_bus_dispatch : s.transmitNext.bus.dispatch = s.bus.dispatch := by
  obtain ⟨_, _, _, h, _⟩ := s.transmitNext_frame; rw [h]
@[simp] theorem State.transmitNext_bus_dropped : s.transmitNext.bus.dropped = s.bus.dropped := by
  obtain ⟨_, _, _, h, _⟩ := s.transmitNext_frame; rw [h]
@[simp] theorem State.transmitNext_bus_noticesDropped : s.transmitNext.bus.noticesDropped = s.bus.noticesDropped := by
  obtain ⟨_, _, _, h, _⟩ := s.transmitNext_frame; rw [h]

end Sys2Proof.Machine
end

