-- ==== Sys2Proof/Laws/Motors.lean ====
section
/-! SUPPORT. What each motor operation leaves in the channel records, said once. -/

namespace Sys2Proof.Machine

@[simp] theorem Motor.ended_mode (m : Motor) (o : Outcome) : (m.ended o).mode = m.mode := by
  unfold Motor.ended; split <;> rfl
@[simp] theorem Motor.ended_regTimer (m : Motor) (o : Outcome) : (m.ended o).regTimer = m.regTimer := by
  unfold Motor.ended; split <;> rfl
@[simp] theorem Motor.ended_dutyRequest (m : Motor) (o : Outcome) : (m.ended o).dutyRequest = m.dutyRequest := by
  unfold Motor.ended; split <;> rfl
@[simp] theorem Motor.ended_dutyGrant (m : Motor) (o : Outcome) : (m.ended o).dutyGrant = m.dutyGrant := by
  unfold Motor.ended; split <;> rfl
@[simp] theorem Motor.ended_allowance (m : Motor) (o : Outcome) : (m.ended o).allowance = m.allowance := by
  unfold Motor.ended; split <;> rfl
@[simp] theorem Motor.ended_position (m : Motor) (o : Outcome) : (m.ended o).position = m.position := by
  unfold Motor.ended; split <;> rfl

theorem vector_set_self {α : Type} {n : Nat} (v : Vector α n) (i : Fin n) : v.set i v[i] = v := by simp

/-- R85: the end of an operation changes one channel. -/
theorem State.endOperation_motors (s : State) (n : PortNo) (o : Outcome) :
    (s.endOperation n o).motors = s.motors.set n (s.motors[n].ended o) := by
  unfold State.endOperation Motor.ended
  dsimp only
  split
  · split <;> rfl
  · exact (vector_set_self _ _).symm

/-- R86, R88: a stop ends the operation and leaves COAST or BRAKE. -/
theorem State.stopMotor_motors (s : State) (n : PortNo) (o : Outcome) (mode : MotorMode) :
    (s.stopMotor n o mode).motors = s.motors.set n ((s.motors[n].ended o).stopped mode) := by
  simp [State.stopMotor, State.endOperation_motors]

/-- R105, R106: a stop from outside changes a driving channel only. -/
theorem State.safeEnd_motors (s : State) (n : PortNo) (o : Outcome) :
    (s.safeEnd n o).motors =
      s.motors.set n (if s.motors[n].mode.driving then (s.motors[n].ended o).stopped (s.safeMode n) else s.motors[n]) := by
  unfold State.safeEnd
  split
  · rw [State.stopMotor_motors]
  · exact (vector_set_self _ _).symm

/-- R86: a safe action is COAST or BRAKE. -/
@[simp] theorem SafeAction.mode_driving (a : SafeAction) : a.mode.driving = false := by cases a <;> rfl
@[simp] theorem State.safeMode_driving (s : State) (n : PortNo) : (s.safeMode n).driving = false := by
  unfold State.safeMode
  split
  · exact SafeAction.mode_driving _
  · rfl

/-- R107: the loss of a binding changes one channel. -/
theorem State.loseMotor_motors (s : State) (n : PortNo) (o : Outcome) :
    (s.loseMotor n o).motors =
      s.motors.set n (if s.motors[n].regTimer.isSome then (s.motors[n].ended o).lose else s.motors[n]) := by
  unfold State.loseMotor
  split
  · rename_i h
    rw [h]
    exact (vector_set_self _ _).symm
  · rename_i h
    rw [h]
    simp [State.endOperation_motors]

/-- R86: the end of a RUN_TO or RUN_FOR changes one channel. -/
theorem State.finishMotor_motors (s : State) (n : PortNo) (target : Word) :
    (s.finishMotor n target).motors = s.motors.set n
      (match s.motors[n].endAction with
       | .coast => (s.motors[n].ended .done).stopped .coast
       | .brake => (s.motors[n].ended .done).stopped .brake
       | .hold => (s.motors[n].ended .done).beginHold s.motors[n].notify target) := by
  unfold State.finishMotor
  dsimp only
  cases s.motors[n].endAction <;> simp [State.stopMotor_motors, State.endOperation_motors]

/-- R88–R95: an operation changes one channel. -/
theorem State.runMotorOp_motors (s : State) (n : PortNo) (op : MotorOp) (notify : Bool) :
    (s.runMotorOp n op notify).motors = s.motors.set n
      (match op with
       | .coast => (s.motors[n].ended .stopped).stopped .coast
       | .brake => (s.motors[n].ended .stopped).stopped .brake
       | .setCount v => { s.motors[n] with position := v, prevPosition := v }
       | .duty _ | .speed _ | .runTo .. | .runFor .. | .hold | .follow .. =>
         (s.motors[n].ended .superseded).start op notify s.bus.stamp) := by
  have hst : (s.endOperation n .superseded).bus.stamp = s.bus.stamp := by
    unfold State.endOperation
    dsimp only
    split
    · split <;> simp [State.notify, State.post]
    · rfl
  unfold State.runMotorOp
  cases op <;> simp [State.stopMotor_motors, State.endOperation_motors, hst]

/-- R83: what COAST and BRAKE leave of the drive. -/
@[simp] theorem Motor.stopped_mode (m : Motor) (mode : MotorMode) : (m.stopped mode).mode = mode := rfl
@[simp] theorem Motor.lose_mode (m : Motor) : m.lose.mode = .coast := rfl
@[simp] theorem Motor.bind_mode (m : Motor) (p : Profile) : (m.bind p).mode = .coast := rfl

end Sys2Proof.Machine
end

