-- ==== Sys2Proof/Laws/Steps.lean ====
section
/-! SUPPORT. How a property passes through taking, handling and answering a command: what every command row can do,
said once over the handlers. -/

namespace Sys2Proof.Machine

/-- The state a handler leaves. -/
def Reply.state : Reply → State
  | .answered _ _ s => s
  | .deferred s => s

@[simp] theorem Reply.state_answered (st : Status) (r : List Byte) (s : State) : (Reply.answered st r s).state = s := rfl
@[simp] theorem Reply.state_deferred (s : State) : (Reply.deferred s).state = s := rfl
@[simp] theorem Reply.state_refuse (st : Status) (s : State) : (refuse s st).state = s := rfl
@[simp] theorem Reply.state_taken (a : Bool) (s : State) : (taken a s).state = s := rfl
@[simp] theorem Reply.state_badEntry (i : Nat) (s : State) : (badEntry s i).state = s := rfl

/-- P passes through what the link controller does around a command. -/
structure LinkKeeps (P : State → Prop) : Prop where
  reserve  : ∀ s kind tag, s.link.canTake = true → P s → P { s with link := s.link.reserve kind tag }
  finish   : ∀ s order status result, P s → P (s.finish order status result)
  offer    : ∀ s f, P s → P (s.offerFrame f)
  take     : ∀ s f rest, s.link.intake = f :: rest → P s → P { s with link := { s.link with intake := rest } }
  transmit : ∀ s, P s → P s.transmitNext

/-- P passes through every handler. -/
structure HandlersKeep (P : State → Prop) : Prop where
  write  : ∀ s t first count data, P s → P (State.tableWrite s t first count data).state
  motor  : ∀ s channel notify op, P s → P (State.motorCommand s channel notify op).state
  sound  : ∀ s op, P s → P (State.soundCommand s op).state
  scan   : ∀ s op, P s → P (State.scanCommand s op).state
  port   : ∀ s port op adjusted order, P s → P (State.portCommand s port op adjusted order).state
  report : ∀ s entry, P s → P (State.reportNowCommand s entry).state
  reset  : ∀ s payload order, P s → P (State.resetCommand s payload order).state

/-- A TABLE WRITE passes the generic checks to the owner, or is refused. -/
theorem HandlersKeep.tableWriteCommand {P : State → Prop} (h : HandlersKeep P) (s : State) (payload : List Byte)
    (hs : P s) : P (s.tableWriteCommand payload).state := by
  unfold State.tableWriteCommand
  split
  · split
    · split
      · exact h.write _ _ _ _ _ hs
      · exact hs
    · exact hs
  · exact hs

/-- A TABLE READ changes nothing. -/
theorem State.tableReadCommand_state (s : State) (payload : List Byte) : (s.tableReadCommand payload).state = s := by
  unfold State.tableReadCommand
  split
  · split
    · dsimp only; split
      · rfl
      · split <;> rfl
    · rfl
  · rfl

/-- STATE changes nothing. -/
theorem State.stateCommand_state (s : State) (payload : List Byte) : (s.stateCommand payload).state = s := by
  unfold State.stateCommand; split <;> rfl

/-- Handling a frame of any kind and payload. -/
theorem HandlersKeep.handle {P : State → Prop} (h : HandlersKeep P) (s : State) (kind : Byte) (payload : List Byte)
    (order : Nat) (hs : P s) : P (s.handle kind payload order).state := by
  unfold State.handle
  split
  · exact h.tableWriteCommand s payload hs
  · rw [State.tableReadCommand_state]; exact hs
  · unfold State.motorPayloadCommand
    split
    · split
      · exact h.motor _ _ _ _ hs
      · exact hs
    · exact hs
  · unfold State.soundPayloadCommand
    split
    · split
      · exact h.sound _ _ hs
      · exact hs
    · exact hs
  · unfold State.scanPayloadCommand
    split
    · exact h.scan _ _ hs
    · exact hs
  · unfold State.portPayloadCommand
    split
    · split
      · exact h.port _ _ _ _ _ hs
      · exact hs
    · exact hs
  · unfold State.reportPayloadCommand
    split
    · exact h.report _ _ hs
    · exact hs
  · rw [State.stateCommand_state]; exact hs
  · exact h.reset _ _ _ hs
  · exact hs

/-- A command that is taken. -/
theorem LinkKeeps.carryOut {P : State → Prop} (h : LinkKeeps P) (s : State) (kind tag : Byte)
    (act : State → Nat → Reply) (ha : ∀ t order, P t → P (act t order).state) (hc : s.link.canTake = true) (hs : P s) :
    P (s.carryOut kind tag act) := by
  unfold State.carryOut
  have h1 := ha _ s.link.nextOrder (h.reserve s kind tag hc hs)
  split
  · rename_i e; rw [e] at h1; exact h.finish _ _ _ _ h1
  · rename_i e; rw [e] at h1; exact h1

/-- Taking the frames that wait. -/
theorem LinkKeeps.takeFrames {P : State → Prop} (h : LinkKeeps P) (hh : HandlersKeep P) (fuel : Nat) (s : State)
    (hs : P s) : P (s.takeFrames fuel) := by
  induction fuel generalizing s with
  | zero => exact hs
  | succ fuel ih =>
    unfold State.takeFrames
    split
    · exact hs
    · rename_i f rest hi
      split
      · rename_i hc
        exact ih _ (h.carryOut _ _ _ _ (fun t order ht => hh.handle t _ _ order ht) hc (h.take s f rest hi hs))
      · exact hs

/-- A command at the door of the intake. -/
theorem LinkKeeps.submit {P : State → Prop} (h : LinkKeeps P) (hh : HandlersKeep P) (s : State) (f : Frame)
    (act : State → Nat → Reply) (ha : ∀ t order, P t → P (act t order).state) (hs : P s) : P (s.submit f act) := by
  unfold State.submit
  split
  · rename_i hc; exact h.carryOut _ _ _ _ ha hc.2 hs
  · exact h.takeFrames hh _ _ (h.offer _ _ hs)

/-- A step that answers a next state with P. -/
def EndsWith (P : State → Prop) : Host.Outcome State Fault Refusal → Prop
  | .next t => P t
  | .fault _ => True
  | .refused _ => True

/-- A command row. -/
theorem LinkKeeps.command {P : State → Prop} (h : LinkKeeps P) (hh : HandlersKeep P) (kind tag : Byte)
    (payload : List Byte) (act : State → Nat → Reply) (ha : ∀ t order, P t → P (act t order).state) (s : State)
    (hs : P s) : EndsWith P (command kind tag payload act s) :=
  h.transmit _ (h.submit hh _ _ _ ha hs)

/-- The rows that are commands of the link. -/
def isCommand : Instr → Bool
    | .unknownKind .. | .tableWrite .. | .settingsWrite .. | .profilesWrite .. | .scanListWrite .. |
  .conversionWrite .. | .reactionsWrite .. | .marksWrite .. | .budgetWrite .. | .reportsWrite .. |
  .clipsWrite .. | .sampleStoreWrite .. | .tableRead .. | .state .. | .reset .. | .motorCoast .. |
  .motorBrake .. | .motorDuty .. | .motorSpeed .. | .motorRunTo .. | .motorRunFor .. | .motorHold .. |
  .motorFollow .. | .motorSetCount .. | .soundTone .. | .soundClip .. | .soundFlush .. | .soundVolume .. |
  .soundStopTone .. | .soundStopClip .. | .soundStopAll .. | .scanStart .. | .scanSingle .. | .scanStop ..
  | .portSend .. | .portServiceOn .. | .portServiceOff .. | .portForward .. | .portProbe .. |
  .reportNow .. => true
    | .powerOnReset .. | .frameReceived .. | .gapTimeout | .silenceTimeout | .stampTick |
  .frameTransmitted | .detChange .. | .detDebounceExpiry .. | .idConversionDone .. | .queryTryDue .. |
  .deviceFrameSent .. | .queryWindowClose .. | .identReceived .. | .dataReceived .. | .ackReceived .. |
  .nakReceived .. | .badDeviceFrame .. | .pollTimerExpiry .. | .pollWindowClose .. | .writeWindowClose ..
  | .reprobeExpiry .. | .digitalLineChange .. | .lineDebounceExpiry .. | .quadratureChange .. |
  .pulseEdge .. | .noEdgeExpiry .. | .scanConversionDone .. | .regulationExpiry .. | .runForExpiry .. |
  .budgetWindowExpiry | .outputSample | .noteDurationExpiry | .eventDispatch | .reportPeriodExpiry ..
  | .minIntervalExpiry .. => false

/-- Every command row keeps a property that the link controller's bookkeeping and the handlers keep. -/
theorem LinkKeeps.commands {P : State → Prop} (h : LinkKeeps P) (hh : HandlersKeep P) (c : Instr)
    (hc : isCommand c = true) (s : State) (hs : P s) : EndsWith P (exec c s) := by
  have write : ∀ (t : Table) tag first count data, EndsWith P (writeCommand t tag first count data s) :=
    fun t tag first count data => h.command hh _ _ _ _ (fun u _ hu => hh.write u t _ _ _ hu) s hs
  have motor : ∀ code tag channel notify args op, EndsWith P (motorRow code tag channel notify args op s) :=
    fun code tag channel notify args op => h.command hh _ _ _ _ (fun u _ hu => hh.motor u _ _ _ hu) s hs
  have motorEnd : ∀ code tag channel notify args endAction op,
      EndsWith P (motorEndRow code tag channel notify args endAction op s) := by
    intro code tag channel notify args endAction op
    unfold motorEndRow
    split
    · exact motor _ _ _ _ _ _
    · exact h.command hh _ _ _ (fun u _ => refuse u .badLength) (fun u _ hu => hu) s hs
  have sound : ∀ code tag args op, EndsWith P (soundRow code tag args op s) :=
    fun code tag args op => h.command hh _ _ _ _ (fun u _ hu => hh.sound u _ hu) s hs
  have port : ∀ code tag p args op adj, EndsWith P (portRow code tag p args op adj s) :=
    fun code tag p args op adj => h.command hh _ _ _ _ (fun u o hu => hh.port u _ _ _ o hu) s hs
  cases c
  case unknownKind => exact h.command hh _ _ _ _ (fun u o hu => hh.handle u _ _ o hu) s hs
  case tableWrite => exact h.command hh _ _ _ _ (fun u _ hu => hh.tableWriteCommand u _ hu) s hs
  case tableRead =>
    exact h.command hh _ _ _ _ (fun u _ hu => by rw [State.tableReadCommand_state]; exact hu) s hs
  case state => exact h.command hh _ _ _ _ (fun u _ hu => by rw [State.stateCommand_state]; exact hu) s hs
  case reset => exact h.command hh _ _ _ _ (fun u o hu => hh.reset u _ o hu) s hs
  case soundTone =>
    simp only [exec, execSoundTone]
    split
    · exact sound _ _ _ _
    · exact h.command hh _ _ _ (fun u _ => refuse u .badLength) (fun u _ hu => hu) s hs
  case portSend =>
    simp only [exec, execPortSend]
    split
    · exact port _ _ _ _ _ _
    · exact h.command hh _ _ _ (fun u _ => refuse u .badLength) (fun u _ hu => hu) s hs
  case scanStart => exact h.command hh _ _ _ _ (fun u _ hu => hh.scan u _ hu) s hs
  case scanSingle => exact h.command hh _ _ _ _ (fun u _ hu => hh.scan u _ hu) s hs
  case scanStop => exact h.command hh _ _ _ _ (fun u _ hu => hh.scan u _ hu) s hs
  case reportNow => exact h.command hh _ _ _ _ (fun u _ hu => hh.report u _ hu) s hs
  case settingsWrite => exact write _ _ _ _ _
  case profilesWrite => exact write _ _ _ _ _
  case scanListWrite => exact write _ _ _ _ _
  case conversionWrite => exact write _ _ _ _ _
  case reactionsWrite => exact write _ _ _ _ _
  case marksWrite => exact write _ _ _ _ _
  case budgetWrite => exact write _ _ _ _ _
  case reportsWrite => exact write _ _ _ _ _
  case clipsWrite => exact write _ _ _ _ _
  case sampleStoreWrite => exact write _ _ _ _ _
  case motorCoast => exact motor _ _ _ _ _ _
  case motorBrake => exact motor _ _ _ _ _ _
  case motorDuty => exact motor _ _ _ _ _ _
  case motorSpeed => exact motor _ _ _ _ _ _
  case motorRunTo => exact motorEnd _ _ _ _ _ _ _
  case motorRunFor => exact motorEnd _ _ _ _ _ _ _
  case motorHold => exact motor _ _ _ _ _ _
  case motorFollow => exact motor _ _ _ _ _ _
  case motorSetCount => exact motor _ _ _ _ _ _
  case soundClip => exact sound _ _ _ _
  case soundFlush => exact sound _ _ _ _
  case soundVolume => exact sound _ _ _ _
  case soundStopTone => exact sound _ _ _ _
  case soundStopClip => exact sound _ _ _ _
  case soundStopAll => exact sound _ _ _ _
  case portServiceOn => exact port _ _ _ _ _ _
  case portServiceOff => exact port _ _ _ _ _ _
  case portForward => exact port _ _ _ _ _ _
  case portProbe => exact port _ _ _ _ _ _
  all_goals exact absurd hc (by simp [isCommand])

end Sys2Proof.Machine
end

