-- ==== Sys2Proof/Tests/Slice0.lean ====
section
/-! SUPPORT. Tests: ill-formed commands that WellFormed refuses; one-step tests, most from the worked examples of spec/
(each names its source); and for every statement with hypotheses a witness that meets them, clause by clause. -/

namespace Sys2Proof.Tests

open Sys2Proof.Machine

set_option Elab.async false

/-! ## WellFormed: an ill-formed term for each check -/

theorem test_wellFormed_kind : (Instr.unknownKind 0x10 0 []).wellFormed = false := by decide
theorem test_wellFormed_unknown_length : (Instr.unknownKind 0x11 0 (List.replicate 249 0)).wellFormed = false := by
  decide +kernel
theorem test_wellFormed_payload_length : (Instr.state 0 (List.replicate 249 0)).wellFormed = false := by decide +kernel
theorem test_wellFormed_table_length :
    (Instr.sampleStoreWrite 0 0 245 (List.replicate 245 0)).wellFormed = false := by decide +kernel
theorem test_wellFormed_send_length : (Instr.portSend 0 0 (List.replicate 247 0)).wellFormed = false := by
  decide +kernel
theorem test_wellFormed_on_byte : (Instr.portServiceOn 0 0 0).wellFormed = false := by decide
theorem test_wellFormed_device_length : (Instr.dataReceived 0 (List.replicate 25 0)).wellFormed = false := by
  decide +kernel
theorem test_wellFormed_bounds :
    (Instr.portSend 0 0 (List.replicate 246 0)).wellFormed = true ∧
    (Instr.dataReceived 0 (List.replicate 24 0)).wellFormed = true ∧
    (Instr.state 0 (List.replicate 248 0)).wellFormed = true := by decide +kernel

/-! ## Small states -/

/-- After reset, with the transmitter IDLE (STARTED has left). -/
def idle : State := { State.reset with link := { State.reset.link with tx := none } }

/-- The state after a command; a stop, which no meaning makes, would leave the state. -/
def after (c : Instr) (s : State) : State :=
  match exec c s with
  | .next t => t
  | .fault _ | .refused _ => s

/-- Status and result of the answer the transmitter takes. -/
def answer (s : State) : Option (Status × List Byte) :=
  match s.link.tx with
  | some (.answer _ _ _ a) => some (a.status, a.result)
  | some (.notice _) | some (.report _) | none => none

/-- The posted events, as (kind, index, detail, depth). -/
def events (s : State) : List (EventKind × Byte × Byte × Nat) :=
  s.bus.events.map fun e => (e.kind, e.index, e.detail, e.depth)

/-- A command at the door of this state's intake is taken at once. -/
theorem opens (s : State)
    (h : (s.link.intake.isEmpty && s.link.canTake && s.link.places.all fun p => p.order != s.link.nextOrder) = true) :
    s.Opens := by
  simp only [Bool.and_eq_true, List.isEmpty_iff, List.all_eq_true, bne_iff_ne] at h
  exact ⟨h.1.1, h.1.2, h.2⟩

/-- The motor profile of the RUN_TO and stall examples (05, sections 5.6 and 5.7): quadrature, BRAKE as safe action. -/
def motor : Profile :=
  { Profile.reset with
      valid := true, cls := 3, use := .motor, lineUse := .quadrature, positionSource := 255, safeAction := .brake,
      cpr := 720, ratedLoad := 1000, regPeriod := 10, inposCount := 3, tolerance := 2, approachGain := 4, kp := 64,
      ki := 0, imax := 1000, stallDuty := 600, stallSpeed := 30, stallWarn := 3, stallStop := 6, pollMs := 20 }

/-- Port B (1) BOUND to `motor` at profile 0, its channel in COAST with allowance 1000. -/
def driven : State :=
  { idle with
      profiles := idle.profiles.set 0 motor
      ports := idle.ports.set 1 { idle.ports[1] with state := .bound, profile := some 0, cls := 3, det := true,
                                                     detAccepted := true, detTimer := none, band := some (.passive 3) }
      lines := idle.lines.set 1 { idle.lines[1] with mode := .quadrature }
      motors := idle.motors.set 1 { idle.motors[1] with regTimer := some 10 } }

/-- `driven` with a channel state of port B. -/
def running (m : Motor) : State := { driven with motors := driven.motors.set 1 m }

/-- Channel B in DUTY 800, granted. -/
def duty : State :=
  running { driven.motors[1] with mode := .duty, operation := .duty, dutyRequest := 800, dutyGrant := 800 }

/-- Channel B in the RUN_TO of the example of 05, section 5.6, at a position and an in-position count. -/
def approaching (position : Int) (inpos : Nat) : State :=
  running { driven.motors[1] with
    mode := .runTo, operation := .runTo, endAction := .hold, targetPosition := 1000, vmax := 600,
    position := BitVec.ofInt 32 position, prevPosition := BitVec.ofInt 32 position, inposCount := inpos,
    integral := 15300 }

/-- The smart sensor's record of the example of 02, section 2.7, BOUND to profile 6. -/
def sensing : Port :=
  { idle.ports[4] with
      state := .bound, profile := some 6, cls := 40, variant := 2, formats := [.s16, .u8], minPoll := 15, det := true,
      detAccepted := true, detTimer := none, band := some .openLine, pollTimer := some 15 }

/-- Port E (4) as a record says, with the two profiles of the example of 02, section 2.7. -/
def smart (p : Port) : State :=
  { idle with
      profiles := (idle.profiles.set 5 { Profile.reset with valid := true, cls := 40, variant := 255, use := .sensor,
                                                            lineUse := .device, pollMs := 20 }).set 6
        { Profile.reset with valid := true, cls := 40, variant := 2, use := .sensor, lineUse := .device, pollMs := 10 }
      ports := idle.ports.set 4 p
      lines := idle.lines.set 4 { idle.lines[4] with mode := .device } }

/-- An exchange in flight, its reply window open. -/
def inWindow (k : ExchangeKind) : Exchange :=
  { kind := k, sent := [], windowMs := 5, windowOpen := true, got := [] }

/-- `sensing` with its window of a kind open. -/
def replying (k : ExchangeKind) : Port := { sensing with exchange := some (inWindow k) }

/-- A port in PROBING in its first query window. -/
def probing : Port :=
  { replying .query with state := .probing, profile := none, cls := 0, variant := 0, formats := [], tries := 1,
                         queryTimer := some 50, pollTimer := none }

/-- A SEND in flight on port E, its answer place held. -/
def sending : State :=
  { smart { replying .write with pass := some { place := 0, data := [7] } } with
      link := { idle.link with places := [{ order := 0, kind := 0x40, tag := 30, answer := none }], nextOrder := 1 } }

/-- The receiver in a state. -/
def receiving (r : Receiver) : State := { idle with link := { idle.link with receiver := r } }

/-- The link with these answer places, a frame waiting behind them. -/
def holding (ps : List Place) (waiting : List Frame) : State :=
  { idle with link := { idle.link with places := ps, nextOrder := 4, intake := waiting } }

/-- Four places held by SENDs. -/
def fourSends : List Place := (List.range 4).map fun k => { order := k, kind := 0x40, tag := 0, answer := none }

/-- A STATE frame. -/
def stateFrame : Frame := { kind := 0x60, tag := 9, payload := [] }

/-! ## Link controller -/

/-- 01 R13, R14. -/
theorem test_powerOnReset :
    (after (.powerOnReset 2) duty).link.strap = 2 ∧ (after (.powerOnReset 2) duty).motors[1].mode = .coast := by
  decide +kernel
/-- 01, section 1.10.1: the frame 02 60 01 closes with the check byte 24h. -/
theorem test_frameReceived :
    (after (.frameReceived (onLine [0xC3, 0x02, 0x60, 0x01, 0x24])) idle).link.framesGood = 1 ∧
    (after (.frameReceived (onLine [0xC3, 0x02, 0x60, 0x01, 0x25])) idle).link.checkErrors = 1 := by decide +kernel
/-- 01 R2. -/
theorem test_gapTimeout : (after .gapTimeout (receiving .length)).link.gapErrors = 1 := by decide +kernel
/-- 01 R6. -/
theorem test_unknownKind : answer (after (.unknownKind 0x80 5 []) idle) = some (.unknownKind, []) := by decide +kernel
/-- 01 R8, check 2: table 16 is read-only. -/
theorem test_tableWrite : answer (after (.tableWrite 5 [16, 0, 0, 1]) idle) = some (.badTable, []) := by decide +kernel
/-- 01 R14: silence_ms of 10 is clamped to 50, and the timer restarts (R15). -/
theorem test_settingsWrite :
    answer (after (.settingsWrite 5 0 1 [10, 0, 10, 255, 3, 44, 1, 20, 4, 0, 0]) idle) = some (.adjusted, []) ∧
    (after (.settingsWrite 5 0 1 [10, 0, 10, 255, 3, 44, 1, 20, 4, 0, 0]) idle).link.silence = some 50 := by
  decide +kernel
/-- 02, the example "a profile rewrite under a bound port". -/
theorem test_profilesWrite :
    (after (.profilesWrite 40 6 1 (List.replicate 32 0)) (smart sensing)).ports[4].profile = some 5 ∧
    (after (.profilesWrite 40 6 1 (List.replicate 32 0)) (smart sensing)).ports[4].pollTimer = some 20 ∧
    events (after (.profilesWrite 40 6 1 (List.replicate 32 0)) (smart sensing)) = [(.portBound, 4, 5, 0)] := by
  decide +kernel
/-- 03 R46: an average of 3 is stored as 4. -/
theorem test_scanListWrite :
    (after (.scanListWrite 5 15 1 [6, 3]) idle).scan.slots[15] = { input := 6, average := 4 } ∧
    answer (after (.scanListWrite 5 15 1 [8, 1]) idle) = some (.badEntry, [15, 0]) := by decide +kernel
/-- 04 R62: entry 0 has no lower entry to read. -/
theorem test_conversionWrite :
    answer (after (.conversionWrite 5 0 1 ([7, 0] ++ List.replicate 34 0)) idle) = some (.badEntry, [0, 0]) ∧
    (after (.conversionWrite 5 1 1 ([7, 0] ++ List.replicate 34 0)) idle).conv[1].cfg.tripCount = 1 := by decide +kernel
/-- 09 R149, R154: a written LEVEL entry on MARK_OFF offers its level record for the lowest unit that is OFF. -/
theorem test_reactionsWrite :
    events (after (.reactionsWrite 5 3 1 ([1, 1, 4, 255, 255, 1] ++ List.replicate 14 0)) idle) = [(.markOff, 0, 0, 0)] := by
  decide +kernel
/-- 06, the first example: the record written afresh. -/
theorem test_marksWrite :
    (after (.marksWrite 5 3 1 [1, 0, 0x88, 0x13, 0, 0, 0xC2, 0x0B, 0, 0, 0xD0, 0x07, 0, 0]) idle).marks[3] =
      { enabled := true, isOn := false, markA := 5000, markB := 3010, step := 2000 } := by decide +kernel
/-- 07 R118: no valid row would be left. -/
theorem test_budgetWrite : answer (after (.budgetWrite 5 0 1 [0, 0, 0, 0, 0]) idle) = some (.badEntry, [0, 0]) := by
  decide +kernel
/-- 10 R160: item_count 0 becomes 1 and period_ms 9 becomes 10. -/
theorem test_reportsWrite :
    (after (.reportsWrite 5 11 1 ([1, 9] ++ List.replicate 24 0)) idle).reports[11].periodTimer = some 10 ∧
    (after (.reportsWrite 5 11 1 ([1, 9] ++ List.replicate 24 0)) idle).reports[11].itemCount = 1 := by decide +kernel
/-- Clip 3 of the example of 08, section 8.3, playing. -/
def playing : State :=
  { idle with sound := { idle.sound with
      clips := (idle.sound.clips.set 3 { start := 4096, length := 6000, rate := 8000, valid := true }).set 5
        { start := 0, length := 10, rate := 16000, valid := true }
      clipPlaying := true, clipIndex := 3, clipStart := 4096, clipLength := 6000, clipRate := 8000, clipInc := 32768,
      clipPos := 1600 * 65536, playsLeft := 2, clipLevel := 90 } }
/-- 08, the example "a clip guarded against writes, then superseded". -/
theorem test_clipsWrite : answer (after (.clipsWrite 5 3 1 (List.replicate 7 0)) playing) = some (.inUse, []) := by
  decide +kernel
/-- 08, the same example: 10,000 meets the extent and 10,096 lies just past it. -/
theorem test_sampleStoreWrite :
    answer (after (.sampleStoreWrite 5 10000 240 (List.replicate 240 1)) playing) = some (.inUse, []) ∧
    answer (after (.sampleStoreWrite 5 10096 240 (List.replicate 240 1)) playing) = some (.ok, []) := by decide +kernel
/-- 01 R10: a read of SETTINGS answers id, first index, count and the record (01 R14, the reset column). -/
theorem test_tableRead :
    answer (after (.tableRead 5 [1, 0, 0, 1]) idle) =
      some (.ok, [1, 0, 0, 1] ++ [0, 0, 10, 255, 3, 44, 1, 20, 4, 0, 0]) := by decide +kernel
/-- 01 R11: 6 bytes and 3 for each of 16 tables. -/
theorem test_state : (answer (after (.state 5 []) idle)).map (fun a => (a.1, a.2.length)) = some (.ok, 54) := by
  decide +kernel
/-- 01 R12. -/
theorem test_reset : (after (.reset 5 []) idle).link.canTake = false := by decide +kernel
/-- 01 R16, R105: the safe action of the driving channel is BRAKE. -/
theorem test_silenceTimeout :
    (after .silenceTimeout { duty with link := { duty.link with silence := some 500 } }).motors[1].mode = .brake ∧
    (after .silenceTimeout { duty with link := { duty.link with silence := some 500 } }).motors[1].outcome = .safeStop ∧
    events (after .silenceTimeout { duty with link := { duty.link with silence := some 500 },
                                              sound := { duty.sound with clipPlaying := true } }) =
      [(.linkSilent, 0, 0, 0), (.runEnd, 1, 7, 0), (.clipEnd, 0, 3, 0)] := by decide +kernel
/-- 01 R18: the counter wraps. -/
theorem test_stampTick : (after .stampTick { idle with bus := { idle.bus with stamp := 0xFFFF } }).bus.stamp = 0 := by
  decide +kernel
/-- 01, the example "a deferred answer overtaken": answer 12 completes while SEND 11 waits and answer 13 is READY. -/
theorem test_frameTransmitted :
    let s : State := { idle with link := { idle.link with
      nextOrder := 3, tx := some (.answer 1 0x10 12 { status := .ok, result := [] })
      places := [{ order := 0, kind := 0x40, tag := 11, answer := none },
                 { order := 1, kind := 0x10, tag := 12, answer := some { status := .ok, result := [] } },
                 { order := 2, kind := 0x02, tag := 13, answer := some { status := .ok, result := [] } }] } }
    (after .frameTransmitted s).link.places.map Place.tag = [11, 13] ∧
    (after .frameTransmitted s).link.tx = some (.answer 2 0x02 13 { status := .ok, result := [] }) := by decide +kernel

/-! ## Motor channels -/

/-- `driven` in BROWNOUT. -/
def brown : State := { driven with budget := { driven.budget with record := { driven.budget.record with state := .brownout } } }

/-- 05, the example "a run cut by brownout": COAST is taken, SPEED refused. -/
theorem test_motorCoast :
    answer (after (.motorCoast 1 1 0) brown) = some (.ok, []) ∧ (after (.motorCoast 1 1 0) duty).motors[1].outcome = .stopped := by
  decide +kernel
/-- 05 R88: the ended operation posts RUN_END (1, STOPPED). -/
theorem test_motorBrake :
    (after (.motorBrake 1 1 0) duty).motors[1].mode = .brake ∧ events (after (.motorBrake 1 1 0) duty) = [(.runEnd, 1, 2, 0)] := by
  decide +kernel
/-- 05 R89: a duty of 1200 is clamped to 1000. -/
theorem test_motorDuty :
    answer (after (.motorDuty 1 1 0 1200) driven) = some (.adjusted, []) ∧
    (after (.motorDuty 1 1 0 1200) driven).motors[1].dutyGrant = 1000 := by decide +kernel
/-- 05, the example "a run cut by brownout". -/
theorem test_motorSpeed : answer (after (.motorSpeed 1 1 0 300) brown) = some (.brownout, []) := by decide +kernel
/-- 05 R91. -/
theorem test_motorRunTo :
    (after (.motorRunTo 1 1 0 1000 600 2) driven).motors[1].vmax = 600 ∧
    answer (after (.motorRunTo 1 1 0 1000 600 3) driven) = some (.badLength, []) := by decide +kernel
/-- 05 R92: run_end is the stamp plus the duration. -/
theorem test_motorRunFor :
    (after (.motorRunFor 1 1 0 100 500 0) { driven with bus := { driven.bus with stamp := 70 } }).motors[1].runEnd = 570 := by
  decide +kernel
/-- 05 R93: HOLD takes the present position, with vmax 200. -/
theorem test_motorHold :
    (after (.motorHold 1 1 0) (approaching 850 0)).motors[1].targetPosition = 850 ∧
    (after (.motorHold 1 1 0) (approaching 850 0)).motors[1].vmax = 200 := by decide +kernel
/-- 05 R87, check 2: an entry of 32 is BAD_INDEX. -/
theorem test_motorFollow :
    answer (after (.motorFollow 1 1 0 32 256) driven) = some (.badIndex, []) ∧
    (after (.motorFollow 1 1 0 31 256) driven).motors[1].followEntry = 31 := by decide +kernel
/-- 05 R95. -/
theorem test_motorSetCount :
    (after (.motorSetCount 1 1 0 77) driven).lines[1].count = 77 ∧ answer (after (.motorSetCount 1 1 0 77) duty) = some (.inUse, []) := by
  decide +kernel
/-- 05, the example "a RUN_TO arriving in position", rows 850 and 1003, and the last: DONE, and HOLD begins. -/
theorem test_regulation_runTo :
    let t := after (.regulationExpiry 1) (approaching 1000 2)
    (after (.regulationExpiry 1) (approaching 850 0)).motors[1].targetSpeed = 300 ∧
    (after (.regulationExpiry 1) (approaching 1003 2)).motors[1].targetSpeed = -20 ∧
    (after (.regulationExpiry 1) (approaching 1003 2)).motors[1].inposCount = 0 ∧
    t.motors[1].mode = .hold ∧ t.motors[1].outcome = .done ∧ t.motors[1].vmax = 200 ∧ t.motors[1].integral = 0 ∧
    events t = [(.runEnd, 1, 1, 0)] := by decide +kernel
/-- 05 R103. -/
theorem test_runForExpiry :
    (after (.runForExpiry 1) (running { duty.motors[1] with mode := .runFor, operation := .runFor, endAction := .brake,
                                                            runForTimer := some 5 })).motors[1].mode = .brake := by
  decide +kernel

/-! ## Line inputs and mark units -/

/-- 03 R56: with no debounce the new level is accepted at once. -/
theorem test_digitalLineChange :
    events (after (.digitalLineChange 4 .l1 true) { idle with lines := idle.lines.set 4 { idle.lines[4] with mode := .digital } }) =
      [(.lineRise, 4, 0, 0)] := by decide +kernel
/-- 03 R56. -/
theorem test_lineDebounceExpiry :
    events (after (.lineDebounceExpiry 4 .l2)
      { idle with lines := idle.lines.set 4 { idle.lines[4] with mode := .digital, pin2 := true, debounce := 5, timer2 := some 5 } }) =
      [(.lineRise, 4, 1, 0)] := by decide +kernel
/-- `driven` with the decoder at a pair and a count. -/
def counting (h1 h2 : Bool) (count : Word) : State :=
  { driven with
      lines := driven.lines.set 1 { driven.lines[1] with pin1 := h1, pin2 := h2, level1 := h1, level2 := h2, count := count } }
/-- 03, the example "counting through a reversal and a glitch", rows 4 and 5 and the double transition. -/
theorem test_quadrature_counts :
    (after (.quadratureChange 1 false false) (counting false true 3)).motors[1].position = 4 ∧
    (after (.quadratureChange 1 false true) (counting false false 4)).lines[1].count = 3 ∧
    (after (.quadratureChange 1 true false) (counting false true 3)).lines[1].errors = 1 ∧
    (after (.quadratureChange 1 true false) (counting false true 3)).lines[1].count = 3 := by decide +kernel
/-- The pulse meter of port C (2), between its edges. -/
def metering (level armed : Bool) (rise fall : Word) : State :=
  { idle with lines := idle.lines.set 2 { idle.lines[2] with
      mode := .pulse, pin1 := level, level1 := level, armed := armed, lastRise := rise, lastFall := fall,
      noEdge := some 100 } }
/-- 03, the example "a pulse sensor that stops", the edge at 1500. -/
theorem test_pulseEdge :
    (after (.pulseEdge 2 true 1500) (metering false true 500 800)).lines[2].high = 300 ∧
    (after (.pulseEdge 2 true 1500) (metering false true 500 800)).lines[2].period = 1000 := by decide +kernel
/-- 03, the same example, the expiry with L1 low; and R60 with L1 high. -/
theorem test_noEdgeExpiry :
    (after (.noEdgeExpiry 2) (metering false true 2500 2900)).lines[2].armed = false ∧
    (after (.noEdgeExpiry 2) (metering true true 2500 2900)).lines[2].duty = 1000 := by decide +kernel
/-- 06, the first example, the update from 600 to 1000. -/
theorem test_mark_lands :
    Mark.update { enabled := true, isOn := false, markA := 1000, markB := BitVec.ofInt 32 (-990), step := 2000 } 600 1000 =
      ({ enabled := true, isOn := true, markA := 1000, markB := 1010, step := 2000 }, [(.markA, 1), (.markOn, 1)]) := by
  decide +kernel
/-- 06, the second example, the update from 150 to 300. -/
theorem test_mark_both :
    Mark.update { enabled := true, isOn := false, markA := 200, markB := 260, step := 0 } 150 300 =
      ({ enabled := true, isOn := false, markA := 200, markB := 260, step := 0 },
       [(.markA, 1), (.markOn, 1), (.markB, 1), (.markOff, 1)]) := by decide +kernel

/-! ## Drive budget -/

/-- The table of the worked cases of 07, section 7.8, one motor on port B drawing 2560 mA at duty 1000 and the sound at
80 with a speaker load of 400 and a floor of 25; the battery entry 0 shows a value. -/
def loaded (battery : Word) (request : Int) : State :=
  { driven with
      profiles := driven.profiles.set 0 { motor with ratedLoad := 2560 }
      settings := { driven.settings with budgetSource := 0, speakerLoad := 400, soundFloor := 25 }
      conv := driven.conv.set 0 { driven.conv[0] with status := .valid, value := battery }
      budget := { driven.budget with rows :=
        #v[{ valid := true, minMv := 0, ceiling := 0 }, { valid := true, minMv := 6000, ceiling := 1800 },
           { valid := true, minMv := 7000, ceiling := 2400 }, { valid := true, minMv := 7800, ceiling := 3000 },
           BudgetRow.reset, BudgetRow.reset] }
      sound := { driven.sound with clipPlaying := true, master := 80 }
      motors := driven.motors.set 1 { duty.motors[1] with dutyRequest := request, dutyGrant := 0 } }
/-- 07, case 1: C 2400 and row 2, scale 920, the sound at its floor. -/
theorem test_window_scales :
    let t := after .budgetWindowExpiry (loaded 7250 (-1000))
    t.budget.record.row = some 2 ∧ t.budget.record.scale = 920 ∧ t.motors[1].dutyGrant = -898 ∧ t.sound.allowance = 25 ∧
    events t = [(.budgetLimit, 0, 0, 0)] := by decide +kernel
/-- 07, the example "entering and leaving brownout", window 2, with its notice (R130). -/
theorem test_window_brownout :
    let t := after .budgetWindowExpiry (loaded 5890 500)
    t.budget.record.state = .brownout ∧ t.motors[1].mode = .brake ∧ t.motors[1].outcome = .brownout ∧
    t.motors[1].allowance = 0 ∧
    (after .budgetWindowExpiry { loaded 5890 500 with link := State.reset.link }).bus.notices.map Notice.body =
      [.budgetChange .brownout .normal 0 (some 0) true 5890 0] := by decide +kernel

/-! ## Sound engine -/

/-- A note of 200 ms. -/
def note : Note := { pitch := 440, duration := 200, waveform := .square, level := 100 }
/-- The tone voice playing a note, this many notes waiting. -/
def singing (waiting : Nat) : State :=
  { idle with
      settings := { idle.settings with queueLowMark := 2 }
      sound := { idle.sound with tonePlaying := true, note := note, noteTimer := some 200,
                                 queue := List.replicate waiting note } }
/-- 08 R134, R141: 32 notes wait. -/
theorem test_soundTone :
    answer (after (.soundTone 1 440 200 0 100) (singing 32)) = some (.queueFull, []) ∧
    (after (.soundTone 1 440 200 0 100) (singing 31)).sound.queue.length = 32 := by decide +kernel
/-- 08, the clip example at 1000 ms: clip 5 supersedes clip 3. -/
theorem test_soundClip :
    events (after (.soundClip 1 5 1 100) playing) = [(.clipEnd, 0, 2, 0)] ∧
    (after (.soundClip 1 5 1 100) playing).sound.clipIndex = 5 := by decide +kernel
/-- 08 R144. -/
theorem test_soundFlush :
    (after (.soundFlush 1) (singing 5)).sound.queue = [] ∧ (after (.soundFlush 1) (singing 5)).sound.tonePlaying = true := by
  decide +kernel
/-- 08 R143. -/
theorem test_soundVolume : (after (.soundVolume 1 101) idle).sound.master = 100 := by decide +kernel
/-- 08 R145. -/
theorem test_soundStopTone : events (after (.soundStopTone 1) (singing 1)) = [(.toneIdle, 0, 0, 0)] := by decide +kernel
/-- 08 R145: STOPPED is detail 3. -/
theorem test_soundStopClip : events (after (.soundStopClip 1) playing) = [(.clipEnd, 0, 3, 0)] := by decide +kernel
/-- 08 R145: TONE_IDLE stands ahead of CLIP_END. -/
theorem test_soundStopAll :
    events (after (.soundStopAll 1) { playing with sound := { playing.sound with tonePlaying := true } }) =
      [(.toneIdle, 0, 0, 0), (.clipEnd, 0, 3, 0)] := by decide +kernel
/-- 08, the tune example at 500 ms: the taking leaves 2 notes and reaches the mark. -/
theorem test_noteDurationExpiry :
    events (after .noteDurationExpiry (singing 3)) = [(.queueLow, 0, 2, 0)] ∧
    events (after .noteDurationExpiry (singing 0)) = [(.toneIdle, 0, 0, 0)] := by decide +kernel
/-- 08 R133, R138: a square note at full level and volume 50 drives 63. -/
theorem test_outputSample : (after .outputSample (singing 0)).sound.out = 63 := by decide +kernel

/-! ## Converter scan -/

/-- The SCAN LIST of the example of 03, section 3.3. -/
def listed : State :=
  { idle with
      settings := { idle.settings with scanStop := 2 }
      scan := { idle.scan with slots := ((idle.scan.slots.set 0 { input := 6, average := 4 }).set 1
                                          { input := 2, average := 8 }).set 2 { input := 7, average := 1 } } }
/-- That scan at a conversion, in a mode. -/
def scanning (mode : ScanMode) (i : Fin 16) (work : ConverterWork) : State :=
  { listed with scan := { listed.scan with mode := mode, pass := some { next := i, last := 2 }, work := work } }
/-- 03, the scan example at time 0. -/
theorem test_scanStart :
    (after (.scanStart 1) listed).scan.work = .slot 0 6 4 0 0 false ∧ (after (.scanStart 1) listed).scan.mode = .continuous := by
  decide +kernel
/-- 03 R49. -/
theorem test_scanSingle : (after (.scanSingle 1) listed).scan.mode = .single := by decide +kernel
/-- 03, the scan example at 16.5. -/
theorem test_scanStop :
    (after (.scanStop 1) (scanning .continuous 0 (.slot 0 6 4 2 5984 false))).scan.mode = .off ∧
    (after (.scanStop 1) (scanning .continuous 0 (.slot 0 6 4 2 5984 false))).scan.work = .slot 0 6 4 2 5984 false := by
  decide +kernel
/-- 03, the scan example at time 12: slot 1 completes with raw 1201 and the converter goes on. -/
theorem test_scanConversionDone :
    let t := after (.scanConversionDone 1198) (scanning .continuous 1 (.slot 1 2 8 7 8414 false))
    t.scan.images[1].raw = 1201 ∧ t.scan.images[1].conversions = 8 ∧ t.scan.work = .slot 2 7 1 0 0 false := by
  decide +kernel
/-- 03, the scan example at 17: the short completion; R49, the due pass starts after a cut; R52, SCAN_DONE of a SINGLE. -/
theorem test_scanConversionDone_short :
    let s := scanning .off 0 (.slot 0 6 4 2 5984 false)
    let t := after (.scanConversionDone 2991) { s with scan := { s.scan with cut := true } }
    let u := after (.scanConversionDone 2991) { s with scan := { s.scan with cut := true, mode := .continuous, passDue := true } }
    let v := after (.scanConversionDone 5) (scanning .single 2 (.slot 2 7 1 0 0 false))
    t.scan.images[0].raw = 2991 ∧ t.scan.images[0].conversions = 3 ∧ t.scan.work = .idle ∧ events t = [] ∧
    u.scan.pass = some { next := 0, last := 2 } ∧ u.scan.work = .slot 0 6 4 0 0 false ∧
    events v = [(.scanDone, 0, 0, 0)] := by decide +kernel

/-! ## Ports -/

/-- An ID measurement of port E in flight. -/
def measuring : State :=
  { smart { sensing with state := .detecting, profile := none, cls := 0, variant := 0, formats := [], pollTimer := none,
                         band := none } with
      scan := { idle.scan with work := .ident 4 false } }
/-- 02 R24. -/
theorem test_detChange : (after (.detChange 4 true) idle).ports[4].detTimer = some 20 := by decide +kernel
/-- 02, the smart sensor example at 20: attach. -/
theorem test_detDebounceExpiry :
    let t := after (.detDebounceExpiry 4) { idle with ports := idle.ports.set 4 { idle.ports[4] with det := true } }
    t.ports[4].state = .detecting ∧ events t = [(.portAttach, 4, 0, 0)] ∧ t.scan.work = .ident 4 false := by decide +kernel
/-- 02, the smart sensor example at 21: raw code 4051 is the open band. -/
theorem test_idConversionDone :
    (after (.idConversionDone 4051) measuring).ports[4].state = .probing ∧
    (after (.idConversionDone 4051) measuring).ports[4].exchange.map Exchange.sent = some [0x00, 0xFF] := by decide +kernel
/-- 02, the smart sensor example at 71: the second try. -/
theorem test_queryTryDue :
    (after (.queryTryDue 4) (smart { probing with exchange := none })).ports[4].tries = 2 := by decide +kernel
/-- 02 R36. -/
theorem test_deviceFrameSent :
    (after (.deviceFrameSent 4) (smart { sensing with exchange := some pollExchange })).ports[4].window = some .poll := by
  decide +kernel
/-- 02 R27, R34: the third try fails. -/
theorem test_queryWindowClose :
    (after (.queryWindowClose 4) (smart { probing with tries := 3, queryTimer := none })).ports[4].fault = .noIdent ∧
    (after (.queryWindowClose 4) (smart probing)).ports[4].state = .probing := by decide +kernel
/-- 02, the smart sensor example at 72: BOUND to profile 6, POLLs at 15 ms. -/
theorem test_identReceived :
    let t := after (.identReceived 4 [40, 2, 2, 2, 1, 15]) (smart { probing with tries := 2 })
    t.ports[4].profile = some 6 ∧ t.ports[4].formats = [.s16, .u8] ∧ t.ports[4].pollTimer = some 15 ∧
    events t = [(.portBound, 4, 6, 0)] := by decide +kernel
/-- 02, the smart sensor example at 73: the fields −120 and 7. -/
theorem test_dataReceived :
    let t := after (.dataReceived 4 [0x88, 0xFF, 7]) (smart { replying .poll with missed := 2 })
    t.ports[4].fields[0] = BitVec.ofInt 32 (-120) ∧ t.ports[4].fields[1] = 7 ∧ t.ports[4].missed = 0 := by decide +kernel
/-- 02, the SEND example at 90. -/
theorem test_ackReceived : answer (after (.ackReceived 4 [1, 2]) sending) = some (.ok, [1, 2]) := by decide +kernel
/-- 02 R38. -/
theorem test_nakReceived : answer (after (.nakReceived 4 []) sending) = some (.deviceNak, []) := by decide +kernel
/-- 01 R22, 02 R34: a wrong check byte in a poll window is a miss. -/
theorem test_badDeviceFrame :
    (after (.badDeviceFrame 4 (onLine [0xA1, 0, 0])) (smart (replying .poll))).ports[4].missed = 1 := by decide +kernel
/-- 02, the SEND example at 87: the POLL is sent. -/
theorem test_pollTimerExpiry :
    (after (.pollTimerExpiry 4) (smart sensing)).ports[4].exchange.map Exchange.sent = some [0x20, 0xDF] := by decide +kernel
/-- 02 R34: the third miss in a row. -/
theorem test_pollWindowClose :
    (after (.pollWindowClose 4) (smart { replying .poll with missed := 2 })).ports[4].fault = .silent := by decide +kernel
/-- 02 R38. -/
theorem test_writeWindowClose : answer (after (.writeWindowClose 4) sending) = some (.deviceTimeout, []) := by decide +kernel
/-- 02 R35. -/
theorem test_reprobeExpiry :
    let s := smart { sensing with state := .fault, fault := .silent, profile := none, pollTimer := none, reprobeTimer := some 500 }
    (after (.reprobeExpiry 4) s).ports[4].exchange.map Exchange.kind = some .query := by decide +kernel
/-- 02, the SEND examples at 87 and 89. -/
theorem test_portSend :
    (after (.portSend 30 4 [7, 8]) (smart (replying .poll))).link.places.map Place.answer = [none] ∧
    answer (after (.portSend 31 4 [7, 8]) sending) = some (.portBusy, []) := by decide +kernel
/-- 02 R40. -/
theorem test_portServiceOn : (after (.portServiceOn 1 4 1) (smart sensing)).service = some 4 := by decide +kernel
/-- 02 R41. -/
theorem test_portServiceOff : (after (.portServiceOff 1 4) { smart sensing with service := some 4 }).service = none := by
  decide +kernel
/-- 02 R41: the POLL in flight at SERVICE on misses in service mode, and polling resumes with missed 0. -/
theorem test_portService_resumes :
    let s := after (.portServiceOff 1 4) (after (.pollWindowClose 4) (after (.portServiceOn 1 4 1) (smart (replying .poll))))
    s.ports[4].missed = 1 ∧ (after (.pollTimerExpiry 4) s).ports[4].missed = 0 := by decide +kernel
/-- 02 R42. -/
theorem test_portForward : (after (.portForward 1 4 1) (smart sensing)).ports[4].forward = true := by decide +kernel
/-- 02 R43: the channel of a bound motor port ends REBOUND. -/
theorem test_portProbe :
    (after (.portProbe 1 1) duty).ports[1].state = .detecting ∧ (after (.portProbe 1 1) duty).motors[1].outcome = .rebound := by
  decide +kernel

/-! ## Conversion, reactions, reports -/

/-- The battery entry of the example of 04, section 4.5. -/
def battery : ConvEntry :=
  { ConvEntry.fresh { ConvConfig.reset with
      sourceKind := .slot, sourceIndex := 2, mode := .filtered, gain := 625, filterShift := 2, tripCount := 3,
      maxChange := 400, low := 6400, hysteresis := 200, window := .low } with status := .valid }
/-- 04, that example, completion 9: the trip. -/
theorem test_evaluate_trips :
    let r := { battery with prevIn := some 5834, prevOut := some 6212, alarm := .pendLow, pending := 2 }.evaluate 2900 0
    r.1.value = 6217 ∧ r.1.alarm = .low ∧ r.2 = [(.alarmLow, 0)] := by decide +kernel
/-- 04, that example, completion 12: the clear. -/
theorem test_evaluate_clears :
    let r := { battery with prevIn := some 7034, prevOut := some 6499, alarm := .low }.evaluate 2900 0
    r.1.value = 6644 ∧ r.1.alarm = .normal ∧ r.2 = [(.alarmClear, 2)] := by decide +kernel
/-- A record at the head of the event queue, and two entries over it. -/
def dispatching (e : Event) (r0 r5 : Reaction) : State :=
  { duty with
      bus := { duty.bus with events := [e] }
      reactions := (duty.reactions.set 0 r0).set 5 r5 }
/-- LINE_RISE (4, 0) of the example of 09, section 9.5. -/
def rise : Event := { kind := .lineRise, index := 4, detail := 0, depth := 0, stamp := 0, directed := none }
/-- An entry on LINE_RISE (4, 0) that brakes channel 1. -/
def braking : Reaction :=
  { Reaction.reset with enabled := true, always := true, triggerKind := .lineRise, triggerIndex := 4, actionKind := .motor,
                        actionTarget := 1, arg2 := 1 }
/-- An entry that notifies on RUN_END. -/
def telling : Reaction :=
  { Reaction.reset with enabled := true, always := true, triggerKind := .runEnd, triggerIndex := 255, triggerDetail := 2,
                        actionKind := .notify }
/-- A LEVEL entry on MARK_OFF. -/
def leveled : Reaction := { Reaction.reset with enabled := true, level := true, triggerKind := .markOff, triggerIndex := 255 }
/-- An entry on LINE_RISE (4, 0) that enables or disables entry 5. -/
def switching (kind : ActionKind) : Reaction := { braking with actionKind := kind, actionTarget := 5 }
/-- 09, the bumper example: the dispatch of LINE_RISE posts RUN_END (1, 2) at depth 1. R152: an entry disabled by a
lower one does not fire. R155: ENABLE of a LEVEL entry whose condition holds offers its record, one deeper. 05 R108: a RUN_TO takes
vmax and end action from arg1, and a FOLLOW entry of -1 is a failure. -/
theorem test_eventDispatch :
    let t := after .eventDispatch (dispatching rise braking telling)
    let u := after .eventDispatch
      (dispatching rise (switching .disable) { telling with triggerKind := .lineRise, triggerDetail := 255 })
    let v := after .eventDispatch (dispatching rise { braking with arg2 := 4, arg0 := 40, arg1 := 0x10064 } telling)
    let w := after .eventDispatch (dispatching rise { braking with arg2 := 7, arg0 := 0xFFFFFFFF } telling)
    t.motors[1].mode = .brake ∧ events t = [(.runEnd, 1, 2, 1)] ∧ t.reactions[0].hitCount = 1 ∧
    t.reactions[5].hitCount = 0 ∧ u.reactions[0].hitCount = 1 ∧ u.reactions[5].hitCount = 0 ∧ u.bus.notices = [] ∧
    events (after .eventDispatch (dispatching rise (switching .enable) { leveled with enabled := false })) =
      [(.markOff, 0, 0, 1)] ∧
    v.motors[1].vmax = 100 ∧ v.motors[1].endAction = .brake ∧ v.motors[1].targetPosition = 40 ∧
    events v = [(.runEnd, 1, 3, 1)] ∧ w.failures = 1 ∧ w.motors = duty.motors := by decide +kernel
/-- 09, the cascade example: a MARK_SET at depth 4 posts nothing and queues DEPTH_LIMIT. -/
theorem test_eventDispatch_depth :
    let e : Event := { kind := .markOn, index := 2, detail := 0, depth := 4, stamp := 0, directed := none }
    let s := dispatching e { Reaction.reset with enabled := true, always := true, triggerKind := .markOn, triggerIndex := 2,
                                                 triggerDetail := 255, actionKind := .markSet, actionTarget := 2 } telling
    let t := after .eventDispatch { s with marks := s.marks.set 2 { s.marks[2] with isOn := true } }
    t.marks[2].isOn = false ∧ events t = [] ∧
    t.link.tx = some (.notice { body := .depthLimit .markOn 2 4 0, dropped := false, stamp := 0 }) := by decide +kernel
/-- Entry 0 a periodic report of 20 ms, the transmitter busy, its record of `stamp` in the queue when there is one. -/
def reporting (queue : List ReportRecord) : State :=
  { idle with
      link := { idle.link with tx := some (.notice (startedNotice .powerOn 0)) }
      bus := { idle.bus with stamp := 40 }
      reports := idle.reports.set 0 { idle.reports[0] with enabled := true, periodMs := 20, periodTimer := some 20,
                                                           minInterval := 30, minTimer := some 30, pending := true }
      reportQueue := queue }
/-- 10, the coalescing example at 40: the record is replaced in its place. -/
theorem test_reportPeriodExpiry :
    ((after (.reportPeriodExpiry 0) (reporting [.report 0 20 0 [], .pass 5 0 24 []])).reportQueue.map fun r =>
      match r with
      | .report i stamp .. => (i.val, stamp)
      | .pass n _ stamp _ => (n.val + 100, stamp)) = [(0, 40), (105, 24)] := by decide +kernel
/-- 10 R162: the pending entry is reported at the end of its minimum interval. -/
theorem test_minIntervalExpiry :
    (after (.minIntervalExpiry 0) (reporting [])).reportQueue.length = 1 ∧
    (after (.minIntervalExpiry 0) (reporting [])).reports[0].pending = false := by decide +kernel
/-- 10 R163. -/
theorem test_reportNow :
    (after (.reportNow 1 0) (reporting [])).reportQueue.length = 1 ∧
    answer (after (.reportNow 1 12) idle) = some (.badIndex, []) := by decide +kernel

/-! ## Witnesses: for every statement with hypotheses, a state and operands that meet them, clause by clause -/

/-- An entry of the conversion table over a source. -/
def entry (kind : SourceKind) (index : Byte) (status : ConvStatus) : ConvEntry :=
  { ConvEntry.fresh { ConvConfig.reset with sourceKind := kind, sourceIndex := index } with status := status }

theorem opens_idle : idle.Opens := opens _ (by decide +kernel)
theorem opens_driven : driven.Opens := opens _ (by decide +kernel)
theorem opens_duty : duty.Opens := opens _ (by decide +kernel)
theorem opens_smart : (smart sensing).Opens := opens _ (by decide +kernel)

theorem witness_ReceiverTakesOneByte :
    (receiving .hunt).link.receiver = .hunt ∧ (receiving .length).link.receiver ≠ .hunt ∧
    (receiving .length).link.receiver = .length ∧ (receiving (.body 250 [])).link.receiver = .body 250 [] ∧
    (receiving (.check 2 [0x60, 0x01])).link.receiver = .check 2 [0x60, 0x01] ∧ crc8 [2, 0x60, 0x01] ≠ 0x25 := by
  decide +kernel

/-- The notice's body decides which of its clauses speaks: one body of each kind. -/
theorem witness_CheckBytesClose :
    let n (body : NoticeBody) : Notice := { body := body, dropped := true, stamp := 0x0102 }
    (n (.started .powerOn 3)).body = .started .powerOn 3 ∧
    (n (.portChange 5 .bound .none (some 15) 40 2)).body = .portChange 5 .bound .none (some 15) 40 2 ∧
    (n (.runEnd 5 .follow .sourceLost 7)).body = .runEnd 5 .follow .sourceLost 7 ∧
    (n (.reaction 23 rise)).body = .reaction 23 rise ∧
    (n (.budgetChange .brownout .normal 0 none true (-1) 0)).body = .budgetChange .brownout .normal 0 none true (-1) 0 ∧
    (n (.queueLow 4 4)).body = .queueLow 4 4 ∧ (n (.intakeOverflow 1)).body = .intakeOverflow 1 ∧
    (n (.eventOverflow .linkSilent 0)).body = .eventOverflow .linkSilent 0 ∧
    (n (.depthLimit .markOn 2 4 23)).body = .depthLimit .markOn 2 4 23 := by decide +kernel

theorem witness_FramesCarryTheirCommands :
    frameOf (.state 1 []) = some ⟨0x60, 1, []⟩ ∧ (Instr.state 1 []).wellFormed = true ∧ idle.link.receiver = .hunt := by
  decide +kernel

/-- Four places held; with three frames waiting, with four; and a RESET waiting. -/
theorem witness_CommandsWaitOrDrop :
    frameOf (.state 9 []) = some stateFrame ∧
    (4 ≤ (holding fourSends []).link.places.length ∧ (holding fourSends (List.replicate 3 stateFrame)).link.intake.length < 4) ∧
    4 ≤ (holding fourSends (List.replicate 4 stateFrame)).link.intake.length ∧
    (after (.reset 5 []) idle).link.resetOrder.isSome = true := by decide +kernel

theorem witness_UnknownKindsAnswered : idle.Opens ∧ unknownCode 0x03 = true := ⟨opens_idle, by decide +kernel⟩
theorem witness_StateAnswersIdentity : idle.Opens := opens_idle
theorem witness_ResetWaitsForItsAnswer : idle.Opens := opens_idle

/-- A notice being sent; an answer, a notice and a report waiting, each first in its turn, and none; the answer of a
RESET being sent. -/
theorem witness_TransmissionCompletes :
    let n : Notice := startedNotice .powerOn 0
    let r : ReportRecord := .pass 0 0 0 []
    let a : Answer := { status := .ok, result := [] }
    let ready : State := { idle with link := { idle.link with
      places := [{ order := 0, kind := 1, tag := 2, answer := some a }], nextOrder := 1 } }
    (State.reset.link.tx = some (.notice n) ∧ (Sending.notice n).order = none) ∧
    (ready.link.tx = none ∧ ready.link.readyAnswer = some (.answer 0 1 2 a)) ∧
    (let s := { idle with bus := { idle.bus with notices := [n] } }
     s.link.readyAnswer = none ∧ s.bus.notices = n :: []) ∧
    (let s := { idle with reportQueue := [r] }
     s.link.readyAnswer = none ∧ s.bus.notices = [] ∧ s.reportQueue = r :: []) ∧
    (idle.link.readyAnswer = none ∧ idle.bus.notices = [] ∧ idle.reportQueue = []) ∧
    (let p (k : Nat) (x : Option Answer) : Place := { order := k, kind := 1, tag := 2, answer := x }
     [p 0 none, p 1 (some a), p 2 (some a)].Pairwise (fun q r => q.order < r.order) ∧
     ∀ q ∈ [p 0 none, p 1 (some a), p 2 (some a)], q.answer.isSome = true → 1 ≤ q.order) ∧
    ((holding (fourSends.take 3) [stateFrame]).link.intake = stateFrame :: [] ∧
     (holding (fourSends.take 3) [stateFrame]).link.places.length < 4 ∧
     4 ≤ (holding fourSends [stateFrame]).link.places.length) ∧
    (frameOf (.state 9 []) = some stateFrame ∧ (Instr.state 9 []).wellFormed = true) ∧
    (after (.reset 5 []) idle).link.tx = some (.answer 0 0x70 5 a) ∧
    (after (.reset 5 []) idle).link.resetOrder = some 0 := by decide +kernel

theorem witness_SilenceStopsMotorsAndSound :
    ({ duty with link := { duty.link with silence := some 50 } } : State).link.silence = some 50 ∧
    duty.bus.dispatch = none ∧ duty.bus.events.length < 16 ∧ duty.motors[1].mode.driving = true ∧
    ({ duty with link := { State.reset.link with silence := some 50 } } : State).link.tx ≠ none ∧
    (singing 1).sound.tonePlaying = true ∧ playing.sound.clipPlaying = true := by decide +kernel

/-- Depth 3 is posted and depth 4 is cut; a full queue holds 16. -/
theorem witness_EventsAndNoticesAreQueued :
    let d (k : Nat) : Dispatch := { record := { rise with depth := k }, entry := 0, cut := false }
    idle.bus.dispatch = none ∧ (d 3).record.depth ≤ 3 ∧ 4 ≤ (d 4).record.depth ∧
    ({ idle.bus with dispatch := some (d 3) } : Bus).dispatch = some (d 3) ∧
    ({ idle.bus with dispatch := some (d 4) } : Bus).dispatch = some (d 4) := by decide +kernel

/-! ### Tables -/

/-- Payloads for the checks: 3 bytes; table 0 and table 16; a byte short; a count of 0; beyond the table; 241 bytes of the
store; and entry 31 of CONVERSION with a source kind of 9. -/
theorem witness_TableWriteChecks :
    idle.Opens ∧
    ([1, 0, 0] : List Byte).length < 4 ∧ (Table.ofId 0 = none ∧ 16 ≤ (16 : Byte).toNat) ∧
    (u8At [3, 15, 0, 1, 6] 0 = Table.scanList.id ∧ [3, 15, 0, 1, (6 : Byte)].length ≠ 4 + 1 * Table.scanList.size) ∧
    (u8At [3, 0, 0, 0] 0 = Table.scanList.id ∧ [3, 0, 0, (0 : Byte)].length = 4 + 0 * Table.scanList.size) ∧
    (Table.scanList.records < 15 + 2 ∧ [3, 15, 0, 2, 6, 1, 6, (1 : Byte)].length = 4 + 2 * Table.scanList.size) ∧
    (240 < (u8At [10, 0, 0, 241] 3).toNat ∧ ([10, 0, 0, 241] ++ List.replicate 241 (0 : Byte)).length = 4 + 241 * 1) ∧
    (31 + 1 ≤ Table.conversion.records ∧ Table.conversion.firstBad 31 1 (9 :: List.replicate 35 0) = some 31) ∧
    (31 + 1 ≤ Table.conversion.records ∧
     Table.conversion.firstBad 31 1 (ConvEntry.fresh ConvConfig.reset).encode = none ∧ idle.sound.clipPlaying = false) ∧
    (Table.budget.firstBad 1 5 (List.replicate 25 0) = none ∧ idle.budget.rows[0].valid = true ∧ 0 < 1 ∧ 1 + 5 ≤ 6) ∧
    ((1 : Byte).toNat ≤ 1 ∧ Memory.wf idle.sound.store = true ∧ (32767 : Half).toNat + (1 : Byte).toNat ≤ 32768) ∧
    typedWrite 1 0 1 [6, 1] .scanList = some (.scanListWrite 1 0 1 [6, 1]) := ⟨opens_idle, by decide +kernel⟩

/-- A write that passes: the MARKS record of the first example of 06, and the last byte of the store. -/
theorem test_tableWrite_passes :
    answer (after (.tableWrite 5 ([6, 3, 0, 1] ++ [1, 1] ++ le32 5000 ++ le32 3010 ++ le32 2000)) idle) = some (.ok, []) ∧
    Memory.read (after (.tableWrite 5 [10, 0xFF, 0x7F, 1, 9]) idle).sound.store 32767 = 9 := by decide +kernel

/-- The clauses of the owners' conditions hold for every byte; the codes just past each list; and records that survive. -/
theorem witness_RecordsSurviveEncoding :
    (8 ≤ (8 : Byte).toNat ∧ (7 : Byte) = byteOf (7 : Fin 8).val) ∧
    (2 ≤ (u8At [0, 0, 0, 2] 3).toNat ∧ 5 ≤ (u8At [0, 0, 0, 0, 5] 4).toNat ∧
     2 ≤ (u8At [0, 0, 0, 0, 0, 0, 0, 2] 7).toNat) ∧
    (9 ≤ (u8At [9] 0).toNat ∧ 3 ≤ (u8At [0, 0, 0, 3] 3).toNat ∧ 4 ≤ (u8At (List.replicate 24 0 ++ [4]) 24).toNat) ∧
    (2 ≤ (u8At [0, 2] 1).toNat ∧ 25 ≤ (u8At [0, 0, 25] 2).toNat ∧ 2 ≤ (u8At [0, 0, 0, 0, 0, 2] 5).toNat ∧
     13 ≤ (u8At [0, 0, 0, 0, 0, 0, 13] 6).toNat) ∧
    (10 ≤ (u8At (List.replicate 24 0 ++ [10]) (10 + 2 * 7)).toNat) ∧
    (Settings.reset.clamped = Settings.reset ∧ Settings.reset.budgetSource = 255) ∧
    (motor.bad = false ∧ motor.clamped = motor) ∧ (8 = 1 ∨ 8 = 2 ∨ 8 = 4 ∨ 8 = 8) ∧
    (ConvConfig.reset.bad 31 = false ∧ ConvConfig.reset.clamped = ConvConfig.reset) ∧ braking.bad = false ∧
    BudgetRow.reset.ceiling.toNat ≤ 8000 ∧
    (1 ≤ Report.reset.itemCount ∧ Report.reset.itemCount ≤ 8 ∧ Report.reset.periodMs = 0 ∧
     ∀ it ∈ Report.reset.carried, it.index.toNat < it.kind.indices) ∧
    (let r : Clip := { start := 32767, length := 1, rate := 2000, valid := true }
     r.clamped = r ∧ r.start.toNat + r.length.toNat ≤ 32768) := by decide +kernel

theorem witness_SettingsWriteTakesEffect :
    idle.Opens ∧ Settings.reset.encode.length = 11 ∧
    Settings.decode Settings.reset.encode = some (Settings.reset, false) := ⟨opens_idle, by decide +kernel⟩

/-- The rewriting of the example of 02, section 2.7; and of an UNKNOWN port by a valid record. -/
theorem witness_ProfilesWriteRebinds :
    (smart sensing).Opens ∧ (List.replicate 32 (0 : Byte)).length = 1 * 32 ∧
    decodeAll (fun _ => Profile.decode) 32 1 6 (List.replicate 32 0) = .ok ([Profile.reset], false) ∧
    ((smart sensing).ports[4].state = .bound ∧ (smart sensing).ports[4].profile = some 6 ∧ within 6 1 6) ∧
    lookup ((smart sensing).profiles.set 6 Profile.reset) 40 2 = some 5 ∧
    lookup driven.profiles 40 2 = none ∧
    (driven.ports[1].state = .bound ∧ duty.motors[1].mode.driving = true ∧ duty.motors[1].regTimer ≠ none) ∧
    ((smart { sensing with state := .unknown }).ports[4].state = .unknown ∧ [motor].any Profile.valid = true) ∧
    decodeAll (fun _ => Profile.decode) 32 1 15 motor.encode = .ok ([motor], false) ∧ (15 : Half).toNat + 1 ≤ 16 ∧
    ((smart sensing).sourcePort (entry .deviceField 4 .valid).cfg = some 4 ∧ (entry .deviceField 4 .valid).status ≠ .empty ∧
     (entry .deviceField 4 .valid).status ≠ .noSource ∧ (smart sensing).ports[3].state ≠ .bound ∧
     (smart sensing).sourcePort ConvConfig.reset = none) :=
  ⟨opens_smart, by decide +kernel⟩

theorem witness_ScanListWriteReplacesSlots :
    idle.Opens ∧ ([4, 1] : List Byte).length = 1 * 2 ∧ (15 : Half).toNat + 1 ≤ 16 ∧
    decodeAll (fun _ => ScanSlot.decode) 2 1 15 [4, 1] = .ok ([{ input := 4, average := 1 }], false) ∧
    decodeAll (fun _ => ScanSlot.decode) 2 1 15 [6, 1] = .ok ([{ input := 6, average := 1 }], false) ∧
    (entry .slot 15 .valid).cfg.sourceIndex.toNat = 15 ∧ (entry .slot 15 .valid).status ≠ .empty ∧
    inputPort 4 = some 4 ∧ idle.ports[4].state ≠ .bound ∧ inputPort 6 = none := ⟨opens_idle, by decide +kernel⟩

theorem witness_ConversionWriteStartsOver :
    idle.Opens ∧ (ConvEntry.fresh ConvConfig.reset).encode.length = 1 * 36 ∧ (31 : Half).toNat + 1 ≤ 32 ∧
    decodeAll ConvConfig.decode 36 1 31 (ConvEntry.fresh ConvConfig.reset).encode = .ok ([ConvConfig.reset], false) ∧
    decodeAll ConvConfig.decode 36 1 0 (ConvEntry.fresh ConvConfig.reset).encode = .ok ([ConvConfig.reset], false) ∧
    within 0 1 0 ∧ ¬ within 0 1 31 ∧ (entry .entry 0 .valid).cfg.sourceKind = .entry ∧
    (entry .entry 0 .valid).cfg.sourceIndex.toNat = 0 ∧ (entry .entry 0 .valid).status ≠ .noSource :=
  ⟨opens_idle, by decide +kernel⟩

theorem witness_ReactionsWriteReplacesEntries :
    idle.Opens ∧ Reaction.reset.encode.length = 1 * 20 ∧ (23 : Half).toNat + 1 ≤ 24 ∧
    decodeAll (fun _ => Reaction.decode) 20 1 23 Reaction.reset.encode = .ok ([Reaction.reset], false) ∧
    [Reaction.reset].all (fun r => !(r.enabled && r.level)) = true ∧
    leveled.encode.length = 20 ∧ Reaction.decode leveled.encode = some (leveled, false) ∧
    idle.bus.dispatch = none ∧ idle.bus.events.length < 16 ∧
    (leveled.triggerKind = .markOff ∧ idle.marks[0].isOn = false ∧ leveled.triggerIndex = 255 ∧
     ∀ k : PortNo, ¬ k < 0) ∧
    (let r (kind : EventKind) (index detail : Byte) : Reaction :=
       { leveled with triggerKind := kind, triggerIndex := index, triggerDetail := detail }
     let s : State := { idle with lines := idle.lines.set 5 { idle.lines[5] with mode := .digital, level2 := true } }
     ((r .markOn 255 0).triggerKind = .markOn ∧ ∀ k : PortNo, idle.marks[k].isOn ≠ true) ∧
     ((r .lineRise 5 1).triggerDetail = 1 ∧ (r .lineRise 5 1).triggerIndex.toNat = 5 ∧ s.lines[5].level2 = true ∧
      s.lines[5].level1 ≠ true) ∧
     ((r .lineFall 5 255).triggerDetail = 255 ∧ s.lines[5].level1 = false) ∧
     ((r .portBound 1 0).triggerIndex.toNat = 1 ∧ driven.ports[1].state = .bound ∧
      indexOr255 driven.ports[1].profile = 0) ∧
     ((r .alarmHigh 31 0).triggerIndex.toNat = 31 ∧ { entry .slot 0 .valid with alarm := .high }.alarm = .high) ∧
     ((r .brownout 9 9).triggerKind = .brownout ∧ brown.budget.record.state = .brownout) ∧
     ({ idle with link := { idle.link with state := .silent } } : State).link.state = .silent) :=
  ⟨opens_idle, by decide +kernel⟩

/-- 09 R154: a line that holds at L2 alone is offered with detail 1, and a trigger without a level condition offers none. -/
theorem test_reactionsWrite_lines :
    let s : State := { idle with lines := idle.lines.set 5 { idle.lines[5] with mode := .digital, level2 := true } }
    let r : Reaction := { leveled with triggerKind := .lineRise, triggerDetail := 255 }
    events (after (.reactionsWrite 5 23 1 r.encode) s) = [(.lineRise, 5, 1, 0)] ∧
    events (after (.reactionsWrite 5 23 1 { r with triggerKind := .markA }.encode) s) = [] := by decide +kernel

theorem witness_PlainWritesReplaceRecords :
    idle.Opens ∧
    ((5 : Half).toNat + 1 ≤ 6 ∧ Mark.reset.encode.length = 1 * 14 ∧
     decodeAll (fun _ => Mark.decode) 14 1 5 Mark.reset.encode = .ok ([Mark.reset], false)) ∧
    (BudgetRow.reset.encode.length = 1 * 5 ∧
     decodeAll (fun _ => BudgetRow.decode) 5 1 5 BudgetRow.reset.encode = .ok ([BudgetRow.reset], false)) ∧
    ((11 : Half).toNat + 1 ≤ 12 ∧ Report.reset.encode.length = 1 * 26 ∧
     decodeAll (fun _ => Report.decode) 26 1 11 Report.reset.encode = .ok ([Report.reset], false)) ∧
    ((15 : Half).toNat + 1 ≤ 16 ∧ Clip.reset.encode.length = 1 * 7 ∧
     decodeAll (fun _ => Clip.decode) 7 1 15 Clip.reset.encode = .ok ([Clip.reset], false)) :=
  ⟨opens_idle, by decide +kernel⟩

/-- The two writes of the example of 08, section 8.3, and one at the top of the store. -/
theorem witness_StoreWriteTouchesItsBytes :
    playing.Opens ∧ Memory.wf playing.sound.store = true ∧
    (playing.sound.clipPlaying = true ∧ playing.sound.clipStart < 10000 + 240 ∧
     10000 < playing.sound.clipStart + playing.sound.clipLength ∧ 0 < playing.sound.clipLength) ∧
    playing.sound.clipStart + playing.sound.clipLength ≤ 10096 ∧ idle.sound.clipPlaying = false ∧
    ((32767 : Half).toNat + 1 ≤ 32768 ∧ ([7] : List Byte).length = 1) :=
  ⟨opens _ (by decide +kernel), by decide +kernel⟩

/-- Six PROFILES records are 192 bytes and eight are 256. -/
theorem witness_TableReadReturnsRecords :
    idle.Opens ∧ ([1, 0, 0] : List Byte).length ≠ 4 ∧ Table.ofId 0 = none ∧ Table.scanList.records < 16 + 1 ∧
    (0 + 8 ≤ Table.profiles.records ∧ 242 < 8 * Table.profiles.size) ∧
    (0 + 6 ≤ Table.profiles.records ∧ 6 * Table.profiles.size ≤ 242) ∧
    (32767 + 1 ≤ Table.sampleStore.records ∧ 1 ≤ 240) ∧
    (0 + 240 ≤ Table.sampleStore.records ∧ 240 * Table.sampleStore.size ≤ 242) ∧
    (Table.sampleStore.records < 32767 + 2 ∧ 240 < (241 : Byte).toNat) := ⟨opens_idle, by decide +kernel⟩

/-! ### Motor channels -/

/-- An end action of 3; channel 6; FOLLOW entry 32; an unbound channel; SET_COUNT on a device-field motor and on a driving
one; BROWNOUT; service mode; SILENT. -/
theorem witness_MotorCommandChecks :
    driven.Opens ∧ brown.Opens ∧
    motorOperands (.motorRunTo 1 1 0 0 0 3) = some (1, 1, none) ∧
    (motorOperands (.motorCoast 1 6 0) = some (1, 6, some .coast) ∧ 6 ≤ (6 : Byte).toNat) ∧
    (motorOperands (.motorFollow 1 1 0 32 0) = some (1, 1, some (.follow 32 0)) ∧ 32 ≤ 32) ∧
    driven.motorProfile 0 = none ∧
    ({ driven with profiles := driven.profiles.set 0 { motor with positionSource := 5 } } : State).motorProfile 1 =
      some { motor with positionSource := 5 } ∧
    (duty.motorProfile 1 = some motor ∧ duty.motors[1].mode.driving = true) ∧
    brown.budget.record.state = .brownout ∧ ({ driven with service := some 1 } : State).service = some 1 ∧
    ({ driven with link := { driven.link with state := .silent } } : State).link.state = .silent :=
  ⟨opens_driven, opens _ (by decide +kernel), by decide +kernel⟩

theorem witness_NonDrivingOperationsAct :
    duty.Opens ∧ driven.Opens ∧ duty.motorProfile 1 = some motor ∧ driven.motorProfile 1 = some motor ∧
    motor.positionSource = 255 ∧ driven.motors[1].mode.driving = false :=
  ⟨opens_duty, opens_driven, by decide +kernel⟩

theorem witness_DutyDrivesAtOnce :
    driven.Opens ∧ driven.motorProfile 1 = some motor ∧ driven.budget.record.state ≠ .brownout ∧
    driven.service ≠ some 1 ∧ driven.link.state = .active := ⟨opens_driven, by decide +kernel⟩

theorem witness_RegulatedOperationsBegin :
    driven.Opens ∧ driven.motorProfile 1 = some motor ∧ driven.budget.record.state ≠ .brownout ∧
    driven.service ≠ some 1 ∧ driven.link.state = .active ∧ EndAction.list[(2 : Byte).toNat]? = some .hold ∧
    (31 : Byte).toNat < 32 := ⟨opens_driven, by decide +kernel⟩

theorem witness_RegulationMeasuresSpeed :
    driven.motors[1].regTimer = some 10 ∧ driven.motorProfile 1 = some motor ∧ driven.motors[1].mode.driving = false ∧
    duty.motors[1].regTimer = some 10 ∧ duty.motors[1].mode = .duty ∧
    ¬ ((motor.stallDuty.toNat : Int) ≤ |(599 : Int)| ∧ |(0 : Int)| < (motor.stallSpeed.toNat : Int)) ∧
    (entry .motorSpeed 1 .valid).cfg.sourceIndex = portByte 1 ∧ (entry .motorSpeed 1 .valid).cfg.mode = .raw ∧
    driven.service ≠ some 1 := by decide +kernel

/-- The row 850 of the RUN_TO example, with the regulator's output below stall_duty. -/
theorem witness_RegulationStepsRegulator :
    (approaching 850 0).motors[1].regTimer = some 10 ∧ (approaching 850 0).motorProfile 1 = some motor ∧
    (approaching 850 0).motors[1].mode.regulated = true ∧ ¬ (motor.positionSource ≠ 255 ∧ 0 = 2) ∧
    0 < motor.inposCount.toNat ∧
    ¬ ((motor.stallDuty.toNat : Int) ≤ (after (.regulationExpiry 1) (approaching 850 0)).motors[1].dutyGrant) := by
  decide +kernel

/-- Channel B in a SPEED of 1000 that does not turn, at a stall count. -/
def stalling (count : Nat) : State :=
  running { driven.motors[1] with mode := .speed, operation := .speed, targetSpeed := 1000, stallCount := count }

/-- A lost device field; the last row of the RUN_TO example; a stall regulation, the third, the sixth. -/
theorem witness_RegulationEndsOperations :
    let lost : State := { approaching 850 0 with
      profiles := driven.profiles.set 0 { motor with positionSource := 0, lineUse := .device }
      ports := driven.ports.set 1 { driven.ports[1] with missed := 2 } }
    (lost.motors[1].regTimer = some 10 ∧ lost.motors[1].mode.regulated = true ∧
     lost.motorProfile 1 = some { motor with positionSource := 0, lineUse := .device } ∧ lost.ports[1].missed = 2) ∧
    ((approaching 998 2).motors[1].mode = .runTo ∧ |((1000 : Word) - 998).toInt| ≤ (motor.tolerance.toNat : Int) ∧
     motor.inposCount.toNat ≤ 2 + 1) ∧
    (duty.motors[1].mode = .duty ∧ (motor.stallDuty.toNat : Int) ≤ |duty.motors[1].dutyGrant| ∧
     |(29 : Int)| < (motor.stallSpeed.toNat : Int) ∧
     (∀ i : Fin 32, duty.conv[i].cfg.sourceKind = .motorSpeed → duty.conv[i].cfg.sourceIndex ≠ portByte 1) ∧
     duty.bus.dispatch = none ∧ duty.bus.events.length ≤ 14) ∧
    (motor.stallWarn.toNat ≤ min 255 (2 + 1) ∧ motor.stallStop.toNat ≤ min 255 (5 + 1)) ∧
    ((stalling 2).motors[1].mode.regulated = true ∧ motor.positionSource = 255 ∧
     (stalling 2).motors[1].position = (stalling 2).motors[1].prevPosition ∧
     (motor.stallDuty.toNat : Int) ≤ |(after (.regulationExpiry 1) (stalling 2)).motors[1].dutyGrant| ∧
     (let t := after (.regulationExpiry 1) { approaching 1000 2 with link := State.reset.link }
      State.reset.link.tx ≠ none ∧ t.bus.events.length < 16 ∧ t.bus.dispatch = none ∧ lost.bus.dispatch = none ∧
      (after (.regulationExpiry 1) lost).bus.events.length < 16) ∧
     |(0 : Int)| < (motor.stallSpeed.toNat : Int) ∧
     (∀ i : Fin 32, (stalling 2).conv[i].cfg.sourceKind = .motorSpeed → (stalling 2).conv[i].cfg.sourceIndex ≠ portByte 1) ∧
     (stalling 2).bus.dispatch = none ∧ (stalling 2).bus.events.length ≤ 14) := by decide +kernel

/-- 05 R104: the third stall regulation of a SPEED warns, the sixth ends it STALLED with BRAKE. -/
theorem test_regulation_stalls :
    events (after (.regulationExpiry 1) (stalling 2)) = [(.stallWarn, 1, 0, 0)] ∧
    (after (.regulationExpiry 1) (stalling 2)).motors[1].mode = .speed ∧
    events (after (.regulationExpiry 1) (stalling 5)) = [(.stallWarn, 1, 0, 0), (.runEnd, 1, 4, 0)] ∧
    (after (.regulationExpiry 1) (stalling 5)).motors[1].mode = .brake := by decide +kernel

theorem witness_RunForEndsAtItsTime :
    let s := running { duty.motors[1] with mode := .runFor, runForTimer := some 1 }
    s.motors[1].runForTimer = some 1 ∧ s.motors[1].mode = .runFor := by decide +kernel

/-! ### Line inputs -/

theorem witness_DigitalLinesAreFiltered :
    let l (m : LineMode) (d : Nat) (t : Timer) : Lines := { idle.lines[4] with mode := m, debounce := d, timer1 := t }
    (l .digital 0 none).pin .l1 = false ∧ (l .none 0 none).mode ≠ .digital ∧ (l .digital 31 none).debounce ≠ 0 ∧
    (l .digital 0 none).debounce = 0 ∧ (l .digital 0 none).timer .l1 = none ∧
    (l .digital 5 (some 5)).timer .l1 = some 5 := by decide +kernel

/-- A RAW entry over port n, without a change limit and rail check. -/
abbrev showing (e : ConvEntry) (n : PortNo) : Prop :=
  e.cfg.sourceIndex = portByte n ∧ e.cfg.mode = .raw ∧ e.cfg.maxChange = 0 ∧ e.cfg.railCheck = false

/-- Not in QUADRATURE; the pair it stood at; the double transition and a counted one of the example of 03. -/
theorem witness_QuadratureCounts :
    idle.lines[1].mode ≠ .quadrature ∧ (counting false true 3).lines[1].mode = .quadrature ∧
    ((false, true) = ((counting false true 3).lines[1].level1, (counting false true 3).lines[1].level2)) ∧
    ((counting false true 3).lines[1].level1 != true && (counting false true 3).lines[1].level2 != false) = true ∧
    ((counting false true 3).lines[1].level1 != false && (counting false true 3).lines[1].level2 != false) = false ∧
    ({ driven with encStamp := driven.encStamp.set 1 (some 0) } : State).encStamp[1] = some driven.bus.stamp ∧
    (driven.encStamp[1] ≠ some driven.bus.stamp ∧ driven.ports[1].state = .bound ∧ driven.service ≠ some 1 ∧
     showing (entry .encoder 1 .empty) 1) := by
  decide +kernel

/-- 04 R66: the first change in a millisecond is handed to the ENCODER entry, the second is not. -/
theorem test_quadrature_handsOff :
    let s : State := { counting false true 3 with conv := driven.conv.set 0 (entry .encoder 1 .empty) }
    let t := after (.quadratureChange 1 false false) s
    t.conv[0].value = 4 ∧ (after (.quadratureChange 1 true false) t).conv[0].value = 4 := by decide +kernel

theorem witness_PulseMeterMeasures :
    idle.lines[2].mode ≠ .pulse ∧
    ((metering true true 500 0).lines[2].mode = .pulse ∧ (metering true true 500 0).lines[2].level1 ≠ false) ∧
    ((metering false false 0 0).lines[2].level1 ≠ true ∧ (metering false false 0 0).lines[2].armed = false) ∧
    ((metering false true 500 800).lines[2].level1 ≠ true ∧ (metering false true 500 800).lines[2].armed = true) ∧
    idle.lines[2].noEdge = none ∧ (metering false true 0 0).lines[2].noEdge = some 100 ∧
    ({ idle.ports[2] with state := .bound }.state = .bound ∧ idle.service ≠ some 2 ∧
     showing (entry .pulseHigh 2 .empty) 2 ∧ showing (entry .pulsePeriod 2 .empty) 2 ∧
     showing (entry .pulseDuty 2 .empty) 2 ∧ (1500 : Word) - 500 ≠ 0) := by decide +kernel

/-- Marks the shaft lands on, leaves, and passes: da = d crosses, da = 0 does not. -/
theorem witness_MarksAreCrossed :
    let crosses (d x : Int) : Bool := (decide (0 < d ∧ 0 < x ∧ x ≤ d)) || decide (d < 0 ∧ d ≤ x ∧ x < 0)
    (crosses 8 0 = false ∧ crosses 8 10 = false) ∧ (crosses 400 400 = true ∧ crosses 400 (-1590) = false) ∧
    (crosses 8 (-8) = false ∧ crosses 8 2 = true) ∧ (crosses 150 50 = true ∧ crosses 150 110 = true) ∧
    (crosses (-70) (-100) = false ∧ crosses (-70) (-40) = true) ∧ (0 : Word) = 0 ∧ (2000 : Word) ≠ 0 := by
  decide +kernel

/-! ### Drive budget -/

/-- Case 1 of 07 scales, and the brownout example enters; C of 0 and above 0, M + S above and within C. -/
theorem witness_WindowRecordsItsWork :
    ((loaded 7250 0).settings.budgetSource.toNat = 0 ∧ (loaded 7250 0).conv[0].status = .valid) ∧
    32 ≤ idle.settings.budgetSource.toNat ∧
    (after .budgetWindowExpiry (loaded 7250 (-1000))).budget.record.row = some 2 ∧
    (after .budgetWindowExpiry { loaded (BitVec.ofInt 32 (-1)) 0 with bus := Bus.reset }).budget.record.row = none := by
  decide +kernel

theorem witness_WindowGrantsByState :
    (after .budgetWindowExpiry (loaded 5890 500)).budget.record.ceiling = 0 ∧
    (after .budgetWindowExpiry (loaded 5890 500)).budget.record.state = .brownout ∧
    (let r := (after .budgetWindowExpiry { loaded 7250 0 with budget := { (loaded 7250 0).budget with
        record := { (loaded 7250 0).budget.record with state := .brownout, recovery := 1 } } }).budget.record
     0 < r.ceiling ∧ r.state = .brownout ∧ r.recovery = 2) ∧
    (let r := (after .budgetWindowExpiry (loaded 7250 500)).budget.record
     r.motorDemand + r.soundDemand ≤ r.ceiling ∧ r.state = .normal) ∧
    (let r := (after .budgetWindowExpiry (loaded 7250 820)).budget.record
     r.ceiling < r.motorDemand + r.soundDemand ∧ r.motorDemand ≤ r.ceiling - 100 ∧ r.scale = 1024) ∧
    (let r := (after .budgetWindowExpiry (loaded 7250 1000)).budget.record
     r.ceiling < r.motorDemand + r.soundDemand ∧ r.ceiling - 100 < r.motorDemand ∧ r.scale = 920) ∧
    duty.motors[1].mode.driving = true ∧ duty.bus.dispatch = none ∧
    (let s : State := { loaded 5890 500 with link := State.reset.link }
     s.budget.record.state = .normal ∧ s.bus.events.length < 16 ∧ s.bus.notices.length < 16 ∧ s.link.tx ≠ none ∧
     (after .budgetWindowExpiry s).budget.record.state ≠ .normal) ∧
    (let s : State := { loaded 7250 500 with link := State.reset.link }
     s.link.tx ≠ none ∧ (after .budgetWindowExpiry s).budget.record.state = s.budget.record.state) := by decide +kernel

/-! ### Sound engine -/

theorem witness_NotesPlayInOrder :
    (singing 32).Opens ∧ (singing 31).Opens ∧ idle.Opens ∧ 3 ≤ (3 : Byte).toNat ∧
    Waveform.list[(2 : Byte).toNat]? = some .saw ∧
    ((singing 32).sound.tonePlaying = true ∧ 32 ≤ (singing 32).sound.queue.length) ∧
    (singing 31).sound.queue.length < 32 ∧ idle.sound.tonePlaying = false ∧
    ((singing 0).sound.noteTimer = some 200 ∧ (singing 0).sound.queue = []) ∧
    (singing 3).sound.queue = note :: List.replicate 2 note :=
  ⟨opens _ (by decide +kernel), opens _ (by decide +kernel), opens_idle, by decide +kernel⟩

theorem witness_SoundCommandsAct :
    playing.Opens ∧ 16 ≤ (16 : Byte).toNat ∧ (15 : Byte) = byteOf (15 : Fin 16).val :=
  ⟨opens _ (by decide +kernel), by decide +kernel⟩

theorem witness_OutputSampleMixes :
    (singing 0).sound.tonePlaying = true ∧ playing.sound.clipPlaying = true ∧
    idle.sound.tonePlaying = false ∧ idle.sound.clipPlaying = false := by decide +kernel

/-! ### Converter scan -/

theorem witness_ScanCommandsAct :
    listed.Opens ∧ (scanning .continuous 0 (.slot 0 6 4 2 5984 false)).Opens ∧
    ((Instr.scanStop 1 = .scanStop 1) ∧ (ScanMode.off = .off)) ∧
    (match (scanning .continuous 0 (.slot 0 6 4 2 5984 false)).scan.work with
     | .slot k .. => decide (k = 0)
     | .idle | .ident .. => false) = true ∧
    measuring.scan.work = .ident 4 false ∧ (listed.scan.work = .idle ∧ ∀ n : PortNo, listed.scan.idReq[n] = false) :=
  ⟨opens _ (by decide +kernel), opens _ (by decide +kernel), by decide +kernel⟩

/-- A conversion that goes on; the last of a slot; a cut one; the last slot of a SINGLE and of a CONTINUOUS pass. -/
theorem witness_ScanConversionCompletes :
    let s := scanning .continuous 1 (.slot 1 2 8 7 8414 false)
    let last (m : ScanMode) := scanning m 2 (.slot 2 7 1 0 0 true)
    (s.scan.work = .slot 1 2 8 7 8414 false ∧ s.scan.cut = false ∧ 8 ≤ 7 + 1 ∧ 6 + 1 < 8) ∧
    (s.scan.pass = some { next := 1, last := 2 } ∧ (1 : Fin 16) < 2 ∧ ∀ m : PortNo, s.scan.idReq[m] = false) ∧
    ((last .single).scan.mode = .single ∧ (last .single).scan.passDue = false ∧
     (last .single).scan.pass = some { next := 2, last := 2 } ∧ (2 : Fin 16) ≤ 2 ∧
     (last .single).bus.dispatch = none ∧ (last .single).bus.events.length < 16) ∧
    (last .continuous).scan.mode = .continuous ∧
    ({ s.scan with cut := true, mode := .off } : Scan).cut = true ∧
    (let s := { last .single with conv := idle.conv.set 0 (entry .slot 2 .valid) }
     (after (.scanConversionDone 5) s).bus.events.length < 16 ∧ s.conv[0].cfg.sourceIndex = byteOf (2 : Fin 16).val ∧
     ∀ e : Fin 32, (last .single).conv[e].cfg.sourceKind = .slot →
       (last .single).conv[e].cfg.sourceIndex ≠ byteOf (2 : Fin 16).val) ∧
    (let c : Scan := { s.scan with cut := true, passDue := true }
     c.cut = true ∧ c.passDue = true ∧ (c.idReq.set 5 true)[5] = true ∧ ∀ k : PortNo, k < 5 → (c.idReq.set 5 true)[k] = false) ∧
    ((last .single).scan.passDue = false ∧ (last .single).scan.mode ≠ .continuous) ∧
    (6 ≤ listed.scan.slots[2].input.val ∧ (entry .slot 2 .valid).cfg.sourceIndex = byteOf (2 : Fin 16).val ∧
     (entry .slot 2 .valid).cfg.railCheck = false) := by decide +kernel

/-- `measuring`, the port in FAULT ID_SHORT. -/
def shorted : State :=
  { measuring with
      ports := measuring.ports.set 4 { measuring.ports[4] with
        state := .fault, fault := .idShort, band := some .short, reprobeTimer := some 500 } }

/-- `measuring` with the transmitter sending. -/
def busy : State := { measuring with link := State.reset.link }

/-- A void measurement, a port elsewhere, a port in DETECTING; the bands at their bounds; a class with and without a
profile. -/
theorem witness_IdentBandsDecide :
    measuring.scan.work = .ident 4 false ∧
    (({ idle with scan := { idle.scan with work := .ident 4 true } } : State).scan.work = .ident 4 true) ∧
    ((smart sensing).ports[4].state ≠ .detecting ∧ (smart sensing).ports[4].state ≠ .fault) ∧
    measuring.ports[4].state = .detecting ∧ (199 < 200 ∧ 200 ≤ 3899 ∧ 3899 < 3900 ∧ 3900 ≤ 4095) ∧
    lookup driven.profiles 3 0 = some 0 ∧ motor.use = .motor ∧ lookup driven.profiles 6 0 = none ∧
    (measuring.ports[4].exchange = none ∧ measuring.ports[4].pass = none ∧ measuring.ports[4].pollDue = false) ∧
    (shorted.scan.work = .ident 4 false ∧ shorted.ports[4].state = .fault ∧ shorted.ports[4].fault = .idShort) ∧
    busy.link.tx ≠ none := by decide +kernel

/-- 02 R35: a FAULT ID_SHORT port measured short again stays as it is, and one in the open band leaves FAULT for PROBING. -/
theorem test_idConversionDone_fault :
    events (after (.idConversionDone 100) shorted) = [] ∧ (after (.idConversionDone 100) shorted).ports[4].state = .fault ∧
    (after (.idConversionDone 4051) shorted).ports[4].state = .probing ∧
    (after (.idConversionDone 4051) shorted).ports[4].fault = .none := by decide +kernel

/-! ### Ports -/

/-- A detach of a port that drives, with a SEND pending. -/
theorem witness_DetectFilterAttachesAndDetaches :
    let at' (det acc : Bool) (st : PortState) : Port :=
      { sensing with det := det, detAccepted := acc, detTimer := some 20, state := st }
    idle.ports[4].det = false ∧ (at' true true .bound).det = (at' true true .bound).detAccepted ∧
    ((at' true false .empty).detTimer = some 20 ∧ (at' true false .empty).det = true ∧
     (at' true false .empty).detAccepted = false ∧ (at' true false .empty).state = .empty) ∧
    ((at' false true .bound).det = false ∧ (at' false true .bound).detAccepted = true ∧
     (at' false true .bound).state ≠ .empty) ∧
    duty.motors[1].regTimer ≠ none ∧ duty.motors[1].mode.driving = true ∧
    sending.ports[4].pass = some { place := 0, data := [7] } ∧ sensing.pass = none ∧
    ((smart sensing).sourcePort (entry .deviceField 4 .valid).cfg = some 4 ∧ (entry .deviceField 4 .valid).status ≠ .empty) ∧
    idle.bus.dispatch = none ∧ idle.bus.events.length < 16 ∧ busy.link.tx ≠ none := by decide +kernel

theorem witness_EngineTimersStartExchanges :
    let free (p : Port) : Bool := decide (p.exchange = none ∧ p.pass = none ∧ p.pollDue = false)
    let faulty (r : FaultReason) : Port := { sensing with state := .fault, fault := r, reprobeTimer := some 500 }
    (probing.queryTimer = some 50 ∧ probing.state = .probing ∧ free { probing with exchange := none } = true) ∧
    probing.exchange = some (inWindow .query) ∧
    (sensing.pollTimer = some 15 ∧ sensing.exchange = none ∧ sensing.pass = none) ∧
    ((replying .poll).pollTimer = some 15 ∧ { replying .poll with resumes := true, missed := 1 }.resumes = true) ∧
    ({ smart sensing with service := some 4 } : State).service = some 4 ∧ (smart sensing).service ≠ some 4 ∧
    (replying .write).exchange = some (inWindow .write) ∧
    ((faulty .silent).reprobeTimer = some 500 ∧ (faulty .silent).fault ≠ .idShort ∧ (faulty .silent).state = .fault ∧
     free (faulty .silent) = true) ∧
    (faulty .idShort).fault = .idShort := by decide +kernel

/-- Tries 2 and 3; misses 1 and 2. -/
theorem witness_ClosingWindowsFailExchanges :
    (probing.window = some .query ∧ probing.pass = none ∧ probing.pollDue = false ∧ probing.queryDue = false ∧
     ¬ (probing.state = .probing ∧ 3 ≤ 2)) ∧ (probing.state = .probing ∧ 3 ≤ 3) ∧
    ((replying .poll).window = some .poll ∧ (replying .poll).pass = none ∧ 1 < 2 ∧ (replying .poll).state = .bound) ∧
    (sending.ports[4].window = some .write ∧ sending.ports[4].pass = some { place := 0, data := [7] } ∧
     sending.ports[4].pollDue = false ∧ sending.ports[4].queryDue = false) ∧
    (duty.motors[1].regTimer ≠ none ∧ duty.motors[1].mode.driving = true) ∧
    ((replying .poll).exchange = some (inWindow .poll) ∧ { replying .poll with missed := 2 }.missed = 2 ∧
     busy.link.tx ≠ none) := by decide +kernel

/-- Six fields and class 16; an IDENT of no bytes. -/
theorem witness_IdentsAreTaken :
    (probing.exchange = some (inWindow .query) ∧ (inWindow .query).kind = .query ∧ (inWindow .query).windowOpen = true ∧
     (inWindow .query).got = []) ∧
    (1 ≤ (List.replicate 6 Format.s8).length ∧ (List.replicate 6 Format.s8).length ≤ 6 ∧ 16 ≤ (16 : Byte).toNat ∧
     probing.pass = none ∧ probing.state = .probing ∧ probing.band = some .openLine) ∧
    lookup (smart probing).profiles 40 2 = some 6 ∧ lookup (smart probing).profiles 16 0 = none ∧
    (goodIdent [] = none ∧ ([] : List Byte).length ≤ 24 ∧ probing.pollDue = false ∧ probing.queryDue = false ∧
     ¬ (probing.state = .probing ∧ 3 ≤ probing.tries)) ∧ busy.link.tx ≠ none := by decide +kernel

/-- Three bytes are declared; a device-field motor at its first field; forwarding with a busy transmitter. -/
theorem witness_DataRepliesAreTaken :
    ((replying .poll).exchange = some (inWindow .poll) ∧ (inWindow .poll).kind = .poll ∧
     (inWindow .poll).windowOpen = true ∧ (inWindow .poll).got = []) ∧
    ((replying .poll).pass = none ∧ (replying .poll).pollDue = false ∧ (replying .poll).queryDue = false) ∧
    (([0, 0, 0] : List Byte).length = ((replying .poll).formats.map Format.size).sum ∧
     ([0, 0] : List Byte).length ≠ ((replying .poll).formats.map Format.size).sum ∧ (replying .poll).missed < 2) ∧
    (({ smart (replying .poll) with profiles := (smart sensing).profiles.set 6 { motor with positionSource := 0 } } :
       State).motorProfile 4 = some { motor with positionSource := 0 } ∧ (0 : Byte) = byteOf (0 : Fin 6).val) ∧
    (smart (replying .poll)).motorProfile 4 = none ∧
    ((replying .poll).state = .bound ∧ (replying .poll).band = some .openLine ∧ 1 < (replying .poll).formats.length ∧
     showing (entry .deviceField 4 .empty) 4 ∧ (entry .deviceField 4 .empty).cfg.sourceField = byteOf (0 : Fin 6).val ∧
     (smart (replying .poll)).service ≠ some 4 ∧
     ({ smart (replying .poll) with service := some 4 } : State).service = some 4) ∧
    ((reporting []).link.tx ≠ none ∧ (reporting []).reportQueue.any (ReportRecord.isPassOf 4) = false ∧
     (reporting []).reportQueue.length < 8 ∧ (∀ i : Fin 12, idle.reports[i].enabled = false)) := by decide +kernel

/-- 04 R64: the field is shown at the reply; in service mode the entry takes STALE and keeps its value. -/
theorem test_dataReceived_handsOff :
    let s : State := { smart (replying .poll) with conv := idle.conv.set 3 (entry .deviceField 4 .empty) }
    (after (.dataReceived 4 [0x88, 0xFF, 7]) s).conv[3].value = BitVec.ofInt 32 (-120) ∧
    (after (.dataReceived 4 [0x88, 0xFF, 7]) { s with service := some 4 }).conv[3].status = .stale ∧
    (after (.dataReceived 4 [0x88, 0xFF, 7]) { s with service := some 4 }).conv[3].value = 0 := by decide +kernel

/-- A SEND in its window; a header of 25; a wrong check byte; a closed window. -/
theorem witness_RepliesEndExchanges :
    idle.ports[4].exchange = none ∧ pollExchange.windowOpen = false ∧
    (sending.ports[4].exchange = some (inWindow .write) ∧ (inWindow .write).windowOpen = true ∧
     (inWindow .write).got = [] ∧ sending.ports[4].pollDue = false ∧ sending.ports[4].queryDue = false ∧
     (List.replicate 24 (0 : Byte)).length ≤ 24) ∧
    ((inWindow .write).kind = .write ∧ sending.ports[4].pass = some { place := 0, data := [7] }) ∧
    ((replying .poll).exchange = some (inWindow .poll) ∧ (replying .poll).pass = none ∧ (replying .poll).missed < 2) ∧
    (probing.exchange = some (inWindow .query) ∧ ¬ (probing.state = .probing ∧ 3 ≤ probing.tries)) ∧
    25 ≤ (25 : Byte).toNat % 32 ∧ (0 : Byte) ≠ 255 - byteSum (deviceHeader 5 1 :: [0]) := by decide +kernel

/-- Lengths 0, 16 and 17; port 6; and a port in each state of the table. -/
theorem witness_PortCommandChecks :
    idle.Opens ∧ (([] : List Byte).length = 0 ∧ 16 < (List.replicate 17 (0 : Byte)).length) ∧
    (decide (6 ≤ (6 : Byte).toNat) = true ∧ decide (6 ≤ (5 : Byte).toNat) = false) ∧
    (1 ≤ (List.replicate 16 (0 : Byte)).length ∧ (List.replicate 16 (0 : Byte)).length ≤ 16 ∧ (255 : Byte) ≠ 0) ∧
    idle.ports[4].state = .empty ∧ measuring.ports[4].state = .detecting ∧ probing.state = .probing ∧
    (driven.ports[1].state = .bound ∧ (driven.ports[1].band == some .openLine) = false) ∧
    (({ sensing with state := .fault, fault := .silent } : Port).fault ≠ .idShort) ∧
    (sending.ports[4].state = .bound ∧ (sending.ports[4].band == some .openLine) = true ∧ sending.ports[4].pass ≠ none) ∧
    ({ smart sensing with service := some 4 } : State).service = some 4 ∧ sending.service ≠ some 4 :=
  ⟨opens_idle, by decide +kernel⟩

theorem witness_PortCommandsAct :
    (smart sensing).Opens ∧ (1 ≤ ([7] : List Byte).length ∧ ([7] : List Byte).length ≤ 16) ∧
    decide ((sensing.state = .bound ∨ sensing.state = .unknown) ∧ sensing.band = some .openLine ∧ sensing.pass = none) =
      true ∧
    ((1 : Byte) ≠ 0 ∧ (smart sensing).motors[4].mode.driving = false ∧ (smart sensing).service ≠ some 4) ∧
    ((smart sensing).sourcePort (entry .deviceField 4 .valid).cfg = some 4 ∧ (entry .deviceField 4 .valid).status ≠ .empty) ∧
    (duty.ports[1].state = .bound ∧ duty.motors[1].mode.driving = true ∧ duty.motors[1].regTimer ≠ none) ∧
    (({ smart sensing with service := some 5 } : State).service = some 5 ∧
     ({ smart sensing with service := some 4 } : State).service = some 4) ∧ busy.link.tx ≠ none :=
  ⟨opens_smart, by decide +kernel⟩

/-! ### Conversion, reactions, reports -/

/-- Entries 1 and 2 read entry 0, and entry 3 reads entry 1, all of them VALID. -/
def branched : State :=
  { idle with conv := (((idle.conv.set 0 (entry .slot 0 .valid)).set 1 (entry .entry 0 .valid)).set 2
      (entry .entry 0 .valid)).set 3 (entry .entry 1 .valid) }

/-- Codes 8 and 9 about the lower rail; an entry in RAIL; a run that reaches trip_count, and one that does not. -/
theorem witness_EvaluationRunsStages :
    let c : ConvConfig := { ConvConfig.reset with railCheck := true, tripCount := 3 }
    (c.railCheck = true ∧ ((8 : Int) ≤ 8 ∨ 4087 ≤ (8 : Int))) ∧ ¬ ((9 : Int) ≤ 8 ∨ 4087 ≤ (9 : Int)) ∧
    (entry .slot 0 .rail).status = .rail ∧ (entry .slot 0 .valid).status ≠ .rail ∧ c.tripCount ≤ 2 + 1 ∧
    1 + 1 < c.tripCount ∧
    (idle.ChainsDown ∧ branched.ChainsDown) ∧
    ((branched.conv[0].evaluate 100 0).1.status = .valid ∧
     ({ entry .slot 0 .valid with cfg := { c with tripCount := 1 } }.evaluate 8 0).1.status ≠ .valid) ∧
    (branched.conv[0].status ≠ .stale ∧ branched.conv[0].status ≠ .noSource ∧ branched.conv[0].status = .valid) ∧
    ((entry .motorSpeed 1 .valid).cfg.sourceKind ≠ .none ∧ (entry .motorSpeed 1 .valid).cfg.sourceIndex.toNat = 1 ∧
     driven.ports[1].state = .bound ∧ driven.service ≠ some 1 ∧ driven.profiles[0].use = .motor ∧
     driven.ports[1].profile = some 0) ∧
    ((smart sensing).ports[4].state = .bound ∧ (smart sensing).lines[4].mode ≠ .quadrature ∧
     (smart sensing).lines[4].mode ≠ .pulse) ∧
    (idle.scan.slots[0].input.val = 0 ∧ idle.ports[0].state = .empty ∧ 6 ≤ listed.scan.slots[2].input.val) ∧
    shorted.ports[4].state = .fault ∧ ({ smart sensing with service := some 4 } : State).service = some 4 := by
  unfold State.ChainsDown
  decide +kernel

/-- 04 R67: the dependents in ascending order, each with its own chain on the value it is given. -/
theorem test_chain_order :
    (State.evaluateChain 32 branched 0 100).2 = [0, 1, 3, 2] ∧
    (State.evaluateChain 32 branched 0 100).1.conv[3].value = 100 := by decide +kernel

/-- 04 R79: an entry that takes STALE gives its chain NO_SOURCE; 02 R35, 04 R64 (log 37): an update in UNKNOWN gives
NO_SOURCE to an entry that stood STALE. -/
theorem test_statuses :
    (let t := branched.takeStatus 0 .stale
     [t.conv[0].status, t.conv[1].status, t.conv[2].status, t.conv[3].status] =
      [.stale, .noSource, .noSource, .noSource]) ∧
    (State.updateEntry ({ smart { sensing with state := .unknown } with
      conv := idle.conv.set 3 (entry .deviceField 4 .stale) }, []) 3 7).1.conv[3].status = .noSource := by decide +kernel

/-- No match; an EDGE entry named by a level record; one match with each action; a directed LEVEL entry. -/
theorem witness_DispatchFiresEntries :
    let s := dispatching rise braking telling
    let hits (r : Reaction) : Bool := decide (r.enabled = true ∧ r.triggerKind = rise.kind ∧ rise.kind ≠ .none ∧
      (r.triggerIndex = 255 ∨ r.triggerIndex = rise.index) ∧ (r.triggerDetail = 255 ∨ r.triggerDetail = rise.detail))
    (s.bus.events = rise :: [] ∧ s.bus.dispatch = none) ∧
    (rise.directed = none ∧ hits s.reactions[0] = true ∧ ∀ j : Fin 24, j ≠ 0 → hits s.reactions[j] = false) ∧
    (∀ j : Fin 24, hits idle.reactions[j] = false) ∧
    (({ rise with directed := some 0 } : Event).directed = some 0 ∧ s.reactions[0].level = false) ∧
    (leveled.enabled = true ∧ leveled.level = true ∧ leveled.triggerKind = .markOff) ∧
    (Reaction.reset.actionKind = .none ∧ telling.actionKind = .notify ∧ braking.actionKind = .motor ∧
     braking.actionTarget = portByte 1) ∧
    (2 ≤ ({ braking with arg2 := 7 } : Reaction).arg2.toNat ∧ 9 ≤ ({ braking with arg2 := 9 } : Reaction).arg2.toNat) ∧
    ({ s with link := { s.link with state := .silent } } : State).link.state = .silent ∧ s.motorProfile 0 = none ∧
    (braking.arg2 = 1 ∧ (s.motorProfile 1).isSome = true ∧ s.motors[1].mode.driving = true ∧
     s.motors[1].notify = false ∧ rise.depth ≤ 3) := by decide +kernel

/-- The actions on other entries, the sound, the marks, the reports and the scan. -/
theorem witness_DispatchFiresEntries_actions :
    let s := dispatching rise braking telling
    ((switching .disable).actionTarget = byteOf (5 : Fin 24).val ∧ (switching .enable).actionTarget = byteOf (5 : Fin 24).val ∧
     leveled.enabled = true ∧ { leveled with enabled := false }.enabled = false ∧ telling.level = false ∧
     s.holding leveled = some (0, 0) ∧ s.bus.events.length ≤ 15) ∧
    (3 ≤ (3 : Half).toNat % 256 ∧ (2 : Half).toNat % 256 = Waveform.saw.code.toNat ∧
     ((singing 32).sound.tonePlaying = true ∧ 32 ≤ (singing 32).sound.queue.length) ∧
     (singing 31).sound.queue.length < 32 ∧ idle.sound.tonePlaying = false) ∧
    ((15 : Byte) = byteOf (15 : Fin 16).val ∧ idle.sound.clips[15].valid = false ∧ playing.sound.clips[5].valid = true) ∧
    ((3 : Word) ≠ 0 ∧ (3 : Word) ≠ 1 ∧ (3 : Word) ≠ 2) ∧
    (idle.marks[5].isOn = false ∧ (5 : Byte) = portByte 5 ∧ 4 ≤ ({ rise with depth := 4 } : Event).depth) ∧
    (11 : Byte) = byteOf (11 : Fin 12).val ∧
    (match exec (.scanSingle 1) s with
     | .next t => decide (t = State.replied { s with scan := (after (.scanSingle 1) s).scan } 0x30 1 .ok [])
     | .fault _ | .refused _ => false) = true := by
  decide +kernel

/-- A motor action at each operation, driving and not, refused and not: end actions 0-2 and 3, FOLLOW entries 0, 31, 32 and
-1, an unbound channel, BROWNOUT, service mode, SET_COUNT while driving and with a device field. -/
theorem witness_DispatchFiresEntries_motor :
    let s := dispatching rise braking telling
    (braking.actionTarget = portByte 1 ∧ s.motorProfile 1 = some motor ∧ s.motorProfile 0 = none ∧
     s.link.state = .active ∧ s.budget.record.state ≠ .brownout ∧ s.service ≠ some 1) ∧
    (brown.budget.record.state = .brownout ∧ ({ s with service := some 1 } : State).service = some 1) ∧
    ((2 ≤ (2 : Half).toNat ∧ (7 : Half).toNat ≤ 7) ∧ (8 : Half).toNat = 8) ∧
    ((0x20064 : Word).toInt / 65536 = EndAction.hold.code.toNat ∧ (0x10000 : Word).toInt / 65536 = EndAction.brake.code.toNat ∧
     2 < (0x30000 : Word).toInt / 65536 ∧ (0xFFFFFFFF : Word).toInt / 65536 < 0) ∧
    ((31 : Word).toInt = ((31 : Fin 32).val : Int) ∧ 31 < (32 : Word).toInt ∧ (0xFFFFFFFF : Word).toInt < 0) ∧
    (motor.positionSource = 255 ∧ driven.motors[1].mode.driving = false ∧ s.motors[1].mode.driving = true ∧
     ({ motor with positionSource := 0 } : Profile).positionSource ≠ 255) := by decide +kernel

/-- Two candidates, the lower disabling the higher; and two that both notify. -/
theorem witness_DispatchFiresEntries_several :
    let hits (r : Reaction) : Bool := decide (r.enabled = true ∧ r.triggerKind = rise.kind ∧ rise.kind ≠ .none ∧
      (r.triggerIndex = 255 ∨ r.triggerIndex = rise.index) ∧ (r.triggerDetail = 255 ∨ r.triggerDetail = rise.detail))
    (let t := dispatching rise (switching .disable) { telling with triggerKind := .lineRise, triggerDetail := 255 }
     t.bus.events = rise :: [] ∧ (0 : Fin 24) < 5 ∧ hits t.reactions[0] = true ∧ hits t.reactions[5] = true ∧
     ∀ k : Fin 24, k ≠ 0 → k ≠ 5 → hits t.reactions[k] = false) ∧
    (let t := dispatching rise { telling with triggerKind := .lineRise, triggerDetail := 0 }
        { telling with triggerKind := .lineRise, triggerDetail := 255 }
     ∀ k : Fin 24, hits t.reactions[k] = true → t.reactions[k].actionKind = .notify) := by decide +kernel

theorem witness_DueEntriesOfferReports :
    idle.Opens ∧ 12 ≤ (12 : Byte).toNat ∧ (reporting []).reports[0].periodTimer = some 20 ∧
    ((reporting []).reports[0].minTimer = some 30 ∧ (reporting []).reports[0].pending = true) ∧
    ({ idle.reports[0] with minTimer := some 30 } : Report).pending = false ∧
    (let r : Report := { idle.reports[0] with enabled := true, itemCount := 1, changeDelta := 5 }
     (r.enabled = true ∧ r.periodMs = 0 ∧ r.items[0].kind = .conv ∧ r.items[0].index.toNat = 0 ∧ 0 < r.itemCount ∧
      r.lastSent[0].all (fun v => decide ((r.changeDelta.toNat : Int) ≤ |(7 : Int) - v|)) = true ∧
      ({ r with lastSent := r.lastSent.set 0 (some 3) } : Report).lastSent[0].all
        (fun v => decide ((r.changeDelta.toNat : Int) ≤ |(7 : Int) - v|)) = false) ∧
     (∀ k : Fin 8, k.val < r.itemCount → r.items[k].kind = .conv → r.items[k].index.toNat < 32) ∧
     r.minTimer = none ∧ { r with minTimer := some 30 }.minTimer = some 30) := ⟨opens_idle, by decide +kernel⟩

/-- 10 R162: a difference of change_delta makes the report due, one less does not; within the minimum interval it waits. -/
theorem test_reportCheck :
    let s (value : Word) (interval : Timer) : State := { reporting [] with
      conv := idle.conv.set 0 { idle.conv[0] with value := value }
      reports := idle.reports.set 0 { idle.reports[0] with
        enabled := true, changeDelta := 5, lastSent := idle.reports[0].lastSent.set 0 (some 3), minTimer := interval } }
    ((s 8 none).reportCheck 0 0).reportQueue.length = 1 ∧ ((s 7 none).reportCheck 0 0).reportQueue = [] ∧
    ((s 8 (some 30)).reportCheck 0 0).reportQueue = [] ∧ ((s 8 (some 30)).reportCheck 0 0).reports[0].pending = true := by
  decide +kernel

/-! ### Invariants: a state that meets them, and a command it steps to a next state with -/

/-- Reset, with a command waiting. -/
def waiting : State := { State.reset with pending := [.stampTick] }

/-- `duty` with a command waiting, its load within a ceiling of 1500 mA. -/
def drivingOn : State := { duty with pending := [.regulationExpiry 1] }

/-- The step answers a next state. -/
def steps (s : State) : Bool :=
  match step s with
  | .next _ => true
  | .fault _ | .refused _ => false

theorem witness_StepRunsFrontCommand : steps waiting = true ∧ steps idle = true := by decide +kernel

theorem witness_QueuesStayOrderly :
    waiting.Capacities ∧ waiting.PlacesOrdered ∧ waiting.NothingWaits ∧ waiting.IntakeBlocked ∧
    Memory.wf waiting.sound.store = true ∧ steps waiting = true :=
  ⟨⟨by decide +kernel, by decide +kernel, by decide +kernel, by decide +kernel, by decide +kernel, by decide +kernel⟩,
   ⟨List.Pairwise.nil, by decide +kernel⟩, fun h => absurd h (by decide +kernel), fun h => absurd rfl h, by decide +kernel,
   by decide +kernel⟩

theorem witness_LoadStaysWithinCeiling :
    waiting.GrantsBounded ∧ waiting.AllowancesWithin ∧ drivingOn.GrantsBounded ∧ drivingOn.AllowancesWithin ∧
    steps waiting = true ∧ steps drivingOn = true := by
  have bounded (s : State) (h : ∀ n : PortNo, s.motors[n].dutyRequest.natAbs ≤ 1000 ∧
      s.motors[n].dutyGrant.natAbs ≤ min s.motors[n].dutyRequest.natAbs s.motors[n].allowance ∧
      0 ≤ s.motors[n].dutyGrant * s.motors[n].dutyRequest) : s.GrantsBounded :=
    fun n => ⟨(h n).1, (h n).2.1, (h n).2.2⟩
  exact ⟨bounded _ (by decide +kernel), ⟨by decide +kernel, by decide +kernel⟩, bounded _ (by decide +kernel),
    ⟨by decide +kernel, by decide +kernel⟩, by decide +kernel, by decide +kernel⟩

/-- Port B drives and is bound; no other port drives, queries or is re-probed. -/
theorem witness_DrivingStaysSafe :
    drivingOn.PortsPhased ∧ drivingOn.BoundTimed ∧ drivingOn.DrivesSafely ∧ steps drivingOn = true := by
  refine ⟨fun n => ⟨?_, ?_⟩, by unfold State.BoundTimed; decide +kernel, fun n h => ?_, by decide +kernel⟩
  · revert n; decide +kernel
  · revert n; decide +kernel
  · have bound : n = 1 := by revert n; decide +kernel
    subst bound
    exact ⟨by decide +kernel, by decide +kernel, by decide +kernel, by decide +kernel⟩

/-- Entry 0 VALID over the battery, entry 1 VALID over entry 0, and entry 2 VALID over the speed of channel B. -/
def chained : State :=
  { drivingOn with
      conv := ((drivingOn.conv.set 0 (entry .slot 0 .valid)).set 1 (entry .entry 0 .valid)).set 2 (entry .motorSpeed 1 .valid)
      scan := { drivingOn.scan with slots := drivingOn.scan.slots.set 0 { input := 6, average := 1 } } }

theorem witness_ValidEntriesStayOverBoundPorts :
    chained.PortsPhased ∧ chained.ChainsDown ∧ chained.ValidOverBound ∧ steps chained = true := by
  refine ⟨fun n => ⟨?_, ?_⟩, by unfold State.ChainsDown; decide +kernel, fun i h => ⟨?_, ?_⟩, by decide +kernel⟩
  · revert n; decide +kernel
  · revert n; decide +kernel
  · revert i; decide +kernel
  · revert i; decide +kernel

end Sys2Proof.Tests
end

