-- ==== Sys2Proof/Proofs/Encoding.lean ====
section
/-! PROOFS. Little-endian fields and enumerated codes: what is written is read back (R21). -/

namespace Sys2Proof.Machine

/-- The bytes of a u16 at the front of a run are read as it. -/
@[simp] theorem u16At_bytes (x : Half) (bs : List Byte) :
    u16At (x.extractLsb' 0 8 :: x.extractLsb' 8 8 :: bs) 0 = x := by
  change x.extractLsb' 8 8 ++ x.extractLsb' 0 8 = x
  rw [BitVec.extractLsb'_append_extractLsb'_eq_extractLsb' (by rfl)]
  simp

/-- The bytes of a u32 at the front of a run are read as it. -/
@[simp] theorem u32At_bytes (x : Word) (bs : List Byte) :
    u32At (x.extractLsb' 0 8 :: x.extractLsb' 8 8 :: x.extractLsb' 16 8 :: x.extractLsb' 24 8 :: bs) 0 = x := by
  change x.extractLsb' 24 8 ++ x.extractLsb' 16 8 ++ (x.extractLsb' 8 8 ++ x.extractLsb' 0 8) = x
  rw [BitVec.extractLsb'_append_extractLsb'_eq_extractLsb' (by rfl),
    BitVec.extractLsb'_append_extractLsb'_eq_extractLsb' (by rfl),
    BitVec.extractLsb'_append_extractLsb'_eq_extractLsb' (by rfl)]
  simp

@[simp] theorem u8At_cons_zero (b : Byte) (bs : List Byte) : u8At (b :: bs) 0 = b := rfl
@[simp] theorem u8At_cons_succ (b : Byte) (bs : List Byte) (i : Nat) : u8At (b :: bs) (i + 1) = u8At bs i := rfl
@[simp] theorem u16At_cons_succ (b : Byte) (bs : List Byte) (i : Nat) : u16At (b :: bs) (i + 1) = u16At bs i := rfl
@[simp] theorem u32At_cons_succ (b : Byte) (bs : List Byte) (i : Nat) : u32At (b :: bs) (i + 1) = u32At bs i := rfl

@[simp] theorem length_le16 (x : Half) : (le16 x).length = 2 := rfl
@[simp] theorem length_le32 (x : Word) : (le32 x).length = 4 := rfl

end Sys2Proof.Machine
end

