-- ==== Sys2Proof/Proofs/CommandRows.lean ====
section
/-! PROOFS. A command row is its frame at the intake's door (log 9), and what a command taken at once leaves. -/

namespace Sys2Proof.Machine

/-! ## Payloads and their commands -/

/-- A table's id names the table. -/
@[simp] theorem Table.ofId_id (t : Table) : Table.ofId t.id = some t := by cases t <;> rfl

/-- R8: the payload of a TABLE WRITE of a writable table. -/
theorem State.tableWriteCommand_writePayload (s : State) (t : Table) (ht : t.writable = true) (first : Half)
    (count : Byte) (data : List Byte) :
    s.tableWriteCommand (writePayload t first count data) = s.tableWrite t first.toNat count.toNat data := by
  have hfirst : (first.extractLsb' 8 8 ++ first.extractLsb' 0 8 : Half) = first := u16At_bytes first []
  simp [State.tableWriteCommand, writePayload, le16, ht, hfirst]

/-- What a taken frame of this kind and payload does. -/
def handling (f : Frame) (s : State) (order : Nat) : Reply := s.handle f.kind f.payload order

/-- The handlers of a TABLE WRITE row and of its frame are one. -/
theorem handling_write (t : Table) (ht : t.writable = true) (tag : Byte) (first : Half) (count : Byte)
    (data : List Byte) :
    handling ⟨0x01, tag, writePayload t first count data⟩ =
      fun s _ => s.tableWrite t first.toNat count.toNat data := by
  funext s _
  exact s.tableWriteCommand_writePayload t ht first count data

/-- R87: the handler of a MOTOR frame whose arguments have a form. -/
theorem handling_motor (tag code channel notify : Byte) (args : List Byte) :
    handling ⟨0x10, tag, motorPayload code channel notify args⟩ =
      fun s _ => match motorForm code args with
        | some op => s.motorCommand channel notify op
        | none => refuse s .badLength := rfl

/-- R140: the handler of a SOUND frame. -/
theorem handling_sound (tag code : Byte) (args : List Byte) :
    handling ⟨0x20, tag, code :: args⟩ =
      fun s _ => match soundForm code args with
        | some op => s.soundCommand op
        | none => refuse s .badLength := rfl

/-- R37: the handler of a PORT frame. -/
theorem handling_port (tag code port : Byte) (args : List Byte) :
    handling ⟨0x40, tag, portPayload code port args⟩ =
      fun s order => match portForm code args with
        | some op => s.portCommand port op.1 op.2 order
        | none => refuse s .badLength := rfl

/-- A frame at the door of the intake, the transmitter choosing at the end of the step. -/
def submitted (f : Frame) (s : State) : Host.Outcome State Fault Refusal := settled (s.submit f (handling f))

theorem writeCommand_eq (t : Table) (ht : t.writable = true) (tag : Byte) (first : Half) (count : Byte)
    (data : List Byte) (s : State) :
    writeCommand t tag first count data s = submitted ⟨0x01, tag, writePayload t first count data⟩ s := by
  rw [submitted, handling_write t ht]
  rfl

theorem motorRow_eq (code tag channel notify : Byte) (args : List Byte) (op : MotorOp) (s : State)
    (h : motorForm code args = some op) :
    motorRow code tag channel notify args op s = submitted ⟨0x10, tag, motorPayload code channel notify args⟩ s := by
  rw [submitted, handling_motor, h]
  rfl

theorem motorEndRow_eq (code tag channel notify : Byte) (args : List Byte) (endAction : Byte)
    (op : EndAction → MotorOp) (s : State) (h : motorForm code args = (valueIn EndAction.list endAction).map op) :
    motorEndRow code tag channel notify args endAction op s =
      submitted ⟨0x10, tag, motorPayload code channel notify args⟩ s := by
  unfold motorEndRow
  split
  · rename_i e he
    exact motorRow_eq _ _ _ _ _ _ _ (by rw [h, he]; rfl)
  · rename_i he
    rw [submitted, handling_motor, h, he]
    rfl

theorem soundRow_eq (code tag : Byte) (args : List Byte) (op : SoundOp) (s : State)
    (h : soundForm code args = some op) : soundRow code tag args op s = submitted ⟨0x20, tag, code :: args⟩ s := by
  rw [submitted, handling_sound, h]
  rfl

theorem portRow_eq (code tag port : Byte) (args : List Byte) (op : PortOp) (adjusted : Bool) (s : State)
    (h : portForm code args = some (op, adjusted)) :
    portRow code tag port args op adjusted s = submitted ⟨0x40, tag, portPayload code port args⟩ s := by
  rw [submitted, handling_port, h]
  rfl

theorem execSoundTone_eq (tag : Byte) (pitch duration : Half) (waveform level : Byte) (s : State) :
    execSoundTone tag pitch duration waveform level s =
      submitted ⟨0x20, tag, 0 :: le16 pitch ++ le16 duration ++ [waveform, level]⟩ s := by
  have form : soundForm 0 (le16 pitch ++ le16 duration ++ [waveform, level]) =
      (valueIn Waveform.list waveform).map fun w =>
        .tone { pitch := pitch.toNat, duration := duration.toNat, waveform := w, level := level.toNat } := by
    simp [soundForm, le16]
  unfold execSoundTone
  dsimp only
  split
  · rename_i w hw
    exact soundRow_eq _ _ _ _ _ (by rw [form, hw]; rfl)
  · rename_i hw
    rw [submitted, show (⟨0x20, tag, 0 :: le16 pitch ++ le16 duration ++ [waveform, level]⟩ : Frame) =
      ⟨0x20, tag, 0 :: (le16 pitch ++ le16 duration ++ [waveform, level])⟩ from rfl, handling_sound, form, hw]
    rfl

theorem execPortSend_eq (tag port : Byte) (data : List Byte) (s : State) :
    execPortSend tag port data s = submitted ⟨0x40, tag, [0, port] ++ data⟩ s := by
  unfold execPortSend
  split
  · rename_i h
    exact portRow_eq _ _ _ _ _ _ _ (if_pos h)
  · rename_i h
    rw [submitted, show (⟨0x40, tag, [0, port] ++ data⟩ : Frame) = ⟨0x40, tag, portPayload 0 port data⟩ from rfl,
      handling_port, show portForm 0 data = none from if_neg h]
    rfl

/-- Log 9: every command row acts as its frame at the intake's door. -/
theorem exec_eq_submitted (c : Instr) (f : Frame) (hf : frameOf c = some f) (s : State) :
    exec c s = submitted f s := by
  cases c <;> simp only [frameOf, Option.some.injEq, reduceCtorEq] at hf <;> subst hf
  case settingsWrite => exact writeCommand_eq .settings rfl _ _ _ _ s
  case profilesWrite => exact writeCommand_eq .profiles rfl _ _ _ _ s
  case scanListWrite => exact writeCommand_eq .scanList rfl _ _ _ _ s
  case conversionWrite => exact writeCommand_eq .conversion rfl _ _ _ _ s
  case reactionsWrite => exact writeCommand_eq .reactions rfl _ _ _ _ s
  case marksWrite => exact writeCommand_eq .marks rfl _ _ _ _ s
  case budgetWrite => exact writeCommand_eq .budget rfl _ _ _ _ s
  case reportsWrite => exact writeCommand_eq .reports rfl _ _ _ _ s
  case clipsWrite => exact writeCommand_eq .clips rfl _ _ _ _ s
  case sampleStoreWrite => exact writeCommand_eq .sampleStore rfl _ _ _ _ s
  case motorDuty => exact motorRow_eq 2 _ _ _ _ _ s (by simp [motorForm, le16])
  case motorSpeed => exact motorRow_eq 3 _ _ _ _ _ s (by simp [motorForm, le16])
  case motorRunTo =>
    exact motorEndRow_eq 4 _ _ _ _ _ _ s (by simp [motorForm, le16, le32])
  case motorRunFor =>
    exact motorEndRow_eq 5 _ _ _ _ _ _ s (by simp [motorForm, le16])
  case motorFollow => exact motorRow_eq 7 _ _ _ _ _ s (by simp [motorForm, le16])
  case motorSetCount => exact motorRow_eq 8 _ _ _ _ _ s (by simp [motorForm, le32])
  case soundTone => exact execSoundTone_eq _ _ _ _ _ s
  case portSend => exact execPortSend_eq _ _ _ s
  all_goals rfl

end Sys2Proof.Machine
end

