-- ==== Sys2Proof/Proofs/Taking.lean ====
section
/-! PROOFS. A command taken at once: its place, its answer, and what the reply leaves unchanged (R5, R6, R19). -/

namespace Sys2Proof.Machine

/-- R5: s with a place reserved for a command. -/
def State.reserved (s : State) (kind tag : Byte) : State := { s with link := s.link.reserve kind tag }

/-- Section 1.3: the answered place of a command taken in a state. -/
def State.answeredPlace (s : State) (kind tag : Byte) (status : Status) (result : List Byte) : Place :=
  { order := s.link.nextOrder, kind := kind, tag := tag, answer := some { status := status, result := result } }

/-- A place of another order is not finished. -/
theorem Place.finish_other (order : Nat) (a : Answer) (p : Place) (h : p.order ≠ order) : p.finish order a = p := by
  simp [Place.finish, h]

/-- R6: the answer of the command just taken goes to its own place. -/
theorem State.finish_reserved (u : State) (kind tag : Byte) (status : Status) (result : List Byte)
    (fresh : ∀ p ∈ u.link.places, p.order ≠ u.link.nextOrder) :
    (u.reserved kind tag).finish u.link.nextOrder status result =
      { u with link := { u.link with places := u.link.places ++ [u.answeredPlace kind tag status result],
                                     nextOrder := u.link.nextOrder + 1 } } := by
  have others : u.link.places.map (Place.finish u.link.nextOrder { status := status, result := result }) =
      u.link.places := by
    rw [List.map_congr_left fun p hp => Place.finish_other _ _ p (fresh p hp), List.map_id']
  simp [State.reserved, State.finish, Link.finish, Link.reserve, others, Place.finish, State.answeredPlace]

/-- R5: a command at an open door is taken at once. -/
theorem State.submit_of_opens {s : State} (hs : s.Opens) (f : Frame) (act : State → Nat → Reply) :
    s.submit f act = s.carryOut f.kind f.tag act := if_pos ⟨hs.empty, hs.taking⟩

/-- R5, R6: a command taken at once whose handler answers; u is what the handler makes of the state around the
reserved place. -/
theorem command_replied {s u : State} {kind tag : Byte} {payload : List Byte} {act : State → Nat → Reply}
    {status : Status} {result : List Byte} (hs : s.Opens)
    (h : act (s.reserved kind tag) s.link.nextOrder = .answered status result (u.reserved kind tag))
    (places : u.link.places = s.link.places) (next : u.link.nextOrder = s.link.nextOrder) :
    command kind tag payload act s = .next (u.replied kind tag status result) := by
  have fresh : ∀ p ∈ u.link.places, p.order ≠ u.link.nextOrder := by
    rw [places, next]
    exact hs.fresh
  unfold command settled
  rw [State.submit_of_opens hs, State.carryOut]
  dsimp only
  rw [show ({ s with link := s.link.reserve kind tag } : State) = s.reserved kind tag from rfl, h]
  dsimp only
  rw [← next, State.finish_reserved u kind tag status result fresh]
  rfl

/-- R5, R6: a command taken at once whose handler answers and leaves the link alone. -/
theorem command_replied_of_link {s v : State} {kind tag : Byte} {payload : List Byte} {act : State → Nat → Reply}
    {status : Status} {result : List Byte} (hs : s.Opens)
    (h : act (s.reserved kind tag) s.link.nextOrder = .answered status result v)
    (link : v.link = s.link.reserve kind tag) :
    command kind tag payload act s = .next (State.replied { v with link := s.link } kind tag status result) := by
  refine command_replied hs (h.trans ?_) rfl rfl
  rw [State.reserved, ← link]

/-- R6: a refused command changes nothing but its answer place. -/
theorem command_refused {s : State} {kind tag : Byte} {payload : List Byte} {act : State → Nat → Reply}
    {status : Status} (hs : s.Opens)
    (h : act (s.reserved kind tag) s.link.nextOrder = refuse (s.reserved kind tag) status) :
    command kind tag payload act s = .next (s.replied kind tag status []) := command_replied hs h rfl rfl

/-! ## What a reply leaves -/

/-- A READY place is there, so the transmitter takes an answer if it is IDLE, and nothing from the other queues. -/
theorem State.transmitNext_of_ready (s : State) (h : s.link.readyAnswer ≠ none) :
    ∃ tx, s.transmitNext = { s with link := { s.link with tx := tx } } := by
  unfold State.transmitNext
  split
  · exact ⟨s.link.tx, rfl⟩
  · split
    · exact ⟨_, rfl⟩
    all_goals exact absurd (by assumption) h

/-- Section 1.3: no place READY, no answer to send. -/
theorem Link.readyAnswer_eq_none_iff (l : Link) : l.readyAnswer = none ↔ ∀ p ∈ l.places, p.answer = none := by
  simp [Link.readyAnswer, List.findSome?_eq_none_iff]

/-- What a reply makes of the state: one place more, and the transmitter's choice. -/
theorem State.replied_eq (u : State) (kind tag : Byte) (status : Status) (result : List Byte) :
    u.replied kind tag status result =
      { u with link := { u.link with
          tx := (u.replied kind tag status result).link.tx
          places := u.link.places ++ [u.answeredPlace kind tag status result]
          nextOrder := u.link.nextOrder + 1 } } := by
  unfold State.replied
  obtain ⟨tx, h⟩ := State.transmitNext_of_ready
    { u with link := { u.link with places := u.link.places ++ [u.answeredPlace kind tag status result],
                                   nextOrder := u.link.nextOrder + 1 } }
    fun h => absurd ((Link.readyAnswer_eq_none_iff _).mp h _ (List.mem_append_right _ List.mem_cons_self))
      (by simp [State.answeredPlace])
  exact h.trans (by rw [show tx = _ from (congrArg (fun v => v.link.tx) h).symm]; rfl)

section
variable (u : State) (kind tag : Byte) (status : Status) (result : List Byte)

theorem State.replied_link : (u.replied kind tag status result).link =
    { u.link with tx := (u.replied kind tag status result).link.tx, nextOrder := u.link.nextOrder + 1,
                  places := u.link.places ++ [u.answeredPlace kind tag status result] } :=
  congrArg State.link (u.replied_eq kind tag status result)

@[simp] theorem State.replied_places : (u.replied kind tag status result).link.places =
    u.link.places ++ [u.answeredPlace kind tag status result] := by rw [State.replied_link]
@[simp] theorem State.replied_resetOrder : (u.replied kind tag status result).link.resetOrder = u.link.resetOrder := by
  rw [State.replied_link]
@[simp] theorem State.replied_settings : (u.replied kind tag status result).settings = u.settings := by
  rw [State.replied_eq]
@[simp] theorem State.replied_bus : (u.replied kind tag status result).bus = u.bus := by rw [State.replied_eq]
@[simp] theorem State.replied_ports : (u.replied kind tag status result).ports = u.ports := by rw [State.replied_eq]
@[simp] theorem State.replied_profiles : (u.replied kind tag status result).profiles = u.profiles := by
  rw [State.replied_eq]
@[simp] theorem State.replied_service : (u.replied kind tag status result).service = u.service := by
  rw [State.replied_eq]
@[simp] theorem State.replied_scan : (u.replied kind tag status result).scan = u.scan := by rw [State.replied_eq]
@[simp] theorem State.replied_lines : (u.replied kind tag status result).lines = u.lines := by rw [State.replied_eq]
@[simp] theorem State.replied_conv : (u.replied kind tag status result).conv = u.conv := by rw [State.replied_eq]
@[simp] theorem State.replied_encStamp : (u.replied kind tag status result).encStamp = u.encStamp := by
  rw [State.replied_eq]
@[simp] theorem State.replied_motors : (u.replied kind tag status result).motors = u.motors := by
  rw [State.replied_eq]
@[simp] theorem State.replied_marks : (u.replied kind tag status result).marks = u.marks := by rw [State.replied_eq]
@[simp] theorem State.replied_budget : (u.replied kind tag status result).budget = u.budget := by
  rw [State.replied_eq]
@[simp] theorem State.replied_sound : (u.replied kind tag status result).sound = u.sound := by rw [State.replied_eq]
@[simp] theorem State.replied_reactions : (u.replied kind tag status result).reactions = u.reactions := by
  rw [State.replied_eq]
@[simp] theorem State.replied_failures : (u.replied kind tag status result).failures = u.failures := by
  rw [State.replied_eq]
@[simp] theorem State.replied_blocked : (u.replied kind tag status result).blocked = u.blocked := by
  rw [State.replied_eq]
@[simp] theorem State.replied_reports : (u.replied kind tag status result).reports = u.reports := by
  rw [State.replied_eq]
@[simp] theorem State.replied_reportQueue : (u.replied kind tag status result).reportQueue = u.reportQueue := by
  rw [State.replied_eq]
@[simp] theorem State.replied_passSkipped : (u.replied kind tag status result).passSkipped = u.passSkipped := by
  rw [State.replied_eq]
@[simp] theorem State.replied_pending : (u.replied kind tag status result).pending = u.pending := by
  rw [State.replied_eq]
end

/-! ## TABLE WRITE past its generic checks -/

/-- R8: a write of the right length within the range goes to the owner. -/
theorem State.tableWrite_passes {s : State} {t : Table} {first count : Nat} {data : List Byte}
    (length : data.length = count * t.size) (range : t.badRange first count = false) :
    s.tableWrite t first count data = s.writeRecords t first count data := by
  simp [State.tableWrite, length, range]

/-- R8, check 4, and R10, check 1: what the count and the range of records have to be. -/
theorem Table.badRange_eq_false_iff (t : Table) (first count : Nat) :
    t.badRange first count = false ↔
      0 < count ∧ first + count ≤ t.records ∧ (t = .sampleStore → count ≤ 240) := by
  unfold Table.badRange
  rw [Bool.or_eq_false_iff, Bool.or_eq_false_iff, decide_eq_false_iff_not, decide_eq_false_iff_not, Nat.not_lt,
    and_assoc, Nat.pos_iff_ne_zero]
  by_cases ht : t = .sampleStore <;> simp [ht]

theorem Table.badRange_eq_true_iff (t : Table) (first count : Nat) :
    t.badRange first count = true ↔
      count = 0 ∨ t.records < first + count ∨ (t = .sampleStore ∧ 240 < count) := by
  rw [← Bool.not_eq_false, Table.badRange_eq_false_iff]
  by_cases ht : t = .sampleStore <;> simp [ht] <;> omega

end Sys2Proof.Machine
end

