-- ==== Sys2Proof/Proofs/Handlers.lean ====
section
/-! PROOFS. What a handler can do to the state: one of the blocks' operations, or nothing. -/

namespace Sys2Proof.Machine

/-- The state an owner leaves: as it was, or as the decoded records make it. -/
theorem owner_taken {α : Type} {P : State → Prop} {s : State} (hs : P s) (decoded : Except Nat (List α × Bool))
    {apply : List α → State} (h : ∀ rs, P (apply rs)) :
    P (owner s decoded fun rs adj => taken adj (apply rs)).state := by
  unfold owner
  split
  · exact hs
  · rw [Reply.state_taken]
    exact h _

/-- The same for an owner with refusals of its own. -/
theorem owner_state {α : Type} {P : State → Prop} {s : State} (hs : P s) (decoded : Except Nat (List α × Bool))
    {apply : List α → Bool → Reply} (h : ∀ rs adj, P (apply rs adj).state) : P (owner s decoded apply).state := by
  unfold owner
  split
  · exact hs
  · exact h _ _

/-- P passes through what an owner does with the records of a write. -/
structure WritesKeep (P : State → Prop) : Prop where
  settings   : ∀ s r, P s → P (s.writeSettings r)
  profiles   : ∀ s first rs, P s → P (s.writeProfiles first rs)
  scanList   : ∀ s first rs, P s → P (s.writeScanList first rs)
  conversion : ∀ s first rs, P s → P (s.writeConversion first rs)
  reactions  : ∀ s first rs, P s → P (s.writeReactions first rs)
  marks      : ∀ s marks, P s → P { s with marks := marks }
  rows       : ∀ s rows, P s → P { s with budget := { s.budget with rows := rows } }
  reports    : ∀ s reports, P s → P { s with reports := reports }
  clips      : ∀ s clips, P s → P { s with sound := { s.sound with clips := clips } }
  store      : ∀ s offset data, offset + data.length ≤ Config.storeBytes → P s →
    P { s with sound := { s.sound with store := Memory.writeAll s.sound.store offset data } }

/-- R8, R9: a TABLE WRITE refuses, or its owner takes the records. -/
theorem WritesKeep.write {P : State → Prop} (h : WritesKeep P) (s : State) (t : Table) (first count : Nat)
    (data : List Byte) (hs : P s) :
    P (s.tableWrite t first count data).state := by
  unfold State.tableWrite
  split
  · exact hs
  · split
    · exact hs
    · rename_i length range
      unfold State.writeRecords
      cases t
      case settings =>
        refine owner_taken hs _ fun rs => ?_
        induction rs generalizing s with
        | nil => exact hs
        | cons r rs ih => exact ih _ (h.settings s r hs)
      case profiles => exact owner_taken hs _ fun rs => h.profiles s first rs hs
      case scanList => exact owner_taken hs _ fun rs => h.scanList s first rs hs
      case conversion => exact owner_taken hs _ fun rs => h.conversion s first rs hs
      case reactions => exact owner_taken hs _ fun rs => h.reactions s first rs hs
      case marks => exact owner_taken hs _ fun _ => h.marks s _ hs
      case budget =>
        refine owner_state hs _ fun _ _ => ?_
        unfold State.writeBudget
        split
        · exact h.rows s _ hs
        · exact hs
      case reports => exact owner_taken hs _ fun _ => h.reports s _ hs
      case clips =>
        refine owner_state hs _ fun _ _ => ?_
        unfold State.writeClips
        split
        · exact hs
        · exact h.clips s _ hs
      case sampleStore =>
        have fits : first + count ≤ 32768 :=
          ((Table.badRange_eq_false_iff _ _ _).mp (Bool.eq_false_of_not_eq_true range)).2.1
        have bytes : data.length = count := by simpa [Table.size] using length
        unfold State.writeStore
        dsimp only
        split
        · exact hs
        · exact h.store s first data (bytes ▸ fits) hs
      all_goals exact hs

/-- P passes through every operation that a handler can carry out, in the state in which it does. -/
structure OperationsKeep (P : State → Prop) : Prop extends WritesKeep P where
  motor      : ∀ s n op notify, P s → P (s.runMotorOp n op notify)
  sound      : ∀ s op, s.soundRefusal op = none → P s → P (s.runSoundOp op)
  scan       : ∀ s op, P s → P (s.scanOp op)
  port       : ∀ s n op place, P s → P (s.runPortOp n op place)
  report     : ∀ s i, P s → P (s.reportDue i)
  reset      : ∀ s order, P s → P { s with link := { s.link with resetOrder := some order } }

/-- R6: every handler refuses, or carries out an operation. -/
theorem OperationsKeep.handlers {P : State → Prop} (h : OperationsKeep P) : HandlersKeep P where
  write := h.toWritesKeep.write
  motor := fun s channel notify op hs => by
    unfold State.motorCommand State.motorOp
    split
    · dsimp only
      split
      · exact hs
      · exact h.motor _ _ _ _ hs
    · exact hs
  sound := fun s op hs => by
    unfold State.soundCommand State.soundOp
    dsimp only [Reply.state_answered]
    split
    · exact hs
    · exact h.sound s op (by assumption) hs
  scan := fun s op hs => h.scan s op hs
  port := fun s port op adjusted order hs => by
    unfold State.portCommand
    split
    · split
      · exact hs
      · split <;> simp only [Reply.state_deferred, Reply.state_taken] <;> exact h.port _ _ _ _ hs
    · exact hs
  report := fun s entry hs => by
    unfold State.reportNowCommand
    split
    · exact h.report _ _ hs
    · exact hs
  reset := fun s payload order hs => by
    unfold State.resetCommand
    split
    · exact h.reset _ _ hs
    · exact hs

/-- A write touches nothing of the link but the silence timer. -/
theorem writes_keep_link {β : Type} (F : Link → β) (x : β)
    (silence : ∀ l ms, F (l.restartBySettings ms) = F l) : WritesKeep (fun s => F s.link = x) where
  settings := fun s r hs => by
    unfold State.writeSettings
    exact (State.allowanceCut_keeps (fun s => F s.link) (fun _ _ => rfl) (fun _ _ => rfl) _ _).trans
      ((silence _ _).trans hs)
  profiles := fun s first rs hs =>
    (State.writeProfiles_keeps (fun s => F s.link) (fun _ _ => rfl) (fun _ _ => rfl) (fun _ _ => rfl) (fun _ _ => rfl)
      (fun _ _ => rfl) (fun _ _ => rfl) s first rs).trans hs
  scanList := fun s first rs hs =>
    (State.writeScanList_keeps (fun s => F s.link) (fun _ _ => rfl) (fun _ _ => rfl) s first rs).trans hs
  conversion := fun s first rs hs =>
    (State.writeConversion_keeps (fun s => F s.link) (fun _ _ => rfl) s first rs).trans hs
  reactions := fun s first rs hs =>
    (State.writeReactions_keeps (fun s => F s.link) (fun _ _ => rfl) (fun _ _ => rfl) s first rs).trans hs
  marks := fun _ _ hs => hs
  rows := fun _ _ hs => hs
  reports := fun _ _ hs => hs
  clips := fun _ _ hs => hs
  store := fun _ _ _ _ hs => hs

/-- Handling a taken command lets the frames that wait alone. -/
theorem handlers_keep_intake (waiting : List Frame) : HandlersKeep (fun s => s.link.intake = waiting) :=
  OperationsKeep.handlers
    { toWritesKeep := writes_keep_link Link.intake waiting fun _ _ => rfl
      motor := fun s n op notify hs =>
        (State.runMotorOp_keeps (·.link.intake) (fun _ _ => rfl) (fun _ _ => rfl) (fun _ _ => rfl) s n op
          notify).trans hs
      sound := fun s op _ hs => (State.runSoundOp_keeps (·.link.intake) (fun _ _ => rfl) (fun _ _ => rfl) s op).trans hs
      scan := fun s op hs => (State.scanOp_keeps (·.link.intake) (fun _ _ => rfl) s op).trans hs
      port := fun s n op place hs =>
        (State.runPortOp_keeps (·.link.intake) (fun _ _ => rfl) (fun _ _ => rfl) (fun _ _ => rfl) (fun _ _ => rfl)
          (fun _ _ => rfl) (fun _ _ => rfl) (fun _ _ => rfl) s n op place).trans hs
      report := fun s i hs => (State.reportDue_keeps (·.link.intake) (fun _ _ => rfl) (fun _ _ => rfl) s i).trans hs
      reset := fun _ _ hs => hs }

/-- R6: running a frame leaves the frames that wait. -/
theorem State.runFrame_intake (s : State) (f : Frame) : (s.runFrame f).link.intake = s.link.intake := by
  have handled := (handlers_keep_intake s.link.intake).handle { s with link := s.link.reserve f.kind f.tag } f.kind
    f.payload s.link.nextOrder rfl
  unfold State.runFrame State.carryOut
  dsimp only
  split
  · rename_i h
    rw [h] at handled
    exact handled
  · rename_i h
    rw [h] at handled
    exact handled

end Sys2Proof.Machine
end

