-- ==== Sys2Proof/Proofs/Orderly.lean ====
section
/-! PROOFS. The queue invariants of a run (R4, R134, R150, R164, R165, section 1.3): what every block operation keeps.
A predicate of the door of the link controller goes along, so that the same lemmas serve the order of the places, the
frames that wait, and both. -/

namespace Sys2Proof.Machine

/-- What the taking of commands turns on: the frames that wait, the orders of the places held, the next order, and a
RESET that waits for its answer to leave. -/
structure Door where
  intake : List Frame
  orders : List Nat
  next   : Nat
  reset  : Option Nat

/-- The door of a link controller. -/
def Link.door (l : Link) : Door :=
  { intake := l.intake, orders := l.places.map Place.order, next := l.nextOrder, reset := l.resetOrder }

/-- The door satisfies D, and every queue outside it is within its capacity and the store canonical. -/
def State.Fine (D : Door → Prop) (s : State) : Prop :=
  D s.link.door ∧ s.bus.Fits ∧ s.reportQueue.length ≤ Config.reportQueue ∧
    s.sound.queue.length ≤ Config.noteQueue ∧ Memory.wf s.sound.store = true

/-- An answer takes no place and frees none. -/
@[simp] theorem Link.finish_door (l : Link) (order : Nat) (a : Answer) : (l.finish order a).door = l.door := by
  have orders : ∀ p : Place, (p.finish order a).order = p.order := fun p => by
    unfold Place.finish
    split <;> rfl
  simp [Link.door, Link.finish, Function.comp_def, orders]

namespace State.Fine

variable {D : Door → Prop} {s : State}

/-! ## Queuing -/

theorem setBus (hs : s.Fine D) {b : Bus} (h : s.bus.Fits → b.Fits) : State.Fine D { s with bus := b } :=
  ⟨hs.1, h hs.2.1, hs.2.2⟩

theorem setReports (hs : s.Fine D) {q : List ReportRecord}
    (h : s.reportQueue.length ≤ Config.reportQueue → q.length ≤ Config.reportQueue) :
    State.Fine D { s with reportQueue := q } :=
  ⟨hs.1, hs.2.1, h hs.2.2.1, hs.2.2.2⟩

/-- The sound engine may change but for a longer note queue and its store. -/
theorem setSound (hs : s.Fine D) {e : Sound} (queue : e.queue.length ≤ s.sound.queue.length)
    (store : e.store = s.sound.store) : State.Fine D { s with sound := e } := by
  refine ⟨hs.1, hs.2.1, hs.2.2.1, Nat.le_trans queue hs.2.2.2.1, ?_⟩
  rw [show ({ s with sound := e } : State).sound.store = s.sound.store from store]
  exact hs.2.2.2.2

theorem post (hs : s.Fine D) (kind : EventKind) (index detail : Byte) : (s.post kind index detail).Fine D :=
  hs.setBus (s.bus.postRecord_queued kind index detail none).fits

theorem notify (hs : s.Fine D) (body : NoticeBody) : (s.notify body).Fine D := hs.setBus (s.bus.notify_queued body).fits

theorem portNotice (hs : s.Fine D) (n : PortNo) : (s.portNotice n).Fine D := hs.notify _

theorem finish (hs : s.Fine D) (order : Nat) (status : Status) (result : List Byte) :
    (s.finish order status result).Fine D := by
  refine ⟨?_, hs.2⟩
  rw [State.finish_link, Link.finish_door]
  exact hs.1

/-- A run of operations, each of which keeps the invariants. -/
theorem foldl {γ : Type} {f : State → γ → State} (h : ∀ (s : State) (a : γ), s.Fine D → (f s a).Fine D) (l : List γ)
    (hs : s.Fine D) : (l.foldl f s).Fine D := by
  induction l generalizing s with
  | nil => exact hs
  | cons a l ih => exact ih (h s a hs)

/-! ## Reports and the conversion table -/

theorem offerReport (hs : s.Fine D) (i : Fin 12) (items : List ReportItem) : (s.offerReport i items).Fine D := by
  unfold State.offerReport
  dsimp only
  split
  · exact hs.setReports (by simp)
  · split
    · exact hs.setReports fun _ => by simpa using by assumption
    · exact hs

theorem offerPass (hs : s.Fine D) (n : PortNo) (data : List Byte) : (s.offerPass n data).Fine D := by
  unfold State.offerPass
  split
  · exact hs.setReports (by simp)
  · split
    · exact hs.setReports fun _ => by simpa using by assumption
    · exact hs

theorem reportDue (hs : s.Fine D) (i : Fin 12) : (s.reportDue i).Fine D :=
  offerReport (s := s.setReport i _) hs i _

theorem reportCheck (hs : s.Fine D) (e : Fin 32) (i : Fin 12) : (State.reportCheck e s i).Fine D := by
  unfold State.reportCheck
  dsimp only
  split
  · split
    · exact hs.reportDue i
    · exact hs
  · exact hs

theorem reportChecks (hs : s.Fine D) (e : Fin 32) : (s.reportChecks e).Fine D :=
  foldl (fun _ i h => h.reportCheck e i) _ hs

theorem takeStatus (hs : s.Fine D) (i : Fin 32) (st : ConvStatus) : (s.takeStatus i st).Fine D :=
  (State.takeStatus_keeps (State.Fine D) (fun _ _ => rfl) s i st).mpr hs

theorem noSourceBelow (hs : s.Fine D) (i : Fin 32) (kept : List (Fin 32)) : (s.noSourceBelow i kept).Fine D :=
  (State.noSourceBelow_keeps (State.Fine D) (fun _ _ => rfl) s i kept).mpr hs

theorem portStatus (hs : s.Fine D) (n : PortNo) (st : ConvStatus) : (s.portStatus n st).Fine D :=
  (State.portStatus_keeps (State.Fine D) (fun _ _ => rfl) s n st).mpr hs

theorem evaluateChain (hs : s.Fine D) (fuel : Nat) (i : Fin 32) (x : Int) :
    (State.evaluateChain fuel s i x).1.Fine D := by
  induction fuel generalizing s i x with
  | zero => exact hs
  | succ fuel ih =>
    have dependents : ∀ (l : List (Fin 32)) (acc : State × List (Fin 32)), acc.1.Fine D →
        (l.foldl (fun acc j =>
          let next := State.evaluateChain fuel acc.1 j acc.1.conv[i].value.toInt
          (next.1, acc.2 ++ next.2)) acc).1.Fine D := by
      intro l
      induction l with
      | nil => exact fun _ h => h
      | cons j l ihl => exact fun acc h => ihl _ (ih h j _)
    have posted : ∀ (e : ConvEntry) (l : List (EventKind × Byte)),
        State.Fine D { s.setConv i e with bus := s.bus.postAll (BitVec.ofNat 8 i.val) l } := fun _ l =>
      hs.setBus (Bus.postAll_keeps Bus.Fits (fun _ _ => Bus.Queued.fits) _ l s.bus)
    unfold State.evaluateChain
    dsimp only
    split
    · exact dependents _ _ (posted _ _)
    · exact (posted _ _).noSourceBelow _ _

theorem updateEntry {acc : State × List (Fin 32)} (h : acc.1.Fine D) (i : Fin 32) (x : Int) :
    (State.updateEntry acc i x).1.Fine D := by
  unfold State.updateEntry
  split
  · exact h.takeStatus _ _
  · exact h.evaluateChain _ _ _

theorem sourceUpdate (hs : s.Fine D) (reads : ConvConfig → Option Int) : (s.sourceUpdate reads).Fine D := by
  have entries : ∀ (l : List (Fin 32)) (acc : State × List (Fin 32)), acc.1.Fine D →
      (l.foldl (fun acc i => match reads s.conv[i].cfg with
        | none => acc
        | some x => State.updateEntry acc i x) acc).1.Fine D := by
    intro l
    induction l with
    | nil => exact fun _ h => h
    | cons i l ih =>
      intro acc h
      refine ih _ ?_
      dsimp only
      split
      · exact h
      · exact h.updateEntry i _
  exact foldl (fun _ e h => h.reportChecks e) _ (entries _ _ hs)

theorem encoderUpdate (hs : s.Fine D) (n : PortNo) : (s.encoderUpdate n).Fine D := by
  unfold State.encoderUpdate
  split
  · exact hs
  · refine sourceUpdate ?_ _
    exact hs

/-! ## Marks and motors -/

theorem markUpdate (hs : s.Fine D) (n : PortNo) (p0 p1 : Word) : (s.markUpdate n p0 p1).Fine D := by
  unfold State.markUpdate
  split
  · exact setBus (s := s.setMark n _) hs (Bus.postAll_keeps Bus.Fits (fun _ _ => Bus.Queued.fits) _ _ s.bus)
  · exact hs

theorem endOperation (hs : s.Fine D) (n : PortNo) (o : Outcome) : (s.endOperation n o).Fine D := by
  unfold State.endOperation
  dsimp only
  have posted (m : Motor) : ((s.setMotor n m).post .runEnd (portByte n) (codeIn Outcome.list o)).Fine D :=
    post (s := s.setMotor n m) hs _ _ _
  split
  · split
    · exact (posted _).notify _
    · exact posted _
  · exact hs

theorem stopMotor (hs : s.Fine D) (n : PortNo) (o : Outcome) (mode : MotorMode) : (s.stopMotor n o mode).Fine D :=
  hs.endOperation n o

theorem safeEnd (hs : s.Fine D) (n : PortNo) (o : Outcome) : (s.safeEnd n o).Fine D := by
  unfold State.safeEnd
  split
  · exact hs.stopMotor _ _ _
  · exact hs

theorem stopAll (hs : s.Fine D) (o : Outcome) : (s.stopAll o).Fine D := foldl (fun _ n h => h.safeEnd n o) _ hs

theorem finishMotor (hs : s.Fine D) (n : PortNo) (target : Word) : (s.finishMotor n target).Fine D := by
  unfold State.finishMotor
  dsimp only
  split
  · exact hs.stopMotor _ _ _
  · exact hs.stopMotor _ _ _
  · exact hs.endOperation n .done

theorem runMotorOp (hs : s.Fine D) (n : PortNo) (op : MotorOp) (notify : Bool) : (s.runMotorOp n op notify).Fine D := by
  cases op
  case coast => exact hs.stopMotor _ _ _
  case brake => exact hs.stopMotor _ _ _
  case setCount => exact hs
  all_goals exact hs.endOperation n .superseded

theorem loseMotor (hs : s.Fine D) (n : PortNo) (o : Outcome) : (s.loseMotor n o).Fine D := by
  unfold State.loseMotor
  split
  · exact hs
  · exact hs.endOperation n o

theorem quadraturePosition (hs : s.Fine D) (n : PortNo) (p0 p1 : Word) : (s.quadraturePosition n p0 p1).Fine D := by
  unfold State.quadraturePosition
  split
  · exact hs
  · dsimp only
    refine markUpdate ?_ _ _ _
    split <;> exact hs

theorem fieldPosition (hs : s.Fine D) (n : PortNo) : (s.fieldPosition n).Fine D := by
  unfold State.fieldPosition
  split
  · exact hs
  · split
    · dsimp only
      split
      · exact hs
      · split
        · exact hs
        · exact markUpdate (s := s.setMotor n _) hs _ _ _
    · exact hs

theorem stallCheck (hs : s.Fine D) (n : PortNo) (p : Profile) : (s.stallCheck n p).Fine D := by
  unfold State.stallCheck
  dsimp only
  have warned (m : Motor) (warn : Bool) :
      (if warn then (s.setMotor n m).post .stallWarn (portByte n) 0 else s.setMotor n m).Fine D := by
    split
    · exact post (s := s.setMotor n m) hs _ _ _
    · exact hs
  split
  · split
    · exact (warned _ _).stopMotor _ _ _
    · exact warned _ _
  · exact hs

theorem completionCheck (hs : s.Fine D) (n : PortNo) (p : Profile) : (s.completionCheck n p).Fine D := by
  unfold State.completionCheck
  dsimp only
  have counted (m : Motor) (b : Prop) [Decidable b] :
      (if b then (s.setMotor n m).finishMotor n s.motors[n].targetPosition
       else (s.setMotor n m).stallCheck n p).Fine D := by
    split
    · exact finishMotor (s := s.setMotor n m) hs _ _
    · exact stallCheck (s := s.setMotor n m) hs _ _
  split
  · exact counted _ _
  · exact hs.stallCheck _ _

theorem measure (hs : s.Fine D) (n : PortNo) (p : Profile) : (s.measure n p).Fine D :=
  sourceUpdate (s := s.setMotor n _) hs _

theorem regulation (hs : s.Fine D) (n : PortNo) (p : Profile) : (s.regulation n p).Fine D := by
  unfold State.regulation
  have measured := hs.measure n p
  dsimp only
  split
  · split
    · exact measured.stopMotor _ _ _
    · exact completionCheck (s := (s.measure n p).setMotor n _) measured _ _
  · split
    · exact measured.stallCheck _ _
    · exact measured

/-! ## Lines, sound and converter -/

theorem acceptLine (hs : s.Fine D) (n : PortNo) (line : Line) : (s.acceptLine n line).Fine D := by
  unfold State.acceptLine
  dsimp only
  split
  · exact hs
  · exact post (s := s.setLines n _) hs _ _ _

theorem noteExpiry (hs : s.Fine D) : s.noteExpiry.Fine D := by
  unfold State.noteExpiry
  split
  · exact (hs.setSound (e := s.sound.toneIdle) (Nat.le_refl _) rfl).post _ _ _
  · rename_i n rest hq
    have begun : State.Fine D { s with sound := Sound.beginNote { s.sound with queue := rest } n } :=
      hs.setSound (by simp [Sound.beginNote, hq]) rfl
    dsimp only
    split
    · exact (begun.post _ _ _).notify _
    · exact begun

/-- R133, R137: an output sample leaves the note queue and the store. -/
theorem sample (hs : s.Fine D) : s.sample.Fine D := by
  have tone : ∀ e : Sound, e.toneAdvance.queue = e.queue ∧ e.toneAdvance.store = e.store := fun e => by
    unfold Sound.toneAdvance
    split <;> exact ⟨rfl, rfl⟩
  have clip : ∀ e : Sound, e.clipAdvance.1.queue = e.queue ∧ e.clipAdvance.1.store = e.store := fun e => by
    unfold Sound.clipAdvance
    dsimp only
    repeat' split
    all_goals exact ⟨rfl, rfl⟩
  have advanced : State.Fine D
      { s with sound := (Sound.clipAdvance (Sound.toneAdvance { s.sound with out := s.sound.output })).1 } :=
    hs.setSound (by rw [(clip _).1, (tone _).1]) (by rw [(clip _).2, (tone _).2])
  unfold State.sample
  dsimp only
  split
  · exact advanced.post _ _ _
  · exact advanced

theorem stopTone (hs : s.Fine D) : s.stopTone.Fine D := by
  unfold State.stopTone
  split
  · exact (hs.setSound (e := { s.sound.toneIdle with queue := [] }) (Nat.zero_le _) rfl).post _ _ _
  · exact hs

theorem stopClip (hs : s.Fine D) : s.stopClip.Fine D := by
  unfold State.stopClip
  split
  · exact (hs.setSound (e := { s.sound with clipPlaying := false }) (Nat.le_refl _) rfl).post _ _ _
  · exact hs

theorem playClip (hs : s.Fine D) (i : Fin 16) (repeats level : Nat) : (s.playClip i repeats level).Fine D := by
  have started : State.Fine D { s with sound := s.sound.startClip i repeats (min 100 level) } :=
    hs.setSound (Nat.le_refl _) rfl
  unfold State.playClip
  dsimp only
  split
  · exact started.post _ _ _
  · exact started

/-- R134: a note that is not refused finds room. -/
theorem soundOp (hs : s.Fine D) (op : SoundOp) (h : s.soundRefusal op = none) : (s.runSoundOp op).Fine D := by
  cases op
  case tone n =>
    have room : s.sound.tonePlaying = true → s.sound.queue.length < Config.noteQueue := by
      simpa [State.soundRefusal] using h
    refine ⟨hs.1, hs.2.1, hs.2.2.1, ?_, ?_⟩
    · simp only [State.runSoundOp, Sound.append]
      split
      · simpa using room (by assumption)
      · exact hs.2.2.2.1
    · simp only [State.runSoundOp, Sound.append]
      split <;> exact hs.2.2.2.2
  case clip => exact hs.playClip _ _ _
  case flush => exact hs.setSound (Nat.zero_le _) rfl
  case volume => exact hs.setSound (Nat.le_refl _) rfl
  case stopTone => exact hs.stopTone
  case stopClip => exact hs.stopClip
  case stopAll => exact hs.stopTone.stopClip

theorem requestIdent (hs : s.Fine D) (n : PortNo) : (s.requestIdent n).Fine D :=
  (State.requestIdent_keeps (State.Fine D) (fun _ _ => rfl) s n).mpr hs

theorem scanOp (hs : s.Fine D) (op : ScanOp) : (s.scanOp op).Fine D :=
  (State.scanOp_keeps (State.Fine D) (fun _ _ => rfl) s op).mpr hs

theorem converterNext (hs : s.Fine D) : s.converterNext.Fine D := hs

theorem completeSlot (hs : s.Fine D) (i : Fin 16) (input : Fin 8) (k sum : Nat) (discard : Bool) :
    (s.completeSlot i input k sum discard).Fine D := by
  unfold State.completeSlot
  dsimp only
  split
  · exact hs
  · refine sourceUpdate ?_ _
    exact hs

theorem scanConversion (hs : s.Fine D) (code : BitVec 12) (i : Fin 16) (input : Fin 8) (n done sum : Nat)
    (discard : Bool) : (s.scanConversion code i input n done sum discard).Fine D := by
  have completed := hs.completeSlot i input (done + 1) (sum + code.toNat) discard
  unfold State.scanConversion
  dsimp only
  split
  · exact completed
  · split
    · exact hs
    · refine converterNext ?_
      split
      · exact post (s := { s.completeSlot i input (done + 1) (sum + code.toNat) discard with scan := _ })
          completed _ _ _
      · exact completed

/-! ## Ports -/

theorem startWork (hs : s.Fine D) (n : PortNo) : (s.startWork n).Fine D := hs

theorem setLineMode (hs : s.Fine D) (n : PortNo) (mode : LineMode) (debounce : Nat) :
    (s.setLineMode n mode debounce).Fine D := hs

theorem startPolling (hs : s.Fine D) (n : PortNo) (pr : Profile) : (s.startPolling n pr).Fine D := by
  unfold State.startPolling
  dsimp only
  split <;> exact hs

theorem enterFault (hs : s.Fine D) (n : PortNo) (reason : FaultReason) : (s.enterFault n reason).Fine D := by
  unfold State.enterFault
  dsimp only
  have announced (p : Port) :
      (((s.setPort n p).post .portFault (portByte n) (codeIn FaultReason.list reason)).portNotice n).Fine D :=
    (post (s := s.setPort n p) hs _ _ _).portNotice n
  refine portStatus ?_ _ _
  split
  · exact ((announced _).setLineMode _ _ _).loseMotor _ _
  · exact (announced _).setLineMode _ _ _

theorem enterDetecting (hs : s.Fine D) (n : PortNo) : (s.enterDetecting n).Fine D :=
  ((post (s := s.setPort n _) hs _ _ _).portNotice n).requestIdent n

theorem enterProbing (hs : s.Fine D) (n : PortNo) : (s.enterProbing n).Fine D :=
  portNotice (s := s.setPort n _) hs n

theorem bindPort (hs : s.Fine D) (n : PortNo) (i : Fin 16) : (s.bindPort n i).Fine D := by
  unfold State.bindPort
  dsimp only
  have announced (p : Port) :
      (((s.setPort n p).post .portBound (portByte n) (BitVec.ofNat 8 i.val)).portNotice n).Fine D :=
    (post (s := s.setPort n p) hs _ _ _).portNotice n
  split
  · exact ((announced _).setLineMode _ _ _).startPolling _ _
  · exact ((announced _).setLineMode _ _ _).startPolling _ _

theorem becomeUnknown (hs : s.Fine D) (n : PortNo) : (s.becomeUnknown n).Fine D := by
  unfold State.becomeUnknown
  dsimp only
  split
  · exact hs
  · exact portNotice (setLineMode (s := s.setPort n _) hs n .none 0) n

theorem lookupPort (hs : s.Fine D) (n : PortNo) : (s.lookupPort n).Fine D := by
  unfold State.lookupPort
  split
  · exact hs.bindPort _ _
  · exact hs.becomeUnknown _

theorem loseBinding (hs : s.Fine D) (n : PortNo) : (s.loseBinding n).Fine D :=
  ((hs.loseMotor n .rebound).portStatus n .noSource).setLineMode n .none 0

theorem rebindPort (hs : s.Fine D) (named : Fin 16 → Bool) (anyValid : Bool) (n : PortNo) :
    (State.rebindPort named anyValid s n).Fine D := by
  unfold State.rebindPort
  split
  · split
    · exact (hs.loseBinding n).lookupPort n
    · exact hs
  · split
    · exact hs.lookupPort n
    · exact hs
  · exact hs

theorem identResult (hs : s.Fine D) (n : PortNo) (code : BitVec 12) : (s.identResult n code).Fine D := by
  unfold State.identResult
  dsimp only
  split
  · split
    · split
      · exact hs
      · exact enterFault (s := s.setPort n _) hs _ _
    · exact lookupPort (s := s.setPort n _) hs _
    · exact enterProbing (s := s.setPort n _) hs _
  · exact hs

theorem queryFailed (hs : s.Fine D) (n : PortNo) : (s.queryFailed n).Fine D := by
  unfold State.queryFailed
  split
  · exact hs.enterFault _ _
  · exact hs

theorem pollMissed (hs : s.Fine D) (n : PortNo) : (s.pollMissed n).Fine D := by
  unfold State.pollMissed
  dsimp only
  split
  · exact enterFault (s := s.setPort n _) hs _ _
  · exact hs

theorem takeData (hs : s.Fine D) (n : PortNo) (payload : List Byte) : (s.takeData n payload).Fine D := by
  unfold State.takeData
  have taken (p : Port) : (((s.setPort n p).fieldUpdate n).fieldPosition n).Fine D :=
    (sourceUpdate (s := s.setPort n p) hs _).fieldPosition n
  dsimp only
  split
  · exact (taken _).offerPass _ _
  · exact taken _

theorem answerPass (hs : s.Fine D) (n : PortNo) (status : Status) (result : List Byte) :
    (s.answerPass n status result).Fine D := by
  unfold State.answerPass
  split
  · exact hs
  · exact finish (s := s.setPort n _) hs _ _ _

theorem queryReply (hs : s.Fine D) (n : PortNo) (f : DeviceFrame) : (s.queryReply n f).Fine D := by
  have ended : (s.endExchange n).Fine D := hs
  unfold State.queryReply
  dsimp only
  split
  · split
    · exact lookupPort (s := (s.endExchange n).setPort n _) ended _
    · exact ended.queryFailed n
  · exact ended.queryFailed n
  · exact ended.queryFailed n

theorem pollReply (hs : s.Fine D) (n : PortNo) (f : DeviceFrame) : (s.pollReply n f).Fine D := by
  have ended : (s.endExchange n).Fine D := hs
  unfold State.pollReply
  dsimp only
  split
  · split
    · exact ended.takeData _ _
    · exact ended.pollMissed n
  · exact ended.pollMissed n
  · exact ended.pollMissed n

theorem writeReply (hs : s.Fine D) (n : PortNo) (f : DeviceFrame) : (s.writeReply n f).Fine D := by
  have ended : (s.endExchange n).Fine D := hs
  unfold State.writeReply
  split
  · split
    · exact ended.answerPass _ _ _
    · exact hs
  · exact ended.answerPass _ _ _
  · exact hs
  · exact hs

theorem deviceFrameIn (hs : s.Fine D) (n : PortNo) (f : DeviceFrame) : (s.deviceFrameIn n f).Fine D := by
  unfold State.deviceFrameIn
  split
  · exact hs
  · split
    · split
      · exact hs.queryReply n f
      · exact hs.pollReply n f
      · exact hs.writeReply n f
    · exact hs

theorem deviceBytes (hs : s.Fine D) (n : PortNo) (bs : List LineByte) : (s.deviceBytes n bs).Fine D := by
  refine foldl (fun s b hs => ?_) bs hs
  unfold State.deviceByte
  split
  · exact hs
  · split
    · split
      · exact deviceFrameIn (s := s.setGot n _ _) hs _ _
      · dsimp only
        split
        · exact deviceFrameIn (s := s.setGot n _ _) hs _ _
        · split
          · exact deviceFrameIn (s := s.setGot n _ _) hs _ _
          · exact hs
    · exact hs

theorem serviceOff (hs : s.Fine D) (n : PortNo) : (s.serviceOff n).Fine D :=
  (State.serviceOff_keeps (State.Fine D) (fun _ _ => rfl) (fun _ _ => rfl) s n).mpr hs

theorem serviceOn (hs : s.Fine D) (n : PortNo) : (s.serviceOn n).Fine D :=
  (State.serviceOn_keeps (State.Fine D) (fun _ _ => rfl) (fun _ _ => rfl) (fun _ _ => rfl) s n).mpr hs

theorem probe (hs : s.Fine D) (n : PortNo) : (s.probe n).Fine D := by
  unfold State.probe
  dsimp only
  have lost (p : Port) (b : Prop) [Decidable b] :
      (if b then (s.setPort n p).loseMotor n .rebound else s.setPort n p).Fine D := by
    split
    · exact loseMotor (s := s.setPort n p) hs _ _
    · exact hs
  exact (((lost _ _).portStatus _ _).setLineMode _ _ _).enterDetecting n

theorem runPortOp (hs : s.Fine D) (n : PortNo) (op : PortOp) (place : Nat) : (s.runPortOp n op place).Fine D := by
  unfold State.runPortOp
  split
  · exact hs
  · exact hs.serviceOn n
  · exact hs.serviceOff n
  · exact hs
  · exact hs.probe n

theorem detach (hs : s.Fine D) (n : PortNo) : (s.detach n).Fine D := by
  unfold State.detach
  dsimp only
  have undone := ((((hs.answerPass n .noDevice []).loseMotor n .detached).portStatus n .noSource).setLineMode n .none
    0).serviceOff n
  have gone (t : State) (ht : t.Fine D) (p : Port) :
      (((((t.cancelIdent n).setPort n p).post .portDetach (portByte n) 0)).portNotice n).Fine D :=
    (post (s := (t.cancelIdent n).setPort n p) ht _ _ _).portNotice n
  exact gone _ undone _

theorem acceptDet (hs : s.Fine D) (n : PortNo) : (s.acceptDet n).Fine D := by
  unfold State.acceptDet
  dsimp only
  split
  · exact hs
  · split
    · split
      · exact enterDetecting (s := s.setPort n _) hs n
      · exact hs
    · split
      · exact hs
      · exact detach (s := s.setPort n _) hs n

/-! ## Drive budget -/

theorem window (hs : s.Fine D) : s.window.Fine D := by
  have written : s.windowWrite.Fine D := hs.setSound (Nat.le_refl _) rfl
  have changed : (s.windowWrite.budgetChange s.budget.record.state).Fine D := by
    unfold State.budgetChange
    dsimp only
    split
    · exact written
    · have announced := (written.post s.windowWrite.budget.record.state.event 0
        (codeIn BudgetState.list s.budget.record.state)).notify
        (.budgetChange s.windowWrite.budget.record.state s.budget.record.state s.windowWrite.budget.record.ceiling
          s.windowWrite.budget.record.row s.windowWrite.budget.record.batteryValid
          s.windowWrite.budget.record.batteryMv s.windowWrite.budget.record.scale)
      split
      · exact announced.stopAll _
      · exact announced
  exact foldl (fun t n ht => (State.grantChannel_keeps (State.Fine D) (fun _ _ => rfl) _ t n).mpr ht) _ changed

theorem allowanceCut (hs : s.Fine D) (load : Nat) : (s.allowanceCut load).Fine D := by
  unfold State.allowanceCut
  split
  · exact hs.setSound (Nat.le_refl _) rfl
  · exact hs

/-! ## Reactions -/

theorem becomesEnabled (hs : s.Fine D) (i : Fin 24) : (s.becomesEnabled i).Fine D := by
  unfold State.becomesEnabled
  dsimp only
  split
  · split
    · exact hs.setBus (s.bus.postRecord_queued _ _ _ _).fits
    · exact hs
  · exact hs

theorem motorAction (hs : s.Fine D) (r : Reaction) : (s.motorAction r).Fine D := by
  unfold State.motorAction
  split
  · exact hs
  · split
    · split
      · exact hs
      · split
        · exact hs
        · exact hs.runMotorOp _ _ _
    · exact hs

theorem soundAction (hs : s.Fine D) (r : Reaction) : (s.soundAction r).Fine D := by
  unfold State.soundAction
  split
  · exact hs
  · split
    · exact hs
    · exact hs.soundOp _ (by assumption)

theorem markAction (hs : s.Fine D) (r : Reaction) : (s.markAction r).Fine D := by
  unfold State.markAction State.markSet
  split
  · split
    · split
      · exact hs
      · exact post (s := s.setMark _ _) hs _ _ _
    · exact hs
  · exact hs

theorem enable (hs : s.Fine D) (i : Fin 24) : (s.enable i).Fine D := by
  unfold State.enable
  split
  · exact hs
  · exact becomesEnabled (s := s.setReaction i _) hs i

theorem act (hs : s.Fine D) (i : Fin 24) (r : Reaction) (e : Event) : (s.act i r e).Fine D := by
  unfold State.act
  split
  · exact hs
  · exact hs.notify _
  · exact hs.motorAction r
  · exact hs.soundAction r
  · exact hs.soundAction r
  · exact hs.soundAction r
  · split
    · exact hs.enable _
    · exact hs
  · split <;> exact hs
  · exact hs.markAction r
  · split
    · exact hs.reportDue _
    · exact hs
  · exact hs.scanOp _
  · exact hs.scanOp _
  · exact hs.scanOp _

theorem dispatchEvent (hs : s.Fine D) (e : Event) (rest : List Event) (he : s.bus.events = e :: rest) :
    (s.dispatchEvent e rest).Fine D := by
  have taken : State.Fine D { s with bus := s.bus.takeEvent e rest } :=
    hs.setBus fun h => ⟨by have := h.1; rw [he] at this; exact Nat.le_of_succ_le this, h.2⟩
  have reached : ∀ (t : State) (i : Fin 24), t.Fine D → (State.reach e t i).Fine D := fun t i ht => by
    unfold State.reach
    split
    · exact act (s := { t.setReaction i _ with bus := t.bus.atEntry i }) ht i _ e
    · exact ht
  exact (foldl reached (s.candidates e) taken).setBus fun h => h

end State.Fine

end Sys2Proof.Machine
end

