-- ==== Sys2Proof/Proofs/QueuesStayOrderly.lean ====
section
/-! PROOFS. Every step keeps the queues orderly: the door of the link controller, taking, and the rows of exec. -/

namespace Sys2Proof.Machine

/-! ## The door -/

/-- Section 1.3, R4: the frames that wait and the places held are within their capacities, the places in taking order,
the next order above them. -/
structure Door.Orderly (d : Door) : Prop where
  intake : d.intake.length ≤ Config.intakePlaces
  places : d.orders.length ≤ Config.answerPlaces
  rising : d.orders.Pairwise (· < ·)
  below  : ∀ o ∈ d.orders, o < d.next

/-- R5: a frame waits only while no command can be taken. -/
def Door.Blocked (d : Door) : Prop := d.intake ≠ [] → ¬ (d.orders.length < Config.answerPlaces ∧ d.reset = none)

/-- D goes along with taking a command: its place, and a RESET. -/
structure Door.Kept (D : Door → Prop) : Prop where
  reserve : ∀ d : Door, d.orders.length < Config.answerPlaces → D d →
    D { d with orders := d.orders ++ [d.next], next := d.next + 1 }
  reset   : ∀ (d : Door) (r : Option Nat), D d → D { d with reset := r }

/-- R5: taking a command keeps the places in order. -/
theorem Door.Orderly.reserve {d : Door} (h : d.Orderly) (room : d.orders.length < Config.answerPlaces) :
    Door.Orderly { d with orders := d.orders ++ [d.next], next := d.next + 1 } where
  intake := h.intake
  places := by simpa using room
  rising := List.pairwise_append.mpr
    ⟨h.rising, List.pairwise_singleton _ _, fun o ho _ hn => by simpa [List.mem_singleton.mp hn] using h.below o ho⟩
  below := fun o ho => by
    rcases List.mem_append.mp ho with ho | ho
    · exact Nat.lt_succ_of_lt (h.below o ho)
    · rw [List.mem_singleton.mp ho]
      exact Nat.lt_succ_self _

theorem Door.orderly_kept : Door.Kept Door.Orderly where
  reserve := fun _ room h => h.reserve room
  reset := fun _ _ h => ⟨h.intake, h.places, h.rising, h.below⟩

theorem Link.canTake_iff (l : Link) :
    l.canTake = true ↔ l.places.length < Config.answerPlaces ∧ l.resetOrder = none := by
  simp [Link.canTake]

theorem Link.door_blocked_iff (l : Link) : l.door.Blocked ↔ (l.intake ≠ [] → l.canTake = false) := by
  rw [← Bool.not_eq_true, Link.canTake_iff]
  simp [Door.Blocked, Link.door]

/-! ## Handlers and taking -/

namespace State.Fine

variable {D : Door → Prop} {s : State}

theorem mono {E : Door → Prop} (h : ∀ d, D d → E d) (hs : s.Fine D) : s.Fine E := ⟨h _ hs.1, hs.2⟩

theorem setLink (hs : s.Fine D) {l : Link} (h : D s.link.door → D l.door) : State.Fine D { s with link := l } :=
  ⟨h hs.1, hs.2⟩

theorem writeSettings (hs : s.Fine D) (r : Settings) : (s.writeSettings r).Fine D := by
  refine allowanceCut ?_ _
  exact ⟨hs.1, hs.2⟩

theorem writeProfiles (hs : s.Fine D) (first : Nat) (rs : List Profile) : (s.writeProfiles first rs).Fine D := by
  have written : State.Fine D { s with profiles := replaceRange s.profiles first rs } := ⟨hs.1, hs.2⟩
  unfold State.writeProfiles
  exact foldl (fun _ n h => h.rebindPort _ _ n) _ written

theorem writeScanList (hs : s.Fine D) (first : Nat) (rs : List ScanSlot) : (s.writeScanList first rs).Fine D :=
  (State.writeScanList_keeps (State.Fine D) (fun _ _ => rfl) (fun _ _ => rfl) s first rs).mpr hs

theorem writeConversion (hs : s.Fine D) (first : Nat) (rs : List ConvConfig) : (s.writeConversion first rs).Fine D :=
  (State.writeConversion_keeps (State.Fine D) (fun _ _ => rfl) s first rs).mpr hs

theorem writeReactions (hs : s.Fine D) (first : Nat) (rs : List Reaction) : (s.writeReactions first rs).Fine D := by
  have written : State.Fine D { s with reactions := replaceRange s.reactions first rs } := ⟨hs.1, hs.2⟩
  unfold State.writeReactions
  exact foldl (fun _ i h => h.becomesEnabled i) _ written

/-- R6: whatever a taken command is, its handler keeps the queues. -/
theorem handlers (K : Door.Kept D) : HandlersKeep (State.Fine D) :=
  OperationsKeep.handlers
    { motor := fun _ n op notify hs => hs.runMotorOp n op notify
      sound := fun _ op h hs => hs.soundOp op h
      scan := fun _ op hs => hs.scanOp op
      port := fun _ n op place hs => hs.runPortOp n op place
      report := fun _ i hs => hs.reportDue i
      settings := fun _ r hs => hs.writeSettings r
      profiles := fun _ first rs hs => hs.writeProfiles first rs
      scanList := fun _ first rs hs => hs.writeScanList first rs
      conversion := fun _ first rs hs => hs.writeConversion first rs
      reactions := fun _ first rs hs => hs.writeReactions first rs
      marks := fun _ _ hs => ⟨hs.1, hs.2⟩
      rows := fun _ _ hs => ⟨hs.1, hs.2⟩
      reports := fun _ _ hs => ⟨hs.1, hs.2⟩
      clips := fun _ _ hs => hs.setSound (Nat.le_refl _) rfl
      store := fun _ offset data inside hs =>
        ⟨hs.1, hs.2.1, hs.2.2.1, hs.2.2.2.1, Memory.wf_writeAll data offset hs.2.2.2.2 inside⟩
      reset := fun _ _ hs => hs.setLink (K.reset _ _) }

theorem runFrame (K : Door.Kept D) (hs : s.Fine D) (f : Frame) (taking : s.link.canTake = true) :
    (s.runFrame f).Fine D := by
  have room := ((Link.canTake_iff _).mp taking).1
  have reserved : State.Fine D { s with link := s.link.reserve f.kind f.tag } := hs.setLink fun h => by
    simpa [Link.door, Link.reserve] using K.reserve _ (by simpa [Link.door] using room) h
  have handled := (handlers K).handle _ f.kind f.payload s.link.nextOrder reserved
  unfold State.runFrame State.carryOut
  dsimp only
  split
  · rename_i h
    rw [h] at handled
    exact handled.finish _ _ _
  · rename_i h
    rw [h] at handled
    exact handled

/-- R5: the frames that wait are taken while they can be; then none waits, or none can be taken. -/
theorem takeFrames (fuel : Nat) (hs : s.Fine Door.Orderly) (enough : s.link.intake.length ≤ fuel) :
    (s.takeFrames fuel).Fine fun d => d.Orderly ∧ d.Blocked := by
  induction fuel generalizing s with
  | zero =>
    exact ⟨⟨hs.1, fun h => absurd (List.length_eq_zero_iff.mp (Nat.le_zero.mp enough)) h⟩, hs.2⟩
  | succ fuel ih =>
    unfold State.takeFrames
    split
    · rename_i h
      exact ⟨⟨hs.1, fun hne => absurd h hne⟩, hs.2⟩
    · rename_i f rest h
      have length : rest.length + 1 ≤ fuel + 1 := by rw [h] at enough; exact enough
      split
      · rename_i taking
        have left : State.Fine Door.Orderly { s with link := { s.link with intake := rest } } := by
          refine ⟨⟨?_, hs.1.places, hs.1.rising, hs.1.below⟩, hs.2⟩
          have := hs.1.intake
          rw [show s.link.door.intake = f :: rest from h] at this
          exact Nat.le_of_succ_le this
        exact ih (left.runFrame Door.orderly_kept f taking) (by
          rw [State.runFrame_intake]
          exact Nat.le_of_succ_le_succ length)
      · rename_i taking
        exact ⟨⟨hs.1, (Link.door_blocked_iff _).mpr fun _ => Bool.eq_false_of_not_eq_true taking⟩, hs.2⟩

theorem takeAll (hs : s.Fine Door.Orderly) : s.takeAll.Fine fun d => d.Orderly ∧ d.Blocked :=
  hs.takeFrames _ (Nat.le_refl _)

/-- R4: a frame waits at the tail where there is room, and is dropped where there is none. -/
theorem offerFrame (hs : s.Fine Door.Orderly) (f : Frame) : (s.offerFrame f).Fine Door.Orderly := by
  unfold State.offerFrame
  split
  · rename_i room
    exact hs.setLink fun h => ⟨by simpa [Link.door] using room, h.places, h.rising, h.below⟩
  · dsimp only
    split
    · exact hs
    · exact notify (s := { s with link := { s.link with intakeDrops := satInc s.link.intakeDrops } }) hs _

theorem submit (hs : s.Fine Door.Orderly) (f : Frame) :
    (s.submit f (handling f)).Fine fun d => d.Orderly ∧ d.Blocked := by
  unfold State.submit
  split
  · rename_i h
    have ran := hs.runFrame Door.orderly_kept f h.2
    exact ⟨⟨ran.1, fun hne => absurd ((s.runFrame_intake f).trans h.1) hne⟩, ran.2⟩
  · exact (hs.offerFrame f).takeAll

/-- R19: the transmitter takes from the queues only. -/
theorem transmitNext (hs : s.Fine D) : s.transmitNext.Fine D := by
  obtain ⟨tx, notices, reports, h, ⟨k, hk⟩, ⟨j, hj⟩⟩ := s.transmitNext_frame
  rw [h]
  refine ⟨hs.1, ⟨hs.2.1.1, ?_⟩, ?_, hs.2.2.2⟩
  · exact Nat.le_trans (by simp [hk]) hs.2.1.2
  · exact Nat.le_trans (by simp [hj]) hs.2.2.1

end State.Fine

/-! ## Resets, reception and transmission -/

/-- R13: after a reset the queues are empty; the store stands. -/
theorem State.afterReset_fine (cause : ResetCause) (strap : BitVec 2) (det : Vector Bool 6)
    (pins : Vector (Bool × Bool) 6) (clips : Vector Clip 16) (store : List Host.Cell) (pending : List Instr)
    (h : Memory.wf store = true) :
    (State.afterReset cause strap det pins clips store pending).Fine fun d => d.Orderly ∧ d.Blocked :=
  ⟨⟨⟨Nat.zero_le _, Nat.zero_le _, List.Pairwise.nil, fun _ h => absurd h List.not_mem_nil⟩, fun h => absurd rfl h⟩,
    ⟨Nat.zero_le _, Nat.zero_le _⟩, Nat.zero_le _, Nat.zero_le _, h⟩

/-- R19: a place that is freed leaves the others in order. -/
theorem State.Fine.sent {s : State} (hs : s.Fine Door.Orderly) (x : Sending) :
    State.Fine Door.Orderly { s with link := s.link.sent x } := by
  have kept : (s.link.sent x).door.orders.Sublist s.link.door.orders := List.filter_sublist.map _
  exact hs.setLink fun h => ⟨h.intake, Nat.le_trans kept.length_le h.places, h.rising.sublist kept,
    fun o ho => h.below o (kept.subset ho)⟩

theorem State.Fine.transmitted {s : State} (hs : s.Fine Door.Orderly) (x : Sending) :
    (s.transmitted x).Fine fun d => d.Orderly ∧ d.Blocked := by
  unfold State.transmitted
  split
  · exact State.afterReset_fine _ _ _ _ _ _ _ hs.2.2.2.2
  · exact (hs.sent x).transmitNext.takeAll.transmitNext

theorem State.Fine.receiveByte {s : State} (hs : s.Fine fun d => d.Orderly ∧ d.Blocked) (b : LineByte) :
    (s.receiveByte b).Fine fun d => d.Orderly ∧ d.Blocked := by
  unfold State.receiveByte
  split
  · unfold Link.byteError
    split <;> exact hs
  · split
    · split <;> exact hs
    · split <;> exact hs
    · exact hs
    · split
      · have counted : State.Fine Door.Orderly
            { s with link := s.link.goodFrame s.settings.silenceMs.toNat } := ⟨hs.1.1, hs.2⟩
        exact (counted.offerFrame _).takeAll.transmitNext
      · exact hs

/-- R19: once it has chosen, an IDLE transmitter finds nothing to send. -/
theorem State.transmitNext_nothingWaits (s : State) : s.transmitNext.NothingWaits := by
  unfold State.transmitNext
  split
  · rename_i h
    exact fun hn => absurd (h.symm.trans hn) (by simp)
  · split
    · exact fun hn => absurd hn (by simp)
    · exact fun hn => absurd hn (by simp)
    · exact fun hn => absurd hn (by simp)
    · rename_i ha hn hr
      exact fun _ => ⟨ha, hn, hr⟩

theorem State.NothingWaits.receiveByte {s : State} (hs : s.NothingWaits) (b : LineByte) :
    (s.receiveByte b).NothingWaits := by
  unfold State.receiveByte
  split
  · unfold Link.byteError
    split <;> exact hs
  · split
    · split <;> exact hs
    · split <;> exact hs
    · exact hs
    · split
      · exact State.transmitNext_nothingWaits _
      · exact hs

/-! ## The rows of exec -/

/-- The invariants of O57, as one predicate that the lemmas above speak of. -/
abbrev State.Orderly (s : State) : Prop := s.Fine fun d => d.Orderly ∧ d.Blocked

theorem State.orderly_iff (s : State) :
    s.Orderly ↔ s.Capacities ∧ s.PlacesOrdered ∧ s.IntakeBlocked ∧ Memory.wf s.sound.store = true := by
  constructor
  · rintro ⟨⟨hd, hb⟩, hbus, hr, hn, hm⟩
    exact ⟨⟨hd.intake, by simpa [Link.door] using hd.places, hn, hbus.1, hr, hbus.2⟩,
      ⟨by simpa [Link.door, List.pairwise_map] using hd.rising, by simpa [Link.door] using hd.below⟩,
      (Link.door_blocked_iff _).mp hb, hm⟩
  · rintro ⟨hc, hp, hb, hm⟩
    exact ⟨⟨⟨hc.intake, by simpa [Link.door] using hc.places, by simpa [Link.door, List.pairwise_map] using hp.rising,
      by simpa [Link.door] using hp.below⟩, (Link.door_blocked_iff _).mpr hb⟩, ⟨hc.events, hc.notices⟩, hc.reports,
      hc.notes, hm⟩

/-- The queues are orderly, and an IDLE transmitter has nothing to send. -/
def State.InOrder (s : State) : Prop := s.Orderly ∧ s.NothingWaits

/-- A row that the transmitter ends: its own effect has to keep the queues only. -/
theorem settled_inOrder {s : State} (hs : s.Orderly) : EndsWith State.InOrder (settled s) :=
  ⟨State.Fine.transmitNext hs, s.transmitNext_nothingWaits⟩

theorem State.InOrder.receive {s : State} (hs : s.InOrder) (bytes : List LineByte) : (s.receive bytes).InOrder := by
  induction bytes generalizing s with
  | nil => exact hs
  | cons b bytes ih => exact ih ⟨State.Fine.receiveByte hs.1 b, hs.2.receiveByte b⟩

/-- R12, R19: after a reset the transmitter sends STARTED, and otherwise it has chosen. -/
theorem State.transmitted_nothingWaits (s : State) (x : Sending) : (s.transmitted x).NothingWaits := by
  unfold State.transmitted
  split
  · exact fun h => absurd h (by simp [State.softwareReset, State.afterReset])
  · exact State.transmitNext_nothingWaits _

/-- Every row keeps the queues within their capacities, the places in order and the store canonical. -/
theorem exec_inOrder (c : Instr) {s : State} (h : s.InOrder) : EndsWith State.InOrder (exec c s) := by
  obtain ⟨hs, idle⟩ := h
  cases hf : frameOf c with
  | some f =>
    rw [exec_eq_submitted c f hf]
    exact settled_inOrder (State.Fine.submit (hs.mono fun _ h => h.1) f)
  | none =>
    cases c
    case powerOnReset =>
      exact ⟨State.afterReset_fine _ _ _ _ _ _ _ rfl,
        fun h => absurd h (by simp [State.powerOnReset, State.afterReset])⟩
    case frameReceived bytes => exact State.InOrder.receive ⟨hs, idle⟩ bytes
    case gapTimeout =>
      simp only [exec, execGapTimeout]
      split <;> exact ⟨hs, idle⟩
    case silenceTimeout =>
      simp only [exec, execSilenceTimeout]
      split
      · exact ⟨hs, idle⟩
      · have silent : State.Orderly { s with link := s.link.goSilent } := hs
        exact settled_inOrder (((silent.post _ _ _).stopAll _).stopTone.stopClip)
    case stampTick => exact ⟨hs, idle⟩
    case frameTransmitted =>
      simp only [exec, execFrameTransmitted]
      split
      · exact ⟨hs, idle⟩
      · exact ⟨State.Fine.transmitted (hs.mono fun _ h => h.1) _, State.transmitted_nothingWaits s _⟩
    case detChange =>
      simp only [exec, execDetChange]
      split <;> exact ⟨hs, idle⟩
    case detDebounceExpiry n =>
      simp only [exec, execDetDebounceExpiry]
      split
      · exact ⟨hs, idle⟩
      · exact settled_inOrder (State.Fine.acceptDet (s := s.setPort n _) hs n)
    case idConversionDone =>
      simp only [exec, execIdConversionDone]
      split
      · refine settled_inOrder (State.Fine.converterNext ?_)
        split
        · exact hs
        · exact State.Fine.identResult hs _ _
      all_goals exact ⟨hs, idle⟩
    case queryTryDue =>
      simp only [exec, execQueryTryDue]
      split <;> exact ⟨hs, idle⟩
    case deviceFrameSent =>
      simp only [exec, execDeviceFrameSent]
      split <;> exact ⟨hs, idle⟩
    case queryWindowClose n =>
      simp only [exec, execQueryWindowClose]
      split
      · exact settled_inOrder (State.Fine.startWork (State.Fine.queryFailed (s := s.endExchange n) hs n) n)
      · exact ⟨hs, idle⟩
    case identReceived => exact settled_inOrder (State.Fine.deviceBytes hs _ _)
    case dataReceived => exact settled_inOrder (State.Fine.deviceBytes hs _ _)
    case ackReceived => exact settled_inOrder (State.Fine.deviceBytes hs _ _)
    case nakReceived => exact settled_inOrder (State.Fine.deviceBytes hs _ _)
    case badDeviceFrame => exact settled_inOrder (State.Fine.deviceBytes hs _ _)
    case pollTimerExpiry =>
      simp only [exec, execPollTimerExpiry]
      split
      · exact ⟨hs, idle⟩
      · split <;> exact ⟨hs, idle⟩
    case pollWindowClose n =>
      simp only [exec, execPollWindowClose]
      split
      · exact settled_inOrder (State.Fine.startWork (State.Fine.pollMissed (s := s.endExchange n) hs n) n)
      · exact ⟨hs, idle⟩
    case writeWindowClose n =>
      simp only [exec, execWriteWindowClose]
      split
      · exact settled_inOrder (State.Fine.startWork (State.Fine.answerPass (s := s.endExchange n) hs n _ _) n)
      · exact ⟨hs, idle⟩
    case reprobeExpiry n =>
      simp only [exec, execReprobeExpiry]
      split
      · exact ⟨hs, idle⟩
      · split
        · exact ⟨State.Fine.requestIdent (s := s.setPort n _) hs n,
            (State.requestIdent_keeps State.NothingWaits (fun _ _ => rfl) (s.setPort n _) n).mpr idle⟩
        · exact ⟨hs, idle⟩
    case digitalLineChange n line high =>
      simp only [exec, execDigitalLineChange]
      split
      · exact ⟨hs, idle⟩
      · split
        · split
          · exact settled_inOrder (State.Fine.acceptLine (s := s.setLines n _) hs n line)
          · exact ⟨hs, idle⟩
        · exact ⟨hs, idle⟩
    case lineDebounceExpiry n line =>
      simp only [exec, execLineDebounceExpiry]
      split
      · exact ⟨hs, idle⟩
      · exact settled_inOrder (State.Fine.acceptLine (s := s.setLines n _) hs n line)
    case quadratureChange n _ _ =>
      simp only [exec, execQuadratureChange]
      split
      · split
        · exact ⟨hs, idle⟩
        · exact settled_inOrder ((State.Fine.quadraturePosition (s := s.setLines n _) hs n _ _).encoderUpdate n)
      · exact ⟨hs, idle⟩
    case pulseEdge n _ _ =>
      simp only [exec, execPulseEdge]
      split
      · split
        · split
          · exact settled_inOrder (State.Fine.sourceUpdate (s := s.setLines n _) hs _)
          · exact ⟨hs, idle⟩
        · exact ⟨hs, idle⟩
      · exact ⟨hs, idle⟩
    case noEdgeExpiry n =>
      simp only [exec, execNoEdgeExpiry]
      split
      · exact ⟨hs, idle⟩
      · exact settled_inOrder (State.Fine.sourceUpdate (s := s.setLines n _) hs _)
    case scanConversionDone =>
      simp only [exec, execScanConversionDone]
      split
      · exact settled_inOrder (State.Fine.scanConversion hs _ _ _ _ _ _ _)
      all_goals exact ⟨hs, idle⟩
    case regulationExpiry =>
      simp only [exec, execRegulationExpiry]
      split
      · exact settled_inOrder (State.Fine.regulation hs _ _)
      · exact ⟨hs, idle⟩
    case runForExpiry =>
      simp only [exec, execRunForExpiry]
      split
      · exact settled_inOrder (State.Fine.finishMotor hs _ _)
      · exact ⟨hs, idle⟩
    case budgetWindowExpiry => exact settled_inOrder (State.Fine.window hs)
    case outputSample => exact settled_inOrder (State.Fine.sample hs)
    case noteDurationExpiry =>
      simp only [exec, execNoteDurationExpiry]
      split
      · exact ⟨hs, idle⟩
      · exact settled_inOrder (State.Fine.noteExpiry hs)
    case eventDispatch =>
      simp only [exec, execEventDispatch]
      split
      · exact ⟨hs, idle⟩
      · exact settled_inOrder (State.Fine.dispatchEvent hs _ _ (by assumption))
    case reportPeriodExpiry i =>
      simp only [exec, execReportPeriodExpiry]
      split
      · exact ⟨hs, idle⟩
      · exact settled_inOrder (State.Fine.reportDue (s := s.setReport i _) hs i)
    case minIntervalExpiry =>
      simp only [exec, execMinIntervalExpiry]
      split
      · exact ⟨hs, idle⟩
      · split
        · exact settled_inOrder (State.Fine.reportDue hs _)
        · exact ⟨hs, idle⟩
    all_goals exact absurd hf (by simp [frameOf])

/-- Settles O57: the row at the front of the queue keeps the queues, and an idle step changes nothing. -/
theorem queuesStayOrderly : Obligations.QueuesStayOrderly := by
  intro s t capacities ordered nothing blocked canonical stepped
  have before : s.InOrder := ⟨s.orderly_iff.mpr ⟨capacities, ordered, blocked, canonical⟩, nothing⟩
  have ends : t.InOrder := by
    cases hp : s.pending with
    | nil =>
      have same : s = t := by simpa [step, hp] using stepped
      exact same ▸ before
    | cons c rest =>
      have row : exec c { s with pending := rest } = .next t := by simpa [step, hp] using stepped
      have kept : EndsWith State.InOrder (.next t) := row ▸ exec_inOrder c (s := { s with pending := rest }) before
      exact kept
  obtain ⟨hc, ho, hb, hm⟩ := t.orderly_iff.mp ends.1
  exact ⟨hc, ho, ends.2, hb, hm⟩

end Sys2Proof.Machine
end

