-- ==== Sys2Proof/Proofs/Reception.lean ====
section
/-! PROOFS. The receiver (R1–R3), and the frame of a command on the line (section 1.10, R3, R5, log 9). -/

namespace Sys2Proof.Machine

/-! ## The receiver -/

/-- The receiver in a state. -/
def State.receiving (s : State) (r : Receiver) : State := { s with link := { s.link with receiver := r } }

theorem State.receiving_self {s : State} {r : Receiver} (h : s.link.receiver = r) : s.receiving r = s := by
  rw [← h]
  rfl

/-- One byte on the line. -/
theorem exec_frameReceived_singleton (s : State) (b : LineByte) :
    exec (.frameReceived [b]) s = .next (s.receiveByte b) := rfl

/-- R1: a byte error in a frame is counted and the receiver hunts. -/
theorem State.receiveByte_stopLow {s : State} (h : s.link.receiver ≠ .hunt) (b : Byte) :
    s.receiveByte ⟨b, true⟩ =
      { s with link := { s.link with receiver := .hunt, byteErrors := satInc s.link.byteErrors } } := by
  simp only [State.receiveByte, Link.byteError, if_true]
  split
  · exact absurd (by assumption) h
  all_goals rfl

/-- R2: the gap timer's expiry in a frame is counted and the receiver hunts. -/
theorem execGapTimeout_in_frame {s : State} (h : s.link.receiver ≠ .hunt) :
    execGapTimeout s =
      .next { s with link := { s.link with receiver := .hunt, gapErrors := satInc s.link.gapErrors } } := by
  unfold execGapTimeout
  split
  · exact absurd (by assumption) h
  all_goals rfl

/-- R1: in HUNT a byte error is not counted. -/
theorem State.receiveByte_hunt_stopLow {s : State} (h : s.link.receiver = .hunt) (b : Byte) :
    s.receiveByte ⟨b, true⟩ = s := by
  simp [State.receiveByte, Link.byteError, h]

/-- R1: in HUNT only the marker counts. -/
theorem State.receiveByte_hunt {s : State} (h : s.link.receiver = .hunt) (b : Byte) :
    s.receiveByte ⟨b, false⟩ = s.receiving (if b = marker then .length else .hunt) := by
  simp only [State.receiveByte, h, Bool.false_eq_true, if_false]
  split
  · rfl
  · exact (State.receiving_self h).symm

/-- R1: the length byte. -/
theorem State.receiveByte_length {s : State} (h : s.link.receiver = .length) (b : Byte) :
    s.receiveByte ⟨b, false⟩ =
      if 2 ≤ b.toNat ∧ b.toNat ≤ 250 then s.receiving (.body b [])
      else { s with link := { s.link with receiver := .hunt, lengthErrors := satInc s.link.lengthErrors } } := by
  simp only [State.receiveByte, h, Bool.false_eq_true, if_false]
  rfl

/-- R1: a body byte. -/
theorem State.receiveByte_body {s : State} {n : Byte} {got : List Byte} (h : s.link.receiver = .body n got) (b : Byte) :
    s.receiveByte ⟨b, false⟩ =
      s.receiving (if got.length + 1 = n.toNat then .check n (got ++ [b]) else .body n (got ++ [b])) := by
  simp [State.receiveByte, h, State.receiving]

/-- R3: a check byte, good or wrong. -/
theorem State.receiveByte_check {s : State} {n : Byte} {got : List Byte} (h : s.link.receiver = .check n got)
    (b : Byte) :
    s.receiveByte ⟨b, false⟩ =
      if crc8 (n :: got) = b then s.acceptFrame { kind := u8At got 0, tag := u8At got 1, payload := got.drop 2 }
      else { s with link := { s.link with receiver := .hunt, checkErrors := satInc s.link.checkErrors } } := by
  simp [State.receiveByte, h]

/-- Settles O3: the equation of each receiver state. -/
theorem receiverTakesOneByte : Obligations.ReceiverTakesOneByte := by
  intro s b n got
  simp only [exec_frameReceived_singleton, show exec .gapTimeout s = execGapTimeout s from rfl]
  refine ⟨fun h => ⟨?_, ?_, ?_⟩, fun h => ⟨?_, execGapTimeout_in_frame h⟩, fun h => ?_, fun h => ?_, fun h wrong => ?_⟩
  · rw [State.receiveByte_hunt_stopLow h]
  · simp [execGapTimeout, h]
  · rw [State.receiveByte_hunt h]
    rfl
  · rw [State.receiveByte_stopLow h]
  · rw [State.receiveByte_length h]
    split <;> rfl
  · rw [State.receiveByte_body h]
    rfl
  · rw [State.receiveByte_check h, if_neg wrong]

/-! ## A whole frame on the line -/

theorem State.receive_append (s : State) (bs cs : List LineByte) : s.receive (bs ++ cs) = (s.receive bs).receive cs :=
  List.foldl_append

/-- R1: the bytes of a body, of the number the length byte says. -/
theorem State.receive_body {n : Byte} (bs : List Byte) {s : State} {got : List Byte}
    (h : s.link.receiver = .body n got) (nonempty : bs ≠ []) (length : got.length + bs.length = n.toNat) :
    s.receive (onLine bs) = s.receiving (.check n (got ++ bs)) := by
  induction bs generalizing s got with
  | nil => exact absurd rfl nonempty
  | cons b bs ih =>
    have first : s.receive (onLine (b :: bs)) =
        (s.receiving (if got.length + 1 = n.toNat then .check n (got ++ [b]) else .body n (got ++ [b]))).receive
          (onLine bs) := by
      rw [← State.receiveByte_body h]
      rfl
    rw [List.length_cons] at length
    rw [first]
    cases bs with
    | nil =>
      rw [if_pos (by simpa using length)]
      rfl
    | cons c cs =>
      rw [if_neg (by simp at length; omega)]
      refine (ih (s := s.receiving _) rfl (by simp) (by simp at length ⊢; omega)).trans ?_
      rw [List.append_assoc]
      rfl

/-- R1, R3: the bytes of a frame from HUNT bring the frame to the intake. -/
theorem State.receive_frame {s : State} (h : s.link.receiver = .hunt) (f : Frame) (fits : f.payload.length ≤ 248) :
    s.receive (onLine (frameBytes f.kind f.tag f.payload)) =
      State.acceptFrame (s.receiving
        (.check (BitVec.ofNat 8 (f.payload.length + 2)) (f.kind :: f.tag :: f.payload))) f := by
  have count : (BitVec.ofNat 8 (f.payload.length + 2)).toNat = f.payload.length + 2 := by
    rw [BitVec.toNat_ofNat]
    omega
  have bytes : onLine (frameBytes f.kind f.tag f.payload) =
      onLine [marker, BitVec.ofNat 8 (f.payload.length + 2)] ++ (onLine (f.kind :: f.tag :: f.payload) ++
        onLine [crc8 (BitVec.ofNat 8 (f.payload.length + 2) :: f.kind :: f.tag :: f.payload)]) := by
    simp [onLine, frameBytes]
  have opened : s.receive (onLine [marker, BitVec.ofNat 8 (f.payload.length + 2)]) =
      s.receiving (.body (BitVec.ofNat 8 (f.payload.length + 2)) []) := by
    change (s.receiveByte ⟨marker, false⟩).receiveByte ⟨BitVec.ofNat 8 (f.payload.length + 2), false⟩ = _
    rw [State.receiveByte_hunt h, if_pos rfl, State.receiveByte_length rfl, if_pos (by rw [count]; omega)]
    rfl
  rw [bytes, State.receive_append, State.receive_append, opened,
    State.receive_body (s := s.receiving _) _ rfl (by simp) (by rw [count]; simp)]
  exact (State.receiveByte_check (s := State.receiving _ _) rfl _).trans (if_pos rfl)

/-- Section 1.10.1: the frame of a command that can be sent fits a length byte. -/
theorem frameOf_fits {c : Instr} {f : Frame} (hf : frameOf c = some f) (hw : c.wellFormed = true) :
    f.payload.length ≤ 248 := by
  cases c <;> simp only [frameOf, Option.some.injEq, reduceCtorEq] at hf <;> subst hf <;>
    simp [Instr.wellFormed, fitsFrame] at hw ⊢ <;> omega

/-! ## Taking at the door -/

/-- R5: while no command can be taken, none is. -/
theorem State.takeAll_of_not_canTake {s : State} (h : s.link.canTake = false) : s.takeAll = s := by
  unfold State.takeAll
  cases s.link.intake.length with
  | zero => rfl
  | succ fuel =>
    unfold State.takeFrames
    split
    · rfl
    · rw [if_neg (by simp [h])]

/-- R5: with no frame waiting none is taken. -/
theorem State.takeAll_of_empty {s : State} (h : s.link.intake = []) : s.takeAll = s := by
  simp [State.takeAll, h, State.takeFrames]

/-- R5: the head of the frames that wait is taken first. -/
theorem State.takeAll_cons {s : State} {f : Frame} {rest : List Frame} (h : s.link.intake = f :: rest)
    (taking : s.link.canTake = true) :
    s.takeAll = State.takeAll (State.runFrame { s with link := { s.link with intake := rest } } f) := by
  unfold State.takeAll
  rw [State.runFrame_intake, h, List.length_cons]
  conv_lhs => unfold State.takeFrames
  simp only [h, taking, if_true]

/-- Log 9: a frame at the door goes through the intake, taken at once or left waiting. -/
theorem State.submit_eq_takeAll (s : State) (f : Frame) : s.submit f (handling f) = (s.offerFrame f).takeAll := by
  unfold State.submit
  split
  · rename_i h
    have offered : s.offerFrame f = { s with link := { s.link with intake := [f] } } := by
      simp [State.offerFrame, h.1, Config.intakePlaces]
    have left : ({ s with link := { s.link with intake := [] } } : State) = s := by
      rw [← h.1]
    have taken := State.takeAll_cons (s := { s with link := { s.link with intake := [f] } }) rfl h.2
    rw [offered, taken]
    change _ = State.takeAll (State.runFrame { s with link := { s.link with intake := [] } } f)
    rw [left, State.takeAll_of_empty ((s.runFrame_intake f).trans h.1)]
    rfl
  · rfl

/-- A timer's length in ms, 0 leaving it stopped. -/
theorem timerOf_toNat (x : Half) : timerOf x.toNat = if x = 0 then none else some x.toNat := by
  unfold timerOf
  by_cases h : x = 0
  · simp [h]
  · have pos : x.toNat ≠ 0 := fun hx => h (BitVec.eq_of_toNat_eq (by simpa using hx))
    rw [if_neg h, if_neg pos]

/-- Settles O4: the bytes bring the frame to the intake, where the row stands too. -/
theorem framesCarryTheirCommands : Obligations.FramesCarryTheirCommands := by
  intro s c f hf wellFormed hunt
  rw [exec_eq_submitted c f hf, submitted, State.submit_eq_takeAll, settled]
  change Host.Outcome.next (s.receive (onLine (frameBytes f.kind f.tag f.payload))) = _
  rw [State.receive_frame hunt f (frameOf_fits hf wellFormed)]
  unfold State.acceptFrame
  congr 4
  simp only [State.receiving, Link.goodFrame, timerOf_toNat, hunt]

/-- R4: a frame that finds room waits at the tail. -/
theorem State.offerFrame_room {s : State} (f : Frame) (h : s.link.intake.length < 4) :
    s.offerFrame f = { s with link := { s.link with intake := s.link.intake ++ [f] } } := if_pos h

/-- R4: a frame that finds none is dropped and counted, with one notice at a time. -/
theorem State.offerFrame_full {s : State} (f : Frame) (h : 4 ≤ s.link.intake.length) :
    s.offerFrame f =
      { s with
        link := { s.link with intakeDrops := satInc s.link.intakeDrops }
        bus := if s.bus.notices.any (fun n => n.body.isIntakeOverflow) then s.bus
               else s.bus.notify (.intakeOverflow (satInc s.link.intakeDrops)) } := by
  unfold State.offerFrame
  rw [if_neg (show ¬ s.link.intake.length < Config.intakePlaces from Nat.not_lt.mpr h)]
  dsimp only
  split <;> rfl

/-- Settles O5: with no command to be taken the frame waits or is dropped, and none is taken after it. -/
theorem commandsWaitOrDrop : Obligations.CommandsWaitOrDrop := by
  intro s c f hf held
  have blocked : s.link.canTake = false := by
    rw [← Bool.not_eq_true, Link.canTake_iff]
    rintro ⟨room, noReset⟩
    rcases held with full | reset
    · exact absurd room (Nat.not_lt.mpr full)
    · simp [noReset] at reset
  rw [exec_eq_submitted c f hf, submitted, State.submit_eq_takeAll, settled]
  refine ⟨fun room => ?_, fun full => ?_⟩
  · rw [State.offerFrame_room f room, State.takeAll_of_not_canTake]
    exact blocked
  · rw [State.offerFrame_full f full, State.takeAll_of_not_canTake]
    exact blocked

end Sys2Proof.Machine
end

