-- ==== Sys2Proof/Proofs/Transmitter.lean ====
section
/-! PROOFS. The transmitter (R19), the end of a transmission and the resets (R5, R12, R13). -/

namespace Sys2Proof.Machine

/-! ## The transmitter's choice -/

/-- R19: with nothing to send the transmitter stays as it is. -/
theorem State.NothingWaits.transmitNext {s : State} (h : s.NothingWaits) : s.transmitNext = s := by
  unfold State.transmitNext
  split
  · rfl
  · rename_i idle
    obtain ⟨answer, notices, reports⟩ := h idle
    rw [answer, notices, reports]

/-- R19: the choice is made once. -/
theorem State.transmitNext_idem (s : State) : s.transmitNext.transmitNext = s.transmitNext :=
  s.transmitNext_nothingWaits.transmitNext

/-- Section 1.3: the READY answer of the command taken earliest stands first. -/
theorem findSome?_answer_of_earliest {places : List Place} {p : Place} {a : Answer} (member : p ∈ places)
    (ready : p.answer = some a) (rising : places.Pairwise (fun q r => q.order < r.order))
    (earliest : ∀ q ∈ places, q.answer.isSome = true → p.order ≤ q.order) :
    places.findSome? (fun q => q.answer.map (fun b => Sending.answer q.order q.kind q.tag b)) =
      some (.answer p.order p.kind p.tag a) := by
  induction places with
  | nil => exact absurd member List.not_mem_nil
  | cons q places ih =>
    obtain ⟨above, rising⟩ := List.pairwise_cons.mp rising
    rw [List.findSome?_cons]
    rcases List.mem_cons.mp member with rfl | member
    · simp [ready]
    · cases hq : q.answer with
      | some b =>
        exact absurd (earliest q List.mem_cons_self (by simp [hq])) (Nat.not_le.mpr (above p member))
      | none => exact ih member rising fun r hr => earliest r (List.mem_cons_of_mem _ hr)

/-! ## Frames as parts -/

/-- A frame of a state, part by part. -/
theorem State.keepsBut_of {s t : State} {changed : List Part} (h : ∀ p, p ∉ changed → s.agrees t p) :
    s.keepsBut t changed := fun p _ hp => h p hp

/-- R13: what a software reset leaves beside link, sound, ports, lines and the commands that wait. -/
theorem State.softwareReset_keepsBut (s : State) :
    State.reset.keepsBut s.softwareReset [.link, .sound, .ports, .lines, .pending] :=
  State.keepsBut_of fun p hp => by
    cases p
    case link => exact absurd (by decide) hp
    case sound => exact absurd (by decide) hp
    case ports => exact absurd (by decide) hp
    case lines => exact absurd (by decide) hp
    case pending => exact absurd (by decide) hp
    all_goals rfl

/-- Settles O10. -/
theorem transmissionCompletes : Obligations.TransmissionCompletes := by
  refine ⟨fun s x hx order => ?_, fun s a n ns r rs idle => ?_, fun s p a member ready rising earliest => ?_,
    fun s => s.link.readyAnswer_eq_none_iff, fun s f rest c => ⟨fun h => ?_, fun waiting room noReset => ?_,
    fun hf _ opens => ?_⟩, fun s order kind tag a sending reset => ⟨s.softwareReset, ?_, rfl, rfl, fun n => ?_, rfl,
    s.softwareReset_keepsBut⟩⟩
  · have normal : ¬ (x.order.isSome ∧ x.order = s.link.resetOrder) := by
      rintro ⟨some, reset⟩
      rcases order with none | other
      · simp [none] at some
      · exact other reset
    simp only [exec, execFrameTransmitted, hx, State.transmitted, if_neg normal]
    split
    · rename_i empty
      rw [State.takeAll_of_empty (by simpa [Link.sent] using empty), State.transmitNext_idem]
      rfl
    · rfl
  · refine ⟨fun ha => ?_, fun ha hn => ?_, fun ha hn hr => ?_, fun ha hn hr => ?_⟩
    · simp [State.transmitNext, idle, ha]
    · simp [State.transmitNext, idle, ha, hn]
    · simp [State.transmitNext, idle, ha, hn, hr]
    · simp [State.transmitNext, idle, ha, hn, hr]
  · exact findSome?_answer_of_earliest member ready rising earliest
  · by_cases empty : s.link.intake = []
    · exact State.takeAll_of_empty empty
    · refine State.takeAll_of_not_canTake ?_
      rw [← Bool.not_eq_true, Link.canTake_iff]
      rintro ⟨room, noReset⟩
      rcases h with none | full | reset
      · exact empty none
      · exact absurd room (Nat.not_lt.mpr full)
      · simp [noReset] at reset
  · exact State.takeAll_cons waiting ((Link.canTake_iff _).mpr ⟨room, noReset⟩)
  · rw [exec_eq_submitted c f hf, submitted, State.submit_of_opens opens]
    rfl
  · simp [exec, execFrameTransmitted, sending, State.transmitted, Sending.order, reset]
  · simp [State.softwareReset, State.reset, State.afterReset, Port.reset, Lines.reset]

/-! ## Power-on reset and the invariants -/

/-- Settles O2: the reset state, written out. -/
theorem powerOnResetLeavesResetState : Obligations.PowerOnResetLeavesResetState := by
  intro s straps
  have ports : (s.ports.map Port.det).map Port.reset = Vector.ofFn fun n => Port.reset s.ports[n].det := by
    ext i hi
    simp
  have lines : (s.lines.map fun l => (l.pin1, l.pin2)).map (fun p => Lines.reset p.1 p.2) =
      Vector.ofFn fun n => Lines.reset s.lines[n].pin1 s.lines[n].pin2 := by
    ext i hi
    simp
  have rows : Budget.reset.rows = Vector.ofFn fun n =>
      { valid := decide (n = 0), minMv := 0, ceiling := if n = 0 then 1500 else 0 } := by decide
  have budget : Budget.reset =
      { Budget.reset with rows := Vector.ofFn fun n =>
          { valid := decide (n = 0), minMv := 0, ceiling := if n = 0 then 1500 else 0 } } := by
    rw [← rows]
  simp only [exec, execPowerOnReset, State.powerOnReset, State.afterReset, ports, lines]
  rw [budget]
  rfl

/-- Settles O56: after reset every queue is empty, every channel in COAST, every entry EMPTY and every port EMPTY. -/
theorem resetMeetsInvariants : Obligations.ResetMeetsInvariants := by
  have orderly := State.orderly_iff State.reset |>.mp (State.afterReset_fine _ _ _ _ _ _ _ rfl)
  obtain ⟨capacities, ordered, blocked, canonical⟩ := orderly
  have motors (n : PortNo) : State.reset.motors[n] = Motor.reset := by simp [State.reset, State.afterReset]
  have ports (n : PortNo) : State.reset.ports[n] = Port.reset false := by simp [State.reset, State.afterReset]
  have conv (i : Fin 32) : State.reset.conv[i] = ConvEntry.fresh ConvConfig.reset := by
    simp [State.reset, State.afterReset]
  have unbound (n : PortNo) : State.reset.motorProfile n = none := by
    simp only [State.motorProfile, State.boundProfile, ports]
    rfl
  have load (f : Motor → Nat) : State.reset.loadOver f = 0 := by simp [State.loadOver, unbound, allPorts]
  refine ⟨capacities, ordered, fun h => absurd h (by simp [State.reset, State.afterReset]), blocked, canonical,
    fun n => ?_, ⟨?_, by decide⟩, ?_, fun n => ⟨?_, ?_⟩, fun n h => ?_, fun n h => ?_, fun i h => ?_, fun i h => ?_⟩
  · rw [motors]
    exact ⟨by decide, by decide, by decide⟩
  · rw [load]
    decide
  · rw [State.LoadWithin, load]
    decide
  · rw [ports]
    exact fun h => absurd h (by decide)
  · rw [ports]
    exact fun h => absurd h (by decide)
  · simp [unbound] at h
  · rw [motors] at h
    exact absurd h (by decide)
  · rw [conv] at h
    exact absurd h (by decide)
  · rw [conv] at h
    exact absurd h (by decide)

end Sys2Proof.Machine
end

