-- ==== Sys2Proof/Proofs/Bytes.lean ====
section
/-! PROOFS. The codes of the enumerated values (R21), the check bytes of both links (R20, R22), the bytes of upstream
frames (section 1.10.2), and the commands of the link controller. -/

namespace Sys2Proof.Machine

/-! ## Codes: the position in a list is the code written out -/

@[simp] theorem codeIn_status (x : Status) : codeIn Status.list x = x.code := by cases x <;> rfl
@[simp] theorem codeIn_linkState (x : LinkState) : codeIn LinkState.list x = x.code := by cases x <;> rfl
@[simp] theorem codeIn_resetCause (x : ResetCause) : codeIn ResetCause.list x = x.code := by cases x <;> rfl
@[simp] theorem codeIn_portState (x : PortState) : codeIn PortState.list x = x.code := by cases x <;> rfl
@[simp] theorem codeIn_faultReason (x : FaultReason) : codeIn FaultReason.list x = x.code := by cases x <;> rfl
@[simp] theorem codeIn_format (x : Format) : codeIn Format.list x = x.code := by cases x <;> rfl
@[simp] theorem codeIn_use (x : Use) : codeIn Use.list x = x.code := by cases x <;> rfl
@[simp] theorem codeIn_lineMode (x : LineMode) : codeIn LineMode.list x = x.code := by cases x <;> rfl
@[simp] theorem codeIn_safeAction (x : SafeAction) : codeIn SafeAction.list x = x.code := by cases x <;> rfl
@[simp] theorem codeIn_slotState (x : SlotState) : codeIn SlotState.list x = x.code := by cases x <;> rfl
@[simp] theorem codeIn_scanMode (x : ScanMode) : codeIn ScanMode.list x = x.code := by cases x <;> rfl
@[simp] theorem codeIn_sourceKind (x : SourceKind) : codeIn SourceKind.list x = x.code := by cases x <;> rfl
@[simp] theorem codeIn_convMode (x : ConvMode) : codeIn ConvMode.list x = x.code := by cases x <;> rfl
@[simp] theorem codeIn_window (x : Window) : codeIn Window.list x = x.code := by cases x <;> rfl
@[simp] theorem codeIn_convStatus (x : ConvStatus) : codeIn ConvStatus.list x = x.code := by cases x <;> rfl
@[simp] theorem codeIn_alarm (x : Alarm) : codeIn Alarm.list x = x.code := by cases x <;> rfl
@[simp] theorem codeIn_motorMode (x : MotorMode) : codeIn MotorMode.list x = x.code := by cases x <;> rfl
@[simp] theorem codeIn_operation (x : Operation) : codeIn Operation.list x = x.code := by cases x <;> rfl
@[simp] theorem codeIn_endAction (x : EndAction) : codeIn EndAction.list x = x.code := by cases x <;> rfl
@[simp] theorem codeIn_outcome (x : Outcome) : codeIn Outcome.list x = x.code := by cases x <;> rfl
@[simp] theorem codeIn_budgetState (x : BudgetState) : codeIn BudgetState.list x = x.code := by cases x <;> rfl
@[simp] theorem codeIn_waveform (x : Waveform) : codeIn Waveform.list x = x.code := by cases x <;> rfl
@[simp] theorem codeIn_eventKind (x : EventKind) : codeIn EventKind.list x = x.code := by cases x <;> rfl
@[simp] theorem codeIn_actionKind (x : ActionKind) : codeIn ActionKind.list x = x.code := by cases x <;> rfl
@[simp] theorem codeIn_itemKind (x : ItemKind) : codeIn ItemKind.list x = x.code := by cases x <;> rfl

/-! ## Check bytes -/

/-- R20: a byte equal to the CRC register clears it. -/
theorem crcByte_self (r : Byte) : crcByte r r = 0 := by
  rw [crcByte, BitVec.xor_self]
  decide

theorem crc8_append_self (bs : List Byte) : crc8 (bs ++ [crc8 bs]) = 0 := by
  rw [crc8, List.foldl_append]
  exact crcByte_self _

/-- R20: the manual's example. -/
theorem crc8_example : crc8 [0x02, 0x60, 0x01] = 0x24 := by
  have first : crcByte 0 0x02 = 0x0E := by decide
  have second : crcByte 0x0E 0x60 = 0x0D := by decide
  have third : crcByte 0x0D 0x01 = 0x24 := by decide
  rw [crc8, List.foldl_cons, first, List.foldl_cons, second, List.foldl_cons, third, List.foldl_nil]

theorem byteSum_append (bs : List Byte) (b : Byte) : byteSum (bs ++ [b]) = byteSum bs + b := by
  simp [byteSum]

theorem byteSum_deviceFrame (type : BitVec 3) (payload : List Byte) : byteSum (deviceFrame type payload) = 255 := by
  rw [deviceFrame, byteSum_append]
  bv_omega

/-! ## Numbers, little-endian -/

theorem extractLsb'_eq_byteOf {w : Nat} (x : BitVec w) (i : Nat) :
    x.extractLsb' i 8 = byteOf (x.toNat / 2 ^ i) := by
  apply BitVec.eq_of_toNat_eq
  simp [byteOf, Nat.shiftRight_eq_div_pow]

theorem le16_eq (h : Half) : le16 h = [byteOf h.toNat, byteOf (h.toNat / 256)] := by
  simp [le16, extractLsb'_eq_byteOf]

theorem le32_eq (w : Word) :
    le32 w = [byteOf w.toNat, byteOf (w.toNat / 256), byteOf (w.toNat / 65536), byteOf (w.toNat / 16777216)] := by
  simp [le32, extractLsb'_eq_byteOf]

theorem zeroExtend_eq_byteOf (strap : BitVec 2) : strap.zeroExtend 8 = byteOf strap.toNat := by
  apply BitVec.eq_of_toNat_eq
  simp [byteOf]

/-! ## The bytes of upstream frames -/

/-- Section 1.10.1: the frame around a payload, written out. -/
theorem frameBytes_eq (kind tag : Byte) (payload : List Byte) :
    frameBytes kind tag payload =
      0xC3 :: (byteOf (payload.length + 2) :: kind :: tag :: payload) ++
        [crc8 (byteOf (payload.length + 2) :: kind :: tag :: payload)] := rfl

theorem Answer.payload_eq (a : Answer) (kind : Byte) : a.payload kind = kind :: a.status.code :: a.result := by
  simp [Answer.payload]

/-- R165: the payload of a notice begins with its kind, the dropped flag and the stamp. -/
theorem Notice.payload_eq (n : Notice) {kind : Byte} {body : List Byte} (h : n.body.encode = (kind, body)) :
    n.payload = kind :: flagCode n.dropped :: le16 n.stamp ++ body := by
  rw [Notice.payload, h]
  rfl

/-- R161: an item is three fields. -/
theorem ReportItem.encode_eq : ReportItem.encode = fun it => it.kind.code :: it.status :: le32 it.value := by
  funext it
  simp [ReportItem.encode]

/-- R165: the body of each kind of notice, field by field. -/
theorem NoticeBody.encode_started (cause : ResetCause) (strap : BitVec 2) :
    (NoticeBody.started cause strap).encode = (0, [cause.code, byteOf strap.toNat]) := by
  simp only [NoticeBody.encode, codeIn_resetCause, zeroExtend_eq_byteOf]

theorem NoticeBody.encode_portChange (n : PortNo) (state : PortState) (fault : FaultReason)
    (profile : Option (Fin 16)) (cls variant : Byte) :
    (NoticeBody.portChange n state fault profile cls variant).encode =
      (1, [byteOf n.val, state.code, fault.code, indexOr255 profile, cls, variant]) := by
  simp only [NoticeBody.encode, codeIn_portState, codeIn_faultReason]
  rfl

theorem NoticeBody.encode_runEnd (n : PortNo) (operation : Operation) (outcome : Outcome) (position : Word) :
    (NoticeBody.runEnd n operation outcome position).encode =
      (2, byteOf n.val :: operation.code :: outcome.code :: le32 position) := by
  simp only [NoticeBody.encode, codeIn_operation, codeIn_outcome]
  rfl

theorem NoticeBody.encode_reaction (entry : Fin 24) (e : Event) :
    (NoticeBody.reaction entry e).encode =
      (3, [byteOf entry.val, e.kind.code, e.index, e.detail, byteOf e.depth] ++ le16 e.stamp ++
        [flagCode e.directed.isSome]) := by
  simp only [NoticeBody.encode, codeIn_eventKind]
  rfl

theorem NoticeBody.encode_budgetChange (now before : BudgetState) (ceiling : Nat) (row : Option (Fin 6)) (valid : Bool)
    (mv : Int) (scale : Nat) :
    (NoticeBody.budgetChange now before ceiling row valid mv scale).encode =
      (4, [now.code, before.code] ++ le16 (halfOf ceiling) ++ [indexOr255 row, flagCode valid] ++
        le32 (BitVec.ofInt 32 mv) ++ le16 (halfOf scale)) := by
  simp only [NoticeBody.encode, codeIn_budgetState]
  rfl

theorem NoticeBody.encode_eventOverflow (kind : EventKind) (index : Byte) :
    (NoticeBody.eventOverflow kind index).encode = (7, [kind.code, index]) := by
  simp only [NoticeBody.encode, codeIn_eventKind]

theorem NoticeBody.encode_depthLimit (kind : EventKind) (index : Byte) (depth : Nat) (entry : Fin 24) :
    (NoticeBody.depthLimit kind index depth entry).encode =
      (8, [kind.code, index, byteOf depth, byteOf entry.val]) := by
  simp only [NoticeBody.encode, codeIn_eventKind]

/-- A notice on the line, once its body's bytes are known. -/
theorem Sending.wire_notice (n : Notice) {shape : NoticeBody} {kind : Byte} {body : List Byte} (h : n.body = shape)
    (bytes : shape.encode = (kind, body)) :
    Sending.wire (.notice n) = frameBytes 0xA0 0 (kind :: flagCode n.dropped :: le16 n.stamp ++ body) := by
  rw [← Notice.payload_eq n (h ▸ bytes)]
  rfl

/-- Settles O6: a frame is its payload between marker and check byte, and each payload is its fields in order. -/
theorem checkBytesClose : Obligations.CheckBytesClose := by
  refine ⟨crc8_append_self, crc8_example, byteSum_deviceFrame, fun h w => ⟨le16_eq h, le32_eq w⟩, ?_, ?_,
    fun _ _ _ _ => rfl, ?_⟩
  · intro order kind tag status result
    rw [Sending.wire, Answer.payload_eq, frameBytes_eq]
  · intro entry stamp skipped items
    rw [Sending.wire, ReportRecord.payload, ReportItem.encode_eq, frameBytes_eq]
  · intro n port entry e kind b c count depth half word mv flag row profile cause strap state fault operation outcome
      now before
    exact ⟨fun h => Sending.wire_notice n h (NoticeBody.encode_started ..),
      fun h => Sending.wire_notice n h (NoticeBody.encode_portChange ..),
      fun h => Sending.wire_notice n h (NoticeBody.encode_runEnd ..),
      fun h => Sending.wire_notice n h (NoticeBody.encode_reaction ..),
      fun h => Sending.wire_notice n h (NoticeBody.encode_budgetChange ..),
      fun h => Sending.wire_notice n h rfl,
      fun h => Sending.wire_notice n h rfl,
      fun h => Sending.wire_notice n h (NoticeBody.encode_eventOverflow ..),
      fun h => Sending.wire_notice n h (NoticeBody.encode_depthLimit ..)⟩

/-! ## Commands of the link controller -/

/-- R11: the identity record, written out. -/
theorem State.identity_eq (s : State) :
    s.identity =
      [41, 62, 3, s.link.strap.zeroExtend 8, s.link.cause.code, 16] ++
       [1, 1, 0, 2, 16, 0, 3, 16, 0, 4, 32, 0, 5, 24, 0, 6, 6, 0, 7, 6, 0, 8, 12, 0, 9, 16, 0, 10, 0, 128] ++
       [16, 6, 0, 17, 6, 0, 18, 1, 0, 19, 1, 0, 20, 1, 0, 21, 16, 0] := by
  rw [State.identity, codeIn_resetCause]
  rfl

/-- Settles O7: the answered identity, or the refusal of a payload. -/
theorem stateAnswersIdentity : Obligations.StateAnswersIdentity := by
  intro s tag payload opens
  cases payload with
  | nil =>
    refine (command_replied (u := s) (status := .ok) (result := s.identity) opens rfl rfl rfl).trans ?_
    rw [if_pos rfl, s.identity_eq]
    cases s.link.cause <;> rfl
  | cons b bs => exact command_refused opens rfl

/-- R6: a kind byte beyond the downstream kinds names none of them. -/
theorem Kind.ofCode_eq_none {kind : Byte} (h : unknownCode kind = true) : Kind.ofCode kind = none := by
  have none_of_them : ∀ c ∈ Kind.list.map Kind.code, c ≠ kind := by
    rintro c hc rfl
    have : (Kind.list.map Kind.code).contains c = true := List.contains_iff_mem.mpr hc
    simp only [unknownCode] at h
    exact absurd h (by rw [show ([0x01, 0x02, 0x10, 0x20, 0x30, 0x40, 0x50, 0x60, 0x70] : List Byte) =
      Kind.list.map Kind.code from rfl, this]; decide)
  rw [Kind.ofCode, List.find?_eq_none]
  intro k hk
  simpa using none_of_them k.code (List.mem_map_of_mem hk)

/-- Settles O8: the command is dispatched to no owner. -/
theorem unknownKindsAnswered : Obligations.UnknownKindsAnswered := by
  intro s kind tag payload opens unknown
  refine command_refused (act := fun t order => t.handle kind payload order) opens ?_
  simp only [State.handle, Kind.ofCode_eq_none unknown]

/-- Settles O9: the RESET marks its order, or the refusal of a payload; a marked order closes the intake. -/
theorem resetWaitsForItsAnswer : Obligations.ResetWaitsForItsAnswer := by
  intro s tag payload opens
  constructor
  · cases payload with
    | nil => exact command_replied opens rfl rfl rfl
    | cons b bs => exact command_refused opens rfl
  · rw [← Bool.not_eq_true, Link.canTake_iff]
    simp

/-! ## Events and notices -/

/-- R150: an event of a block itself has depth 0. -/
theorem Bus.post_of_idle {b : Bus} (kind : EventKind) (index detail : Byte) (idle : b.dispatch = none) :
    b.post kind index detail = b.offer { kind := kind, index := index, detail := detail, depth := 0, stamp := b.stamp,
                                         directed := none } := by
  simp only [Bus.post, Bus.postRecord, idle]

/-- R153: an event an action causes is one deeper than its record, up to depth 4. -/
theorem Bus.post_of_dispatch {b : Bus} {d : Dispatch} (kind : EventKind) (index detail : Byte)
    (dispatching : b.dispatch = some d) :
    b.post kind index detail =
      if d.record.depth + 1 ≤ 4 then
        b.offer { kind := kind, index := index, detail := detail, depth := d.record.depth + 1, stamp := b.stamp,
                  directed := none }
      else if d.cut then b
      else Bus.notify { b with dispatch := some { d with cut := true } }
        (.depthLimit d.record.kind d.record.index d.record.depth d.entry) := by
  simp only [Bus.post, Bus.postRecord, dispatching]
  rfl

/-- Settles O12: R150, R153 and R165 are the branches of posting and of queuing. -/
theorem eventsAndNoticesAreQueued : Obligations.EventsAndNoticesAreQueued := by
  refine ⟨fun s => rfl, fun b kind index detail d body => ⟨fun idle => ?_, fun dispatching shallow => ?_,
    fun dispatching deep => ?_, rfl⟩⟩
  · exact Bus.post_of_idle kind index detail idle
  · exact (Bus.post_of_dispatch kind index detail dispatching).trans (if_pos (Nat.succ_le_succ shallow))
  · exact (Bus.post_of_dispatch kind index detail dispatching).trans (if_neg (by omega))

end Sys2Proof.Machine
end

