-- ==== Sys2Proof/Proofs/Records.lean ====
section
/-! PROOFS. The records of a TABLE WRITE: reading the bytes of a record gives its fields back, and each owner's checks
and clamps (R14, R30, R46, R62, R110, R118, R135, R148, R160), by kind of record. -/

namespace Sys2Proof.Machine

/-! ## Codes read back (R21) -/

@[simp] theorem valueIn_use (x : Use) : valueIn Use.list x.code = some x := by cases x <;> rfl
@[simp] theorem valueIn_lineMode (x : LineMode) : valueIn LineMode.list x.code = some x := by cases x <;> rfl
@[simp] theorem valueIn_safeAction (x : SafeAction) : valueIn SafeAction.list x.code = some x := by cases x <;> rfl
@[simp] theorem valueIn_sourceKind (x : SourceKind) : valueIn SourceKind.list x.code = some x := by cases x <;> rfl
@[simp] theorem valueIn_convMode (x : ConvMode) : valueIn ConvMode.list x.code = some x := by cases x <;> rfl
@[simp] theorem valueIn_window (x : Window) : valueIn Window.list x.code = some x := by cases x <;> rfl
@[simp] theorem valueIn_eventKind (x : EventKind) : valueIn EventKind.list x.code = some x := by cases x <;> rfl
@[simp] theorem valueIn_actionKind (x : ActionKind) : valueIn ActionKind.list x.code = some x := by cases x <;> rfl
@[simp] theorem valueIn_itemKind (x : ItemKind) : valueIn ItemKind.list x.code = some x := by cases x <;> rfl
@[simp] theorem valueIn_flag (b : Bool) : valueIn [false, true] (flagCode b) = some b := by cases b <;> rfl

/-- A code beyond its list stands for no value. -/
theorem valueIn_eq_none {α : Type} {list : List α} {code : Byte} (h : list.length ≤ code.toNat) :
    valueIn list code = none := List.getElem?_eq_none h

@[simp] theorem flagByte_eq (b : Bool) : flagByte b = flagCode b := rfl
@[simp] theorem flagIn_flagCode (b : Bool) : flagIn (flagCode b) = b := by cases b <;> rfl
@[simp] theorem flagClamped_flagCode (b : Bool) : flagClamped (flagCode b) = false := by cases b <;> rfl
@[simp] theorem byteOf_toNat (b : Byte) : byteOf b.toNat = b := BitVec.ofNat_toNat 8 b

theorem toNat_byteOf {n : Nat} (h : n < 256) : (byteOf n).toNat = n := by
  rw [byteOf, BitVec.toNat_ofNat, Nat.mod_eq_of_lt h]

/-- A flag byte that is 0 leaves the record invalid, and is never clamped. -/
theorem flagIn_iff (b : Byte) : flagIn b = true ↔ b ≠ 0 := by simp [flagIn]

/-! ## Clamps -/

theorem clampHalf_zero (hi : Nat) (x : Half) : clampHalf 0 hi x = halfOf (min hi x.toNat) := by
  rw [clampHalf, clampNat, Nat.zero_max]

theorem clampByte_zero (hi : Nat) (b : Byte) : clampByte 0 hi b = byteOf (min hi b.toNat) := by
  rw [clampByte, clampNat, Nat.zero_max]

/-- A byte clamped to 1–255 is itself but for 0. -/
theorem clampByte_one (b : Byte) : clampByte 1 255 b = if b = 0 then 1 else b := by
  rw [clampByte, clampNat]
  split
  · next h => subst h; rfl
  · next h => rw [show max 1 (min 255 b.toNat) = b.toNat by bv_omega, byteOf_toNat]

/-! ## SETTINGS (R14) -/

/-- The bytes of a record are read as its fields; the budget source alone can fail. -/
theorem Settings.decode_encode (r : Settings) :
    Settings.decode r.encode =
      if 32 ≤ r.budgetSource.toNat ∧ r.budgetSource ≠ 255 then none
      else some (r.clamped, decide (r.clamped ≠ r)) := by
  simp [Settings.decode, Settings.encode, le16]

theorem budgetSource_fails_iff (source : Byte) :
    (32 ≤ source.toNat ∧ source ≠ 255) ↔ (32 ≤ source.toNat ∧ source.toNat ≤ 254) := by
  rw [and_congr_right_iff]
  intro h
  constructor <;> intro <;> bv_omega

theorem Settings.clamped_eq (r : Settings) :
    r.clamped =
      { r with silenceMs := if r.silenceMs = 0 then 0 else halfOf (max 50 (min 5000 r.silenceMs.toNat)),
               budgetWindowMs := byteOf (max 5 (min 50 r.budgetWindowMs.toNat)),
               brownoutRecover := if r.brownoutRecover = 0 then 1 else r.brownoutRecover,
               speakerLoad := halfOf (min 1000 r.speakerLoad.toNat), soundFloor := byteOf (min 100 r.soundFloor.toNat),
               queueLowMark := byteOf (min 31 r.queueLowMark.toNat), scanStart := byteOf (min 15 r.scanStart.toNat),
               scanStop := byteOf (min 15 r.scanStop.toNat) } := by
  simp only [Settings.clamped, clampHalf_zero, clampByte_zero, clampByte_one]
  rfl

theorem Settings.decode_fields (silence load : Half) (window source recover floor mark start stop : Byte) :
    let r : Settings :=
      { silenceMs := silence, budgetWindowMs := window, budgetSource := source, brownoutRecover := recover,
        speakerLoad := load, soundFloor := floor, queueLowMark := mark, scanStart := start, scanStop := stop }
    Settings.decode (le16 silence ++ [window, source, recover] ++ le16 load ++ [floor, mark, start, stop]) =
      if 32 ≤ source.toNat ∧ source.toNat ≤ 254 then none else some (r.clamped, decide (r.clamped ≠ r)) := by
  intro r
  rw [← if_congr (budgetSource_fails_iff source) rfl rfl]
  exact Settings.decode_encode r

theorem Settings.decode_encode_self (r : Settings) (unclamped : r.clamped = r)
    (source : r.budgetSource.toNat < 32 ∨ r.budgetSource = 255) : Settings.decode r.encode = some (r, false) := by
  rw [Settings.decode_encode, if_neg (by rcases source with h | h <;> simp [h]), unclamped]
  simp

/-! ## PROFILES (R30) -/

/-- A record's bytes with any byte in the place of its flag and any padding. -/
def Profile.bytes (r : Profile) (valid pad : Byte) : List Byte :=
  [valid, r.cls, r.variant, r.use.code, r.lineUse.code, r.debounceMs, r.positionSource, r.safeAction.code] ++
    le16 r.cpr ++ le16 r.ratedLoad ++ [r.regPeriod, r.inposCount, r.tolerance, r.approachGain] ++ le16 r.kp ++
    le16 r.ki ++ le32 r.imax ++ le16 r.stallDuty ++ le16 r.stallSpeed ++ [r.stallWarn, r.stallStop, r.pollMs, pad]

theorem Profile.encode_eq (r : Profile) : r.encode = r.bytes (flagCode r.valid) 0 := by
  simp [Profile.encode, Profile.bytes]

/-- The bytes of a record are read as its fields. -/
theorem Profile.decode_bytes (r : Profile) (valid pad : Byte) (h : r.valid = flagIn valid) :
    Profile.decode (r.bytes valid pad) =
      if r.valid then
        if r.bad then none else some (r.clamped, flagClamped valid || decide (r.clamped ≠ r))
      else some (r, false) := by
  simp [Profile.decode, Profile.bytes, le16, le32, ← h]

theorem Profile.clamped_eq (r : Profile) :
    r.clamped =
      { r with debounceMs := byteOf (min 31 r.debounceMs.toNat), cpr := halfOf (max 1 (min 4096 r.cpr.toNat)),
               ratedLoad := halfOf (min 3000 r.ratedLoad.toNat), regPeriod := byteOf (max 4 (min 50 r.regPeriod.toNat)),
               inposCount := byteOf (max 1 (min 16 r.inposCount.toNat)),
               approachGain := byteOf (max 1 (min 16 r.approachGain.toNat)),
               kp := halfOf (min 1023 r.kp.toNat), ki := halfOf (min 1023 r.ki.toNat),
               imax := BitVec.ofNat 32 (min 4000000 r.imax.toNat),
               stallDuty := halfOf (max 100 (min 1000 r.stallDuty.toNat)),
               stallSpeed := halfOf (min 500 r.stallSpeed.toNat),
               pollMs := byteOf (max 5 (min 250 r.pollMs.toNat)) } := by
  simp only [Profile.clamped, clampHalf_zero, clampByte_zero]
  rfl

/-- R30: a valid record fails, condition by condition. -/
theorem Profile.bad_iff (r : Profile) :
    r.bad = true ↔
      r.cls = 0 ∨ (7 ≤ r.cls.toNat ∧ r.cls.toNat ≤ 15) ∨ ((1 ≤ r.cls.toNat ∧ r.cls.toNat ≤ 6) ∧ r.variant ≠ 0) ∨
      ((1 ≤ r.cls.toNat ∧ r.cls.toNat ≤ 6) ∧ r.lineUse = .device) ∨ (16 ≤ r.cls.toNat ∧ r.lineUse ≠ .device) ∨
      (6 ≤ r.positionSource.toNat ∧ r.positionSource.toNat ≤ 254) ∨
      (r.use = .motor ∧ r.positionSource = 255 ∧ r.lineUse ≠ .quadrature) ∨
      (r.use = .motor ∧ r.positionSource.toNat ≤ 5 ∧ r.lineUse ≠ .device) := by
  have zero : r.cls.toNat = 0 ↔ r.cls = 0 := by constructor <;> intro h <;> bv_omega
  have none : r.positionSource.toNat = 255 ↔ r.positionSource = 255 := by constructor <;> intro h <;> bv_omega
  simp only [Profile.bad, Bool.or_eq_true, Bool.and_eq_true, decide_eq_true_eq, bne_iff_ne, beq_iff_eq, zero, none,
    and_or_left, or_assoc, and_assoc]

/-- The owner's whole answer to a record of PROFILES. -/
theorem Profile.decode_bytes_cases (r : Profile) (valid pad : Byte) (h : r.valid = flagIn valid) :
    let passive : Prop := 1 ≤ r.cls.toNat ∧ r.cls.toNat ≤ 6
    Profile.decode (r.bytes valid pad) =
      if valid = 0 then some (r, false)
      else if r.cls = 0 ∨ (7 ≤ r.cls.toNat ∧ r.cls.toNat ≤ 15) ∨ (passive ∧ r.variant ≠ 0) ∨
          (passive ∧ r.lineUse = .device) ∨ (16 ≤ r.cls.toNat ∧ r.lineUse ≠ .device) ∨
          (6 ≤ r.positionSource.toNat ∧ r.positionSource.toNat ≤ 254) ∨
          (r.use = .motor ∧ r.positionSource = 255 ∧ r.lineUse ≠ .quadrature) ∨
          (r.use = .motor ∧ r.positionSource.toNat ≤ 5 ∧ r.lineUse ≠ .device) then none
      else some (r.clamped, decide (2 ≤ valid.toNat ∨ r.clamped ≠ r)) := by
  intro passive
  rw [Profile.decode_bytes r valid pad h, h, ← if_congr r.bad_iff rfl rfl, Bool.decide_or]
  by_cases hv : valid = 0
  · simp [hv, flagIn]
  · simp only [flagIn, bne_iff_ne, ne_eq, hv, not_false_eq_true, if_true, if_false, flagClamped]

theorem Profile.decode_encode (r : Profile) (h : r.valid = true → r.bad = false ∧ r.clamped = r) :
    Profile.decode r.encode = some (r, false) := by
  rw [Profile.encode_eq, Profile.decode_bytes r _ _ (by simp)]
  cases hv : r.valid with
  | false => simp
  | true =>
    obtain ⟨good, unclamped⟩ := h hv
    simp [good, unclamped]

theorem Profile.decode_eq_none (bs : List Byte)
    (h : 2 ≤ (u8At bs 3).toNat ∨ 5 ≤ (u8At bs 4).toNat ∨ 2 ≤ (u8At bs 7).toNat) : Profile.decode bs = none := by
  rw [Profile.decode]
  rcases h with h | h | h
  · rw [valueIn_eq_none (list := Use.list) h]
    rfl
  · rw [valueIn_eq_none (list := LineMode.list) h]
    cases valueIn Use.list (u8At bs 3) <;> rfl
  · rw [valueIn_eq_none (list := SafeAction.list) h]
    cases valueIn Use.list (u8At bs 3) <;> cases valueIn LineMode.list (u8At bs 4) <;> rfl

/-! ## SCAN LIST (R46) -/

theorem ScanSlot.decode_bytes (i : Fin 8) (average : Byte) :
    ScanSlot.decode [byteOf i.val, average] =
      some ({ input := i, average := storedAverage average.toNat },
        decide (storedAverage average.toNat ≠ average.toNat)) := by
  have hi : (byteOf i.val).toNat = i.val := toNat_byteOf (by omega)
  rw [ScanSlot.decode, dif_pos (by rw [u8At_cons_zero, hi]; exact i.isLt)]
  simp only [u8At_cons_zero, u8At_cons_succ, hi]
  rfl

theorem ScanSlot.decode_eq_none {input average : Byte} (h : 8 ≤ input.toNat) :
    ScanSlot.decode [input, average] = none := by
  exact dif_neg (Nat.not_lt.mpr h)

theorem storedAverage_eq (average : Byte) :
    storedAverage average.toNat =
      if average.toNat ≤ 1 then 1 else if average = 2 then 2 else if average.toNat ≤ 5 then 4 else 8 := by
  have two : average.toNat = 2 ↔ average = 2 := by constructor <;> intro h <;> bv_omega
  simp only [storedAverage, two]

theorem ScanSlot.decode_encode (r : ScanSlot)
    (h : r.average = 1 ∨ r.average = 2 ∨ r.average = 4 ∨ r.average = 8) :
    ScanSlot.decode r.encode = some (r, false) := by
  have stored : storedAverage r.average = r.average := by
    rcases h with h | h | h | h <;> rw [h] <;> rfl
  rw [ScanSlot.encode, ScanSlot.decode_bytes, toNat_byteOf (by omega), stored]
  simp

/-! ## CONVERSION (R62) -/

/-- The bytes of a configuration with any bytes in the places of the clamped fields, and the image behind it. -/
def ConvConfig.bytes (r : ConvConfig) (shift trips rail : Byte) (image : List Byte) : List Byte :=
  [r.sourceKind.code, r.sourceIndex, r.sourceField, r.mode.code] ++ le16 r.offset ++ le16 r.gain ++ [shift, trips] ++
    le32 r.maxChange ++ le32 r.low ++ le32 r.high ++ le16 r.hysteresis ++ [r.window.code, rail] ++ image

theorem ConvConfig.decode_bytes (r : ConvConfig) (i : Nat) {shift trips rail : Byte} (image : List Byte)
    (hs : r.filterShift = shift.toNat) (ht : r.tripCount = trips.toNat) (hr : r.railCheck = flagIn rail) :
    ConvConfig.decode i (r.bytes shift trips rail image) =
      if r.bad i then none else some (r.clamped, flagClamped rail || decide (r.clamped ≠ r)) := by
  simp [ConvConfig.decode, ConvConfig.bytes, le16, le32, ← hs, ← ht, ← hr]

/-- R62: an index beyond those of its source kind. -/
theorem SourceKind.indices_le_iff (kind : SourceKind) (i : Nat) (index : Byte) :
    kind.indices i ≤ index.toNat ↔
      (kind = .slot ∧ 16 ≤ index.toNat) ∨ (kind = .entry ∧ i ≤ index.toNat) ∨
      (kind ≠ .none ∧ kind ≠ .slot ∧ kind ≠ .entry ∧ 6 ≤ index.toNat) := by
  have : index.toNat < 256 := index.isLt
  cases kind
  case none => simp [SourceKind.indices]; omega
  all_goals simp [SourceKind.indices]

/-- R62: a record fails, condition by condition. -/
theorem ConvConfig.bad_iff (r : ConvConfig) (i : Nat) :
    r.bad i = true ↔
      (r.sourceKind = .slot ∧ 16 ≤ r.sourceIndex.toNat) ∨ (r.sourceKind = .entry ∧ i ≤ r.sourceIndex.toNat) ∨
      (r.sourceKind ≠ .none ∧ r.sourceKind ≠ .slot ∧ r.sourceKind ≠ .entry ∧ 6 ≤ r.sourceIndex.toNat) ∨
      (r.sourceKind = .deviceField ∧ 6 ≤ r.sourceField.toNat) ∨ (r.railCheck = true ∧ r.sourceKind ≠ .slot) ∨
      (r.window = .both ∧ r.high.toInt < r.low.toInt) := by
  simp only [ConvConfig.bad, Bool.or_eq_true, Bool.and_eq_true, decide_eq_true_eq, bne_iff_ne, beq_iff_eq,
    SourceKind.indices_le_iff, or_assoc]
  rfl

theorem ConvConfig.decode_eq_none (i : Nat) (bs : List Byte)
    (h : 9 ≤ (u8At bs 0).toNat ∨ 3 ≤ (u8At bs 3).toNat ∨ 4 ≤ (u8At bs 24).toNat) : ConvConfig.decode i bs = none := by
  rw [ConvConfig.decode]
  rcases h with h | h | h
  · rw [valueIn_eq_none (list := SourceKind.list) h]
    rfl
  · rw [valueIn_eq_none (list := ConvMode.list) h]
    cases valueIn SourceKind.list (u8At bs 0) <;> rfl
  · rw [valueIn_eq_none (list := Window.list) h]
    cases valueIn SourceKind.list (u8At bs 0) <;> cases valueIn ConvMode.list (u8At bs 3) <;> rfl

theorem ConvConfig.decode_bytes_cases (r : ConvConfig) (i : Nat) {shift trips rail : Byte} (image : List Byte)
    (hs : r.filterShift = shift.toNat) (ht : r.tripCount = trips.toNat) (hr : r.railCheck = flagIn rail) :
    ConvConfig.decode i (r.bytes shift trips rail image) =
      if (r.sourceKind = .slot ∧ 16 ≤ r.sourceIndex.toNat) ∨ (r.sourceKind = .entry ∧ i ≤ r.sourceIndex.toNat) ∨
          (r.sourceKind ≠ .none ∧ r.sourceKind ≠ .slot ∧ r.sourceKind ≠ .entry ∧ 6 ≤ r.sourceIndex.toNat) ∨
          (r.sourceKind = .deviceField ∧ 6 ≤ r.sourceField.toNat) ∨ (rail ≠ 0 ∧ r.sourceKind ≠ .slot) ∨
          (r.window = .both ∧ r.high.toInt < r.low.toInt) then none
      else some (r.clamped, decide (2 ≤ rail.toNat ∨ r.clamped ≠ r)) := by
  have bad := r.bad_iff i
  rw [hr, flagIn_iff] at bad
  rw [ConvConfig.decode_bytes r i image hs ht hr, if_congr bad rfl rfl, Bool.decide_or]
  rfl

theorem ConvConfig.decode_encode (r : ConvConfig) (i : Nat) (good : r.bad i = false) (unclamped : r.clamped = r) :
    ConvConfig.decode i (ConvEntry.fresh r).encode = some (r, false) := by
  have shift : r.filterShift < 256 := by
    have : min 7 r.filterShift = r.filterShift := congrArg ConvConfig.filterShift unclamped
    omega
  have trips : r.tripCount < 256 := by
    have : clampNat 1 8 r.tripCount = r.tripCount := congrArg ConvConfig.tripCount unclamped
    rw [clampNat] at this
    omega
  have bytes : (ConvEntry.fresh r).encode =
      r.bytes (byteOf r.filterShift) (byteOf r.tripCount) (flagCode r.railCheck)
        (le32 0 ++ [ConvStatus.empty.code, Alarm.normal.code] ++ le16 0 ++ le16 0) := by
    simp [ConvEntry.encode, ConvConfig.encode, ConvConfig.bytes, ConvEntry.fresh]
  rw [bytes, ConvConfig.decode_bytes r i _ (toNat_byteOf shift).symm (toNat_byteOf trips).symm (by simp), good,
    unclamped]
  simp

/-! ## REACTIONS (R148) -/

/-- A record's bytes with any byte in the place of its flag and any hit count. -/
def Reaction.bytes (r : Reaction) (enabled : Byte) (hits : Half) : List Byte :=
  [enabled, flagCode r.always, r.triggerKind.code, r.triggerIndex, r.triggerDetail, flagCode r.level,
   r.actionKind.code, r.actionTarget] ++ le32 r.arg0 ++ le32 r.arg1 ++ le16 r.arg2 ++ le16 hits

theorem Reaction.decode_bytes (r : Reaction) (enabled : Byte) (hits : Half) (h : r.enabled = flagIn enabled) :
    Reaction.decode (r.bytes enabled hits) =
      if r.bad then none else some ({ r with hitCount := 0 }, flagClamped enabled) := by
  simp [Reaction.decode, Reaction.bytes, le16, le32, ← h]
  rfl

/-- R148: the number of indices of a trigger kind, with the codes of section 9.2. -/
theorem EventKind.index_fails_iff (kind : EventKind) (index : Byte) :
    (kind.indices != 0 && index != 255 && decide (kind.indices ≤ index.toNat)) = true ↔
      index ≠ 255 ∧ (if 7 ≤ kind.code.toNat ∧ kind.code.toNat ≤ 10 then 32
        else if 1 ≤ kind.code.toNat ∧ kind.code.toNat ≤ 16 then 6 else 256) ≤ index.toNat := by
  have : index.toNat < 256 := index.isLt
  rw [Bool.and_eq_true, Bool.and_eq_true, decide_eq_true_eq]
  cases kind <;> simp [EventKind.indices, EventKind.code]
  all_goals omega

theorem Reaction.bad_iff (r : Reaction) :
    r.bad = true ↔
      (r.triggerIndex ≠ 255 ∧
        (if 7 ≤ r.triggerKind.code.toNat ∧ r.triggerKind.code.toNat ≤ 10 then 32
          else if 1 ≤ r.triggerKind.code.toNat ∧ r.triggerKind.code.toNat ≤ 16 then 6 else 256) ≤
            r.triggerIndex.toNat) ∨
      r.actionKind.targets ≤ r.actionTarget.toNat := by
  rw [Reaction.bad, Bool.or_eq_true, EventKind.index_fails_iff, decide_eq_true_eq]

theorem Reaction.decode_encode (r : Reaction) (good : r.bad = false) :
    Reaction.decode r.encode = some ({ r with hitCount := 0 }, false) := by
  have bytes : r.encode = r.bytes (flagCode r.enabled) r.hitCount := by simp [Reaction.encode, Reaction.bytes]
  rw [bytes, Reaction.decode_bytes r _ _ (by simp), good]
  simp

theorem Reaction.decode_eq_none (bs : List Byte)
    (h : 2 ≤ (u8At bs 1).toNat ∨ 25 ≤ (u8At bs 2).toNat ∨ 2 ≤ (u8At bs 5).toNat ∨ 13 ≤ (u8At bs 6).toNat) :
    Reaction.decode bs = none := by
  rw [Reaction.decode]
  rcases h with h | h | h | h
  · rw [valueIn_eq_none (list := [false, true]) h]
    rfl
  · rw [valueIn_eq_none (list := EventKind.list) h]
    cases valueIn [false, true] (u8At bs 1) <;> rfl
  · rw [valueIn_eq_none (list := [false, true]) h]
    cases valueIn [false, true] (u8At bs 1) <;> cases valueIn EventKind.list (u8At bs 2) <;> rfl
  · rw [valueIn_eq_none (list := ActionKind.list) h]
    cases valueIn [false, true] (u8At bs 1) <;> cases valueIn EventKind.list (u8At bs 2) <;>
      cases valueIn [false, true] (u8At bs 5) <;> rfl

/-! ## MARKS and BUDGET (R110, R118) -/

/-- The state of a mark is enumerated: 0 or 1. -/
theorem valueIn_onByte (on : Byte) : valueIn [false, true] on = if 2 ≤ on.toNat then none else some (on == 1) := by
  split
  · next h => exact valueIn_eq_none h
  · next h =>
    have : on = 0 ∨ on = 1 := by bv_omega
    rcases this with rfl | rfl <;> rfl

theorem Mark.decode_bytes (enabled on : Byte) (a b step : Word) :
    Mark.decode ([enabled, on] ++ le32 a ++ le32 b ++ le32 step) =
      if 2 ≤ on.toNat then none
      else some ({ enabled := enabled != 0, isOn := on == 1, markA := a, markB := b, step := step },
                 decide (2 ≤ enabled.toNat)) := by
  have value := valueIn_onByte on
  by_cases h : 2 ≤ on.toNat
  · rw [if_pos h] at value
    simp [Mark.decode, le32, value, h]
  · rw [if_neg h] at value
    simp [Mark.decode, le32, value, h, flagIn, flagClamped]
    rfl

theorem Mark.decode_encode (r : Mark) : Mark.decode r.encode = some (r, false) := by
  simp [Mark.decode, Mark.encode, le32]

theorem BudgetRow.decode_bytes (valid : Byte) (mv ceiling : Half) :
    BudgetRow.decode ([valid] ++ le16 mv ++ le16 ceiling) =
      some ({ valid := valid != 0, minMv := mv, ceiling := halfOf (min 8000 ceiling.toNat) },
            decide (2 ≤ valid.toNat ∨ 8000 < ceiling.toNat)) := by
  simp [BudgetRow.decode, le16, clampHalf_zero, flagIn, flagClamped]
  rfl

theorem BudgetRow.decode_encode (r : BudgetRow) (h : r.ceiling.toNat ≤ 8000) :
    BudgetRow.decode r.encode = some (r, false) := by
  have clamped : halfOf (min 8000 r.ceiling.toNat) = r.ceiling := by
    rw [Nat.min_eq_right h]
    exact BitVec.ofNat_toNat 16 _
  have within_range : ¬ 8000 < r.ceiling.toNat := Nat.not_lt.mpr h
  simp [BudgetRow.decode, BudgetRow.encode, le16, clampHalf_zero, clamped, within_range]

/-! ## REPORTS (R160) -/

/-- A record's bytes with any bytes in the places of the clamped fields. -/
def Report.bytes (enabled count : Byte) (period interval : Half) (delta : Word) (items : Vector Item 8) : List Byte :=
  [enabled] ++ le16 period ++ le16 interval ++ le32 delta ++ [count] ++
    items.toList.flatMap fun it => [it.kind.code, it.index]

/-- The eight items of a record, one by one. -/
theorem Vector.toList_eight {α : Type} (v : Vector α 8) :
    v.toList = [v[0], v[1], v[2], v[3], v[4], v[5], v[6], v[7]] := by
  apply List.ext_getElem
  · simp
  · intro i h _
    have : i < 8 := by simpa using h
    interval_cases i <;> simp

/-- R160: the items are read back in their places. -/
theorem Item.decode_bytes (enabled count : Byte) (period interval : Half) (delta : Word) (items : Vector Item 8) :
    (List.range 8).mapM (Item.decode (Report.bytes enabled count period interval delta items)) = some items.toList := by
  rw [show List.range 8 = [0, 1, 2, 3, 4, 5, 6, 7] from rfl]
  simp [Item.decode, Report.bytes, Vector.toList_eight, le16, le32]

/-- The record that bytes stand for (R160). -/
def Report.started (enabled count : Byte) (period interval : Half) (delta : Word) (items : Vector Item 8) : Report :=
  { enabled := enabled != 0, periodMs := clampPeriod period, minInterval := interval, changeDelta := delta,
    itemCount := clampNat 1 8 count.toNat, items := items, lastSent := Vector.replicate 8 none, pending := false,
    skipped := 0, periodTimer := if enabled != 0 then timerOf (clampPeriod period).toNat else none, minTimer := none }

theorem Report.decode_bytes (enabled count : Byte) (period interval : Half) (delta : Word) (items : Vector Item 8) :
    let r := Report.started enabled count period interval delta items
    Report.decode (Report.bytes enabled count period interval delta items) =
      if r.carried.any (fun it => decide (it.kind.indices ≤ it.index.toNat)) then none
      else some (r, flagClamped enabled || decide (r.itemCount ≠ count.toNat) || decide (r.periodMs ≠ period)) := by
  intro r
  have collected : (Vector.ofFn fun k : Fin 8 => items.toList.getD k.val { kind := .conv, index := 0 }) = items := by
    ext k hk
    simp
  obtain ⟨h0, h1, h3, h5, h9⟩ :
      u8At (Report.bytes enabled count period interval delta items) 0 = enabled ∧
      u16At (Report.bytes enabled count period interval delta items) 1 = period ∧
      u16At (Report.bytes enabled count period interval delta items) 3 = interval ∧
      u32At (Report.bytes enabled count period interval delta items) 5 = delta ∧
      u8At (Report.bytes enabled count period interval delta items) 9 = count := by
    simp [Report.bytes, le16, le32]
  rw [Report.decode, Item.decode_bytes]
  simp only [Option.bind_eq_bind, Option.bind_some, collected, h0, h1, h3, h5, h9]
  rfl

/-- R160: an index beyond those of its item kind. -/
theorem Item.fails_iff (it : Item) :
    it.kind.indices ≤ it.index.toNat ↔
      (it.kind = .conv ∧ 32 ≤ it.index.toNat) ∨ (it.kind = .raw ∧ 16 ≤ it.index.toNat) ∨
      (it.kind ≠ .conv ∧ it.kind ≠ .raw ∧ it.kind ≠ .budget ∧ it.kind ≠ .sound ∧ 6 ≤ it.index.toNat) := by
  have : it.index.toNat < 256 := it.index.isLt
  cases h : it.kind
  case budget => simp [ItemKind.indices]; omega
  case sound => simp [ItemKind.indices]; omega
  all_goals simp [ItemKind.indices]

/-- R160: the items of a record are those before its count. -/
theorem Report.mem_carried (r : Report) (it : Item) :
    it ∈ r.carried ↔ ∃ k : Fin 8, k.val < r.itemCount ∧ r.items[k] = it := by
  rw [Report.carried, List.mem_take_iff_getElem]
  constructor
  · rintro ⟨k, hk, rfl⟩
    simp only [Vector.length_toList, lt_min_iff] at hk
    exact ⟨⟨k, hk.2⟩, hk.1, by simp⟩
  · rintro ⟨k, hk, rfl⟩
    exact ⟨k.val, by simp [hk], by simp⟩

theorem Report.carried_fails_iff (r : Report) :
    (r.carried.any fun it => decide (it.kind.indices ≤ it.index.toNat)) = true ↔
      ∃ k : Fin 8, k.val < r.itemCount ∧
        ((r.items[k].kind = .conv ∧ 32 ≤ r.items[k].index.toNat) ∨
         (r.items[k].kind = .raw ∧ 16 ≤ r.items[k].index.toNat) ∨
         (r.items[k].kind ≠ .conv ∧ r.items[k].kind ≠ .raw ∧ r.items[k].kind ≠ .budget ∧ r.items[k].kind ≠ .sound ∧
          6 ≤ r.items[k].index.toNat)) := by
  simp only [List.any_eq_true, decide_eq_true_eq, Item.fails_iff, Report.mem_carried]
  constructor
  · rintro ⟨it, ⟨k, hk, rfl⟩, fails⟩
    exact ⟨k, hk, fails⟩
  · rintro ⟨k, hk, fails⟩
    exact ⟨_, ⟨k, hk, rfl⟩, fails⟩

theorem Report.decode_bytes_cases (enabled count : Byte) (period interval : Half) (delta : Word)
    (items : Vector Item 8) :
    let carried : Nat := max 1 (min 8 count.toNat)
    let ms : Half := if period = 0 then 0 else halfOf (max 10 (min 60000 period.toNat))
    Report.decode (Report.bytes enabled count period interval delta items) =
      if ∃ k : Fin 8, k.val < carried ∧
          ((items[k].kind = .conv ∧ 32 ≤ items[k].index.toNat) ∨ (items[k].kind = .raw ∧ 16 ≤ items[k].index.toNat) ∨
           (items[k].kind ≠ .conv ∧ items[k].kind ≠ .raw ∧ items[k].kind ≠ .budget ∧ items[k].kind ≠ .sound ∧
            6 ≤ items[k].index.toNat)) then none
      else some
        ({ enabled := enabled != 0, periodMs := ms, minInterval := interval, changeDelta := delta,
           itemCount := carried, items := items, lastSent := Vector.replicate 8 none, pending := false, skipped := 0,
           periodTimer := if enabled ≠ 0 ∧ ms ≠ 0 then some ms.toNat else none, minTimer := none },
         decide (2 ≤ enabled.toNat ∨ carried ≠ count.toNat ∨ ms ≠ period)) := by
  intro carried ms
  have timer : (if enabled ≠ 0 ∧ ms ≠ 0 then some ms.toNat else none) =
      if enabled != 0 then timerOf ms.toNat else none := by
    simp only [timerOf_toNat, bne_iff_ne, ite_and]
    split_ifs <;> simp_all
  rw [Report.decode_bytes, if_congr (Report.carried_fails_iff _) rfl rfl, Bool.decide_or, Bool.decide_or, timer,
    Bool.or_assoc]
  rfl

theorem clampPeriod_of_range {p : Half} (h : p = 0 ∨ (10 ≤ p.toNat ∧ p.toNat ≤ 60000)) : clampPeriod p = p := by
  rw [clampPeriod]
  split
  · next zero => exact zero.symm
  · next nonzero =>
    obtain ⟨low, high⟩ := h.resolve_left nonzero
    rw [clampHalf, clampNat, Nat.min_eq_right high, Nat.max_eq_right low]
    exact BitVec.ofNat_toNat 16 p

theorem Report.decode_encode (r : Report) (low : 1 ≤ r.itemCount) (high : r.itemCount ≤ 8)
    (period : r.periodMs = 0 ∨ (10 ≤ r.periodMs.toNat ∧ r.periodMs.toNat ≤ 60000))
    (items : ∀ it ∈ r.carried, it.index.toNat < it.kind.indices) :
    Report.decode r.encode = some
      ({ r with lastSent := Vector.replicate 8 none, pending := false, skipped := 0, minTimer := none,
                periodTimer := if r.enabled = true ∧ r.periodMs ≠ 0 then some r.periodMs.toNat else none }, false) := by
  have bytes : r.encode = Report.bytes (flagCode r.enabled) (byteOf r.itemCount) r.periodMs r.minInterval r.changeDelta
      r.items := by
    simp [Report.encode, Report.bytes]
  have count : (byteOf r.itemCount).toNat = r.itemCount := toNat_byteOf (by omega)
  have kept : clampNat 1 8 r.itemCount = r.itemCount := by rw [clampNat]; omega
  have started : Report.started (flagCode r.enabled) (byteOf r.itemCount) r.periodMs r.minInterval r.changeDelta
      r.items =
      { r with lastSent := Vector.replicate 8 none, pending := false, skipped := 0, minTimer := none,
               periodTimer := if r.enabled = true ∧ r.periodMs ≠ 0 then some r.periodMs.toNat else none } := by
    have enabled : (flagCode r.enabled != 0) = r.enabled := flagIn_flagCode r.enabled
    simp only [Report.started, enabled, count, kept, clampPeriod_of_range period, timerOf_toNat, ite_and, ite_not]
  have admitted : (Report.carried { r with
      lastSent := Vector.replicate 8 none, pending := false, skipped := 0, minTimer := none,
      periodTimer := if r.enabled = true ∧ r.periodMs ≠ 0 then some r.periodMs.toNat else none }).any
        (fun it => decide (it.kind.indices ≤ it.index.toNat)) = false := by
    rw [List.any_eq_false]
    intro it hit
    simpa using items it hit
  rw [bytes, Report.decode_bytes, started, admitted]
  simp [count]

/-- A run of readings fails when one of them does. -/
theorem mapM_eq_none {α β : Type} {f : α → Option β} {l : List α} {a : α} (mem : a ∈ l) (fails : f a = none) :
    l.mapM f = none := by
  induction l with
  | nil => exact absurd mem List.not_mem_nil
  | cons b l ih =>
    rw [List.mapM_cons]
    rcases List.mem_cons.mp mem with rfl | tail
    · rw [fails]
      rfl
    · rw [ih tail]
      cases f b <;> rfl

theorem Report.decode_eq_none (bs : List Byte) (k : Fin 8) (h : 10 ≤ (u8At bs (10 + 2 * k.val)).toNat) :
    Report.decode bs = none := by
  have fails : Item.decode bs k.val = none := by
    rw [Item.decode, valueIn_eq_none (list := ItemKind.list) h]
    rfl
  have collected := mapM_eq_none (List.mem_range.mpr k.isLt) fails
  rw [Report.decode, collected]
  rfl

/-! ## CLIPS (R135) -/

/-- A record's bytes with any byte in the place of its flag. -/
def Clip.bytes (r : Clip) (valid : Byte) : List Byte := le16 r.start ++ le16 r.length ++ le16 r.rate ++ [valid]

theorem Clip.decode_bytes (r : Clip) (valid : Byte) (h : r.valid = flagIn valid) :
    Clip.decode (r.bytes valid) =
      if valid = 0 then some (r, false)
      else if 32768 < r.start.toNat + r.clamped.length.toNat then none
      else some (r.clamped, decide (2 ≤ valid.toNat ∨ r.clamped ≠ r)) := by
  have fields : Clip.decode (r.bytes valid) =
      if r.valid then
        if r.clamped.start.toNat + r.clamped.length.toNat > 32768 then none
        else some (r.clamped, flagClamped valid || decide (r.clamped ≠ r))
      else some (r, false) := by
    simp [Clip.decode, Clip.bytes, le16, ← h]
    rfl
  rw [fields, h, flagIn, Bool.decide_or]
  by_cases hv : valid = 0
  · simp [hv]
  · simp only [bne_iff_ne, ne_eq, hv, not_false_eq_true, if_true, if_false, flagClamped]
    rfl

/-- R135: a clamped length is 1–32768. -/
theorem Clip.clamped_length (r : Clip) : r.clamped.length.toNat = max 1 (min 32768 r.length.toNat) := by
  rw [Clip.clamped, clampHalf, halfOf, BitVec.toNat_ofNat, clampNat, Config.storeBytes]
  omega

theorem Clip.decode_encode (r : Clip)
    (h : r.valid = true → r.clamped = r ∧ r.start.toNat + r.length.toNat ≤ 32768) :
    Clip.decode r.encode = some (r, false) := by
  rw [show r.encode = r.bytes (flagCode r.valid) from rfl, Clip.decode_bytes r _ (by simp)]
  cases hv : r.valid with
  | false => simp [flagCode]
  | true =>
    obtain ⟨unclamped, fits⟩ := h hv
    simp [flagCode, unclamped, Nat.not_lt.mpr fits]

/-- Settles O14: each owner's conditions over the bytes of a record, and the record encoded and written back. -/
theorem recordsSurviveEncoding : Obligations.RecordsSurviveEncoding := by
  refine ⟨?_, ?_, ?_, ?_, ?_, ?_, ?_, ?_, ?_, fun r unclamped source => r.decode_encode_self unclamped source,
    Profile.decode_encode, ScanSlot.decode_encode, fun r i => r.decode_encode i.val, Reaction.decode_encode,
    Mark.decode_encode, BudgetRow.decode_encode, Report.decode_encode, Clip.decode_encode⟩
  · intro silence load window source recover floor mark start stop r c
    rw [Settings.decode_fields, Settings.clamped_eq]
  · intro valid cls variant debounce source period inpos tolerance gain warn stop poll pad use line safe cpr load kp ki
      stallDuty stallSpeed imax r c passive
    rw [show c = r.clamped from r.clamped_eq.symm]
    exact Profile.decode_bytes_cases r valid pad rfl
  · intro input average stored
    refine ⟨ScanSlot.decode_eq_none, ?_⟩
    rintro i rfl
    rw [ScanSlot.decode_bytes, storedAverage_eq]
  · intro i kind mode window index field shift trips rail offset gain hysteresis change low high image r c
    exact ConvConfig.decode_bytes_cases r i.val image rfl rfl rfl
  · intro enabled index detail target always level kind action arg0 arg1 arg2 hits indices targets
    have decoded := Reaction.decode_bytes
      { enabled := enabled != 0, always := always, triggerKind := kind, triggerIndex := index,
        triggerDetail := detail, level := level, actionKind := action, actionTarget := target, arg0 := arg0,
        arg1 := arg1, arg2 := arg2, hitCount := 0 } enabled hits rfl
    rw [if_congr (Reaction.bad_iff _) rfl rfl] at decoded
    refine decoded.trans ?_
    cases action <;> rfl
  · intro enabled on valid a b step mv ceiling
    exact ⟨Mark.decode_bytes enabled on a b step, BudgetRow.decode_bytes valid mv ceiling⟩
  · exact Report.decode_bytes_cases
  · intro start length rate valid r c
    rw [show c = r.clamped from rfl, ← r.clamped_length]
    exact Clip.decode_bytes r valid rfl
  · intro bs i k
    exact ⟨Profile.decode_eq_none bs, ConvConfig.decode_eq_none i.val bs, Reaction.decode_eq_none bs,
      Report.decode_eq_none bs k⟩

end Sys2Proof.Machine
end

