-- ==== Sys2Proof/Proofs/TableWrites.lean ====
section
/-! PROOFS. TABLE WRITE (R8, R9): its checks in their order, and the writes that replace records and touch nothing
else. -/

namespace Sys2Proof.Machine

/-! ## The records of a write -/

/-- R8, check 5: a write that passes gives one record for each it counts. -/
theorem decodeAll_length {α : Type} {f : Nat → List Byte → Option (α × Bool)} {size count i : Nat} {data : List Byte}
    {rs : List α} {clamped : Bool} (h : decodeAll f size count i data = .ok (rs, clamped)) : rs.length = count := by
  induction count generalizing i data rs clamped with
  | zero =>
    cases h
    rfl
  | succ count ih =>
    rw [decodeAll] at h
    split at h
    · cases h
    · split at h
      · cases h
      · next tail htail =>
        cases h
        rw [List.length_cons, ih (clamped := tail.2) htail]

/-- A write of one record. -/
theorem decodeAll_one {α : Type} {f : Nat → List Byte → Option (α × Bool)} {size i : Nat} {data : List Byte} {r : α}
    {clamped : Bool} (length : data.length = size) (h : f i data = some (r, clamped)) :
    decodeAll f size 1 i data = .ok ([r], clamped) := by
  have all : data.take size = data := List.take_of_length_le length.le
  simp [decodeAll, all, h]

/-- R9: the records of a table after a write, index by index; the default is never taken. -/
theorem replaceRange_eq {α : Type} {n : Nat} (v : Vector α n) (first count : Nat) {rs : List α} (d : α)
    (length : rs.length = count) :
    replaceRange v first rs = Vector.ofFn fun i : Fin n =>
      if first ≤ i.val ∧ i.val < first + count then rs.getD (i.val - first) d else v[i] := by
  rw [replaceRange]
  congr 1
  funext i
  by_cases low : first ≤ i.val
  · by_cases high : i.val < first + count
    · have inside : i.val - first < rs.length := by omega
      rw [if_pos low, if_pos ⟨low, high⟩, List.getD_eq_getElem _ _ inside, List.getD_eq_getElem _ _ inside]
    · rw [if_pos low, if_neg fun h => high h.2, List.getD_eq_default _ _ (by omega)]
  · rw [if_neg low, if_neg fun h => low h.1]

/-- R9: one record of a table after a write. -/
theorem replaceRange_get {α : Type} {n : Nat} (v : Vector α n) (first count : Nat) {rs : List α} (d : α)
    (length : rs.length = count) (i : Fin n) :
    (replaceRange v first rs)[i] =
      if first ≤ i.val ∧ i.val < first + count then rs.getD (i.val - first) d else v[i] := by
  rw [replaceRange_eq v first count d length]
  simp

/-- R9: a write of one record. -/
theorem replaceRange_one {α : Type} {n : Nat} (v : Vector α n) (i : Fin n) (r : α) :
    replaceRange v i.val [r] = v.set i r := by
  ext k hk
  have := replaceRange_get v i.val 1 r (rs := [r]) rfl ⟨k, hk⟩
  rw [Fin.getElem_fin] at this
  rw [this, Vector.getElem_set]
  by_cases same : i.val = k
  · simp [same]
  · rw [if_neg (by dsimp only; omega), if_neg same]
    rfl

theorem named_eq {n : Nat} (first count : Nat) (i : Fin n) :
    named first count i = decide (first ≤ i.val ∧ i.val < first + count) := (Bool.decide_and _ _).symm

/-! ## From a command to its owner -/

/-- R8: the lengths and range of a write that reaches its owner. -/
structure Table.Passes (t : Table) (first : Half) (count : Byte) (data : List Byte) : Prop where
  length  : data.length = count.toNat * t.size
  nonzero : 0 < count.toNat
  range   : first.toNat + count.toNat ≤ t.records
  store   : t = .sampleStore → count.toNat ≤ 240

theorem Table.Passes.tableWrite {t : Table} {first : Half} {count : Byte} {data : List Byte}
    (h : t.Passes first count data) (s : State) :
    s.tableWrite t first.toNat count.toNat data = s.writeRecords t first.toNat count.toNat data :=
  State.tableWrite_passes h.length ((Table.badRange_eq_false_iff _ _ _).mpr ⟨h.nonzero, h.range, h.store⟩)

/-- R9: a typed write that passes its generic checks is what its owner makes of it; u is the state the owner leaves
around the reserved place. -/
theorem write_replied {s u : State} {t : Table} {tag : Byte} {first : Half} {count : Byte} {data : List Byte}
    {status : Status} {result : List Byte} (hs : s.Opens) (passes : t.Passes first count data)
    (h : (s.reserved 0x01 tag).writeRecords t first.toNat count.toNat data =
      .answered status result (u.reserved 0x01 tag))
    (places : u.link.places = s.link.places) (next : u.link.nextOrder = s.link.nextOrder) :
    writeCommand t tag first count data s = .next (u.replied 0x01 tag status result) :=
  command_replied hs ((passes.tableWrite _).trans h) places next

theorem write_refused {s : State} {t : Table} {tag : Byte} {first : Half} {count : Byte} {data : List Byte}
    {status : Status} {result : List Byte} (hs : s.Opens) (passes : t.Passes first count data)
    (h : (s.reserved 0x01 tag).writeRecords t first.toNat count.toNat data =
      .answered status result (s.reserved 0x01 tag)) :
    writeCommand t tag first count data s = .next (s.replied 0x01 tag status result) :=
  write_replied hs passes h rfl rfl

/-- R9: a typed write whose owner leaves the link alone. -/
theorem write_replied_of_link {s v : State} {t : Table} {tag : Byte} {first : Half} {count : Byte} {data : List Byte}
    {status : Status} {result : List Byte} (hs : s.Opens) (passes : t.Passes first count data)
    (h : (s.reserved 0x01 tag).writeRecords t first.toNat count.toNat data = .answered status result v)
    (link : v.link = s.link.reserve 0x01 tag) :
    writeCommand t tag first count data s = .next (State.replied { v with link := s.link } 0x01 tag status result) :=
  command_replied_of_link hs ((passes.tableWrite _).trans h) link

/-! ## MARKS, BUDGET, REPORTS, CLIPS -/

/-- R118: some row is valid. -/
theorem anyValid_iff (rows : Vector BudgetRow 6) :
    rows.toList.any BudgetRow.valid = true ↔ ∃ i : Fin 6, rows[i].valid = true := by
  rw [List.any_eq_true]
  constructor
  · rintro ⟨r, hr, valid⟩
    obtain ⟨i, hi, rfl⟩ := List.mem_iff_getElem.mp hr
    exact ⟨⟨i, by simpa using hi⟩, by simpa using valid⟩
  · rintro ⟨i, valid⟩
    exact ⟨_, List.getElem_mem (by simp : i.val < rows.toList.length), by simpa using valid⟩

/-- Settles O20: each owner replaces its records; the rows of BUDGET and the clip playing are looked at first. -/
theorem plainWritesReplaceRecords : Obligations.PlainWritesReplaceRecords := by
  intro s tag first count data clamped ms bs ps cs opens nonzero
  refine ⟨fun range length decoded => ?_, fun range length decoded => ?_, fun range length decoded => ?_,
    fun range length decoded => ?_⟩
  · refine write_replied (t := .marks) opens ⟨length, nonzero, range, nofun⟩ ?_ rfl rfl
    rw [State.writeRecords, Table.size, decoded,
      ← replaceRange_eq s.marks first.toNat count.toNat Mark.reset (decodeAll_length decoded)]
    rfl
  · intro rows
    have written : replaceRange s.budget.rows first.toNat bs = rows :=
      replaceRange_eq _ _ _ _ (decodeAll_length decoded)
    have passes : Table.budget.Passes first count data := ⟨length, nonzero, range, nofun⟩
    have owned : (s.reserved 0x01 tag).writeRecords .budget first.toNat count.toNat data =
        (s.reserved 0x01 tag).writeBudget first.toNat bs clamped := by
      rw [State.writeRecords, Table.size, decoded]
      rfl
    rw [State.writeBudget, State.budgetRows, show (s.reserved 0x01 tag).budget = s.budget from rfl, written] at owned
    by_cases valid : ∃ i : Fin 6, rows[i].valid = true
    · rw [if_pos ((anyValid_iff rows).mpr valid)] at owned
      rw [if_pos valid]
      exact write_replied opens passes owned rfl rfl
    · rw [if_neg fun h => valid ((anyValid_iff rows).mp h)] at owned
      rw [if_neg valid]
      refine write_refused opens passes (owned.trans ?_)
      rw [badEntry, halfOf, BitVec.ofNat_toNat]
      rfl
  · refine write_replied (t := .reports) opens ⟨length, nonzero, range, nofun⟩ ?_ rfl rfl
    rw [State.writeRecords, Table.size, decoded,
      ← replaceRange_eq s.reports first.toNat count.toNat Report.reset (decodeAll_length decoded)]
    rfl
  · have passes : Table.clips.Passes first count data := ⟨length, nonzero, range, nofun⟩
    have owned : (s.reserved 0x01 tag).writeRecords .clips first.toNat count.toNat data =
        (s.reserved 0x01 tag).writeClips first.toNat cs clamped := by
      rw [State.writeRecords, Table.size, decoded]
      rfl
    have hit : s.sound.clipPlaying = true ∧ named first.toNat cs.length s.sound.clipIndex = true ↔
        s.sound.clipPlaying = true ∧ within first count s.sound.clipIndex.val := by
      rw [named_eq, decide_eq_true_eq, decodeAll_length decoded]
    by_cases playing : s.sound.clipPlaying = true ∧ within first count s.sound.clipIndex.val
    · rw [if_pos playing]
      exact write_refused opens passes (owned.trans (if_pos (hit.mpr playing)))
    · rw [if_neg playing, ← replaceRange_eq s.sound.clips first.toNat count.toNat Clip.reset (decodeAll_length decoded)]
      exact write_replied opens passes (owned.trans (if_neg fun h => playing (hit.mp h))) rfl rfl

/-! ## SAMPLE STORE -/

/-- R136: a byte of the run lies in the extent of the clip playing when the two overlap. -/
theorem Sound.meets_iff (e : Sound) (offset length : Nat) (nonzero : 0 < length) :
    ((List.range length).any fun k => e.inExtent (offset + k)) = true ↔
      e.clipPlaying = true ∧ 0 < e.clipLength ∧ e.clipStart < offset + length ∧
        offset < e.clipStart + e.clipLength := by
  simp only [List.any_eq_true, List.mem_range, Sound.inExtent, Bool.and_eq_true, decide_eq_true_eq]
  constructor
  · rintro ⟨k, hk, ⟨playing, low⟩, high⟩
    exact ⟨playing, by omega, by omega, by omega⟩
  · rintro ⟨playing, nonempty, low, high⟩
    exact ⟨max offset e.clipStart - offset, by omega, ⟨playing, by omega⟩, by omega⟩

/-- R8, R9: a SAMPLE STORE write outside the clip playing. -/
theorem storeWrite_replied {s : State} (tag : Byte) {first : Half} {count : Byte} {data : List Byte} (opens : s.Opens)
    (passes : Table.sampleStore.Passes first count data) (length : data.length = count.toNat)
    (clear : ¬ (s.sound.clipPlaying = true ∧ 0 < s.sound.clipLength ∧
      s.sound.clipStart < first.toNat + count.toNat ∧ first.toNat < s.sound.clipStart + s.sound.clipLength)) :
    writeCommand .sampleStore tag first count data s = .next (State.replied
      { s with sound := { s.sound with store := Memory.writeAll s.sound.store first.toNat data } } 0x01 tag
      .ok []) := by
  refine write_replied opens passes ?_ rfl rfl
  rw [State.writeRecords, State.writeStore, if_neg]
  · rfl
  · rw [length, Sound.meets_iff _ _ _ passes.nonzero]
    exact clear

/-- The bytes of the store after a write. -/
theorem Memory.read_written {m : List Host.Cell} (wf : Memory.wf m = true) {first : Half} {count : Byte}
    {data : List Byte} (length : data.length = count.toNat) (a : Nat) :
    Memory.read (Memory.writeAll m first.toNat data) a =
      if within first count a then data.getD (a - first.toNat) 0 else Memory.read m a := by
  rw [Memory.read_writeAll data first.toNat a ((Memory.wf_iff m).mp wf).1, length]

/-- The reply of a write keeps the store written. -/
theorem storeWrite_answers {s : State} {o : Host.Outcome State Fault Refusal} (tag : Byte) {first : Half} {count : Byte}
    {data : List Byte} (wf : Memory.wf s.sound.store = true) (length : data.length = count.toNat)
    (h : o = .next (State.replied
      { s with sound := { s.sound with store := Memory.writeAll s.sound.store first.toNat data } } 0x01 tag .ok [])) :
    Answers o fun t =>
      (∀ a : Nat, Memory.read t.sound.store a =
        if within first count a then data.getD (a - first.toNat) 0 else Memory.read s.sound.store a) ∧
      t = State.replied { s with sound := { s.sound with store := t.sound.store } } 0x01 tag .ok [] := by
  refine ⟨_, h, fun a => ?_, ?_⟩
  · rw [State.replied_sound]
    exact Memory.read_written wf length a
  · rw [State.replied_sound]

/-- Settles O21: a write that meets the clip playing is refused, any other is carried out. -/
theorem storeWriteTouchesItsBytes : Obligations.StoreWriteTouchesItsBytes := by
  intro s tag offset count data opens wf nonzero few range length
  have passes : Table.sampleStore.Passes offset count data :=
    ⟨length.trans (Nat.mul_one _).symm, nonzero, range, fun _ => few⟩
  constructor
  · intro playing low high nonempty
    refine write_refused opens passes ?_
    rw [State.writeRecords, State.writeStore, if_pos]
    · rfl
    · rw [length, Sound.meets_iff _ _ _ nonzero]
      exact ⟨playing, nonempty, low, high⟩
  · intro clear
    refine storeWrite_answers tag wf length (storeWrite_replied tag opens passes length ?_)
    rintro ⟨playing, _, low, high⟩
    rcases clear with idle | before | behind
    · simp [idle] at playing
    · omega
    · omega

/-! ## SETTINGS -/

/-- R129: the allowance cut of a write, on each block. -/
theorem State.writeSettings_eq (s : State) (r : Settings) :
    let v := if s.budget.loadOld < r.speakerLoad.toNat then
      s.sound.allowance * s.budget.loadOld / r.speakerLoad.toNat else s.sound.allowance
    s.writeSettings r =
      { s with
        settings := r
        link := s.link.restartBySettings r.silenceMs.toNat
        sound := { s.sound with allowance := v }
        budget :=
          if s.budget.loadOld < r.speakerLoad.toNat then
            { s.budget with record := { s.budget.record with soundAllowance := v }, loadOld := r.speakerLoad.toNat }
          else s.budget } := by
  rw [State.writeSettings, State.allowanceCut]
  by_cases raised : s.budget.loadOld < r.speakerLoad.toNat <;> simp [raised]

theorem Link.restartBySettings_eq (l : Link) (ms : Half) :
    l.restartBySettings ms.toNat =
      { l with silence := if l.state = .active ∧ ms ≠ 0 then some ms.toNat else none } := by
  rw [Link.restartBySettings, timerOf_toNat]
  cases l.state <;> simp

/-- Settles O15: the owner takes one record. -/
theorem settingsWriteTakesEffect : Obligations.SettingsWriteTakesEffect := by
  intro s tag data r clamped opens length decoded v
  have passes : Table.settings.Passes 0 1 data := ⟨length, by decide, by decide, nofun⟩
  refine write_replied opens passes ?_ rfl rfl
  rw [State.writeRecords, Table.size, show (1 : Byte).toNat = 1 from rfl, decodeAll_one length decoded]
  dsimp only [owner, List.foldl]
  rw [State.writeSettings_eq, Link.restartBySettings_eq]
  rfl

/-! ## The checks of a TABLE WRITE -/

/-- A table id names its table only. -/
theorem Table.id_of_ofId {id : Byte} {t : Table} (h : Table.ofId id = some t) : t.id = id := by
  simpa using List.find?_some h

theorem Table.writable_iff (t : Table) : t.writable = true ↔ t.id.toNat ≤ 10 := by cases t <;> decide

/-- R8: a payload of four bytes and more, read by its fields. -/
theorem State.tableWriteCommand_eq (s : State) {payload : List Byte} {t : Table} (long : 4 ≤ payload.length)
    (id : u8At payload 0 = t.id) (writable : t.writable = true) :
    s.tableWriteCommand payload =
      s.tableWrite t (u16At payload 1).toNat (u8At payload 3).toNat (payload.drop 4) := by
  match payload, long with
  | a :: lo :: hi :: count :: data, _ =>
    rw [State.tableWriteCommand, show a = t.id from id]
    simp only [Table.ofId_id, writable, if_true]
    rfl

theorem State.tableWriteCommand_short (s : State) {payload : List Byte} (short : payload.length < 4) :
    s.tableWriteCommand payload = refuse s .badLength := by
  match payload, short with
  | [], _ => rfl
  | [_], _ => rfl
  | [_, _], _ => rfl
  | [_, _, _], _ => rfl

theorem State.tableWriteCommand_badTable (s : State) {payload : List Byte} (long : 4 ≤ payload.length)
    (h : Table.ofId (u8At payload 0) = none ∨ 16 ≤ (u8At payload 0).toNat) :
    s.tableWriteCommand payload = refuse s .badTable := by
  match payload, long with
  | id :: lo :: hi :: count :: data, _ =>
    rw [u8At_cons_zero] at h
    rw [State.tableWriteCommand]
    split
    · next t named =>
      have high := h.resolve_left (by rw [named]; exact nofun)
      rw [← Table.id_of_ofId named] at high
      exact if_neg fun writable => absurd ((Table.writable_iff t).mp writable) (by omega)
    · rfl

theorem failing_eq_some {α : Type} {x : Except Nat α} {i : Nat} (h : failing x = some i) : x = .error i := by
  cases x with
  | error j => exact congrArg Except.error (Option.some.inj h)
  | ok a => cases h

theorem failing_eq_none {α : Type} {x : Except Nat α} (h : failing x = none) : ∃ a, x = .ok a := by
  cases x with
  | error j => cases h
  | ok a => exact ⟨a, rfl⟩

/-- R8, check 5: the first record that fails is the answer. -/
theorem State.writeRecords_badEntry (s : State) {t : Table} {first count bad : Nat} {data : List Byte}
    (h : t.firstBad first count data = some bad) : s.writeRecords t first count data = badEntry s bad := by
  cases t <;> simp only [Table.firstBad, reduceCtorEq] at h
  all_goals
    rw [State.writeRecords, Table.size, failing_eq_some h]
    rfl

/-- R9: a write whose records all pass is carried out, where BUDGET keeps a valid row and no clip plays. -/
theorem State.writeRecords_taken (s : State) {t : Table} {first count : Nat} {data : List Byte}
    (writable : t.writable = true) (good : t.firstBad first count data = none) (idle : s.sound.clipPlaying = false)
    (rows : t = .budget → ∃ i : Fin 6, s.budget.rows[i].valid = true ∧ (i.val < first ∨ first + count ≤ i.val)) :
    ∃ clamped v, s.writeRecords t first count data = taken clamped v := by
  cases t <;> simp only [Table.firstBad, Table.writable, reduceCtorEq] at good writable
  case sampleStore =>
    refine ⟨_, _, if_neg ?_⟩
    simp [Sound.inExtent, idle]
  case budget =>
    obtain ⟨⟨rs, clamped⟩, decoded⟩ := failing_eq_none good
    obtain ⟨i, valid, outside⟩ := rows rfl
    have kept : ∃ i : Fin 6, (s.budgetRows first rs)[i].valid = true := by
      refine ⟨i, ?_⟩
      rw [State.budgetRows, replaceRange_get _ _ count BudgetRow.reset (decodeAll_length decoded), if_neg (by omega)]
      exact valid
    refine ⟨clamped, { s with budget := { s.budget with rows := s.budgetRows first rs } }, ?_⟩
    rw [State.writeRecords, Table.size, decoded]
    exact if_pos ((anyValid_iff _).mpr kept)
  case clips =>
    obtain ⟨⟨rs, clamped⟩, decoded⟩ := failing_eq_none good
    refine ⟨clamped, { s with sound := { s.sound with clips := replaceRange s.sound.clips first rs } }, ?_⟩
    rw [State.writeRecords, Table.size, decoded]
    exact if_neg (by simp [idle])
  all_goals
    obtain ⟨⟨rs, clamped⟩, decoded⟩ := failing_eq_none good
    exact ⟨clamped, _, by rw [State.writeRecords, Table.size, decoded]; rfl⟩

/-- R5, R6: a command taken at once whose handler answers and leaves the places alone. -/
theorem command_places {s v : State} {kind tag : Byte} {payload : List Byte} {act : State → Nat → Reply}
    {status : Status} {result : List Byte} (hs : s.Opens)
    (h : act (s.reserved kind tag) s.link.nextOrder = .answered status result v)
    (places : (v.link.places, v.link.nextOrder) =
      ((s.link.reserve kind tag).places, (s.link.reserve kind tag).nextOrder)) :
    Answers (command kind tag payload act s) fun u =>
      u.link.places = s.link.places ++ [s.answeredPlace kind tag status result] := by
  obtain ⟨placesEq, nextEq⟩ := Prod.mk.inj places
  have around : v = State.reserved
      { v with link := { v.link with places := s.link.places, nextOrder := s.link.nextOrder } } kind tag := by
    rw [State.reserved]
    dsimp only [Link.reserve] at placesEq nextEq ⊢
    rw [← placesEq, ← nextEq]
  refine ⟨_, command_replied hs (h.trans (congrArg (Reply.answered status result) around)) rfl rfl, ?_⟩
  exact State.replied_places _ kind tag status result

/-- Settles O13: the checks in their order, then the owner; a typed row is the write of its table. -/
theorem tableWriteChecks : Obligations.TableWriteChecks := by
  refine ⟨fun s tag payload t opens => ?_, ?_, ?_, ?_⟩
  · intro first count data answered
    refine ⟨fun short => command_refused opens (State.tableWriteCommand_short _ short),
      fun long bad => command_refused opens (State.tableWriteCommand_badTable _ long bad), fun long id low => ?_⟩
    have writable : t.writable = true := t.writable_iff.mpr low
    have handled : (s.reserved 0x01 tag).tableWriteCommand payload =
        (s.reserved 0x01 tag).tableWrite t first count data :=
      State.tableWriteCommand_eq _ long id writable
    refine ⟨fun wrong => command_refused opens (handled.trans (if_pos ?_)), fun right => ⟨fun range =>
      command_refused opens (handled.trans ?_), fun nonzero range bad low found => ?_,
      fun nonzero range few good idle rows => ?_⟩⟩
    · intro length
      exact wrong (by rw [← length, List.length_drop]; omega)
    · have length : data.length = count * t.size := by rw [List.length_drop]; omega
      rw [State.tableWrite, if_neg (not_not.mpr length), if_pos ((t.badRange_eq_true_iff _ _).mpr range)]
      rfl
    all_goals
      have length : data.length = count * t.size := by rw [List.length_drop]; omega
    · have few : t = .sampleStore → count ≤ 240 := by
        rintro rfl
        cases found
      have entry : le16 (halfOf bad.val) = [byteOf bad.val, 0] := by fin_cases bad <;> rfl
      refine command_replied opens (handled.trans ?_) rfl rfl
      rw [State.tableWrite_passes length ((t.badRange_eq_false_iff _ _).mpr ⟨nonzero, range, few⟩),
        State.writeRecords_badEntry _ found, badEntry, entry]
      rfl
    · obtain ⟨clamped, v, owned⟩ := (s.reserved 0x01 tag).writeRecords_taken writable good idle rows
      have passes : (s.reserved 0x01 tag).tableWrite t first count data = taken clamped v :=
        (State.tableWrite_passes length ((t.badRange_eq_false_iff _ _).mpr ⟨nonzero, range, few⟩)).trans owned
      have kept := (writes_keep_link (fun l => (l.places, l.nextOrder)) _ fun _ _ => rfl).write (s.reserved 0x01 tag) t
        first count data rfl
      rw [passes] at kept
      obtain ⟨u, answers, places⟩ := command_places (payload := payload)
        (act := fun t _ => t.tableWriteCommand payload) opens (handled.trans passes) kept
      refine ⟨u, answers, ?_⟩
      cases clamped
      · exact Or.inl places
      · exact Or.inr places
  · intro s tag enabled on n a b step opens valid
    have decoded := (Mark.decode_bytes enabled on a b step).trans (if_neg (by omega))
    have typed : exec (.tableWrite tag ([6, byteOf n.val, 0, 1, enabled, on] ++ le32 a ++ le32 b ++ le32 step)) s =
        writeCommand .marks tag (halfOf n.val) 1 ([enabled, on] ++ le32 a ++ le32 b ++ le32 step) s := by
      rw [exec_eq_submitted (.tableWrite tag _) _ rfl s, writeCommand_eq .marks rfl]
      fin_cases n <;> rfl
    have index : (halfOf n.val).toNat = n.val := by fin_cases n <;> rfl
    have passes : Table.marks.Passes (halfOf n.val) 1 ([enabled, on] ++ le32 a ++ le32 b ++ le32 step) :=
      ⟨rfl, by decide, by rw [index]; exact n.isLt, nofun⟩
    rw [typed, adjustedIf]
    refine write_replied opens passes ?_ rfl rfl
    rw [State.writeRecords, Table.size, index, show (1 : Byte).toNat = 1 from rfl,
      decodeAll_one (size := 14) rfl decoded, ← replaceRange_one]
    rfl
  · intro s tag first count data opens wf idle nonzero few range length
    have passes : Table.sampleStore.Passes first count data :=
      ⟨length.trans (Nat.mul_one _).symm, nonzero, range, fun _ => few⟩
    refine storeWrite_answers tag wf length ((exec_eq_submitted _ _ rfl s).trans ?_)
    rw [← exec_eq_submitted (.sampleStoreWrite tag first count data) _ rfl s]
    exact storeWrite_replied tag opens passes length (by simp [idle])
  · intro s tag first count data t c typed
    rw [exec_eq_submitted (.tableWrite tag _) _ rfl s]
    cases t <;> cases typed
    all_goals exact exec_eq_submitted _ _ rfl s

end Sys2Proof.Machine
end

