-- ==== Sys2Proof/Proofs/TableReads.lean ====
section
/-! PROOFS. TABLE READ (R10): its checks in their order, and the records of the tables, field by field. -/

namespace Sys2Proof.Machine

/-- R10: the checks of a read of a table. -/
theorem State.tableReadCommand_table (s : State) (t : Table) (lo hi count : Byte) :
    s.tableReadCommand [t.id, lo, hi, count] =
      if t.badRange (hi ++ lo : Half).toNat count.toNat then refuse s .badIndex
      else if 242 < count.toNat * t.size then refuse s .badLength
      else .answered .ok
        ([t.id, lo, hi, count] ++ (List.range count.toNat).flatMap fun k =>
          s.record t ((hi ++ lo : Half).toNat + k)) s := by
  rw [State.tableReadCommand]
  simp only [Table.ofId_id]
  rfl

theorem State.tableReadCommand_length (s : State) {payload : List Byte} (h : payload.length ≠ 4) :
    s.tableReadCommand payload = refuse s .badLength := by
  unfold State.tableReadCommand
  split
  · exact absurd rfl h
  · rfl

theorem State.tableReadCommand_badTable (s : State) {id lo hi count : Byte} (h : Table.ofId id = none) :
    s.tableReadCommand [id, lo, hi, count] = refuse s .badTable := by
  rw [State.tableReadCommand]
  simp only [h]

/-! ## The records -/

/-- R10: record i of a table is its owner's encoding. -/
theorem recordAt_get {α : Type} {n : Nat} (v : Vector α n) (i : Fin n) (f : α → List Byte) :
    recordAt v i.val f = f v[i] := by
  simp [recordAt]

@[simp] theorem orNone_eq {n : Nat} (x : Option (Fin n)) : orNone x = indexOr255 x := by
  cases x <;> rfl

/-- Section 2.1: the formats of a port's record, 0 beyond the declared fields. -/
theorem formats_padded (formats : List Format) :
    (formats.map Format.code ++ List.replicate 6 0).take 6 =
      (List.range 6).map fun k => match formats[k]? with | some f => f.code | none => 0 := by
  apply List.ext_getElem?
  intro k
  by_cases hk : k < 6
  · simp only [List.getElem?_take, List.getElem?_map, List.getElem?_range hk, hk, if_true, Option.map_some]
    cases h : formats[k]? with
    | none =>
      have beyond : formats.length ≤ k := by simpa using h
      rw [List.getElem?_append_right (by simpa using beyond), List.getElem?_replicate, List.length_map,
        if_pos (by omega)]
    | some f =>
      have before : k < formats.length := by
        rw [List.getElem?_eq_some_iff] at h
        exact h.1
      rw [List.getElem?_append_left (by simpa using before)]
      simp [h]
  · rw [List.getElem?_eq_none (by simp; omega), List.getElem?_eq_none (by simp; omega)]

/-- Section 2.1: the fields of a port's record. -/
theorem fields_flatMap (fields : Vector Word 6) :
    fields.toList.flatMap le32 = (List.finRange 6).flatMap fun k => le32 fields[k] := by
  have : fields.toList = (List.finRange 6).map fun k => fields[k] := by
    apply List.ext_getElem <;> simp
  rw [this, List.flatMap_map]

theorem Port.encode_eq (p : Port) (service : Bool) :
    p.encode service =
      [p.state.code, p.fault.code, indexOr255 p.profile, p.cls, p.variant, byteOf p.formats.length] ++
      ((List.range 6).map fun k => match p.formats[k]? with | some f => f.code | none => 0) ++
      [p.minPoll, byteOf p.missed, flagCode service, flagCode p.forward] ++
      ((List.finRange 6).flatMap fun k => le32 p.fields[k]) := by
  have codes : codeIn Format.list = Format.code := funext codeIn_format
  rw [← formats_padded, ← fields_flatMap, Port.encode, codes]
  simp only [codeIn_portState, codeIn_faultReason, orNone_eq, flagByte_eq, Port.fieldCount]

theorem Motor.encode_eq (m : Motor) :
    m.encode =
      [m.mode.code, m.operation.code, flagCode m.notify, m.endAction.code, m.outcome.code] ++ le32 m.position ++
      le32 m.prevPosition ++ le16 (BitVec.ofInt 16 m.speed) ++ le16 (BitVec.ofInt 16 m.targetSpeed) ++
      le32 m.targetPosition ++ le16 (halfOf m.vmax) ++ le16 m.runEnd ++ [byteOf m.followEntry.val] ++
      le16 m.followGain ++ le32 (BitVec.ofInt 32 m.integral) ++ le16 (BitVec.ofInt 16 m.dutyRequest) ++
      le16 (BitVec.ofInt 16 m.dutyGrant) ++ le16 (halfOf m.allowance) ++
      [byteOf m.stallCount, flagCode m.stallEpisode, byteOf m.inposCount] := by
  simp only [Motor.encode, codeIn_motorMode, codeIn_operation, codeIn_endAction, codeIn_outcome, flagByte_eq]

theorem BudgetRecord.encode_eq (b : BudgetRecord) :
    b.encode =
      [b.state.code] ++ le16 (halfOf b.ceiling) ++ [indexOr255 b.row, flagCode b.batteryValid] ++
      le32 (BitVec.ofInt 32 b.batteryMv) ++ le16 (halfOf b.motorDemand) ++ le16 (halfOf b.soundDemand) ++
      [byteOf b.soundVolume] ++ le16 (halfOf b.share) ++ le16 (halfOf b.scale) ++
      [byteOf b.soundGrant, byteOf b.soundAllowance, byteOf b.recovery] ++ le16 b.windowCount := by
  simp only [BudgetRecord.encode, codeIn_budgetState, flagByte_eq, orNone_eq]
  rfl

theorem Sound.encode_eq (v : Sound) :
    v.encode =
      [flagCode v.tonePlaying] ++ le16 (halfOf v.note.pitch) ++ [v.note.waveform.code, byteOf v.note.level] ++
      le16 (halfOf (if v.tonePlaying then (16 * v.note.duration - v.noteSamples) / 16 else 0)) ++
      [byteOf v.queue.length, flagCode v.clipPlaying, byteOf v.clipIndex.val] ++ le16 (halfOf (v.clipPos / 65536)) ++
      [byteOf v.playsLeft, byteOf v.clipLevel, byteOf v.master, byteOf v.granted, byteOf v.allowance,
       byteOf (min v.master v.allowance)] := by
  simp only [Sound.encode, codeIn_waveform, flagByte_eq]
  rfl

theorem State.linkRecord_eq (s : State) :
    s.linkRecord =
      [s.link.state.code, byteOf s.link.strap.toNat, s.link.cause.code, byteOf s.link.intake.length,
       byteOf s.link.places.length, byteOf (s.link.places.countP fun r => r.answer.isNone)] ++
      le16 s.link.framesGood ++ le16 s.link.lengthErrors ++ le16 s.link.checkErrors ++ le16 s.link.gapErrors ++
      le16 s.link.byteErrors ++ le16 s.link.intakeDrops ++ le16 s.link.silenceCount ++ le16 s.bus.noticesDropped ++
      le16 s.failures ++ le16 s.blocked ++ le16 s.bus.stamp := by
  simp only [State.linkRecord, codeIn_linkState, codeIn_resetCause, zeroExtend_eq_byteOf]
  rfl

theorem RawImage.encode_eq (g : RawImage) (mode : ScanMode) :
    g.encode mode =
      le16 g.raw ++ [byteOf g.conversions] ++ le16 g.sequence ++ le16 g.stamp ++
      [byteOf g.input.val, g.slotState.code, mode.code] := by
  simp only [RawImage.encode, codeIn_slotState, codeIn_scanMode]

/-- Section 4.1: a configuration takes 26 bytes. -/
theorem ConvConfig.length_encode (r : ConvConfig) : r.encode.length = 26 := rfl

/-- Section 4.1: the image behind the configuration. -/
theorem ConvEntry.encode_eq (e : ConvEntry) :
    e.encode = e.cfg.encode ++
      (le32 e.value ++ [e.status.code, e.alarm.code] ++ le16 e.updateCount ++ le16 e.stamp) := by
  simp [ConvEntry.encode]

/-- Settles O22: the checks of a read, then the records by table. -/
theorem tableReadReturnsRecords : Obligations.TableReadReturnsRecords := by
  constructor
  · intro s tag lo hi count id payload t opens first
    refine ⟨fun wrong => command_refused opens (State.tableReadCommand_length _ wrong),
      fun unknown => command_refused opens (State.tableReadCommand_badTable _ unknown),
      fun range => command_refused opens ?_, fun nonzero range few => ?_⟩
    · rw [State.tableReadCommand_table]
      exact if_pos ((t.badRange_eq_true_iff _ _).mpr (by simpa [← BitVec.toNat_inj] using range))
    · have good := (t.badRange_eq_false_iff first count.toNat).mpr ⟨nonzero, range, few⟩
      have good : ¬ t.badRange first count.toNat = true := by rw [good]; exact Bool.false_ne_true
      refine ⟨fun long => command_refused opens ?_, fun fits => command_replied (u := s) opens ?_ rfl rfl⟩
      · rw [State.tableReadCommand_table, if_neg good, if_pos long]
      · rw [State.tableReadCommand_table, if_neg good, if_neg (Nat.not_lt.mpr fits)]
        rfl
  · intro s n i e x q a p m b v g
    have served : (s.service.map Fin.val == some n.val) = decide (s.service = some n) := by
      cases h : s.service with
      | none => rfl
      | some k =>
        rw [Bool.eq_iff_iff]
        simp [Fin.ext_iff]
    refine ⟨?_, ?_, b.encode_eq, v.encode_eq, s.linkRecord_eq, ?_, recordAt_get .., ?_, ?_, recordAt_get .., ?_, rfl,
      recordAt_get .., recordAt_get .., recordAt_get .., recordAt_get .., recordAt_get .., recordAt_get .., rfl⟩
    · exact (recordAt_get s.ports n _).trans ((congrArg p.encode served).trans (p.encode_eq _))
    · exact (recordAt_get s.motors n _).trans m.encode_eq
    · exact (recordAt_get s.scan.images i _).trans (g.encode_eq s.scan.mode)
    · rw [ConvEntry.encode_eq, ← s.conv[e].cfg.length_encode, List.drop_left]
    · rw [ConvEntry.encode_eq, ConvEntry.encode_eq, ← s.conv[e].cfg.length_encode, List.take_left]
      exact (List.take_left (l₁ := s.conv[e].cfg.encode)).symm
    · rfl

end Sys2Proof.Machine
end

