-- ==== Sys2Proof/Proofs/ReactionsWrite.lean ====
section
/-! PROOFS. A REACTIONS write (R149): the holding condition of an entry by its trigger kind (R154), and the level record
a written entry offers. -/

namespace Sys2Proof.Machine

/-! ## The lowest index at which a condition holds -/

/-- R154: an entry's index names k. -/
def naming (index : Byte) (k : Nat) : Prop := index = 255 ∨ index.toNat = k

theorem naming_iff (index : Byte) (k : Nat) : (index == 255 || index.toNat == k) = true ↔ naming index k := by
  simp [naming]

/-- The lowest named index of a condition over m units. -/
theorem lowestHolding_eq_some {m : Nat} {index : Byte} {holds : Nat → Bool} {fires : Fin m → Bool} {i : Fin m}
    (same : ∀ k : Fin m, holds k.val = fires k) (named : naming index i.val) (fire : fires i = true)
    (least : ∀ k : Fin m, k < i → naming index k.val → fires k ≠ true) :
    lowestHolding m index holds = some i.val := by
  rw [lowestHolding, List.find?_range_eq_some]
  refine ⟨?_, List.mem_range.mpr i.isLt, fun j hj => ?_⟩
  · rw [Bool.and_eq_true, naming_iff, same]
    exact ⟨named, fire⟩
  · have quiet := least ⟨j, by omega⟩ hj
    rw [← same] at quiet
    rw [Bool.not_eq_true', ← Bool.not_eq_true, Bool.and_eq_true, naming_iff]
    exact fun h => quiet h.1 h.2

theorem lowestHolding_eq_none {m : Nat} {index : Byte} {holds : Nat → Bool} {fires : Fin m → Bool}
    (same : ∀ k : Fin m, holds k.val = fires k) (quiet : ∀ k : Fin m, naming index k.val → fires k ≠ true) :
    lowestHolding m index holds = none := by
  rw [lowestHolding, List.find?_range_eq_none]
  intro j hj
  have none_at := quiet ⟨j, hj⟩
  rw [← same] at none_at
  rw [Bool.not_eq_true', ← Bool.not_eq_true, Bool.and_eq_true, naming_iff]
  exact fun h => none_at h.1 h.2

theorem atPort_val (f : PortNo → Bool) (n : PortNo) : atPort f n.val = f n := by simp [atPort]

/-! ## The holding condition, by trigger kind -/

/-- R154: the condition of a kind that names ports, units or channels, at one of them. -/
def State.firesAt (s : State) (r : Reaction) (n : PortNo) : Bool :=
  match r.triggerKind with
  | .markOn => s.marks[n].isOn
  | .markOff => !s.marks[n].isOn
  | .lineRise => (namedLines r.triggerDetail).any fun line => s.lines[n].shown line == true
  | .lineFall => (namedLines r.triggerDetail).any fun line => s.lines[n].shown line == false
  | .portBound => s.ports[n].state == .bound && (r.triggerDetail == 255 || orNone s.ports[n].profile == r.triggerDetail)
  | .none | .markA | .markB | .runEnd | .stallWarn | .alarmHigh | .alarmLow | .alarmClear | .railFault | .portAttach
  | .portDetach | .portFault | .budgetLimit | .budgetNormal | .brownout | .queueLow | .toneIdle | .clipEnd | .scanDone
  | .linkSilent => false

/-- R154: the detail of the level record of such a kind. -/
def State.detailAt (s : State) (r : Reaction) (n : PortNo) : Byte :=
  match r.triggerKind with
  | .lineRise => (((namedLines r.triggerDetail).find? fun line => s.lines[n].shown line == true).map lineCode).getD 0
  | .lineFall => (((namedLines r.triggerDetail).find? fun line => s.lines[n].shown line == false).map lineCode).getD 0
  | .portBound => orNone s.ports[n].profile
  | .none | .markA | .markB | .markOn | .markOff | .runEnd | .stallWarn | .alarmHigh | .alarmLow | .alarmClear
  | .railFault | .portAttach | .portDetach | .portFault | .budgetLimit | .budgetNormal | .brownout | .queueLow
  | .toneIdle
  | .clipEnd | .scanDone | .linkSilent => 0

/-- R154: the condition of an alarm kind at an entry. -/
def State.firesEntry (s : State) (r : Reaction) (e : Fin 32) : Bool :=
  (r.triggerKind == .alarmHigh && s.conv[e].alarm == .high) || (r.triggerKind == .alarmLow && s.conv[e].alarm == .low)

theorem fin_ofNat_val (n : PortNo) : Fin.ofNat 6 n.val = n := Fin.ext (Nat.mod_eq_of_lt n.isLt)

/-- R154: the level record of a port, line or mark trigger is at the lowest named index that fires. -/
theorem State.holding_of_firesAt {s : State} {r : Reaction} {n : PortNo} (fire : s.firesAt r n = true)
    (named : naming r.triggerIndex n.val)
    (least : ∀ k : PortNo, k < n → naming r.triggerIndex k.val → s.firesAt r k ≠ true) :
    s.holding r = some (byteOf n.val, s.detailAt r n) := by
  cases kind : r.triggerKind <;> simp only [State.firesAt, kind, Bool.false_eq_true] at fire least
  all_goals
    simp only [State.holding, State.lineHolding, State.detailAt, kind]
    simp only [lowestHolding_eq_some (atPort_val _) named fire least, Option.map_some, fin_ofNat_val]

/-- R154: the level record of an alarm trigger. -/
theorem State.holding_of_firesEntry {s : State} {r : Reaction} {e : Fin 32} (fire : s.firesEntry r e = true)
    (named : naming r.triggerIndex e.val)
    (least : ∀ k : Fin 32, k < e → naming r.triggerIndex k.val → s.firesEntry r k ≠ true) :
    s.holding r = some (byteOf e.val, 0) := by
  have same (a : Alarm) (k : Fin 32) :
      (if h : k.val < 32 then s.conv[(⟨k.val, h⟩ : Fin 32)].alarm == a else false) = (s.conv[k].alarm == a) := by simp
  cases kind : r.triggerKind <;> simp [State.firesEntry, kind] at fire
  case alarmHigh =>
    simp only [State.holding, kind]
    rw [lowestHolding_eq_some (same .high) named (by simp [fire]) (by simpa [State.firesEntry, kind] using least)]
    rfl
  case alarmLow =>
    simp only [State.holding, kind]
    rw [lowestHolding_eq_some (same .low) named (by simp [fire]) (by simpa [State.firesEntry, kind] using least)]
    rfl

/-- R154: no index of the trigger fires and no state holds. -/
theorem State.holding_eq_none {s : State} {r : Reaction}
    (ports : ∀ k : PortNo, naming r.triggerIndex k.val → s.firesAt r k ≠ true)
    (entries : ∀ k : Fin 32, naming r.triggerIndex k.val → s.firesEntry r k ≠ true)
    (brown : r.triggerKind = .brownout → s.budget.record.state ≠ .brownout)
    (silent : r.triggerKind = .linkSilent → s.link.state ≠ .silent) : s.holding r = none := by
  have same (a : Alarm) (k : Fin 32) :
      (if h : k.val < 32 then s.conv[(⟨k.val, h⟩ : Fin 32)].alarm == a else false) = (s.conv[k].alarm == a) := by simp
  cases kind : r.triggerKind <;> simp only [State.holding, State.lineHolding, kind]
  case brownout => exact if_neg (brown kind)
  case linkSilent => exact if_neg (silent kind)
  case alarmHigh =>
    rw [lowestHolding_eq_none (same .high) (by simpa [State.firesEntry, kind] using entries)]
    rfl
  case alarmLow =>
    rw [lowestHolding_eq_none (same .low) (by simpa [State.firesEntry, kind] using entries)]
    rfl
  all_goals
    simp only [State.firesAt, kind] at ports
    rw [lowestHolding_eq_none (atPort_val _) ports]
    rfl

/-! ## The written entries -/

/-- R154: an entry that is not enabled at LEVEL offers nothing. -/
theorem State.becomesEnabled_quiet {s : State} {i : Fin 24}
    (quiet : ¬ (s.reactions[i].enabled = true ∧ s.reactions[i].level = true)) : s.becomesEnabled i = s := if_neg quiet

theorem State.becomesEnabled_holding {s : State} {i : Fin 24} {r : Reaction} (entry : s.reactions[i] = r)
    (enabled : r.enabled = true) (level : r.level = true) :
    s.becomesEnabled i =
      match s.holding r with
      | some h => { s with bus := s.bus.postRecord r.triggerKind h.1 h.2 (some i) }
      | none => s := by
  subst entry
  exact if_pos ⟨enabled, level⟩

/-- A pass that changes nothing at any of its stops. -/
theorem foldl_eq_self {α β : Type} {f : α → β → α} {a : α} {l : List β} (h : ∀ b ∈ l, f a b = a) : l.foldl f a = a := by
  induction l with
  | nil => rfl
  | cons b l ih =>
    rw [List.foldl_cons, h b List.mem_cons_self]
    exact ih fun c hc => h c (List.mem_cons_of_mem b hc)

theorem mem_namedList {n first count : Nat} {i : Fin n} :
    i ∈ namedList n first count ↔ first ≤ i.val ∧ i.val < first + count := by
  simp [namedList, named]

/-- R149: with no written entry enabled at LEVEL the records are replaced and nothing else happens. -/
theorem State.writeReactions_quiet {s : State} {first : Nat} {rs : List Reaction}
    (quiet : rs.all (fun r => !(r.enabled && r.level)) = true) :
    s.writeReactions first rs = { s with reactions := replaceRange s.reactions first rs } := by
  refine foldl_eq_self fun i hi => State.becomesEnabled_quiet ?_
  obtain ⟨low, high⟩ := mem_namedList.mp hi
  have inside : i.val - first < rs.length := by omega
  have written : (replaceRange s.reactions first rs)[i] = rs[i.val - first] := by
    rw [replaceRange_get _ _ rs.length Reaction.reset rfl, if_pos ⟨low, high⟩, List.getD_eq_getElem _ _ inside]
  have := List.all_eq_true.mp quiet _ (List.getElem_mem inside)
  rw [written, ← Bool.and_eq_true, Bool.not_eq_true, ← Bool.not_eq_true']
  exact this

theorem namedList_one : ∀ i : Fin 24, namedList 24 i.val 1 = [i] := by decide

/-- The events a written entry offers: its level record, if its condition holds. -/
def State.levelRecord (s : State) (i : Fin 24) (r : Reaction) : List Event :=
  match s.holding r with
  | some h => [{ kind := r.triggerKind, index := h.1, detail := h.2, depth := 0, stamp := s.bus.stamp,
                 directed := some i }]
  | none => []

/-- R149, R154: one written entry enabled at LEVEL. -/
theorem State.writeReactions_one {s : State} {i : Fin 24} {r : Reaction} (enabled : r.enabled = true)
    (level : r.level = true) (idle : s.bus.dispatch = none) (room : s.bus.events.length < 16) :
    s.writeReactions i.val [r] =
      { s with reactions := s.reactions.set i r
               bus := { s.bus with events := s.bus.events ++ s.levelRecord i r } } := by
  rw [State.writeReactions, List.length_singleton, namedList_one, List.foldl_cons, List.foldl_nil, replaceRange_one,
    State.becomesEnabled_holding (r := r) (by simp) enabled level, State.levelRecord,
    show State.holding { s with reactions := s.reactions.set i r } r = s.holding r from rfl]
  cases s.holding r with
  | none => simp
  | some h =>
    have posted : s.bus.postRecord r.triggerKind h.1 h.2 (some i) =
        { s.bus with events := s.bus.events ++ [{ kind := r.triggerKind, index := h.1, detail := h.2, depth := 0,
                                                  stamp := s.bus.stamp, directed := some i }] } := by
      unfold Bus.postRecord
      split
      · exact if_pos room
      · next d dispatching => exact absurd (idle.symm.trans dispatching) nofun
    exact congrArg (fun b => ({ s with reactions := s.reactions.set i r, bus := b } : State)) posted

/-- R149: the write of one entry enabled at LEVEL, as a command. -/
theorem reactionsWrite_one {s : State} (tag : Byte) {i : Fin 24} {data : List Byte} {r : Reaction} {clamped : Bool}
    (opens : s.Opens) (length : data.length = 20) (decoded : Reaction.decode data = some (r, clamped))
    (enabled : r.enabled = true) (level : r.level = true) (idle : s.bus.dispatch = none)
    (room : s.bus.events.length < 16) :
    exec (.reactionsWrite tag (halfOf i.val) 1 data) s = .next (State.replied
      { s with reactions := s.reactions.set i r
               bus := { s.bus with events := s.bus.events ++ s.levelRecord i r } } 0x01 tag
      (adjustedIf clamped) []) := by
  have index : (halfOf i.val).toNat = i.val := by
    rw [halfOf, BitVec.toNat_ofNat]
    omega
  have passes : Table.reactions.Passes (halfOf i.val) 1 data :=
    ⟨length, by decide, by rw [index]; exact i.isLt, nofun⟩
  refine write_replied opens passes ?_ rfl rfl
  rw [State.writeRecords, Table.size, index, show (1 : Byte).toNat = 1 from rfl, decodeAll_one length decoded]
  exact congrArg (taken clamped) (State.writeReactions_one enabled level idle room)

/-! ## The conditions as the manual words them -/

theorem namedLines_any (detail : Byte) (p : Line → Bool) :
    (namedLines detail).any p = true ↔
      ((detail = 255 ∨ detail = 0) ∧ p .l1 = true) ∨ ((detail = 255 ∨ detail = 1) ∧ p .l2 = true) := by
  unfold namedLines
  split_ifs with all first second
  · simp [all]
  · simp [first]
  · simp [second]
  · simp only [all, first, second, List.any_nil, Bool.false_eq_true, or_self, false_and]

/-- R154: the lower line that holds gives the detail. -/
theorem namedLines_first (detail : Byte) (p : Line → Bool) (lower : (detail = 255 ∨ detail = 0) ∧ p .l1 = true) :
    (((namedLines detail).find? p).map lineCode).getD 0 = 0 := by
  obtain ⟨h | h, holds⟩ := lower <;> subst h <;> simp [namedLines, holds, lineCode]

theorem namedLines_second (detail : Byte) (p : Line → Bool)
    (upper : (namedLines detail).any p = true) (lower : ¬ ((detail = 255 ∨ detail = 0) ∧ p .l1 = true)) :
    (((namedLines detail).find? p).map lineCode).getD 0 = 1 := by
  rw [namedLines_any] at upper
  obtain ⟨h | h, holds⟩ := upper.resolve_left lower
  · subst h
    have low : p .l1 = false := by simpa using lower
    simp [namedLines, low, holds, lineCode]
  · subst h
    simp [namedLines, holds, lineCode]

/-- R154: the trigger's detail names this line, whose shown level is the one sought. -/
def State.lineFires (s : State) (r : Reaction) (k : PortNo) (line : Line) (high : Bool) : Prop :=
  (r.triggerDetail = 255 ∨ r.triggerDetail = lineCode line) ∧ s.lines[k].shown line = high

/-- R154: the condition of a kind that names ports, units or channels, kind by kind. -/
theorem State.firesAt_iff (s : State) (r : Reaction) (k : PortNo) :
    s.firesAt r k = true ↔
      (r.triggerKind = .markOn ∧ s.marks[k].isOn = true) ∨ (r.triggerKind = .markOff ∧ s.marks[k].isOn = false) ∨
      (r.triggerKind = .lineRise ∧ (s.lineFires r k .l1 true ∨ s.lineFires r k .l2 true)) ∨
      (r.triggerKind = .lineFall ∧ (s.lineFires r k .l1 false ∨ s.lineFires r k .l2 false)) ∨
      (r.triggerKind = .portBound ∧ s.ports[k].state = .bound ∧
        (r.triggerDetail = 255 ∨ indexOr255 s.ports[k].profile = r.triggerDetail)) := by
  cases kind : r.triggerKind
  case lineRise =>
    simp only [State.firesAt, kind, namedLines_any]
    simp [State.lineFires, lineCode]
  case lineFall =>
    simp only [State.firesAt, kind, namedLines_any]
    simp [State.lineFires, lineCode]
  all_goals simp [State.firesAt, kind]

/-- R154: the detail of a line trigger is that of the lower line that holds. -/
theorem State.detailAt_line {s : State} {r : Reaction} {k : PortNo} {high : Bool}
    (kind : r.triggerKind = if high then .lineRise else .lineFall) (fire : s.firesAt r k = true) :
    (s.lineFires r k .l1 high → s.detailAt r k = 0) ∧ (¬ s.lineFires r k .l1 high → s.detailAt r k = 1) := by
  have lower : s.lineFires r k .l1 high ↔
      (r.triggerDetail = 255 ∨ r.triggerDetail = 0) ∧ (s.lines[k].shown .l1 == high) = true := by
    simp [State.lineFires, lineCode]
  have first := namedLines_first r.triggerDetail fun line => s.lines[k].shown line == high
  have second := namedLines_second r.triggerDetail fun line => s.lines[k].shown line == high
  rw [lower]
  cases high <;>
  · simp only [if_true, if_false, Bool.false_eq_true] at kind
    simp only [State.firesAt, State.detailAt, kind] at fire ⊢
    exact ⟨first, second fire⟩

/-- Settles O19: quiet records are replaced; one entry enabled at LEVEL offers the record of its holding condition. -/
theorem reactionsWriteReplacesEntries : Obligations.ReactionsWriteReplacesEntries := by
  constructor
  · intro s tag first count data rs clamped opens nonzero range length decoded quiet
    refine write_replied (t := .reactions) opens ⟨length, nonzero, range, nofun⟩ ?_ rfl rfl
    rw [State.writeRecords, Table.size, decoded,
      ← replaceRange_eq s.reactions first.toNat count.toNat Reaction.reset (decodeAll_length decoded)]
    exact congrArg (taken clamped) (State.writeReactions_quiet quiet)
  · intro s tag i data r clamped n e opens length decoded enabled isLevel idle room writes offers names level on1 on2
      atPort atEntry atState
    have written := reactionsWrite_one tag (i := i) opens length decoded enabled isLevel idle room
    have offered {index detail : Byte} (h : s.holding r = some (index, detail)) : offers index detail := by
      refine ⟨h, written.trans ?_⟩
      rw [State.levelRecord, h]
    have ports (k : PortNo) : s.firesAt r k = true ↔ atPort k := s.firesAt_iff r k
    have entries (k : Fin 32) : s.firesEntry r k = true ↔ atEntry k := by
      simp [State.firesEntry, atEntry]
    refine ⟨fun fire named least => ?_, fun fire named least => ?_, fun holds => ?_, fun noPort noEntry noState => ?_⟩
    · have fires := (ports n).mpr fire
      have found := State.holding_of_firesAt fires named
        fun k hk hn => fun hf => least k hk hn ((ports k).mp hf)
      have offers_detail {detail : Byte} (h : s.detailAt r n = detail) : offers (byteOf n.val) detail :=
        offered (h ▸ found)
      refine ⟨fun kind => offers_detail ?_, fun kind low => ?_, fun kind high => ?_, fun kind low => ?_,
        fun kind high => ?_, fun kind => offers_detail ?_⟩
      · rcases kind with kind | kind <;> simp only [State.detailAt, kind]
      · exact offers_detail ((State.detailAt_line (high := true) kind fires).1 low)
      · exact offers_detail ((State.detailAt_line (high := true) kind fires).2 high)
      · exact offers_detail ((State.detailAt_line (high := false) kind fires).1 low)
      · exact offers_detail ((State.detailAt_line (high := false) kind fires).2 high)
      · simp only [State.detailAt, kind, orNone_eq]
    · exact offered (State.holding_of_firesEntry ((entries e).mpr fire) named
        fun k hk hn => fun hf => least k hk hn ((entries k).mp hf))
    · rcases holds with ⟨kind, brown⟩ | ⟨kind, silent⟩
      · exact offered (by simp only [State.holding, kind]; exact if_pos brown)
      · exact offered (by simp only [State.holding, kind]; exact if_pos silent)
    · have none_holds : s.holding r = none := State.holding_eq_none (fun k hk hf => noPort k hk ((ports k).mp hf))
        (fun k hk hf => noEntry k hk ((entries k).mp hf)) (fun h hs => noState (Or.inl ⟨h, hs⟩))
        (fun h hs => noState (Or.inr ⟨h, hs⟩))
      refine ⟨none_holds, written.trans ?_⟩
      rw [State.levelRecord, none_holds]

end Sys2Proof.Machine
end

