-- ==== Sys2Proof/Proofs/Passes.lean ====
section
/-! PROOFS. Passes over the entries and the ports: what one component is after a pass that visits it, and the status
rules of the conversion table (R64, R77, R79), with the writes of SCAN LIST and CONVERSION. -/

namespace Sys2Proof.Machine

/-! ## Passes -/

section
variable {σ β ε : Type} {get : σ → ε} {f : σ → β → σ} {I : σ → Prop}

/-- What holds of a state holds after a pass that keeps it. -/
theorem foldl_invariant (keep : ∀ s b, I s → I (f s b)) (l : List β) {s : σ} (hs : I s) : I (l.foldl f s) := by
  induction l generalizing s with
  | nil => exact hs
  | cons b l ih => exact ih (keep s b hs)

/-- A component that no visit touches is as it was. -/
theorem foldl_missed (keep : ∀ s b, I s → I (f s b)) {hit : β → Prop}
    (miss : ∀ s b, I s → ¬ hit b → get (f s b) = get s) {l : List β} (misses : ∀ b ∈ l, ¬ hit b) {s : σ} (hs : I s) :
    get (l.foldl f s) = get s := by
  induction l generalizing s with
  | nil => rfl
  | cons b l ih =>
    rw [List.foldl_cons, ih (fun c hc => misses c (List.mem_cons_of_mem b hc)) (keep s b hs)]
    exact miss s b hs (misses b List.mem_cons_self)

/-- A component that some visit touches, whose change is the same once as often, is changed once. -/
theorem foldl_hit (keep : ∀ s b, I s → I (f s b)) {hit : β → Prop} {change : ε → ε}
    (once : ∀ x, change (change x) = change x) (touch : ∀ s b, I s → hit b → get (f s b) = change (get s))
    (miss : ∀ s b, I s → ¬ hit b → get (f s b) = get s) {l : List β} {b : β} (mem : b ∈ l) (hits : hit b) {s : σ}
    (hs : I s) : get (l.foldl f s) = change (get s) := by
  have after (l : List β) (s : σ) (hs : I s) (x : ε) (hx : get s = change x) : get (l.foldl f s) = change x := by
    induction l generalizing s with
    | nil => exact hx
    | cons c l ih =>
      refine ih _ (keep s c hs) ?_
      by_cases hc : hit c
      · rw [touch s c hs hc, hx, once]
      · rw [miss s c hs hc, hx]
  induction l generalizing s with
  | nil => exact absurd mem List.not_mem_nil
  | cons c l ih =>
    by_cases hc : hit c
    · exact after l _ (keep s c hs) _ (touch s c hs hc)
    · rcases List.mem_cons.mp mem with rfl | tail
      · exact absurd hits hc
      · rw [List.foldl_cons, ih tail (keep s c hs), miss s c hs hc]

end

/-! ## Entries that take a status -/

theorem ConvEntry.take_cfg (e : ConvEntry) (st : ConvStatus) : (e.take st).cfg = e.cfg := by
  unfold ConvEntry.take
  split_ifs <;> rfl

theorem ConvEntry.take_value (e : ConvEntry) (st : ConvStatus) : (e.take st).value = e.value := by
  unfold ConvEntry.take
  split_ifs <;> rfl

theorem ConvEntry.take_status (e : ConvEntry) (st : ConvStatus) : (e.take st).status = st := by
  unfold ConvEntry.take
  split_ifs with held lost
  · exact held
  · exact lost.symm
  · rfl

/-- R64: a status already held is not taken again. -/
theorem ConvEntry.take_of_held {e : ConvEntry} {st : ConvStatus} (h : e.status = st) : e.take st = e := if_pos h

theorem ConvEntry.take_take (e : ConvEntry) (st : ConvStatus) : (e.take st).take st = e.take st :=
  ConvEntry.take_of_held (e.take_status st)

/-- R79: taking NO_SOURCE is a fresh start. -/
theorem ConvEntry.take_noSource_prev {e : ConvEntry} (h : e.status ≠ .noSource) :
    (e.take .noSource).prevIn = none ∧ (e.take .noSource).prevOut = none := by
  rw [ConvEntry.take, if_neg h, if_pos rfl]
  exact ⟨rfl, rfl⟩

/-! ## Chains (R79) -/

/-- Two tables with the same configurations. -/
def sameConfigs (v w : Vector ConvEntry 32) : Prop := ∀ i : Fin 32, v[i].cfg = w[i].cfg

theorem State.setConv_take_configs (s : State) (i : Fin 32) (st : ConvStatus) :
    sameConfigs (s.setConv i (s.conv[i].take st)).conv s.conv := by
  intro j
  rw [State.setConv_get]
  split
  · next h =>
    subst h
    exact ConvEntry.take_cfg _ _
  · rfl

/-- One stop of the walk that collects a chain: an entry that reads the chain's head or a found entry is found. -/
def State.chainStep (s : State) (i : Fin 32) (found : List (Fin 32)) (j : Fin 32) : List (Fin 32) :=
  if (i :: found).any (fun k => s.conv[j].dependsOn k) then found ++ [j] else found

theorem State.chainBelow_eq (s : State) (i : Fin 32) :
    s.chainBelow i = (List.finRange 32).foldl (s.chainStep i) [] := rfl

/-- R79: a chain holds entries of kind ENTRY only. -/
theorem State.chainBelow_entry {s : State} {i j : Fin 32} (h : j ∈ s.chainBelow i) :
    s.conv[j].cfg.sourceKind = .entry := by
  refine foldl_invariant (I := fun found => ∀ k : Fin 32, k ∈ found → s.conv[k].cfg.sourceKind = .entry)
    (f := s.chainStep i) (fun found c entries => ?_) (List.finRange 32) (fun k hk => absurd hk List.not_mem_nil) j h
  unfold State.chainStep
  split
  · next depends =>
    obtain ⟨m, _, hm⟩ := List.any_eq_true.mp depends
    simp only [ConvEntry.dependsOn, Bool.and_eq_true, beq_iff_eq] at hm
    intro k hk
    rcases List.mem_append.mp hk with old | new
    · exact entries k old
    · rw [List.mem_singleton.mp new]
      exact hm.1
  · exact entries

theorem State.mem_chainStep {s : State} {i j c : Fin 32} {found : List (Fin 32)} (h : j ∈ found) :
    j ∈ s.chainStep i found c := by
  unfold State.chainStep
  split
  · exact List.mem_append_left _ h
  · exact h

/-- R67, R79: the direct dependents of an entry are in the chain below it. -/
theorem State.mem_chainBelow {s : State} {i j : Fin 32} (h : s.conv[j].dependsOn i = true) : j ∈ s.chainBelow i := by
  have grows : ∀ (l found : List (Fin 32)), j ∈ found ∨ j ∈ l → j ∈ l.foldl (s.chainStep i) found := by
    intro l
    induction l with
    | nil => exact fun found hf => hf.resolve_right List.not_mem_nil
    | cons c l ih =>
      intro found hf
      refine ih _ ?_
      rcases hf with old | new
      · exact Or.inl (State.mem_chainStep old)
      · rcases List.mem_cons.mp new with rfl | later
        · have reads : ((i :: found).any fun k => s.conv[j].dependsOn k) = true := by
            rw [List.any_cons, h, Bool.true_or]
          refine Or.inl ?_
          rw [State.chainStep, if_pos reads]
          exact List.mem_append_right _ List.mem_cons_self
        · exact Or.inr later
  exact grows _ [] (Or.inr (List.mem_finRange j))

/-- A chain is that of the configurations. -/
theorem State.chainBelow_congr {s t : State} (h : sameConfigs s.conv t.conv) (i : Fin 32) :
    s.chainBelow i = t.chainBelow i := by
  have depends : ∀ j k : Fin 32, s.conv[j].dependsOn k = t.conv[j].dependsOn k := fun j k => by
    rw [ConvEntry.dependsOn, ConvEntry.dependsOn, h j]
  simp only [State.chainBelow, depends]

/-- R79: the entries of the chain that are not kept take NO_SOURCE, and no other does. -/
theorem State.noSourceBelow_get (s : State) (i : Fin 32) (kept : List (Fin 32)) (k : Fin 32) :
    (k ∈ s.chainBelow i → k ∉ kept → (s.noSourceBelow i kept).conv[k] = s.conv[k].take .noSource) ∧
    (k ∉ s.chainBelow i ∨ k ∈ kept → (s.noSourceBelow i kept).conv[k] = s.conv[k]) := by
  have touch (s : State) (j : Fin 32) (_ : True) (h : j = k) :
      (s.setConv j (s.conv[j].take .noSource)).conv[k] = s.conv[k].take .noSource := by
    subst h
    exact State.setConv_same s j _
  have miss (s : State) (j : Fin 32) (_ : True) (h : ¬ j = k) :
      (s.setConv j (s.conv[j].take .noSource)).conv[k] = s.conv[k] := State.setConv_other s j k _ h
  constructor
  · intro chained free
    exact foldl_hit (get := fun s : State => s.conv[k]) (I := fun _ => True) (hit := fun j => j = k)
      (change := fun e => e.take .noSource) (fun _ _ _ => trivial) (fun e => e.take_take .noSource) touch miss (b := k)
      (List.mem_filter.mpr ⟨chained, by simpa using free⟩) rfl trivial
  · intro outside
    refine foldl_missed (get := fun s : State => s.conv[k]) (I := fun _ => True) (hit := fun j => j = k)
      (fun _ _ _ => trivial) miss ?_ trivial
    rintro j hj rfl
    rw [List.mem_filter] at hj
    rcases outside with unchained | held
    · exact unchained hj.1
    · simp [held] at hj

theorem State.noSourceBelow_configs (s : State) (i : Fin 32) (kept : List (Fin 32)) :
    sameConfigs (s.noSourceBelow i kept).conv s.conv :=
  foldl_invariant (I := fun t : State => sameConfigs t.conv s.conv)
    (fun t j ht k => (t.setConv_take_configs j .noSource k).trans (ht k)) _ fun _ => rfl

/-! ## One entry, and a pass over the entries (R64, R77) -/

/-- R64, R79: an entry takes a status; another that reads no entry is as it was. -/
theorem State.takeStatus_get (s : State) (i : Fin 32) (st : ConvStatus) {k : Fin 32}
    (h : s.conv[k].cfg.sourceKind ≠ .entry) :
    (s.takeStatus i st).conv[k] = if i = k then s.conv[k].take st else s.conv[k] := by
  have set : (s.setConv i (s.conv[i].take st)).conv[k] = if i = k then s.conv[k].take st else s.conv[k] := by
    rw [State.setConv_get]
    split
    · next same => rw [same]
    · rfl
  unfold State.takeStatus
  dsimp only
  split
  · refine ((State.noSourceBelow_get _ _ _ k).2 (Or.inl fun chained => ?_)).trans set
    have := State.chainBelow_entry chained
    rw [s.setConv_take_configs i st k] at this
    exact h this
  · exact set

theorem State.takeStatus_configs (s : State) (i : Fin 32) (st : ConvStatus) :
    sameConfigs (s.takeStatus i st).conv s.conv := by
  unfold State.takeStatus
  dsimp only
  split
  · exact fun k => (State.noSourceBelow_configs _ _ _ k).trans (s.setConv_take_configs i st k)
  · exact s.setConv_take_configs i st

/-- The states that differ from s in the statuses of the entries only. -/
structure State.Restatused (s t : State) : Prop where
  configs : sameConfigs t.conv s.conv
  rest    : ({ t with conv := s.conv } : State) = s

theorem State.Restatused.refl (s : State) : s.Restatused s := ⟨fun _ => rfl, rfl⟩

theorem State.Restatused.trans {s t u : State} (h : s.Restatused t) (k : t.Restatused u) : s.Restatused u :=
  ⟨fun i => (k.configs i).trans (h.configs i), by
    rw [← h.rest, ← k.rest]⟩

theorem State.takeStatus_restatused (s : State) (i : Fin 32) (st : ConvStatus) : s.Restatused (s.takeStatus i st) :=
  ⟨s.takeStatus_configs i st,
    State.takeStatus_keeps (fun t => ({ t with conv := s.conv } : State)) (fun _ _ => rfl) s i st⟩

/-- R77: a pass in which the entries that meet a condition on their configuration, and are not EMPTY, take a status. -/
theorem foldl_takeStatus (s : State) (c : ConvConfig → Prop) [DecidablePred c] (f : State → Fin 32 → State)
    (st : ConvStatus)
    (hf : ∀ t i, s.Restatused t →
      f t i = if c t.conv[i].cfg ∧ t.conv[i].status ≠ .empty then t.takeStatus i st else t) :
    s.Restatused ((List.finRange 32).foldl f s) ∧
    ∀ k : Fin 32, s.conv[k].cfg.sourceKind ≠ .entry → ((List.finRange 32).foldl f s).conv[k] =
      if c s.conv[k].cfg ∧ s.conv[k].status ≠ .empty then s.conv[k].take st else s.conv[k] := by
  have keep (t : State) (i : Fin 32) (ht : s.Restatused t) : s.Restatused (f t i) := by
    rw [hf t i ht]
    split
    · exact ht.trans (t.takeStatus_restatused i st)
    · exact ht
  refine ⟨foldl_invariant keep _ (State.Restatused.refl s), fun k hk => ?_⟩
  let change (e : ConvEntry) : ConvEntry := if c s.conv[k].cfg ∧ e.status ≠ .empty then e.take st else e
  have step (t : State) (i : Fin 32) (ht : s.Restatused t) :
      (f t i).conv[k] = if i = k then change t.conv[k] else t.conv[k] := by
    have kind : t.conv[k].cfg.sourceKind ≠ .entry := by rw [ht.configs k]; exact hk
    have taking := ht.configs i
    rw [hf t i ht]
    by_cases takes : c t.conv[i].cfg ∧ t.conv[i].status ≠ .empty
    · rw [if_pos takes, State.takeStatus_get _ _ _ kind]
      by_cases same : i = k
      · subst same
        rw [taking] at takes
        rw [if_pos rfl, if_pos rfl]
        exact (if_pos takes).symm
      · rw [if_neg same, if_neg same]
    · rw [if_neg takes]
      by_cases same : i = k
      · subst same
        rw [taking] at takes
        rw [if_pos rfl]
        exact (if_neg takes).symm
      · rw [if_neg same]
  have once (e : ConvEntry) : change (change e) = change e := by
    by_cases h : c s.conv[k].cfg ∧ e.status ≠ .empty
    · simp only [change, if_pos h, ConvEntry.take_take, ite_self]
    · simp only [change, if_neg h]
  exact foldl_hit (get := fun t : State => t.conv[k]) (I := s.Restatused) (change := change) (hit := fun i => i = k)
    keep
    once (fun t i ht same => (step t i ht).trans (if_pos same)) (fun t i ht other => (step t i ht).trans (if_neg other))
    (List.mem_finRange k) rfl (State.Restatused.refl s)

/-- R76, R77: the entries over a port take a status. -/
theorem State.portStatus_get (s : State) (n : PortNo) (st : ConvStatus) {k : Fin 32}
    (h : s.conv[k].cfg.sourceKind ≠ .entry) :
    (s.portStatus n st).conv[k] =
      if s.sourcePort s.conv[k].cfg = some n ∧ s.conv[k].status ≠ .empty then s.conv[k].take st else s.conv[k] :=
  (foldl_takeStatus s (fun c => s.sourcePort c = some n) _ st fun t i ht => by
    rw [← ht.rest]
    rfl).2 k h

theorem State.portStatus_restatused (s : State) (n : PortNo) (st : ConvStatus) :
    s.Restatused (s.portStatus n st) :=
  (foldl_takeStatus s (fun c => s.sourcePort c = some n) _ st fun t i ht => by
    rw [← ht.rest]
    rfl).1

/-- R77: the SLOT entries over a slot take NO_SOURCE. -/
theorem State.slotNoSource_get (s : State) (slot : Fin 16) {k : Fin 32}
    (h : s.conv[k].cfg.sourceKind ≠ .entry) :
    (s.slotNoSource slot).conv[k] =
      if (s.conv[k].cfg.sourceKind = .slot ∧ s.conv[k].cfg.sourceIndex.toNat = slot.val) ∧ s.conv[k].status ≠ .empty
      then s.conv[k].take .noSource else s.conv[k] :=
  (foldl_takeStatus s (fun c => c.sourceKind = .slot ∧ c.sourceIndex.toNat = slot.val) _ .noSource
    fun t i _ => by simp only [and_assoc]).2 k h

theorem State.slotNoSource_restatused (s : State) (slot : Fin 16) : s.Restatused (s.slotNoSource slot) :=
  (foldl_takeStatus s (fun c => c.sourceKind = .slot ∧ c.sourceIndex.toNat = slot.val) _ .noSource
    fun t i _ => by simp only [and_assoc]).1

/-! ## What an operation leaves, component by component -/

/-- s with the listed components of m. -/
def State.masked (m : State) (changed : List Part) (s : State) : State :=
  { link := if .link ∈ changed then m.link else s.link
    settings := if .settings ∈ changed then m.settings else s.settings
    bus := if .bus ∈ changed then m.bus else s.bus
    ports := if .ports ∈ changed then m.ports else s.ports
    profiles := if .profiles ∈ changed then m.profiles else s.profiles
    service := if .service ∈ changed then m.service else s.service
    scan := if .scan ∈ changed then m.scan else s.scan
    lines := if .lines ∈ changed then m.lines else s.lines
    conv := if .conv ∈ changed then m.conv else s.conv
    encStamp := if .encStamp ∈ changed then m.encStamp else s.encStamp
    motors := if .motors ∈ changed then m.motors else s.motors
    marks := if .marks ∈ changed then m.marks else s.marks
    budget := if .budget ∈ changed then m.budget else s.budget
    sound := if .sound ∈ changed then m.sound else s.sound
    reactions := if .reactions ∈ changed then m.reactions else s.reactions
    failures := if .failures ∈ changed then m.failures else s.failures
    blocked := if .blocked ∈ changed then m.blocked else s.blocked
    reports := if .reports ∈ changed then m.reports else s.reports
    reportQueue := if .reportQueue ∈ changed then m.reportQueue else s.reportQueue
    passSkipped := if .passSkipped ∈ changed then m.passSkipped else s.passSkipped
    pending := if .pending ∈ changed then m.pending else s.pending }

/-- A component that is not listed shows through. -/
theorem State.agrees_of_masked {s t m : State} {changed : List Part}
    (h : State.masked m changed t = State.masked m changed s) (p : Part) (hp : p ∉ changed) : s.agrees t p := by
  simp only [State.masked, State.mk.injEq] at h
  cases p <;> simp only [hp, if_false] at h <;> simp only [State.agrees, h]

theorem State.keepsBut_of_masked {s t m : State} {changed : List Part}
    (h : State.masked m changed t = State.masked m changed s) : s.keepsBut t changed :=
  State.keepsBut_of (State.agrees_of_masked h)

/-! A listed component does not show. -/

section
variable {m : State} {changed : List Part}

theorem State.masked_link (h : Part.link ∈ changed) : IgnoresLink (State.masked m changed) := fun _ _ => by
  simp only [State.masked, if_pos h]
theorem State.masked_bus (h : Part.bus ∈ changed) : IgnoresBus (State.masked m changed) := fun _ _ => by
  simp only [State.masked, if_pos h]
theorem State.masked_ports (h : Part.ports ∈ changed) : IgnoresPorts (State.masked m changed) := fun _ _ => by
  simp only [State.masked, if_pos h]
theorem State.masked_profiles (h : Part.profiles ∈ changed) : IgnoresProfiles (State.masked m changed) := fun _ _ => by
  simp only [State.masked, if_pos h]
theorem State.masked_scan (h : Part.scan ∈ changed) : IgnoresScan (State.masked m changed) := fun _ _ => by
  simp only [State.masked, if_pos h]
theorem State.masked_lines (h : Part.lines ∈ changed) : IgnoresLines (State.masked m changed) := fun _ _ => by
  simp only [State.masked, if_pos h]
theorem State.masked_conv (h : Part.conv ∈ changed) : IgnoresConv (State.masked m changed) := fun _ _ => by
  simp only [State.masked, if_pos h]
theorem State.masked_motors (h : Part.motors ∈ changed) : IgnoresMotors (State.masked m changed) := fun _ _ => by
  simp only [State.masked, if_pos h]
theorem State.masked_sound (h : Part.sound ∈ changed) : IgnoresSound (State.masked m changed) := fun _ _ => by
  simp only [State.masked, if_pos h]
theorem State.masked_reportQueue (h : Part.reportQueue ∈ changed) : IgnoresReportQueue (State.masked m changed) :=
    fun _ _ => by
  simp only [State.masked, if_pos h]
end

/-- A reply changes nothing beside the link. -/
theorem State.masked_replied (m u : State) {changed : List Part} (h : Part.link ∈ changed) (kind tag : Byte)
    (status : Status) (result : List Byte) :
    State.masked m changed (u.replied kind tag status result) = State.masked m changed u := by
  rw [State.replied_eq]
  exact State.masked_link h u _

/-- What a write leaves unchanged shows through its reply. -/
theorem State.keepsBut_replied {s v : State} {changed : List Part} (h : Part.link ∈ changed) {kind tag : Byte}
    {status : Status} {result : List Byte}
    (kept : State.masked s changed v = State.masked s changed (s.reserved kind tag)) :
    s.keepsBut (State.replied { v with link := s.link } kind tag status result) changed := by
  refine State.keepsBut_of_masked (m := s) ((State.masked_replied s _ h kind tag status result).trans ?_)
  rw [State.masked_link h v, kept]
  exact State.masked_link h s _

/-- A component beside the statuses is as it was. -/
theorem State.Restatused.keep {β : Type} {s t : State} (h : s.Restatused t) (F : State → β) (hF : IgnoresConv F) :
    F t = F s := (hF t s.conv).symm.trans (congrArg F h.rest)

/-! ## SCAN LIST -/

/-- R46: the converter's work after a write of these slots. -/
theorem ConverterWork.rewritten_eq (w : ConverterWork) (first count : Nat) :
    w.rewritten (named first count) =
      match w with
      | .slot i input n done sum discard =>
        .slot i input n done sum (discard || decide (first ≤ i.val ∧ i.val < first + count))
      | .idle => .idle
      | .ident n v => .ident n v := by
  cases w <;> simp only [ConverterWork.rewritten, named_eq]

/-- R46: the slots and the converter's work after a SCAN LIST write. -/
def State.withSlots (s : State) (first : Nat) (rs : List ScanSlot) : State :=
  { s with scan := { s.scan with slots := replaceRange s.scan.slots first rs
                                 work := s.scan.work.rewritten (named first rs.length) } }

theorem State.withSlots_conv (s : State) (first : Nat) (rs : List ScanSlot) : (s.withSlots first rs).conv = s.conv :=
    rfl

/-- R77, R78: one stop of the pass over the written slots. -/
def State.visitSlot (s : State) (i : Fin 16) : State := if s.slotUnbound i then s.slotNoSource i else s

theorem State.writeScanList_eq (s : State) (first : Nat) (rs : List ScanSlot) :
    s.writeScanList first rs = (namedList 16 first rs.length).foldl State.visitSlot (s.withSlots first rs) := rfl

theorem State.visitSlot_restatused (s : State) (i : Fin 16) : s.Restatused (s.visitSlot i) := by
  unfold State.visitSlot
  split
  · exact s.slotNoSource_restatused i
  · exact State.Restatused.refl s

theorem State.writeScanList_restatused (s : State) (first : Nat) (rs : List ScanSlot) :
    (s.withSlots first rs).Restatused (s.writeScanList first rs) :=
  foldl_invariant (I := (s.withSlots first rs).Restatused) (fun t i ht => ht.trans (t.visitSlot_restatused i)) _
    (State.Restatused.refl _)

theorem State.slotUnbound_iff (s : State) (i : Fin 16) :
    s.slotUnbound i = true ↔ ∃ n : PortNo, inputPort s.scan.slots[i].input = some n ∧ s.ports[n].state ≠ .bound := by
  unfold State.slotUnbound
  cases inputPort s.scan.slots[i].input <;> simp

/-- R77, R78: an entry over a written slot that lies on a port not BOUND takes NO_SOURCE. -/
theorem State.writeScanList_noSource (s : State) {first : Nat} {rs : List ScanSlot} {i : Fin 16} {e : Fin 32}
    (written : first ≤ i.val ∧ i.val < first + rs.length) (unbound : (s.withSlots first rs).slotUnbound i = true)
    (kind : s.conv[e].cfg.sourceKind = .slot) (index : s.conv[e].cfg.sourceIndex.toNat = i.val)
    (full : s.conv[e].status ≠ .empty) : (s.writeScanList first rs).conv[e].status = .noSource := by
  have visit (t : State) (j : Fin 16) (ht : (s.withSlots first rs).Restatused t) :
      (t.visitSlot j).conv[e] =
        if j = i ∧ t.conv[e].status ≠ .empty then t.conv[e].take .noSource else t.conv[e] := by
    have cfg : t.conv[e].cfg = s.conv[e].cfg := by
      rw [ht.configs e, State.withSlots_conv]
    have bound : t.slotUnbound j = (s.withSlots first rs).slotUnbound j :=
      ht.keep (fun u => u.slotUnbound j) fun _ _ => rfl
    have hit : (t.conv[e].cfg.sourceKind = .slot ∧ t.conv[e].cfg.sourceIndex.toNat = j.val) ↔ j = i := by
      rw [cfg, index]
      exact ⟨fun h => Fin.ext h.2.symm, fun h => ⟨kind, congrArg Fin.val h.symm⟩⟩
    rw [State.visitSlot, bound]
    by_cases same : j = i
    · subst same
      rw [if_pos unbound, State.slotNoSource_get t j (by rw [cfg, kind]; exact nofun)]
      exact if_congr (by rw [hit]) rfl rfl
    · rw [if_neg fun h : j = i ∧ _ => same h.1]
      by_cases open_slot : (s.withSlots first rs).slotUnbound j = true
      · rw [if_pos open_slot, State.slotNoSource_get t j (by rw [cfg, kind]; exact nofun),
          if_neg fun h => same (hit.mp h.1)]
      · rw [if_neg open_slot]
  have taken := foldl_hit (f := State.visitSlot) (get := fun t : State => t.conv[e])
    (I := (s.withSlots first rs).Restatused) (hit := fun j => j = i)
    (change := fun x => if x.status ≠ .empty then x.take .noSource else x)
    (fun t i ht => ht.trans (t.visitSlot_restatused i))
    (fun x => by
      by_cases hx : x.status ≠ .empty
      · simp only [if_pos hx, ConvEntry.take_take, ite_self]
      · simp only [if_neg hx])
    (fun t j ht same => (visit t j ht).trans (if_congr (and_iff_right same) rfl rfl))
    (fun t j ht other => (visit t j ht).trans (if_neg fun h => other h.1)) (mem_namedList.mpr written) rfl
    (State.Restatused.refl _)
  rw [State.writeScanList_eq, taken, State.withSlots_conv, if_pos full, ConvEntry.take_status]

theorem State.writeScanList_bound (s : State) {first : Nat} {rs : List ScanSlot}
    (bound : ∀ i : Fin 16, first ≤ i.val ∧ i.val < first + rs.length → (s.withSlots first rs).slotUnbound i ≠ true) :
    (s.writeScanList first rs).conv = s.conv := by
  have pass : s.writeScanList first rs = s.withSlots first rs :=
    foldl_eq_self (f := State.visitSlot) fun i hi => if_neg (bound i (mem_namedList.mp hi))
  rw [pass]
  rfl

/-- Settles O17: the written slots, then the entries over those that lie on an unbound port. -/
theorem scanListWriteReplacesSlots : Obligations.ScanListWriteReplacesSlots := by
  intro s tag first count data rs clamped opens nonzero range length decoded
  have records := decodeAll_length decoded
  have passes : Table.scanList.Passes first count data := ⟨length, nonzero, range, nofun⟩
  have owned : (s.reserved 0x01 tag).writeRecords .scanList first.toNat count.toNat data =
      taken clamped ((s.reserved 0x01 tag).writeScanList first.toNat rs) := by
    rw [State.writeRecords, Table.size, decoded]
    rfl
  have restatused := (s.reserved 0x01 tag).writeScanList_restatused first.toNat rs
  have link := restatused.keep (·.link) fun _ _ => rfl
  have scan : ((s.reserved 0x01 tag).writeScanList first.toNat rs).scan =
      { s.scan with slots := replaceRange s.scan.slots first.toNat rs
                    work := s.scan.work.rewritten (named first.toNat rs.length) } :=
    restatused.keep (·.scan) fun _ _ => rfl
  have slot (i : Fin 16) := replaceRange_get s.scan.slots first.toNat count.toNat { input := 0, average := 1 } records i
  refine ⟨_, write_replied_of_link opens passes owned link, ?_, ?_, ?_, ?_, ?_, ?_⟩
  · intro i
    rw [State.replied_scan]
    dsimp only
    rw [scan]
    exact slot i
  · rw [State.replied_scan]
    dsimp only
    rw [scan, records]
    exact congrArg (fun w => ({ s.scan with slots := replaceRange s.scan.slots first.toNat rs, work := w } : Scan))
      (ConverterWork.rewritten_eq s.scan.work first.toNat count.toNat)
  · rintro e i written kind index full ⟨n, input, unbound⟩
    rw [State.replied_scan] at input
    dsimp only at input
    rw [scan] at input
    rw [State.replied_conv]
    exact (s.reserved 0x01 tag).writeScanList_noSource (by rw [records]; exact written)
      ((State.slotUnbound_iff _ i).mpr ⟨n, input, unbound⟩) kind index full
  · intro bound
    rw [State.replied_scan] at bound
    dsimp only at bound
    rw [scan] at bound
    rw [State.replied_conv]
    refine (s.reserved 0x01 tag).writeScanList_bound fun i written unbound => ?_
    rw [records] at written
    obtain ⟨n, input, state⟩ := (State.slotUnbound_iff _ i).mp unbound
    exact state (bound i n written input)
  · exact State.replied_link _ _ _ _ _
  · exact State.keepsBut_replied (by decide) (State.writeScanList_keeps _ (State.masked_scan (by decide))
      (State.masked_conv (by decide)) _ _ _)

/-! ## CONVERSION -/

theorem State.noSourceBelow_restatused (s : State) (i : Fin 32) (kept : List (Fin 32)) :
    s.Restatused (s.noSourceBelow i kept) :=
  ⟨s.noSourceBelow_configs i kept,
    State.noSourceBelow_keeps (fun t => ({ t with conv := s.conv } : State)) (fun _ _ => rfl) s i kept⟩

/-- R63: the written entries start over with their configurations. -/
def State.withConfigs (s : State) (first : Nat) (rs : List ConvConfig) : State :=
  { s with conv := replaceRange s.conv first (rs.map ConvEntry.fresh) }

theorem State.withConfigs_get (s : State) (first : Nat) (rs : List ConvConfig) (k : Fin 32) :
    (s.withConfigs first rs).conv[k] =
      if first ≤ k.val ∧ k.val < first + rs.length then ConvEntry.fresh (rs.getD (k.val - first) ConvConfig.reset)
      else s.conv[k] := by
  rw [← List.getD_map (f := ConvEntry.fresh)]
  exact replaceRange_get s.conv first rs.length (ConvEntry.fresh ConvConfig.reset) (List.length_map _) k

/-- R63, R79: the chains below the written entries, those entries kept. -/
theorem State.writeConversion_eq (s : State) (first : Nat) (rs : List ConvConfig) :
    s.writeConversion first rs =
      (namedList 32 first rs.length).foldl (fun t i => t.noSourceBelow i (namedList 32 first rs.length))
        (s.withConfigs first rs) := rfl

/-- R63, R79: a written entry, an entry in a chain below a written one, and any other. -/
theorem State.writeConversion_get (s : State) (first : Nat) (rs : List ConvConfig) (k : Fin 32) :
    (first ≤ k.val ∧ k.val < first + rs.length →
      (s.writeConversion first rs).conv[k] = ConvEntry.fresh (rs.getD (k.val - first) ConvConfig.reset)) ∧
    (¬ (first ≤ k.val ∧ k.val < first + rs.length) →
      ((∃ i, i ∈ namedList 32 first rs.length ∧ k ∈ (s.withConfigs first rs).chainBelow i) →
        (s.writeConversion first rs).conv[k] = s.conv[k].take .noSource) ∧
      ((∀ i, i ∈ namedList 32 first rs.length → k ∉ (s.withConfigs first rs).chainBelow i) →
        (s.writeConversion first rs).conv[k] = s.conv[k])) := by
  have start := s.withConfigs_get first rs k
  have keep (t : State) (i : Fin 32) (ht : (s.withConfigs first rs).Restatused t) :
      (s.withConfigs first rs).Restatused (t.noSourceBelow i (namedList 32 first rs.length)) :=
    ht.trans (t.noSourceBelow_restatused i _)
  have chain (t : State) (i : Fin 32) (ht : (s.withConfigs first rs).Restatused t) :
      t.chainBelow i = (s.withConfigs first rs).chainBelow i := State.chainBelow_congr ht.configs i
  have begun := State.Restatused.refl (s.withConfigs first rs)
  rw [State.writeConversion_eq]
  constructor
  · intro written
    rw [if_pos written] at start
    rw [← start]
    exact foldl_missed (f := fun (t : State) i => t.noSourceBelow i (namedList 32 first rs.length))
      (get := fun t : State => t.conv[k]) (hit := fun _ => False) keep
      (fun t i _ _ => (t.noSourceBelow_get i _ k).2 (Or.inr (mem_namedList.mpr written))) (fun _ _ => id) begun
  · intro unwritten
    rw [if_neg unwritten] at start
    have free : k ∉ namedList 32 first rs.length := fun h => unwritten (mem_namedList.mp h)
    have touch : ∀ (t : State) (i : Fin 32), (s.withConfigs first rs).Restatused t →
        k ∈ (s.withConfigs first rs).chainBelow i →
        (t.noSourceBelow i (namedList 32 first rs.length)).conv[k] = t.conv[k].take .noSource :=
      fun t i ht hit => (t.noSourceBelow_get i _ k).1 (by rw [chain t i ht]; exact hit) free
    have miss : ∀ (t : State) (i : Fin 32), (s.withConfigs first rs).Restatused t →
        k ∉ (s.withConfigs first rs).chainBelow i →
        (t.noSourceBelow i (namedList 32 first rs.length)).conv[k] = t.conv[k] :=
      fun t i ht missed => (t.noSourceBelow_get i _ k).2 (Or.inl (by rw [chain t i ht]; exact missed))
    have passHit (i : Fin 32) := foldl_hit (f := fun (t : State) i => t.noSourceBelow i (namedList 32 first rs.length))
      (get := fun t : State => t.conv[k]) (hit := fun i => k ∈ (s.withConfigs first rs).chainBelow i)
      (change := fun e => e.take .noSource) keep (fun e => e.take_take .noSource) touch miss
      (l := namedList 32 first rs.length) (b := i)
    have passMissed := foldl_missed (f := fun (t : State) i => t.noSourceBelow i (namedList 32 first rs.length))
      (get := fun t : State => t.conv[k]) (hit := fun i => k ∈ (s.withConfigs first rs).chainBelow i) keep miss
      (l := namedList 32 first rs.length)
    rw [← start]
    exact ⟨fun ⟨i, written, hit⟩ => passHit i written hit begun, fun missed => passMissed missed begun⟩

/-- Settles O18: the written entries start over, and the chains below them take NO_SOURCE. -/
theorem conversionWriteStartsOver : Obligations.ConversionWriteStartsOver := by
  intro s tag first count data rs clamped opens nonzero range length decoded
  have records := decodeAll_length decoded
  have passes : Table.conversion.Passes first count data := ⟨length, nonzero, range, nofun⟩
  have owned : (s.reserved 0x01 tag).writeRecords .conversion first.toNat count.toNat data =
      taken clamped ((s.reserved 0x01 tag).writeConversion first.toNat rs) := by
    rw [State.writeRecords, Table.size, decoded]
    rfl
  have link := State.writeConversion_keeps (·.link) (fun _ _ => rfl) (s.reserved 0x01 tag) first.toNat rs
  refine ⟨_, write_replied_of_link opens passes owned link, fun i => ?_, State.replied_link _ _ _ _ _, ?_⟩
  · obtain ⟨written, unwritten⟩ := (s.reserved 0x01 tag).writeConversion_get first.toNat rs i
    rw [records] at written unwritten
    rw [State.replied_conv]
    refine ⟨written, fun outside => ?_⟩
    obtain ⟨hit, missed⟩ := unwritten outside
    have outcome : ((s.reserved 0x01 tag).writeConversion first.toNat rs).conv[i] = s.conv[i] ∨
        ((s.reserved 0x01 tag).writeConversion first.toNat rs).conv[i] = s.conv[i].take .noSource := by
      by_cases chained : ∃ j, j ∈ namedList 32 first.toNat count.toNat ∧
          i ∈ ((s.reserved 0x01 tag).withConfigs first.toNat rs).chainBelow j
      · exact Or.inr (hit chained)
      · exact Or.inl (missed fun j hj hi => chained ⟨j, hj, hi⟩)
    have start := (s.reserved 0x01 tag).withConfigs_get first.toNat rs i
    rw [records, if_neg outside] at start
    refine ⟨?_, ?_, fun kind => missed fun j _ chained => ?_, fun j written kind index => ?_⟩
    · rcases outcome with same | taken
      · rw [same]
      · rw [taken, ConvEntry.take_cfg]
    · rcases outcome with same | taken
      · rw [same]
      · rw [taken, ConvEntry.take_value]
    · have entry := State.chainBelow_entry chained
      rw [start] at entry
      exact kind entry
    · have reads : ((s.reserved 0x01 tag).withConfigs first.toNat rs).conv[i].dependsOn j = true := by
        rw [start, ConvEntry.dependsOn, Bool.and_eq_true, beq_iff_eq, beq_iff_eq]
        exact ⟨kind, index⟩
      have taken := hit ⟨j, mem_namedList.mpr written, State.mem_chainBelow reads⟩
      rw [taken]
      exact ⟨ConvEntry.take_status _ _, ConvEntry.take_noSource_prev⟩
  · exact State.keepsBut_replied (by decide) (State.writeConversion_keeps _ (State.masked_conv (by decide)) _ _ _)

end Sys2Proof.Machine
end

