-- ==== Sys2Proof/Proofs/Silence.lean ====
section
/-! PROOFS. The entry to SILENT (R15, R16): the operations that end, the voices that stop, and the events in their
order. -/

namespace Sys2Proof.Machine

/-! ## The bus after an end of an operation -/

/-- Queued events stand where they stood. -/
theorem Bus.Queued.events_prefix {b c : Bus} (h : b.Queued c) : b.events <+: c.events := by
  rcases h.events with same | ⟨e, appended, _⟩
  · rw [same]
  · exact ⟨[e], appended.symm⟩

/-- R85: an end of an operation posts RUN_END, and a notice where notify is set. -/
theorem State.endOperation_bus (s : State) (n : PortNo) (o : Outcome) : (s.endOperation n o).bus = s.endingBus n o := by
  unfold State.endOperation State.endingBus
  dsimp only
  split
  · split <;> rfl
  · rfl

theorem State.safeEnd_bus (s : State) (n : PortNo) (o : Outcome) : (s.safeEnd n o).bus = s.endingBus n o := by
  unfold State.safeEnd
  split
  · exact s.endOperation_bus n o
  · next idle => exact (if_neg idle).symm

/-- The bus after an end depends on the bus and the channel only. -/
theorem State.endingBus_congr {s t : State} {n : PortNo} (h : t.motors[n] = s.motors[n]) (o : Outcome) :
    t.endingBus n o = State.endingBus { s with bus := t.bus } n o := by
  simp only [State.endingBus, h]

theorem State.endingBus_prefix (s : State) (n : PortNo) (o : Outcome) : s.bus.events <+: (s.endingBus n o).events := by
  have posted : s.bus.events <+: (s.bus.post .runEnd (portByte n) (codeIn Outcome.list o)).events :=
    (Bus.postRecord_queued ..).events_prefix
  unfold State.endingBus
  dsimp only
  split
  · split
    · exact posted.trans (Bus.notify_queued ..).events_prefix
    · exact posted
  · exact List.prefix_refl _

/-! ## The safe stop of every channel (R105) -/

theorem allPorts_eq : allPorts = List.finRange 6 := by decide

/-- R105: what a channel is after the safe stop. -/
def State.safelyEnded (s : State) (o : Outcome) (n : PortNo) (m : Motor) : Motor :=
  if m.mode.driving then (m.ended o).stopped (s.safeMode n) else m

theorem State.safelyEnded_twice (s : State) (o : Outcome) (n : PortNo) (m : Motor) :
    s.safelyEnded o n (s.safelyEnded o n m) = s.safelyEnded o n m := by
  unfold State.safelyEnded
  split
  · rw [Motor.stopped_mode, State.safeMode_driving]
    rfl
  · rfl

theorem State.safeEnd_get (s : State) (n k : PortNo) (o : Outcome) :
    (s.safeEnd n o).motors[k] = if n = k then s.safelyEnded o k s.motors[k] else s.motors[k] := by
  rw [State.safeEnd_motors]
  by_cases h : n = k
  · subst h
    simp [State.safelyEnded]
  · have : n.val ≠ k.val := fun e => h (Fin.ext e)
    simp [h, this]

/-- R105: every channel after a safe stop of all. -/
theorem State.stopAll_motors (s : State) (o : Outcome) (n : PortNo) :
    (s.stopAll o).motors[n] = s.safelyEnded o n s.motors[n] := by
  have keep (t : State) (k : PortNo) (ht : t.safeMode n = s.safeMode n) : (t.safeEnd k o).safeMode n = s.safeMode n :=
    (State.safeEnd_keeps (fun t => t.safeMode n) (fun _ _ => rfl) (fun _ _ => rfl) t k o).trans ht
  refine foldl_hit (f := fun t k => State.safeEnd t k o) (get := fun t : State => t.motors[n])
    (I := fun t : State => t.safeMode n = s.safeMode n) (hit := fun k => k = n) keep
    (s.safelyEnded_twice o n) (fun t k ht same => ?_) (fun t k _ other => ?_)
    (allPorts_eq ▸ List.mem_finRange n) rfl rfl
  · rw [State.safeEnd_get, if_pos same, State.safelyEnded, State.safelyEnded, ht]
  · rw [State.safeEnd_get, if_neg other]

/-- R105: the bus after a safe stop of all, the channels in ascending order (log 12). -/
theorem State.stopAll_bus (s : State) (o : Outcome) :
    (s.stopAll o).bus = (List.finRange 6).foldl (fun b n => State.endingBus { s with bus := b } n o) s.bus := by
  have pass : ∀ (l : List PortNo), l.Nodup → ∀ t : State, (∀ n ∈ l, t.motors[n] = s.motors[n]) →
      (l.foldl (fun t n => State.safeEnd t n o) t).bus =
        l.foldl (fun b n => State.endingBus { s with bus := b } n o) t.bus := by
    intro l
    induction l with
    | nil => exact fun _ t _ => rfl
    | cons k l ih =>
      intro nodup t same
      obtain ⟨fresh, rest⟩ := List.nodup_cons.mp nodup
      rw [List.foldl_cons, List.foldl_cons, ih rest]
      · rw [State.safeEnd_bus, State.endingBus_congr (same k List.mem_cons_self)]
      · intro n hn
        rw [State.safeEnd_get, if_neg fun h : k = n => fresh (h ▸ hn)]
        exact same n (List.mem_cons_of_mem k hn)
  rw [State.stopAll, allPorts_eq]
  exact pass _ (List.nodup_finRange 6) s fun _ _ => rfl

theorem State.stopAll_prefix (s : State) (o : Outcome) : s.bus.events <+: (s.stopAll o).bus.events := by
  rw [State.stopAll_bus]
  exact foldl_invariant (I := fun b : Bus => s.bus.events <+: b.events)
    (fun b n hb => hb.trans (State.endingBus_prefix { s with bus := b } n o)) _ (List.prefix_refl _)

/-! ## The stop of both voices (R145) -/

theorem Sound.with_idle_tone {e : Sound} (idle : e.tonePlaying = false) (empty : e.queue = []) :
    e = { e with tonePlaying := false, queue := [], noteTimer := e.noteTimer } := by
  rw [← idle, ← empty]

theorem Sound.with_idle_clip {e : Sound} (idle : e.clipPlaying = false) : e = { e with clipPlaying := false } := by
  rw [← idle]

theorem State.stopSound_sound (s : State) :
    s.stopSound.sound =
      { s.sound with
        tonePlaying := false, queue := [], clipPlaying := false,
        noteTimer := if s.sound.tonePlaying ∨ s.sound.queue ≠ [] then none else s.sound.noteTimer } := by
  have tone : s.stopTone.sound =
      { s.sound with
        tonePlaying := false, queue := [],
        noteTimer := if s.sound.tonePlaying ∨ s.sound.queue ≠ [] then none else s.sound.noteTimer } := by
    unfold State.stopTone
    split
    · rfl
    · next quiet =>
      obtain ⟨idle, empty⟩ := not_or.mp quiet
      exact Sound.with_idle_tone (Bool.not_eq_true _ |>.mp idle) (not_not.mp empty)
  have clip (t : State) : t.stopClip.sound = { t.sound with clipPlaying := false } := by
    unfold State.stopClip
    split
    · rfl
    · next idle => exact Sound.with_idle_clip (Bool.not_eq_true _ |>.mp idle)
  rw [State.stopSound, clip, tone]

/-- R145: the events of a stop of both voices, TONE_IDLE before CLIP_END. -/
theorem State.stopSound_bus (s : State) :
    s.stopSound.bus =
      (let toned : Bus := if s.sound.tonePlaying = true ∨ s.sound.queue ≠ [] then s.bus.post .toneIdle 0 0 else s.bus
       if s.sound.clipPlaying then toned.post .clipEnd 0 3 else toned) := by
  unfold State.stopSound State.stopTone State.stopClip
  by_cases tone : s.sound.tonePlaying = true ∨ s.sound.queue ≠ []
  · rw [if_pos tone, if_pos tone]
    by_cases clip : s.sound.clipPlaying = true
    · exact (congrArg State.bus (if_pos clip)).trans (if_pos clip).symm
    · exact (congrArg State.bus (if_neg clip)).trans (if_neg clip).symm
  · rw [if_neg tone, if_neg tone]
    by_cases clip : s.sound.clipPlaying = true
    · exact (congrArg State.bus (if_pos clip)).trans (if_pos clip).symm
    · exact (congrArg State.bus (if_neg clip)).trans (if_neg clip).symm

theorem State.stopSound_prefix (s : State) : s.bus.events <+: s.stopSound.bus.events := by
  rw [State.stopSound_bus]
  have posted (b : Bus) (kind : EventKind) (detail : Byte) : b.events <+: (b.post kind 0 detail).events :=
    (Bus.postRecord_queued ..).events_prefix
  dsimp only
  split <;> split
  · exact (posted _ _ _).trans (posted _ _ _)
  · exact posted _ _ _
  · exact posted _ _ _
  · exact List.prefix_refl _

/-! ## The entry to SILENT -/

/-- A transmitter that is sending takes nothing. -/
theorem State.transmitNext_of_busy {s : State} (h : s.link.tx ≠ none) : s.transmitNext = s := by
  unfold State.transmitNext
  split
  · rfl
  · next idle => exact absurd idle h

theorem State.transmitNext_link (s : State) : s.transmitNext.link = { s.link with tx := s.transmitNext.link.tx } := by
  obtain ⟨tx, _, _, h, _⟩ := s.transmitNext_frame
  rw [h]

/-- R86: the safe action of a channel's profile. -/
theorem State.safeMode_eq (s : State) (n : PortNo) :
    s.safeMode n = match s.boundProfile n with
      | some p => (match p.safeAction with | .coast => .coast | .brake => .brake)
      | none => .coast := by
  unfold State.safeMode
  cases s.boundProfile n with
  | none => rfl
  | some p => cases p.safeAction <;> rfl

/-- Settles O11: LINK_SILENT, the channels in ascending order, and the voices. -/
theorem silenceStopsMotorsAndSound : Obligations.SilenceStopsMotorsAndSound := by
  intro s ms running
  let silent : State := State.post { s with link := s.link.goSilent } .linkSilent 0 0
  have link : (silent.stopAll .safeStop).stopSound.link = s.link.goSilent :=
    (State.stopSound_keeps (·.link) (fun _ _ => rfl) (fun _ _ => rfl) _).trans
      (State.stopAll_keeps (·.link) (fun _ _ => rfl) (fun _ _ => rfl) silent .safeStop)
  have sound : (silent.stopAll .safeStop).sound = s.sound :=
    State.stopAll_keeps (·.sound) (fun _ _ => rfl) (fun _ _ => rfl) silent .safeStop
  have motors : (silent.stopAll .safeStop).stopSound.motors = (silent.stopAll .safeStop).motors :=
    State.stopSound_keeps (·.motors) (fun _ _ => rfl) (fun _ _ => rfl) _
  refine ⟨(silent.stopAll .safeStop).stopSound.transmitNext, ?_, ?_, fun n => ?_, ?_, fun idle room => ?_,
    ⟨?_, fun busy => ?_⟩, ?_⟩
  · rw [exec, execSilenceTimeout, running]
    rfl
  · rw [State.transmitNext_link, link]
    rfl
  · rw [State.transmitNext_motors, motors, State.stopAll_motors, State.safelyEnded, State.safeMode_eq]
    rfl
  · rw [State.transmitNext_sound, State.stopSound_sound, sound]
  · have event := Bus.post_idle s.bus .linkSilent 0 0 idle room
    have grown : (s.bus.post .linkSilent 0 0).events <+: (silent.stopAll .safeStop).stopSound.bus.events :=
      (silent.stopAll_prefix .safeStop).trans (State.stopSound_prefix _)
    obtain ⟨more, events⟩ := grown
    rw [State.transmitNext_bus_events, ← events, event]
    simp
  · rw [State.transmitNext_bus_events, State.stopSound_bus, sound, State.stopAll_bus]
    rfl
  · rw [State.transmitNext_of_busy (by rw [link]; exact busy), State.stopSound_bus, sound, State.stopAll_bus]
    rfl
  · refine State.keepsBut_of_masked (m := s) ((State.transmitNext_keeps _ (State.masked_link (by decide))
      (State.masked_bus (by decide)) (State.masked_reportQueue (by decide)) _).trans ?_)
    refine (State.stopSound_keeps _ (State.masked_bus (by decide)) (State.masked_sound (by decide)) _).trans ?_
    refine (State.stopAll_keeps _ (State.masked_bus (by decide)) (State.masked_motors (by decide)) silent _).trans ?_
    exact (State.masked_bus (by decide) _ _).trans (State.masked_link (by decide) s _)

end Sys2Proof.Machine
end

