-- ==== Sys2Proof/Proofs/Binding.lean ====
section
/-! PROOFS. Lookup, binding and the loss of a binding (R28, R31, R107), block by block, and a PROFILES write. -/

namespace Sys2Proof.Machine

/-! ## One port of a table -/

theorem vector_set_same {α : Type} (v : Vector α 6) (n : PortNo) (a : α) : (v.set n a)[n] = a := by simp

theorem vector_set_other {α : Type} (v : Vector α 6) {n k : PortNo} (h : n ≠ k) (a : α) : (v.set n a)[k] = v[k] := by
  have : n.val ≠ k.val := fun e => h (Fin.ext e)
  simp [this]

/-! ## Polling and the device-line engine -/

/-- R36: what the engine's next work leaves of a port. -/
theorem Port.startWork_kept (p : Port) (service : Bool) :
    let q := p.startWork service
    q.state = p.state ∧ q.profile = p.profile ∧ q.missed = p.missed ∧ q.forward = p.forward ∧ q.pass = p.pass := by
  unfold Port.startWork
  split
  · exact ⟨rfl, rfl, rfl, rfl, rfl⟩
  · exact ⟨rfl, rfl, rfl, rfl, rfl⟩
  · split_ifs
    · exact ⟨rfl, rfl, rfl, rfl, rfl⟩
    · unfold Port.beginQuery
      dsimp only
      split <;> exact ⟨rfl, rfl, rfl, rfl, rfl⟩
    · exact ⟨rfl, rfl, rfl, rfl, rfl⟩

/-- R28, R32: what the start of polling leaves of a port. -/
theorem State.startPolling_ports (s : State) (n : PortNo) (pr : Profile) :
    ∃ q : Port, (s.startPolling n pr).ports = s.ports.set n q ∧ q.state = s.ports[n].state ∧
      q.profile = s.ports[n].profile ∧ q.missed = s.ports[n].missed ∧ q.forward = s.ports[n].forward ∧
      q.pass = s.ports[n].pass := by
  unfold State.startPolling
  dsimp only
  split
  · refine ⟨_, ?_, Port.startWork_kept
      { s.ports[n] with pollDue := !s.inService n, pollTimer := some (pollInterval pr s.ports[n]), resumes := false }
      (s.inService n)⟩
    rw [State.startWork, State.setPort_ports, State.setPort_same, State.setPort_ports]
    simp [State.inService]
  · exact ⟨s.ports[n], (vector_set_self _ _).symm, rfl, rfl, rfl, rfl, rfl⟩

theorem Lines.enter_mode (l : Lines) (mode : LineMode) (debounce : Nat) : (l.enter mode debounce).mode = mode := by
  cases mode <;> rfl

/-! ## Becoming BOUND or UNKNOWN (R28) -/

theorem State.bindPort_ports (s : State) (n : PortNo) (i : Fin 16) :
    ∃ q : Port, (s.bindPort n i).ports = s.ports.set n q ∧ q.state = .bound ∧ q.profile = some i ∧ q.missed = 0 ∧
      q.forward = s.ports[n].forward ∧ q.pass = s.ports[n].pass := by
  let bound : Port := { s.ports[n] with state := .bound, fault := .none, profile := some i, missed := 0 }
  let t : State := (((s.setPort n bound).post .portBound (portByte n) (BitVec.ofNat 8 i.val)).portNotice
      n).setLineMode n
    s.profiles[i].lineUse s.profiles[i].debounceMs.toNat
  have ports : (s.bindPort n i).ports = (t.startPolling n s.profiles[i]).ports := by
    unfold State.bindPort
    dsimp only
    split <;> rfl
  have start : t.ports = s.ports.set n bound := rfl
  obtain ⟨q, polled, state, profile, missed, forward, pass⟩ := t.startPolling_ports n s.profiles[i]
  rw [start, vector_set_same] at state profile missed forward pass
  rw [start] at polled
  exact ⟨q, by rw [ports, polled]; simp, state, profile, missed, forward, pass⟩

theorem State.bindPort_lines (s : State) (n : PortNo) (i : Fin 16) :
    (s.bindPort n i).lines =
      s.lines.set n (s.lines[n].enter s.profiles[i].lineUse s.profiles[i].debounceMs.toNat) := by
  unfold State.bindPort
  dsimp only
  split <;> exact State.startPolling_keeps (·.lines) (fun _ _ => rfl) _ _ _

theorem State.bindPort_motors (s : State) (n : PortNo) (i : Fin 16) :
    (s.bindPort n i).motors =
      s.motors.set n (if s.profiles[i].use = .motor then s.motors[n].bind s.profiles[i] else s.motors[n]) := by
  unfold State.bindPort
  dsimp only
  split
  · rw [State.setMotor_motors, State.startPolling_keeps (·.motors) (fun _ _ => rfl)]
    rfl
  · exact (State.startPolling_keeps (·.motors) (fun _ _ => rfl) _ _ _).trans (vector_set_self _ _).symm

theorem State.bindPort_bus (s : State) (n : PortNo) (i : Fin 16) :
    (s.bindPort n i).bus =
      (s.bus.post .portBound (portByte n) (byteOf i.val)).notify
        (.portChange n .bound .none (some i) s.ports[n].cls s.ports[n].variant) := by
  have notice : (((s.setPort n { s.ports[n] with state := .bound, fault := .none, profile := some i, missed := 0 }).post
      .portBound (portByte n) (BitVec.ofNat 8 i.val)).portNotice n).bus =
      (s.bus.post .portBound (portByte n) (byteOf i.val)).notify
        (.portChange n .bound .none (some i) s.ports[n].cls s.ports[n].variant) := by
    simp [State.portNotice, byteOf]
  unfold State.bindPort
  dsimp only
  split <;> exact (State.startPolling_keeps (·.bus) (fun _ _ => rfl) _ _ _).trans notice

theorem State.becomeUnknown_ports (s : State) (n : PortNo) :
    (s.becomeUnknown n).ports = s.ports.set n
      { s.ports[n] with state := .unknown, fault := .none, profile := none, pollDue := false, pollTimer := none,
                        resumes := false } := by
  unfold State.becomeUnknown
  dsimp only
  split <;> rfl

theorem State.becomeUnknown_lines (s : State) (n : PortNo) :
    (s.becomeUnknown n).lines = s.lines.set n (s.lines[n].enter .none 0) := by
  unfold State.becomeUnknown
  dsimp only
  split <;> rfl

theorem State.becomeUnknown_motors (s : State) (n : PortNo) : (s.becomeUnknown n).motors = s.motors := by
  unfold State.becomeUnknown
  dsimp only
  split <;> rfl

theorem State.becomeUnknown_bus (s : State) (n : PortNo) :
    (s.becomeUnknown n).bus =
      if s.ports[n].state = .unknown then s.bus
      else s.bus.notify (.portChange n .unknown .none none s.ports[n].cls s.ports[n].variant) := by
  unfold State.becomeUnknown
  dsimp only
  split
  · rfl
  · simp [State.portNotice, State.setLineMode]

/-! ## The loss of a binding (R31, R107) -/

theorem State.loseMotor_bus (s : State) (n : PortNo) (o : Outcome) :
    (s.loseMotor n o).bus = if s.motors[n].regTimer ≠ none then s.endingBus n o else s.bus := by
  unfold State.loseMotor
  split
  · next h =>
    rw [h]
    rfl
  · next h =>
    rw [h]
    exact s.endOperation_bus n o

theorem State.loseBinding_ports (s : State) (n : PortNo) : (s.loseBinding n).ports = s.ports :=
  State.loseBinding_keeps (·.ports) (fun _ _ => rfl) (fun _ _ => rfl) (fun _ _ => rfl) (fun _ _ => rfl) s n

theorem State.loseBinding_profiles (s : State) (n : PortNo) : (s.loseBinding n).profiles = s.profiles :=
  State.loseBinding_keeps (·.profiles) (fun _ _ => rfl) (fun _ _ => rfl) (fun _ _ => rfl) (fun _ _ => rfl) s n

theorem State.loseBinding_lines (s : State) (n : PortNo) :
    (s.loseBinding n).lines = s.lines.set n (s.lines[n].enter .none 0) := by
  have lines : ((s.loseMotor n .rebound).portStatus n .noSource).lines = s.lines :=
    (State.portStatus_keeps (·.lines) (fun _ _ => rfl) _ n .noSource).trans
      (State.loseMotor_keeps (·.lines) (fun _ _ => rfl) (fun _ _ => rfl) s n .rebound)
  rw [State.loseBinding, State.setLineMode, State.setLines_lines, lines]

theorem State.loseBinding_motors (s : State) (n : PortNo) :
    (s.loseBinding n).motors =
      s.motors.set n (if s.motors[n].regTimer.isSome then (s.motors[n].ended .rebound).lose else s.motors[n]) := by
  rw [State.loseBinding, State.setLineMode, State.setLines_motors, State.portStatus_keeps (·.motors) (fun _ _ => rfl),
    State.loseMotor_motors]

theorem State.loseBinding_bus (s : State) (n : PortNo) :
    (s.loseBinding n).bus = if s.motors[n].regTimer ≠ none then s.endingBus n .rebound else s.bus := by
  rw [State.loseBinding, State.setLineMode, State.setLines_bus, State.portStatus_keeps (·.bus) (fun _ _ => rfl),
    State.loseMotor_bus]

/-- R77: the entries over the port take NO_SOURCE. -/
theorem State.loseBinding_conv (s : State) (n : PortNo) {k : Fin 32} (h : s.conv[k].cfg.sourceKind ≠ .entry) :
    (s.loseBinding n).conv[k] =
      if s.sourcePort s.conv[k].cfg = some n ∧ s.conv[k].status ≠ .empty then s.conv[k].take .noSource
      else s.conv[k] := by
  have conv : (s.loseMotor n .rebound).conv = s.conv :=
    State.loseMotor_keeps (·.conv) (fun _ _ => rfl) (fun _ _ => rfl) s n .rebound
  have source (c : ConvConfig) : (s.loseMotor n .rebound).sourcePort c = s.sourcePort c :=
    State.loseMotor_keeps (fun t => t.sourcePort c) (fun _ _ => rfl) (fun _ _ => rfl) s n .rebound
  have status := (s.loseMotor n .rebound).portStatus_get n .noSource (k := k) (by rw [conv]; exact h)
  rw [source, conv] at status
  rw [State.loseBinding, State.setLineMode, State.setLines_conv]
  exact status

theorem State.loseBinding_configs (s : State) (n : PortNo) : sameConfigs (s.loseBinding n).conv s.conv := by
  have conv : (s.loseMotor n .rebound).conv = s.conv :=
    State.loseMotor_keeps (·.conv) (fun _ _ => rfl) (fun _ _ => rfl) s n .rebound
  intro k
  rw [State.loseBinding, State.setLineMode, State.setLines_conv, ← conv]
  exact ((s.loseMotor n .rebound).portStatus_restatused n .noSource).configs k

/-! ## The lookup of a port (R28) -/

theorem State.lookupPort_some {s : State} {n : PortNo} {i : Fin 16}
    (h : lookup s.profiles s.ports[n].cls s.ports[n].variant = some i) : s.lookupPort n = s.bindPort n i := by
  rw [State.lookupPort, h]

theorem State.lookupPort_none {s : State} {n : PortNo}
    (h : lookup s.profiles s.ports[n].cls s.ports[n].variant = none) : s.lookupPort n = s.becomeUnknown n := by
  rw [State.lookupPort, h]

/-- What belongs to one port: its record, its lines, its channel. -/
def State.atPortNo (s : State) (n : PortNo) : Port × Lines × Motor := (s.ports[n], s.lines[n], s.motors[n])

/-- R28: a lookup leaves the other ports. -/
theorem State.lookupPort_other (s : State) {n k : PortNo} (h : n ≠ k) :
    (s.lookupPort n).atPortNo k = s.atPortNo k := by
  unfold State.atPortNo
  cases found : lookup s.profiles s.ports[n].cls s.ports[n].variant with
  | some i =>
    obtain ⟨q, ports, _⟩ := s.bindPort_ports n i
    rw [State.lookupPort_some found, ports, State.bindPort_lines, State.bindPort_motors]
    simp only [vector_set_other _ h]
  | none =>
    rw [State.lookupPort_none found, State.becomeUnknown_ports, State.becomeUnknown_lines, State.becomeUnknown_motors]
    simp only [vector_set_other _ h]

theorem State.loseBinding_other (s : State) {n k : PortNo} (h : n ≠ k) :
    (s.loseBinding n).atPortNo k = s.atPortNo k := by
  unfold State.atPortNo
  rw [State.loseBinding_ports, State.loseBinding_lines, State.loseBinding_motors]
  simp only [vector_set_other _ h]

/-- R28: every lookup leaves a port's forward flag and its pass-through. -/
theorem State.lookupPort_kept (s : State) (n : PortNo) :
    (s.lookupPort n).ports[n].forward = s.ports[n].forward ∧ (s.lookupPort n).ports[n].pass = s.ports[n].pass := by
  cases found : lookup s.profiles s.ports[n].cls s.ports[n].variant with
  | some i =>
    obtain ⟨q, ports, _, _, _, forward, pass⟩ := s.bindPort_ports n i
    rw [State.lookupPort_some found, ports, vector_set_same]
    exact ⟨forward, pass⟩
  | none =>
    rw [State.lookupPort_none found, State.becomeUnknown_ports, vector_set_same]
    exact ⟨rfl, rfl⟩

/-! ## The rebinding of one port (R31) -/

/-- R31: a port BOUND to a written index. -/
def State.rebound (s : State) (hit : Fin 16 → Bool) (n : PortNo) : Bool :=
  s.ports[n].state == .bound && s.ports[n].profile.any hit

/-- R31: a port that a PROFILES write looks up. -/
def State.concerned (s : State) (hit : Fin 16 → Bool) (anyValid : Bool) (n : PortNo) : Prop :=
  s.rebound hit n = true ∨ (s.ports[n].state = .unknown ∧ anyValid = true)

theorem State.rebound_of_port {s t : State} {n : PortNo} (h : t.ports[n] = s.ports[n]) (hit : Fin 16 → Bool) :
    t.rebound hit n = s.rebound hit n := by
  rw [State.rebound, State.rebound, h]

theorem State.rebindPort_rebound {s : State} {hit : Fin 16 → Bool} {n : PortNo} (anyValid : Bool)
    (h : s.rebound hit n = true) : State.rebindPort hit anyValid s n = (s.loseBinding n).lookupPort n := by
  rw [State.rebound, Bool.and_eq_true, beq_iff_eq, Option.any_eq_true] at h
  obtain ⟨bound, i, profile, named⟩ := h
  unfold State.rebindPort
  rw [bound, profile]
  exact if_pos named

theorem State.rebindPort_unknown {s : State} {hit : Fin 16 → Bool} {n : PortNo} {anyValid : Bool}
    (state : s.ports[n].state = .unknown) (valid : anyValid = true) :
    State.rebindPort hit anyValid s n = s.lookupPort n := by
  unfold State.rebindPort
  rw [state]
  cases s.ports[n].profile <;> exact if_pos valid

theorem State.rebindPort_unconcerned {s : State} {hit : Fin 16 → Bool} {n : PortNo} {anyValid : Bool}
    (h : ¬ s.concerned hit anyValid n) : State.rebindPort hit anyValid s n = s := by
  obtain ⟨kept, known⟩ := not_or.mp h
  unfold State.rebindPort
  split
  · next i state profile =>
    refine if_neg fun named => kept ?_
    rw [State.rebound, state, profile]
    exact named
  · next state => exact if_neg fun valid => known ⟨state, valid⟩
  · rfl

/-- R31: a concerned port is looked up, once it has lost the binding it had. -/
theorem State.rebindPort_concerned {s : State} {hit : Fin 16 → Bool} {n : PortNo} {anyValid : Bool}
    (h : s.concerned hit anyValid n) :
    ∃ w : State, State.rebindPort hit anyValid s n = w.lookupPort n ∧ w.ports = s.ports ∧ w.profiles = s.profiles ∧
      w.motors[n] = (if s.rebound hit n = true ∧ s.motors[n].regTimer ≠ none then (s.motors[n].ended .rebound).lose
        else s.motors[n]) ∧
      w.bus = (if s.rebound hit n = true ∧ s.motors[n].regTimer ≠ none then s.endingBus n .rebound else s.bus) := by
  by_cases lost : s.rebound hit n = true
  · refine ⟨s.loseBinding n, State.rebindPort_rebound anyValid lost, s.loseBinding_ports n, s.loseBinding_profiles n,
      ?_, ?_⟩
    · rw [State.loseBinding_motors, vector_set_same]
      exact if_congr (by rw [Option.isSome_iff_ne_none]; simp [lost]) rfl rfl
    · rw [State.loseBinding_bus]
      exact if_congr (by simp [lost]) rfl rfl
  · obtain ⟨state, valid⟩ := h.resolve_left lost
    refine ⟨s, State.rebindPort_unknown state valid, rfl, rfl, ?_, ?_⟩
    · rw [if_neg fun both => lost both.1]
    · rw [if_neg fun both => lost both.1]

theorem State.rebindPort_other (hit : Fin 16 → Bool) (anyValid : Bool) (s : State) {n k : PortNo} (h : n ≠ k) :
    (State.rebindPort hit anyValid s n).atPortNo k = s.atPortNo k := by
  by_cases lost : s.rebound hit n = true
  · rw [State.rebindPort_rebound anyValid lost, State.lookupPort_other _ h, State.loseBinding_other _ h]
  · by_cases unknown : s.ports[n].state = .unknown ∧ anyValid = true
    · rw [State.rebindPort_unknown unknown.1 unknown.2, State.lookupPort_other _ h]
    · rw [State.rebindPort_unconcerned fun c => unknown (c.resolve_left lost)]

theorem State.rebindPort_profiles (hit : Fin 16 → Bool) (anyValid : Bool) (s : State) (n : PortNo) :
    (State.rebindPort hit anyValid s n).profiles = s.profiles :=
  State.rebindPort_keeps (·.profiles) (fun _ _ => rfl) (fun _ _ => rfl) (fun _ _ => rfl) (fun _ _ => rfl)
    (fun _ _ => rfl) hit anyValid s n

theorem State.lookupPort_conv (s : State) (n : PortNo) : (s.lookupPort n).conv = s.conv :=
  State.lookupPort_keeps (·.conv) (fun _ _ => rfl) (fun _ _ => rfl) (fun _ _ => rfl) (fun _ _ => rfl) s n

/-- R77: the entries over a port that loses its binding take NO_SOURCE. -/
theorem State.rebindPort_conv (hit : Fin 16 → Bool) (anyValid : Bool) (s : State) (n : PortNo) {k : Fin 32}
    (h : s.conv[k].cfg.sourceKind ≠ .entry) :
    (State.rebindPort hit anyValid s n).conv[k] =
      if s.rebound hit n = true ∧ s.sourcePort s.conv[k].cfg = some n ∧ s.conv[k].status ≠ .empty
      then s.conv[k].take .noSource else s.conv[k] := by
  by_cases lost : s.rebound hit n = true
  · rw [State.rebindPort_rebound anyValid lost, State.lookupPort_conv, State.loseBinding_conv s n h]
    exact if_congr (by simp [lost]) rfl rfl
  · rw [if_neg fun all => lost all.1]
    by_cases unknown : s.ports[n].state = .unknown ∧ anyValid = true
    · rw [State.rebindPort_unknown unknown.1 unknown.2, State.lookupPort_conv]
    · rw [State.rebindPort_unconcerned fun c => unknown (c.resolve_left lost)]

theorem State.rebindPort_configs (hit : Fin 16 → Bool) (anyValid : Bool) (s : State) (n : PortNo) :
    sameConfigs (State.rebindPort hit anyValid s n).conv s.conv := by
  by_cases lost : s.rebound hit n = true
  · rw [State.rebindPort_rebound anyValid lost, State.lookupPort_conv]
    exact s.loseBinding_configs n
  · by_cases unknown : s.ports[n].state = .unknown ∧ anyValid = true
    · rw [State.rebindPort_unknown unknown.1 unknown.2, State.lookupPort_conv]
      exact fun _ => rfl
    · rw [State.rebindPort_unconcerned fun c => unknown (c.resolve_left lost)]
      exact fun _ => rfl

end Sys2Proof.Machine
end

