-- ==== Sys2Proof/Proofs/ProfilesWrite.lean ====
section
/-! PROOFS. A PROFILES write (R30, R31): its pass over the ports in ascending order (log 12), with the binding, the
events and the entries of each. -/

namespace Sys2Proof.Machine

/-! ## A pass that visits each item once -/

/-- What the visit of one item makes of its own component, in a pass that visits it once. -/
theorem foldl_once {σ β ε : Type} {get : σ → ε} {f : σ → β → σ} {I : σ → Prop} (keep : ∀ s b, I s → I (f s b)) {k : β}
    (miss : ∀ s b, I s → b ≠ k → get (f s b) = get s) {l : List β} (nodup : l.Nodup) (mem : k ∈ l) {s : σ} (hs : I s) :
    ∃ u, I u ∧ get u = get s ∧ get (l.foldl f s) = get (f u k) := by
  induction l generalizing s with
  | nil => exact absurd mem List.not_mem_nil
  | cons b l ih =>
    obtain ⟨fresh, rest⟩ := List.nodup_cons.mp nodup
    by_cases here : b = k
    · subst here
      exact ⟨s, hs, rfl, foldl_missed (hit := fun c => c = b) keep miss (fun c hc same => fresh (same ▸ hc))
        (keep s b hs)⟩
    · obtain ⟨u, hu, same, after⟩ := ih rest ((List.mem_cons.mp mem).resolve_left fun h => here h.symm) (keep s b hs)
      exact ⟨u, hu, same.trans (miss s b hs here), after⟩

theorem State.atPortNo_inj {s t : State} {n : PortNo} (h : t.atPortNo n = s.atPortNo n) :
    t.ports[n] = s.ports[n] ∧ t.lines[n] = s.lines[n] ∧ t.motors[n] = s.motors[n] := by
  simpa only [State.atPortNo, Prod.mk.injEq] using h

/-! ## The pass over the ports -/

/-- Section 4.2: an entry of kind ENTRY lies on no port. -/
theorem State.kind_of_sourcePort {s : State} {c : ConvConfig} {n : PortNo} (h : s.sourcePort c = some n) :
    c.sourceKind ≠ .entry := fun kind => by
  simp only [State.sourcePort, kind, reduceCtorEq] at h

/-- R31: the rebinding of all ports. -/
def State.rebindAll (hit : Fin 16 → Bool) (anyValid : Bool) (s : State) : State :=
  allPorts.foldl (State.rebindPort hit anyValid) s

/-- R9, R31: the profiles are replaced, and then the ports are looked up. -/
theorem State.writeProfiles_eq (s : State) (first : Nat) (rs : List Profile) :
    s.writeProfiles first rs = State.rebindAll (named first rs.length) (rs.any Profile.valid)
      { s with profiles := replaceRange s.profiles first rs } := rfl

section
variable (hit : Fin 16 → Bool) (anyValid : Bool) (s : State)

theorem State.rebindAll_profiles : (State.rebindAll hit anyValid s).profiles = s.profiles :=
  foldl_invariant (I := fun t : State => t.profiles = s.profiles)
    (fun t n ht => (State.rebindPort_profiles hit anyValid t n).trans ht) allPorts rfl

/-- R31: what belongs to a port is as its own rebinding leaves it. -/
theorem State.rebindAll_at (n : PortNo) :
    ∃ u : State, u.profiles = s.profiles ∧ u.atPortNo n = s.atPortNo n ∧
      (State.rebindAll hit anyValid s).atPortNo n = (State.rebindPort hit anyValid u n).atPortNo n :=
  foldl_once (get := fun t : State => t.atPortNo n) (I := fun t : State => t.profiles = s.profiles)
    (fun t k ht => (State.rebindPort_profiles hit anyValid t k).trans ht)
    (fun t _ _ other => State.rebindPort_other hit anyValid t other) (by decide) (allPorts_eq ▸ List.mem_finRange n) rfl

/-- The configurations of the entries and the ports they lie on. -/
structure State.SameSources (s t : State) : Prop where
  configs : sameConfigs t.conv s.conv
  ports   : ∀ c, t.sourcePort c = s.sourcePort c

theorem State.rebindPort_sameSources (t : State) (n : PortNo) (h : s.SameSources t) :
    s.SameSources (State.rebindPort hit anyValid t n) where
  configs k := (State.rebindPort_configs hit anyValid t n k).trans (h.configs k)
  ports c := (State.rebindPort_keeps (fun u => u.sourcePort c) (fun _ _ => rfl) (fun _ _ => rfl) (fun _ _ => rfl)
    (fun _ _ => rfl) (fun _ _ => rfl) hit anyValid t n).trans (h.ports c)

/-- R77: an entry over a port takes NO_SOURCE when the port loses its binding, and is left otherwise. -/
theorem State.rebindAll_conv {k : Fin 32} (kind : s.conv[k].cfg.sourceKind ≠ .entry) {n : PortNo}
    (port : s.sourcePort s.conv[k].cfg = some n) :
    (State.rebindAll hit anyValid s).conv[k] =
      if s.rebound hit n = true ∧ s.conv[k].status ≠ .empty then s.conv[k].take .noSource else s.conv[k] := by
  have visit (t : State) (m : PortNo) (h : s.SameSources t) :
      (State.rebindPort hit anyValid t m).conv[k] =
        if t.rebound hit m = true ∧ m = n ∧ t.conv[k].status ≠ .empty then t.conv[k].take .noSource else t.conv[k] := by
    rw [State.rebindPort_conv hit anyValid t m (by rw [h.configs k]; exact kind)]
    refine if_congr ?_ rfl rfl
    rw [h.configs k, h.ports, port, Option.some.injEq, eq_comm (a := n)]
  obtain ⟨u, sources, same, after⟩ := foldl_once (f := State.rebindPort hit anyValid)
    (get := fun t : State => (t.atPortNo n, t.conv[k])) (I := s.SameSources)
    (fun t m h => s.rebindPort_sameSources hit anyValid t m h)
    (fun t m h other => by
      rw [State.rebindPort_other hit anyValid t other, visit t m h, if_neg fun all => other all.2.1])
    (by decide) (allPorts_eq ▸ List.mem_finRange n) ⟨fun _ => rfl, fun _ => rfl⟩
  obtain ⟨samePort, sameConv⟩ := Prod.mk.inj same
  have rebound := State.rebound_of_port (State.atPortNo_inj samePort).1 hit
  refine (congrArg Prod.snd after).trans ?_
  rw [visit u n sources, rebound, sameConv]
  exact if_congr (by simp) rfl rfl

/-- R77: an entry that lies on no port is left. -/
theorem State.rebindAll_conv_none {k : Fin 32} (kind : s.conv[k].cfg.sourceKind ≠ .entry)
    (port : s.sourcePort s.conv[k].cfg = none) : (State.rebindAll hit anyValid s).conv[k] = s.conv[k] :=
  foldl_missed (get := fun t : State => t.conv[k]) (I := s.SameSources) (hit := fun _ => False)
    (fun t m h => s.rebindPort_sameSources hit anyValid t m h)
    (fun t m h _ => by
      rw [State.rebindPort_conv hit anyValid t m (by rw [h.configs k]; exact kind), h.configs k, h.ports, port]
      exact if_neg fun all => nomatch all.2.1)
    (fun _ _ => id) ⟨fun _ => rfl, fun _ => rfl⟩

/-! ## The events and notices, port by port -/

/-- R28, R107: the bus after a port that is concerned has lost what it had. -/
def State.lostBus (b : Bus) (n : PortNo) : Bus :=
  if s.rebound hit n = true ∧ s.motors[n].regTimer ≠ none then State.endingBus { s with bus := b } n .rebound else b

/-- R28, R29: the bus after the rebinding of one port. -/
def State.announcedBus (b : Bus) (n : PortNo) : Bus :=
  if s.rebound hit n = true ∨ (s.ports[n].state = .unknown ∧ anyValid = true) then
    match lookup s.profiles s.ports[n].cls s.ports[n].variant with
    | some i => ((s.lostBus hit b n).post .portBound (portByte n) (byteOf i.val)).notify
        (.portChange n .bound .none (some i) s.ports[n].cls s.ports[n].variant)
    | none =>
      if s.ports[n].state = .unknown then s.lostBus hit b n
      else (s.lostBus hit b n).notify (.portChange n .unknown .none none s.ports[n].cls s.ports[n].variant)
  else b

theorem State.rebindPort_bus (n : PortNo) :
    (State.rebindPort hit anyValid s n).bus = s.announcedBus hit anyValid s.bus n := by
  unfold State.announcedBus
  by_cases concerned : s.rebound hit n = true ∨ (s.ports[n].state = .unknown ∧ anyValid = true)
  · obtain ⟨w, looked, ports, profiles, _, bus⟩ := State.rebindPort_concerned concerned
    rw [if_pos concerned, looked]
    cases found : lookup s.profiles s.ports[n].cls s.ports[n].variant with
    | some i =>
      rw [State.lookupPort_some (by rw [ports, profiles]; exact found), State.bindPort_bus, bus, ports]
      rfl
    | none =>
      rw [State.lookupPort_none (by rw [ports, profiles]; exact found), State.becomeUnknown_bus, bus, ports]
      rfl
  · rw [if_neg concerned, State.rebindPort_unconcerned concerned]

/-- What a port announces depends on the port and its channel, and on the profiles. -/
theorem State.announcedBus_congr {s t : State} {n : PortNo} (same : t.atPortNo n = s.atPortNo n)
    (profiles : t.profiles = s.profiles) (b : Bus) :
    t.announcedBus hit anyValid b n = s.announcedBus hit anyValid b n := by
  obtain ⟨port, _, motor⟩ := State.atPortNo_inj same
  have ending : State.endingBus { t with bus := b } n .rebound = State.endingBus { s with bus := b } n .rebound :=
    State.endingBus_congr (s := s) (t := { t with bus := b }) motor .rebound
  have lost : t.lostBus hit b n = s.lostBus hit b n := by
    rw [State.lostBus, State.lostBus, State.rebound_of_port port, motor, ending]
  unfold State.announcedBus
  rw [State.rebound_of_port port, port, profiles, lost]

/-- R31: the bus after the pass, the ports in ascending order (log 12). -/
theorem State.rebindAll_bus :
    (State.rebindAll hit anyValid s).bus = (List.finRange 6).foldl (s.announcedBus hit anyValid) s.bus := by
  have pass : ∀ (l : List PortNo), l.Nodup → ∀ t : State, t.profiles = s.profiles →
      (∀ n ∈ l, t.atPortNo n = s.atPortNo n) →
      (l.foldl (State.rebindPort hit anyValid) t).bus = l.foldl (s.announcedBus hit anyValid) t.bus := by
    intro l
    induction l with
    | nil => exact fun _ t _ _ => rfl
    | cons k l ih =>
      intro nodup t profiles same
      obtain ⟨fresh, rest⟩ := List.nodup_cons.mp nodup
      rw [List.foldl_cons, List.foldl_cons, ih rest]
      · rw [State.rebindPort_bus, State.announcedBus_congr hit anyValid (same k List.mem_cons_self) profiles]
      · exact (State.rebindPort_profiles hit anyValid t k).trans profiles
      · intro n hn
        rw [State.rebindPort_other hit anyValid t fun h : k = n => fresh (h ▸ hn)]
        exact same n (List.mem_cons_of_mem k hn)
  rw [State.rebindAll, allPorts_eq]
  exact pass _ (List.nodup_finRange 6) s rfl fun _ _ => rfl

/-! ## The concerned ports -/

/-- R31: a port that is not concerned is left. -/
theorem State.rebindAll_unconcerned {n : PortNo} (h : ¬ s.concerned hit anyValid n) :
    (State.rebindAll hit anyValid s).atPortNo n = s.atPortNo n := by
  obtain ⟨u, _, same, after⟩ := s.rebindAll_at hit anyValid n
  obtain ⟨port, _⟩ := State.atPortNo_inj same
  have unconcerned : ¬ u.concerned hit anyValid n := by
    rw [State.concerned, State.rebound_of_port port, port]
    exact h
  rw [after, State.rebindPort_unconcerned unconcerned, same]

/-- R28, R31: a concerned port is looked up with the profiles as written, its channel cleared where it lost its
binding. -/
theorem State.rebindAll_concerned {n : PortNo} (h : s.concerned hit anyValid n) :
    ∃ w : State, (State.rebindAll hit anyValid s).atPortNo n = (w.lookupPort n).atPortNo n ∧ w.profiles = s.profiles ∧
      w.ports[n] = s.ports[n] ∧
      w.motors[n] = (if s.rebound hit n = true ∧ s.motors[n].regTimer ≠ none then (s.motors[n].ended .rebound).lose
        else s.motors[n]) := by
  obtain ⟨u, uprofiles, same, after⟩ := s.rebindAll_at hit anyValid n
  obtain ⟨port, _, motor⟩ := State.atPortNo_inj same
  have concerned : u.concerned hit anyValid n := by
    rw [State.concerned, State.rebound_of_port port, port]
    exact h
  obtain ⟨w, looked, ports, profiles, motors, _⟩ := State.rebindPort_concerned concerned
  refine ⟨w, by rw [after, looked], profiles.trans uprofiles, by rw [ports, port], ?_⟩
  rw [motors, State.rebound_of_port port, motor]

theorem State.rebound_iff (n : PortNo) :
    s.rebound hit n = true ↔ s.ports[n].state = .bound ∧ ∃ i : Fin 16, s.ports[n].profile = some i ∧ hit i = true := by
  rw [State.rebound, Bool.and_eq_true, beq_iff_eq, Option.any_eq_true]

/-- R28, R96: a concerned port whose device a profile matches. -/
theorem State.rebindAll_found {n : PortNo} {i : Fin 16} (h : s.concerned hit anyValid n)
    (found : lookup s.profiles s.ports[n].cls s.ports[n].variant = some i) :
    let t := State.rebindAll hit anyValid s
    t.ports[n].state = .bound ∧ t.ports[n].profile = some i ∧ t.ports[n].missed = 0 ∧
    t.lines[n].mode = s.profiles[i].lineUse ∧
    (s.profiles[i].use = .motor →
      t.motors[n].mode = .coast ∧ t.motors[n].position = 0 ∧ t.motors[n].dutyGrant = 0 ∧
      t.motors[n].allowance = 0 ∧ t.motors[n].regTimer = some s.profiles[i].regPeriod.toNat) := by
  intro t
  obtain ⟨w, after, profiles, port, _⟩ := s.rebindAll_concerned hit anyValid h
  obtain ⟨portAfter, linesAfter, motorAfter⟩ := State.atPortNo_inj after
  have bound := State.lookupPort_some (s := w) (n := n) (by rw [port, profiles]; exact found)
  obtain ⟨q, ports, state, profile, missed, _⟩ := w.bindPort_ports n i
  rw [bound, ports, vector_set_same] at portAfter
  rw [bound, State.bindPort_lines, vector_set_same, profiles] at linesAfter
  rw [bound, State.bindPort_motors, vector_set_same, profiles] at motorAfter
  rw [portAfter, linesAfter, motorAfter]
  refine ⟨state, profile, missed, Lines.enter_mode _ _ _, fun use => ?_⟩
  rw [if_pos use]
  exact ⟨rfl, rfl, rfl, rfl, rfl⟩

/-- R28, R29: a concerned port whose device no profile matches. -/
theorem State.rebindAll_notFound {n : PortNo} (h : s.concerned hit anyValid n)
    (found : lookup s.profiles s.ports[n].cls s.ports[n].variant = none) :
    let t := State.rebindAll hit anyValid s
    t.ports[n].state = .unknown ∧ t.ports[n].profile = none ∧ t.lines[n].mode = .none := by
  intro t
  obtain ⟨w, after, profiles, port, _⟩ := s.rebindAll_concerned hit anyValid h
  obtain ⟨portAfter, linesAfter, _⟩ := State.atPortNo_inj after
  have unknown := State.lookupPort_none (s := w) (n := n) (by rw [port, profiles]; exact found)
  rw [unknown, State.becomeUnknown_ports, vector_set_same] at portAfter
  rw [unknown, State.becomeUnknown_lines, vector_set_same] at linesAfter
  rw [portAfter, linesAfter]
  exact ⟨rfl, rfl, Lines.enter_mode _ _ _⟩

/-- R107: the operation of a port that loses its binding ends REBOUND. -/
theorem State.rebindAll_ended {n : PortNo} (lost : s.rebound hit n = true) (driving : s.motors[n].mode.driving = true)
    (regulated : s.motors[n].regTimer ≠ none) :
    (State.rebindAll hit anyValid s).motors[n].outcome = .rebound ∧
    (State.rebindAll hit anyValid s).motors[n].mode = .coast := by
  obtain ⟨w, after, _, _, motor⟩ := s.rebindAll_concerned hit anyValid (Or.inl lost)
  obtain ⟨_, _, motorAfter⟩ := State.atPortNo_inj after
  rw [if_pos ⟨lost, regulated⟩] at motor
  have outcome : w.motors[n].outcome = .rebound := by
    rw [motor, Motor.ended, if_pos driving]
    rfl
  have mode : w.motors[n].mode = .coast := by rw [motor, Motor.lose_mode]
  rw [motorAfter]
  cases found : lookup w.profiles w.ports[n].cls w.ports[n].variant with
  | some i =>
    rw [State.lookupPort_some found, State.bindPort_motors, vector_set_same]
    split
    · exact ⟨outcome, rfl⟩
    · exact ⟨outcome, mode⟩
  | none =>
    rw [State.lookupPort_none found, State.becomeUnknown_motors]
    exact ⟨outcome, mode⟩

theorem State.rebindAll_kept {n : PortNo} (h : s.concerned hit anyValid n) :
    (State.rebindAll hit anyValid s).ports[n].forward = s.ports[n].forward ∧
    (State.rebindAll hit anyValid s).ports[n].pass = s.ports[n].pass := by
  obtain ⟨w, after, _, port, _⟩ := s.rebindAll_concerned hit anyValid h
  obtain ⟨portAfter, _⟩ := State.atPortNo_inj after
  rw [portAfter, ← port]
  exact w.lookupPort_kept n

end

/-- What a port announces, for a state whose profiles were replaced. -/
theorem State.announcedBus_withProfiles (s : State) (profiles : Vector Profile 16) (hit : Fin 16 → Bool)
    (anyValid : Bool) (b : Bus) (n : PortNo) :
    State.announcedBus hit anyValid { s with profiles := profiles } b n =
      if s.rebound hit n = true ∨ (s.ports[n].state = .unknown ∧ anyValid = true) then
        match lookup profiles s.ports[n].cls s.ports[n].variant with
        | some i => ((s.lostBus hit b n).post .portBound (portByte n) (byteOf i.val)).notify
            (.portChange n .bound .none (some i) s.ports[n].cls s.ports[n].variant)
        | none =>
          if s.ports[n].state = .unknown then s.lostBus hit b n
          else (s.lostBus hit b n).notify (.portChange n .unknown .none none s.ports[n].cls s.ports[n].variant)
      else b := rfl

/-- Settles O16: the profiles are replaced, and each port is as its own rebinding leaves it. -/
theorem profilesWriteRebinds : Obligations.ProfilesWriteRebinds := by
  intro s tag first count data rs clamped opens nonzero range length decoded
  have records := decodeAll_length decoded
  have passes : Table.profiles.Passes first count data := ⟨length, nonzero, range, nofun⟩
  obtain ⟨table, replaced⟩ : ∃ table, replaceRange s.profiles first.toNat rs = table := ⟨_, rfl⟩
  obtain ⟨hit, hitAt⟩ : ∃ hit : Fin 16 → Bool, ∀ i : Fin 16, decide (within first count i.val) = hit i :=
      ⟨_, fun _ => rfl⟩
  obtain ⟨anyValid, valid⟩ : ∃ anyValid, rs.any Profile.valid = anyValid := ⟨_, rfl⟩
  let written : State := { s.reserved 0x01 tag with profiles := table }
  obtain ⟨v, rebinds⟩ : ∃ v, State.rebindAll hit anyValid written = v := ⟨_, rfl⟩
  have hits : (named first.toNat rs.length : Fin 16 → Bool) = hit := by
    funext i
    rw [named_eq, records]
    exact hitAt i
  have wrote : (s.reserved 0x01 tag).writeProfiles first.toNat rs = v := by
    rw [State.writeProfiles_eq, hits, valid, show (s.reserved 0x01 tag).profiles = s.profiles from rfl, replaced]
    exact rebinds
  have owned : (s.reserved 0x01 tag).writeRecords .profiles first.toNat count.toNat data = taken clamped v := by
    rw [State.writeRecords, Table.size, decoded, ← wrote]
    rfl
  have keeps {β : Type} (F : State → β) (hBus : IgnoresBus F) (hPorts : IgnoresPorts F) (hProfiles : IgnoresProfiles F)
      (hLines : IgnoresLines F) (hConv : IgnoresConv F) (hMotors : IgnoresMotors F) :
      F v = F (s.reserved 0x01 tag) := by
    rw [← wrote]
    exact State.writeProfiles_keeps F hBus hPorts hProfiles hLines hConv hMotors _ _ _
  have link : v.link = s.link.reserve 0x01 tag :=
    keeps (·.link) (fun _ _ => rfl) (fun _ _ => rfl) (fun _ _ => rfl) (fun _ _ => rfl) (fun _ _ => rfl) (fun _ _ => rfl)
  have profiles : v.profiles = table := rebinds ▸ written.rebindAll_profiles hit anyValid
  have looksUp (n : PortNo) :
      ((s.ports[n].state = .bound ∧ ∃ i : Fin 16, s.ports[n].profile = some i ∧ within first count i.val) ∨
        (s.ports[n].state = .unknown ∧ rs.any Profile.valid = true)) ↔ written.concerned hit anyValid n := by
    rw [State.concerned, State.rebound_iff, valid]
    simp only [← hitAt, decide_eq_true_eq]
    rfl
  refine ⟨_, write_replied_of_link opens passes owned link, fun i => ?_,
    fun n => ⟨fun concerned => ?_, fun still known => ?_⟩, ?_, State.replied_link _ _ _ _ _, ?_⟩
  · rw [State.replied_profiles]
    exact (congrArg (·[i]) (profiles.trans replaced.symm)).trans
      (replaceRange_get s.profiles first.toNat count.toNat Profile.reset records i)
  · have visited := (looksUp n).mp concerned
    simp only [State.replied_profiles, State.replied_ports, State.replied_lines, State.replied_motors, profiles]
    subst rebinds
    refine ⟨fun i found => written.rebindAll_found hit _ visited found, fun found => ?_,
      fun state driving regulated => ?_, written.rebindAll_kept hit _ visited⟩
    · exact written.rebindAll_notFound hit _ visited found
    · have lost : written.rebound hit n = true :=
        visited.resolve_right fun known => nomatch state.symm.trans known.1
      exact written.rebindAll_ended hit _ lost driving regulated
  · have left : ¬ written.concerned hit anyValid n := fun h => ((looksUp n).mpr h).elim still known
    simp only [State.replied_ports, State.replied_lines, State.replied_motors]
    exact State.atPortNo_inj (rebinds ▸ written.rebindAll_unconcerned hit anyValid left)
  · have bus := written.rebindAll_bus hit anyValid
    have onPort {i : Fin 32} {n : PortNo} (port : s.sourcePort s.conv[i].cfg = some n) :=
      written.rebindAll_conv hit anyValid (k := i) (State.kind_of_sourcePort port) port
    have offPorts {i : Fin 32} := written.rebindAll_conv_none hit anyValid (k := i)
    rw [rebinds] at bus onPort offPorts
    clear rebinds wrote owned keeps
    intro rebound announced
    have loses : rebound = s.rebound hit := by
      funext n
      simp only [rebound, hitAt]
      rfl
    have announces : announced = written.announcedBus hit anyValid := by
      funext b n
      simp only [announced, State.replied_profiles, profiles, loses, valid]
      exact (State.announcedBus_withProfiles (s.reserved 0x01 tag) table hit _ b n).symm
    simp only [State.replied_bus, State.replied_conv]
    rw [announces, loses]
    refine ⟨bus, fun i n port => ⟨fun lost full => ?_, fun held => ?_⟩, fun i => offPorts⟩
    · rw [(onPort port).trans (if_pos ⟨lost, full⟩)]
      exact ⟨ConvEntry.take_status _ _, ConvEntry.take_value _ _, ConvEntry.take_noSource_prev⟩
    · exact (onPort port).trans (if_neg fun both => Bool.false_ne_true (held.symm.trans both.1))
  · exact State.keepsBut_replied (by decide) (keeps _ (State.masked_bus (by decide)) (State.masked_ports (by decide))
      (State.masked_profiles (by decide)) (State.masked_lines (by decide)) (State.masked_conv (by decide))
      (State.masked_motors (by decide)))

end Sys2Proof.Machine
end

