-- ==== Sys2Proof/Proofs/DeviceReplies.lean ====
section
/-! PROOFS. What a device-line engine makes of the bytes of a reply (R22), and how a reply ends its exchange (R34, R36,
R38). -/

namespace Sys2Proof.Machine

/-! ## A frame of the device line (R22) -/

theorem headerLength_deviceHeader (type : BitVec 3) {length : Nat} (fits : length < 32) :
    headerLength (deviceHeader type length) = length := by
  rw [headerLength, deviceHeader, BitVec.extractLsb'_append_eq_right]
  exact Nat.mod_eq_of_lt fits

theorem headerType_deviceHeader (type : BitVec 3) (length : Nat) : headerType (deviceHeader type length) = type := by
  rw [headerType, deviceHeader, BitVec.extractLsb'_append_eq_left]

/-- R22: a frame that closes is good, of the type and the payload it was made of. -/
theorem checkFrame_deviceFrame {type : BitVec 3} (reply : 4 ≤ type.toNat) (payload : List Byte) :
    checkFrame (deviceFrame type payload) = .good type payload := by
  have header : headerType (u8At (deviceFrame type payload) 0) = type := headerType_deviceHeader type payload.length
  have payloadBytes : (deviceFrame type payload).tail.dropLast = payload := List.dropLast_concat
  simp only [checkFrame, header, payloadBytes, byteSum_deviceFrame, reply, and_self, if_true]

/-- R22: a frame with another check byte is bad. -/
theorem checkFrame_wrongCheck {body : List Byte} {check : Byte} (wrong : check ≠ 255 - byteSum body) :
    checkFrame (body ++ [check]) = .bad := by
  have opens : ¬ byteSum (body ++ [check]) = 255 := fun closes => wrong (by
    rw [byteSum_append] at closes
    rw [← closes]
    bv_omega)
  exact if_neg fun both => opens both.1

/-! ## The bytes of a reply -/

theorem State.setPort_self (s : State) (n : PortNo) : s.setPort n s.ports[n] = s := by
  rw [State.setPort]
  simp

theorem State.setPort_setPort (s : State) (n : PortNo) (p q : Port) : (s.setPort n p).setPort n q = s.setPort n q := by
  simp [State.setPort]

/-- The engine of port n waits for the bytes of a reply. -/
structure State.Receiving (s : State) (n : PortNo) (x : Exchange) : Prop where
  exchange : s.ports[n].exchange = some x
  opened   : x.windowOpen = true

section
variable {s : State} {n : PortNo} {x : Exchange}

theorem State.Receiving.setGot (h : s.Receiving n x) (got : List Byte) :
    (s.setGot n x got).Receiving n { x with got := got } where
  exchange := by rw [State.setGot, State.setPort_same]
  opened := h.opened

theorem State.setGot_setGot (got more : List Byte) :
    (s.setGot n x got).setGot n { x with got := got } more = s.setGot n x more := by
  rw [State.setGot, State.setGot, State.setGot, State.setPort_same, State.setPort_setPort]

theorem State.Receiving.setGot_self (h : s.Receiving n x) : s.setGot n x x.got = s := by
  have port : { s.ports[n] with exchange := some { x with got := x.got } } = s.ports[n] := by
    rw [show ({ x with got := x.got } : Exchange) = x from rfl, ← h.exchange]
  rw [State.setGot, port, State.setPort_self]

/-- R36: a byte outside an open window is ignored. -/
theorem State.deviceByte_closed (closed : ∀ y, s.ports[n].exchange = some y → y.windowOpen = false) (b : LineByte) :
    s.deviceByte n b = s := by
  unfold State.deviceByte
  cases exchange : s.ports[n].exchange with
  | none => rfl
  | some y =>
    dsimp only
    rw [if_neg (by rw [closed y exchange]; exact Bool.false_ne_true)]

/-- R22: a byte of the frame in progress, by what it makes of the frame. -/
theorem State.Receiving.deviceByte (h : s.Receiving n x) (b : LineByte) :
    s.deviceByte n b =
      let got := x.got ++ [b.value]
      let length := headerLength (u8At got 0)
      if b.stopLow = true ∨ 25 ≤ length then (s.setGot n x []).deviceFrameIn n .bad
      else if got.length = length + 2 then (s.setGot n x []).deviceFrameIn n (checkFrame got)
      else s.setGot n x got := by
  unfold State.deviceByte
  rw [h.exchange]
  dsimp only
  rw [if_pos h.opened]
  by_cases low : b.stopLow = true
  · rw [if_pos low, if_pos (Or.inl low)]
  · rw [if_neg low]
    exact if_congr (or_iff_right low).symm rfl rfl

/-- R22: the bytes of a frame before its check byte are gathered. -/
theorem State.Receiving.deviceBytes_gathered (h : s.Receiving n x) {head : Byte} (short : headerLength head ≤ 24)
    (l g : List Byte) (room : g.length + l.length ≤ headerLength head) :
    (s.setGot n x (head :: g)).deviceBytes n (onLine l) = s.setGot n x (head :: g ++ l) := by
  induction l generalizing g with
  | nil => rw [List.append_nil]; rfl
  | cons b l ih =>
    have more : (s.setGot n x (head :: g)).deviceByte n ⟨b, false⟩ = s.setGot n x (head :: (g ++ [b])) := by
      rw [(h.setGot _).deviceByte, State.setGot_setGot]
      have length : ((head :: g) ++ [b]).length = g.length + 2 := by simp
      have waits : g.length + 2 ≠ headerLength head + 2 := by
        rw [List.length_cons] at room
        omega
      have header : headerLength (u8At (head :: g ++ [b]) 0) = headerLength head := rfl
      dsimp only
      rw [header, length, if_neg (by simp; omega), if_neg waits]
      rw [State.setGot_setGot]
      rfl
    have rest := ih (g ++ [b]) (by simp only [List.length_append, List.length_cons, List.length_nil] at room ⊢; omega)
    rw [show head :: g ++ b :: l = head :: (g ++ [b]) ++ l by simp, ← rest, ← more]
    rfl

/-- R22: a whole frame is delimited by its header and checked. -/
theorem State.Receiving.deviceBytes (h : s.Receiving n x) (fresh : x.got = []) (type : BitVec 3) {payload : List Byte}
    (short : payload.length ≤ 24) (check : Byte) :
    s.deviceBytes n (onLine (deviceHeader type payload.length :: payload ++ [check])) =
      s.deviceFrameIn n (checkFrame (deviceHeader type payload.length :: payload ++ [check])) := by
  have untouched : s.setGot n x [] = s := fresh ▸ h.setGot_self
  generalize header : deviceHeader type payload.length = head
  have length : headerLength head = payload.length := header ▸ headerLength_deviceHeader type (by omega)
  have first : s.deviceByte n ⟨head, false⟩ = s.setGot n x [head] := by
    rw [h.deviceByte, fresh, untouched]
    have one : headerLength (u8At ([] ++ [head]) 0) = headerLength head := rfl
    dsimp only
    rw [one, length, if_neg (by simp; omega), if_neg (by simp)]
    rfl
  have gathered := h.deviceBytes_gathered (head := head) (by omega) payload [] (by simp [length])
  have last : (s.setGot n x (head :: payload)).deviceByte n ⟨check, false⟩ =
      s.deviceFrameIn n (checkFrame (head :: payload ++ [check])) := by
    rw [(h.setGot _).deviceByte, State.setGot_setGot, untouched]
    have one : headerLength (u8At (head :: payload ++ [check]) 0) = headerLength head := rfl
    dsimp only
    rw [one, length, if_neg (by simp; omega), if_pos (by simp)]
  have split : s.deviceBytes n (onLine (head :: payload ++ [check])) =
      ((s.deviceByte n ⟨head, false⟩).deviceBytes n (onLine payload)).deviceByte n ⟨check, false⟩ := by
    simp [State.deviceBytes, onLine]
  rw [split, first, gathered]
  exact last

/-- R22: a byte with its stop bit low, or a header of length 25–31, is a bad frame. -/
theorem State.Receiving.deviceByte_bad (h : s.Receiving n x) (fresh : x.got = []) {b : LineByte}
    (bad : b.stopLow = true ∨ 25 ≤ b.value.toNat % 32) : s.deviceByte n b = s.deviceFrameIn n .bad := by
  have header : headerLength (u8At ([] ++ [b.value]) 0) = b.value.toNat % 32 := by
    simp [headerLength, u8At]
  have untouched : s.setGot n x [] = s := fresh ▸ h.setGot_self
  rw [h.deviceByte, fresh, untouched]
  dsimp only
  rw [header, if_pos bad]

/-! ## How a reply ends its exchange -/

theorem State.Receiving.deviceFrameIn (h : s.Receiving n x) (f : DeviceFrame) :
    s.deviceFrameIn n f =
      match x.kind with
      | .query => (s.queryReply n f).startWork n
      | .poll => (s.pollReply n f).startWork n
      | .write => (s.writeReply n f).startWork n := by
  rw [State.deviceFrameIn, h.exchange]
  exact if_pos h.opened

/-- R36: an engine that transmits or listens takes no further work. -/
theorem Port.startWork_busy {p : Port} {y : Exchange} (busy : p.exchange = some y) (service : Bool) :
    p.startWork service = p := by
  unfold Port.startWork
  rw [busy]

/-- R36: an engine without work rests. -/
theorem Port.startWork_idle {p : Port} (idle : p.exchange = none) (noPass : p.pass = none) (noPoll : p.pollDue = false)
    (noQuery : p.queryDue = false) (service : Bool) : p.startWork service = p := by
  unfold Port.startWork
  rw [idle, noPass]
  dsimp only
  rw [if_neg (ne_true_of_eq_false noPoll), if_neg (ne_true_of_eq_false noQuery)]

theorem State.startWork_resting (rests : ∀ service, s.ports[n].startWork service = s.ports[n]) : s.startWork n = s := by
  rw [State.startWork, rests, State.setPort_self]

theorem State.endExchange_port : (s.endExchange n).ports[n] = { s.ports[n] with exchange := none } :=
  State.setPort_same ..

/-- R38, R39: the pending pass-through is answered, and the engine has no exchange left. -/
theorem State.answerPass_ended {w : Pass} (pass : s.ports[n].pass = some w) (status : Status) (result : List Byte) :
    (s.endExchange n).answerPass n status result =
      (s.setPort n { s.ports[n] with exchange := none, pass := none }).finish w.place status result := by
  have ended : (s.endExchange n).ports[n].pass = some w := by rw [State.endExchange_port]; exact pass
  unfold State.answerPass
  rw [ended]
  dsimp only
  rw [State.endExchange_port, State.endExchange, State.setPort_setPort]

/-- R38: the answer of a pass-through ends its exchange; no work waits. -/
theorem State.answerPass_rests {w : Pass} (pass : s.ports[n].pass = some w) (noPoll : s.ports[n].pollDue = false)
    (noQuery : s.ports[n].queryDue = false) (status : Status) (result : List Byte) :
    ((s.endExchange n).answerPass n status result).startWork n =
      (s.setPort n { s.ports[n] with exchange := none, pass := none }).finish w.place status result := by
  rw [State.answerPass_ended pass]
  refine State.startWork_resting fun service => ?_
  rw [show (((s.setPort n { s.ports[n] with exchange := none, pass := none }).finish w.place status result).ports[n]) =
    { s.ports[n] with exchange := none, pass := none } from State.setPort_same ..]
  refine Port.startWork_idle ?_ ?_ ?_ ?_ service
  exacts [rfl, rfl, noPoll, noQuery]

/-- R38: a bad frame leaves the window of a WRITE open. -/
theorem State.Receiving.write_bad (h : s.Receiving n x) (write : x.kind = .write) : s.deviceFrameIn n .bad = s := by
  rw [h.deviceFrameIn, write]
  exact State.startWork_resting fun service => Port.startWork_busy h.exchange service

/-- R38: an ACK of at most 16 bytes answers the pass-through with them; a longer one is ignored. -/
theorem State.Receiving.write_ack (h : s.Receiving n x) (write : x.kind = .write) {w : Pass}
    (pass : s.ports[n].pass = some w) (noPoll : s.ports[n].pollDue = false) (noQuery : s.ports[n].queryDue = false)
    (payload : List Byte) :
    s.deviceFrameIn n (.good 6 payload) =
      if payload.length ≤ 16 then
        (s.setPort n { s.ports[n] with exchange := none, pass := none }).finish w.place .ok payload
      else s := by
  rw [h.deviceFrameIn, write]
  by_cases short : payload.length ≤ 16
  · rw [if_pos short, ← State.answerPass_rests pass noPoll noQuery]
    exact congrArg (State.startWork · n) (if_pos short)
  · rw [if_neg short]
    refine (congrArg (State.startWork · n) (if_neg short)).trans ?_
    exact State.startWork_resting fun service => Port.startWork_busy h.exchange service

/-- R38: a NAK answers DEVICE_NAK; a payload of its own is not looked at (log 22). -/
theorem State.Receiving.write_nak (h : s.Receiving n x) (write : x.kind = .write) {w : Pass}
    (pass : s.ports[n].pass = some w) (noPoll : s.ports[n].pollDue = false) (noQuery : s.ports[n].queryDue = false)
    (payload : List Byte) :
    s.deviceFrameIn n (.good 7 payload) =
      (s.setPort n { s.ports[n] with exchange := none, pass := none }).finish w.place .deviceNak [] := by
  rw [h.deviceFrameIn, write]
  exact State.answerPass_rests pass noPoll noQuery _ _

/-- R34: a bad frame in a poll window is a miss, here one of the first two. -/
theorem State.Receiving.poll_bad (h : s.Receiving n x) (poll : x.kind = .poll) (noPass : s.ports[n].pass = none)
    (noPoll : s.ports[n].pollDue = false) (noQuery : s.ports[n].queryDue = false) (early : s.ports[n].missed < 2) :
    s.deviceFrameIn n .bad = s.setPort n { s.ports[n] with exchange := none, missed := s.ports[n].missed + 1 } := by
  have missed : (s.endExchange n).pollMissed n =
      s.setPort n { s.ports[n] with exchange := none, missed := s.ports[n].missed + 1 } := by
    rw [State.pollMissed, State.endExchange_port]
    dsimp only
    rw [if_neg (by omega), State.endExchange, State.setPort_setPort]
  rw [h.deviceFrameIn, poll]
  refine (congrArg (State.startWork · n) missed).trans (State.startWork_resting fun service => ?_)
  rw [State.setPort_same]
  refine Port.startWork_idle ?_ ?_ ?_ ?_ service
  exacts [rfl, noPass, noPoll, noQuery]

/-- R27: a bad frame in a query window fails the try, here not the third of PROBING. -/
theorem State.Receiving.query_bad (h : s.Receiving n x) (query : x.kind = .query) (noPass : s.ports[n].pass = none)
    (noPoll : s.ports[n].pollDue = false) (noQuery : s.ports[n].queryDue = false)
    (early : ¬ (s.ports[n].state = .probing ∧ 3 ≤ s.ports[n].tries)) :
    s.deviceFrameIn n .bad = s.setPort n { s.ports[n] with exchange := none } := by
  have failed : (s.endExchange n).queryFailed n = s.endExchange n := by
    rw [State.queryFailed, State.endExchange_port]
    exact if_neg early
  rw [h.deviceFrameIn, query]
  refine (congrArg (State.startWork · n) failed).trans (State.startWork_resting fun service => ?_)
  rw [State.endExchange_port]
  refine Port.startWork_idle ?_ ?_ ?_ ?_ service
  exacts [rfl, noPass, noPoll, noQuery]

end

/-- Settles O50: the bytes are delimited and checked, and the frame ends its exchange or not, by the kind of window. -/
theorem repliesEndExchanges : Obligations.RepliesEndExchanges := by
  intro s n x w payload type check b p answered
  have badByte (low : Bool) : exec (.badDeviceFrame n [⟨b, low⟩]) s = settled (s.deviceByte n ⟨b, low⟩) := rfl
  refine ⟨fun closed => ?_, fun exchange opened fresh noPoll noQuery short => ?_⟩
  · rw [badByte, State.deviceByte_closed]
    · rfl
    · rintro y busy
      obtain idle | ⟨same, shut⟩ := closed
      · exact nomatch busy.symm.trans idle
      · exact Option.some.inj (same.symm.trans busy) ▸ shut
  have h : s.Receiving n x := ⟨exchange, opened⟩
  have bad {low : Bool} (wrong : low = true ∨ 25 ≤ b.toNat % 32) :
      exec (.badDeviceFrame n [⟨b, low⟩]) s = settled (s.deviceFrameIn n .bad) := by
    rw [badByte, h.deviceByte_bad fresh wrong]
  have lowStop := bad (low := true) (Or.inl rfl)
  have whole {type : BitVec 3} (reply : 4 ≤ type.toNat) :
      settled (s.deviceBytes n (onLine (deviceFrame type payload))) =
        settled (s.deviceFrameIn n (.good type payload)) := by
    rw [← checkFrame_deviceFrame reply payload]
    exact congrArg settled (h.deviceBytes fresh type short _)
  refine ⟨fun write pass => ⟨?_, ?_, ?_⟩, fun poll noPass early => ?_, fun query noPass early => ?_, fun long => ?_,
    fun wrong => ?_⟩
  · refine (whole (type := 6) (by decide)).trans ?_
    rw [h.write_ack write pass noPoll noQuery, settled]
    split
    · rfl
    · rfl
  · refine (whole (type := 7) (by decide)).trans ?_
    rw [h.write_nak write pass noPoll noQuery]
    rfl
  · rw [lowStop, h.write_bad write]
    rfl
  · rw [lowStop, h.poll_bad poll noPass noPoll noQuery early]
    rfl
  · rw [lowStop, h.query_bad query noPass noPoll noQuery early]
    rfl
  · rw [lowStop, bad (Or.inr long)]
  · rw [lowStop, ← checkFrame_wrongCheck wrong]
    exact congrArg settled (h.deviceBytes fresh type short check)

end Sys2Proof.Machine
end

