-- ==== Sys2Proof/Proofs/PortCommands.lean ====
section
/-! PROOFS. The PORT commands that pass their checks (R38–R43). -/

namespace Sys2Proof.Machine

/-! ## A command that passes -/

theorem toNat_portByte (n : PortNo) : (portByte n).toNat = n.val :=
  Nat.mod_eq_of_lt (n.isLt.trans (by decide))

theorem portByte_port (n : PortNo) (h : (portByte n).toNat < 6) : (⟨(portByte n).toNat, h⟩ : PortNo) = n :=
  Fin.ext (toNat_portByte n)

theorem State.portCommand_send {s : State} {n : PortNo} {data : List Byte}
    (passes : s.portRefusal n (.send data) = none) (adjusted : Bool) (order : Nat) :
    s.portCommand (portByte n) (.send data) adjusted order = .deferred (s.runPortOp n (.send data) order) := by
  rw [State.portCommand, dif_pos (by rw [toNat_portByte]; exact n.isLt), portByte_port, passes]

theorem State.portCommand_taken {s : State} {n : PortNo} {op : PortOp} (notSend : ∀ data, op ≠ .send data)
    (passes : s.portRefusal n op = none) (adjusted : Bool) (order : Nat) :
    s.portCommand (portByte n) op adjusted order = taken adjusted (s.runPortOp n op order) := by
  rw [State.portCommand, dif_pos (by rw [toNat_portByte]; exact n.isLt), portByte_port, passes]
  cases op with
  | send data => exact absurd rfl (notSend data)
  | service on => rfl
  | forward on => rfl
  | probe => rfl

/-- R7: a PORT command whose operation passes is answered once it is carried out; u is what the operation makes of the
state around the reserved place. -/
theorem portRow_taken {s u : State} {n : PortNo} {op : PortOp} (opens : s.Opens) (notSend : ∀ data, op ≠ .send data)
    (passes : s.portRefusal n op = none) (code tag : Byte) (args : List Byte) (adjusted : Bool)
    (does : (s.reserved 0x40 tag).runPortOp n op s.link.nextOrder = u.reserved 0x40 tag) (link : u.link = s.link) :
    portRow code tag (portByte n) args op adjusted s = .next (u.replied 0x40 tag (adjustedIf adjusted) []) := by
  have carried := State.portCommand_taken (s := s.reserved 0x40 tag) notSend passes adjusted s.link.nextOrder
  rw [does] at carried
  exact command_replied opens carried (congrArg Link.places link) (congrArg Link.nextOrder link)

/-! ## What the table of port states lets pass (R37) -/

/-- A port with a device that talks, BOUND or UNKNOWN. -/
structure Port.Serves (p : Port) : Prop where
  attached : p.state = .bound ∨ p.state = .unknown
  line     : p.band = some .openLine

theorem Port.Serves.smart {p : Port} (h : p.Serves) : p.smart = true := by rw [Port.smart, h.line]; rfl

theorem Port.Serves.refusal {p : Port} (h : p.Serves) (op : PortOp) : p.refusal op = none := by
  obtain bound | unknown := h.attached
  · simp only [Port.refusal, bound, h.smart, if_true]
  · simp only [Port.refusal, unknown, h.smart, if_true]

theorem State.portRefusal_of {s : State} {n : PortNo} {op : PortOp} (table : s.ports[n].refusal op = none)
    (own : s.portOpRefusal n op = none) : s.portRefusal n op = none := by
  rw [State.portRefusal, table, own]
  exact ite_self _

theorem State.portRefusal_always {s : State} {n : PortNo} {op : PortOp} (always : op.always = true) :
    s.portRefusal n op = none := if_pos always

/-! ## SEND (R38) -/

/-- R36, R38: the engine takes a pass-through when it is free. -/
theorem Port.startWork_pass {p : Port} {w : Pass} (pass : p.pass = some w) (service : Bool) :
    p.startWork service =
      { p with exchange := if p.exchange = none then some (writeExchange w.data service) else p.exchange } := by
  unfold Port.startWork
  rw [pass]
  cases busy : p.exchange with
  | none => rfl
  | some x =>
    dsimp only
    rw [if_neg nofun, ← busy, ← pass]

/-! ## SERVICE (R40, R41) -/

/-- R41: the ports once the holder of service mode, if there is one, has lost it. -/
def State.portsFreed (s : State) : Vector Port 6 :=
  s.service.elim s.ports fun k => s.ports.set k { s.ports[k] with resumes := s.ports[k].pollTimer.isSome }

theorem State.serviceOff_eq (s : State) (n : PortNo) :
    s.serviceOff n = if s.service = some n then
      { s with service := none, ports := s.ports.set n { s.ports[n] with resumes := s.ports[n].pollTimer.isSome } }
    else s := by
  rw [State.serviceOff]
  exact if_congr beq_iff_eq rfl rfl

theorem State.serviceEnds_eq (s : State) : s.serviceEnds = { s with service := none, ports := s.portsFreed } := by
  unfold State.serviceEnds State.portsFreed
  cases holder : s.service with
  | none => exact congrArg (fun o => ({ s with service := o } : State)) holder
  | some k =>
    dsimp only
    rw [State.serviceOff_eq, if_pos holder]
    rfl

/-- R40: the state in which port n has just taken service mode, its entries not yet STALE. -/
def State.selected (s : State) (n : PortNo) : State :=
  { s with service := some n,
           ports := s.portsFreed.set n { s.portsFreed[n] with missed := 0, pollDue := false, resumes := false } }

theorem State.serviceOn_eq (s : State) (n : PortNo) :
    s.serviceOn n = if s.service = some n then s else (s.selected n).portStatus n .stale := by
  rw [State.serviceOn, State.serviceEnds_eq]
  exact if_congr beq_iff_eq rfl rfl

theorem State.portsFreed_other {s : State} {n : PortNo} (h : s.service ≠ some n) : s.portsFreed[n] = s.ports[n] := by
  unfold State.portsFreed
  cases holder : s.service with
  | none => rfl
  | some k => exact vector_set_other _ (fun same : k = n => h (holder.trans (congrArg some same))) _

/-! ## PROBE (R43) -/

/-- R43: the port and its channel, before the entries, the lines and the attach. -/
def State.quieted (s : State) (n : PortNo) : State :=
  if s.ports[n].state = .bound then (s.setPort n s.ports[n].quiet).loseMotor n .rebound
  else s.setPort n s.ports[n].quiet

section
variable (s : State) (n : PortNo)

theorem State.quieted_keeps {β : Type} (F : State → β) (hBus : IgnoresBus F) (hPorts : IgnoresPorts F)
    (hMotors : IgnoresMotors F) : F (s.quieted n) = F s := by
  unfold State.quieted
  split
  · exact (State.loseMotor_keeps F hBus hMotors _ n .rebound).trans (State.setPort_keeps F hPorts s n _)
  · exact State.setPort_keeps F hPorts s n _

theorem State.quieted_ports : (s.quieted n).ports = s.ports.set n s.ports[n].quiet := by
  unfold State.quieted
  split
  · exact State.loseMotor_keeps (·.ports) (fun _ _ => rfl) (fun _ _ => rfl) _ n .rebound
  · rfl

theorem State.quieted_motors : (s.quieted n).motors = s.motors.set n
    (if s.ports[n].state = .bound ∧ s.motors[n].regTimer ≠ none then (s.motors[n].ended .rebound).lose
     else s.motors[n]) := by
  unfold State.quieted
  split
  · next bound =>
    rw [State.loseMotor_motors]
    exact congrArg (s.motors.set n ·) (if_congr (Option.isSome_iff_ne_none.trans (and_iff_right bound).symm) rfl rfl)
  · next other =>
    rw [if_neg fun both => other both.1]
    exact (vector_set_self _ _).symm

theorem State.quieted_bus : (s.quieted n).bus =
    if s.ports[n].state = .bound ∧ s.motors[n].regTimer ≠ none then s.endingBus n .rebound else s.bus := by
  unfold State.quieted
  split
  · next bound =>
    rw [State.loseMotor_bus]
    exact if_congr (and_iff_right bound).symm rfl rfl
  · next other => exact (if_neg fun both => other both.1).symm

theorem State.quieted_conv : (s.quieted n).conv = s.conv :=
  s.quieted_keeps n (·.conv) (fun _ _ => rfl) (fun _ _ => rfl) (fun _ _ => rfl)

/-- R54: a request is pending until the converter takes it. -/
theorem Scan.choose_request {c : Scan} {n : PortNo} (asked : c.idReq[n] = true) (start stop : Byte) :
    (c.choose start stop).idReq[n] = true ∨ (c.choose start stop).work = .ident n false := by
  unfold Scan.choose
  cases first : c.firstRequest with
  | none =>
    have unasked := List.find?_eq_none.mp first n (allPorts_eq ▸ List.mem_finRange n)
    exact absurd asked unasked
  | some k =>
    by_cases same : k = n
    · exact Or.inr (same ▸ rfl)
    · refine Or.inl ?_
      dsimp only
      rw [vector_set_other _ same, asked]

theorem State.requestIdent_asked : (s.requestIdent n).scan.idReq[n] = true ∨
    (s.requestIdent n).scan.work = .ident n false := by
  have asked : (s.scan.idReq.set n true)[n] = true := vector_set_same _ n true
  unfold State.requestIdent State.converterWake
  split
  · exact Scan.choose_request asked _ _
  · exact Or.inl asked
  · exact Or.inl asked

/-- R25, R43: the record of a port that is DETECTING again. -/
def Port.redetected (p : Port) : Port := { p.quiet.clearIdentity with state := .detecting, band := none }

/-- R43: the state in which a PROBE has undone what the port held. -/
def State.undone : State := ((s.quieted n).portStatus n .noSource).setLineMode n .none 0

theorem State.probe_eq : s.probe n = (s.undone n).enterDetecting n := rfl

theorem State.undone_of_conv {β : Type} (F : State → β) (hConv : IgnoresConv F) (hLines : IgnoresLines F) :
    F (s.undone n) = F (s.quieted n) :=
  (State.setLineMode_keeps F hLines _ n .none 0).trans (State.portStatus_keeps F hConv _ n .noSource)

theorem State.probe_of_scan {β : Type} (F : State → β) (hBus : IgnoresBus F) (hPorts : IgnoresPorts F)
    (hScan : IgnoresScan F) : F (s.probe n) = F (s.undone n) :=
  State.enterDetecting_keeps F hBus hPorts hScan (s.undone n) n

theorem State.enterDetecting_ports : (s.enterDetecting n).ports =
    s.ports.set n { s.ports[n].clearIdentity with state := .detecting, band := none } := by
  rw [State.enterDetecting, State.requestIdent_keeps (·.ports) (fun _ _ => rfl),
    State.portNotice_keeps (·.ports) (fun _ _ => rfl)]
  rfl

theorem State.enterDetecting_bus : (s.enterDetecting n).bus =
    (s.bus.post .portAttach (portByte n) 0).notify (.portChange n .detecting .none none 0 0) := by
  rw [State.enterDetecting, State.requestIdent_keeps (·.bus) (fun _ _ => rfl)]
  simp [State.portNotice, Port.clearIdentity]

theorem State.enterDetecting_asked : (s.enterDetecting n).scan.idReq[n] = true ∨
    (s.enterDetecting n).scan.work = .ident n false := by
  rw [State.enterDetecting]
  exact State.requestIdent_asked _ n

theorem State.probe_ports : (s.probe n).ports = s.ports.set n s.ports[n].redetected := by
  have undone : (s.undone n).ports = s.ports.set n s.ports[n].quiet :=
    (s.undone_of_conv n (·.ports) (fun _ _ => rfl) (fun _ _ => rfl)).trans (s.quieted_ports n)
  rw [State.probe_eq, State.enterDetecting_ports, undone, vector_set_same]
  simp [Port.redetected]

theorem State.probe_bus : (s.probe n).bus =
    ((s.quieted n).bus.post .portAttach (portByte n) 0).notify (.portChange n .detecting .none none 0 0) := by
  have undone : (s.undone n).bus = (s.quieted n).bus := s.undone_of_conv n (·.bus) (fun _ _ => rfl) (fun _ _ => rfl)
  rw [State.probe_eq, State.enterDetecting_bus, undone]

theorem State.probe_asked : (s.probe n).scan.idReq[n] = true ∨ (s.probe n).scan.work = .ident n false := by
  rw [State.probe_eq]
  exact (s.undone n).enterDetecting_asked n

theorem State.probe_lines : (s.probe n).lines = s.lines.set n (s.lines[n].enter .none 0) := by
  have lines : ((s.quieted n).portStatus n .noSource).lines = s.lines :=
    (State.portStatus_keeps (·.lines) (fun _ _ => rfl) _ n .noSource).trans
      (s.quieted_keeps n (·.lines) (fun _ _ => rfl) (fun _ _ => rfl) (fun _ _ => rfl))
  rw [s.probe_of_scan n (·.lines) (fun _ _ => rfl) (fun _ _ => rfl) (fun _ _ => rfl), State.undone, State.setLineMode,
    State.setLines_lines, lines]

theorem State.probe_motors : (s.probe n).motors = (s.quieted n).motors :=
  (s.probe_of_scan n (·.motors) (fun _ _ => rfl) (fun _ _ => rfl) (fun _ _ => rfl)).trans
    (s.undone_of_conv n (·.motors) (fun _ _ => rfl) (fun _ _ => rfl))

/-- R77: the entries over a probed port take NO_SOURCE. -/
theorem State.probe_conv {k : Fin 32} (port : s.sourcePort s.conv[k].cfg = some n) (full : s.conv[k].status ≠ .empty) :
    (s.probe n).conv[k].status = .noSource := by
  have source (c : ConvConfig) : (s.quieted n).sourcePort c = s.sourcePort c :=
    s.quieted_keeps n (fun t => t.sourcePort c) (fun _ _ => rfl) (fun _ _ => rfl) (fun _ _ => rfl)
  have status := (s.quieted n).portStatus_get n .noSource (k := k)
    (by rw [s.quieted_conv]; exact State.kind_of_sourcePort port)
  rw [source, s.quieted_conv, if_pos ⟨port, full⟩] at status
  rw [s.probe_of_scan n (·.conv) (fun _ _ => rfl) (fun _ _ => rfl) (fun _ _ => rfl), State.undone, State.setLineMode,
    State.setLines_conv, status]
  exact ConvEntry.take_status _ _

end

/-! ## What passes the checks -/

theorem State.send_passes {s : State} {n : PortNo} (serves : s.ports[n].Serves) (free : s.ports[n].pass = none)
    (data : List Byte) : s.portRefusal n (.send data) = none :=
  State.portRefusal_of (serves.refusal _) (if_neg (by rw [free]; exact Bool.false_ne_true))

theorem State.service_passes {s : State} {n : PortNo} (serves : s.ports[n].Serves) (free : s.ports[n].pass = none)
    (still : s.motors[n].mode.driving = false) : s.portRefusal n (.service true) = none :=
  State.portRefusal_of (serves.refusal _) (if_neg (by
    rw [free, still]
    exact not_or.mpr ⟨Bool.false_ne_true, Bool.false_ne_true⟩))

theorem State.forward_passes {s : State} {n : PortNo} {on : Byte} (h : on = 0 ∨ s.ports[n].state = .probing ∨
      ((s.ports[n].state = .bound ∨ s.ports[n].state = .unknown) ∧ s.ports[n].band = some .openLine) ∨
      (s.ports[n].state = .fault ∧ s.ports[n].fault ≠ .idShort)) : s.portRefusal n (.forward (flagIn on)) = none := by
  rcases h with off | probing | ⟨attached, line⟩ | ⟨fault, notShort⟩
  · exact State.portRefusal_always (by rw [off]; rfl)
  · exact State.portRefusal_of (by simp only [Port.refusal, probing]) rfl
  · exact State.portRefusal_of (Port.Serves.refusal ⟨attached, line⟩ _) rfl
  · exact State.portRefusal_of (by simp only [Port.refusal, fault, if_neg notShort]) rfl

theorem Port.refusal_probe {p : Port} (h : p.state = .bound ∨ p.state = .unknown ∨ p.state = .fault) :
    p.refusal .probe = none := by
  rcases h with state | state | state <;> simp only [Port.refusal, state, ite_self]

theorem State.probe_passes {s : State} {n : PortNo}
    (h : s.ports[n].state = .bound ∨ s.ports[n].state = .unknown ∨ s.ports[n].state = .fault)
    (notHeld : s.service ≠ some n) (free : s.ports[n].pass = none) : s.portRefusal n .probe = none := by
  refine State.portRefusal_of (Port.refusal_probe h) ?_
  have notServing : ¬ s.inService n = true := fun serving => notHeld (beq_iff_eq.mp serving)
  exact (if_neg notServing).trans (if_neg (by rw [free]; exact Bool.false_ne_true))

/-! ## The commands -/

/-- R38: SEND becomes the pending pass-through, its place RESERVED. -/
theorem portSend_acts {s : State} {n : PortNo} {data : List Byte} (opens : s.Opens) (least : 1 ≤ data.length)
    (most : data.length ≤ 16) (serves : s.ports[n].Serves) (free : s.ports[n].pass = none) (tag : Byte) :
    exec (.portSend tag (portByte n) data) s = settled
      { s with
        ports := s.ports.set n { s.ports[n] with
          pass := some { place := s.link.nextOrder, data := data }
          exchange := if s.ports[n].exchange = none then some (writeExchange data (s.inService n))
            else s.ports[n].exchange }
        link := s.link.reserve 0x40 tag } := by
  have passes : (s.reserved 0x40 tag).portRefusal n (.send data) = none := State.send_passes serves free data
  have carried := State.portCommand_send passes false s.link.nextOrder
  have runs : (s.reserved 0x40 tag).runPortOp n (.send data) s.link.nextOrder =
      { s with
        ports := s.ports.set n { s.ports[n] with
          pass := some { place := s.link.nextOrder, data := data }
          exchange := if s.ports[n].exchange = none then some (writeExchange data (s.inService n))
            else s.ports[n].exchange }
        link := s.link.reserve 0x40 tag } := by
    rw [State.runPortOp, State.startWork, State.setPort_same, Port.startWork_pass rfl, State.setPort_setPort]
    rfl
  have form : exec (.portSend tag (portByte n) data) s = portRow 0 tag (portByte n) data (.send data) false s :=
    if_pos ⟨least, most⟩
  rw [runs] at carried
  rw [form, portRow, command, State.submit_of_opens opens, State.carryOut]
  dsimp only
  rw [show ({ s with link := s.link.reserve Kind.port.code tag } : State) = s.reserved 0x40 tag from rfl, carried]

/-- R42: FORWARD sets its flag. -/
theorem portForward_acts {s : State} {n : PortNo} {tag on : Byte} (opens : s.Opens)
    (passes : s.portRefusal n (.forward (flagIn on)) = none) :
    exec (.portForward tag (portByte n) on) s = .next (State.replied
      { s with ports := s.ports.set n { s.ports[n] with forward := on != 0 } } 0x40 tag
      (adjustedIf (decide (2 ≤ on.toNat))) []) :=
  portRow_taken opens (by nofun) passes 2 tag [on] (flagClamped on) rfl rfl

/-- R41: SERVICE off frees the selection, if the port holds it. -/
theorem portServiceOff_acts {s : State} (opens : s.Opens) (n : PortNo) (tag : Byte) :
    exec (.portServiceOff tag (portByte n)) s = .next (State.replied
      (if s.service = some n then
        { s with service := none, ports := s.ports.set n { s.ports[n] with resumes := s.ports[n].pollTimer.isSome } }
       else s) 0x40 tag .ok []) := by
  refine portRow_taken opens (by nofun) (State.portRefusal_always rfl) 1 tag [0] false ?_ ?_
  · refine ((s.reserved 0x40 tag).serviceOff_eq n).trans ?_
    by_cases holds : s.service = some n
    · exact (if_pos holds).trans (by rw [if_pos holds]; rfl)
    · exact (if_neg holds).trans (by rw [if_neg holds])
  · split <;> rfl

/-- R40: SERVICE on for the port that has it changes nothing. -/
theorem portServiceOn_held {s : State} {n : PortNo} {tag on : Byte} (opens : s.Opens)
    (passes : s.portRefusal n (.service true) = none) (isOn : flagIn on = true) (held : s.service = some n) :
    exec (.portServiceOn tag (portByte n) on) s =
      .next (s.replied 0x40 tag (adjustedIf (decide (2 ≤ on.toNat))) []) := by
  have runs : (s.reserved 0x40 tag).runPortOp n (.service true) s.link.nextOrder = s.reserved 0x40 tag :=
    ((s.reserved 0x40 tag).serviceOn_eq n).trans (if_pos held)
  have row := portRow_taken opens (by nofun) passes 1 tag [on] (flagClamped on) runs rfl
  rw [← isOn] at row
  exact row

/-- R40: SERVICE on takes the selection, drops missed and a due POLL and makes the entries of the port STALE. -/
theorem portServiceOn_takes {s : State} {n : PortNo} {tag on : Byte} (opens : s.Opens)
    (passes : s.portRefusal n (.service true) = none) (isOn : flagIn on = true) (other : s.service ≠ some n) :
    exec (.portServiceOn tag (portByte n) on) s = .next (State.replied
      { s.selected n with conv := (((s.reserved 0x40 tag).selected n).portStatus n .stale).conv } 0x40 tag
      (adjustedIf (decide (2 ≤ on.toNat))) []) := by
  have stale := ((s.reserved 0x40 tag).selected n).portStatus_restatused n .stale
  generalize marked : ((s.reserved 0x40 tag).selected n).portStatus n .stale = v at stale ⊢
  have runs : (s.reserved 0x40 tag).runPortOp n (.service true) s.link.nextOrder =
      State.reserved { s.selected n with conv := v.conv } 0x40 tag := by
    refine ((s.reserved 0x40 tag).serviceOn_eq n).trans ((if_neg other).trans (marked.trans ?_))
    exact congrArg (fun t : State => { t with conv := v.conv }) stale.rest
  have row := portRow_taken opens (by nofun) passes 1 tag [on] (flagClamped on) runs rfl
  rw [← isOn] at row
  exact row

/-- R76: the entries of a port that has just taken service mode. -/
theorem State.selected_stale {s : State} {n : PortNo} {k : Fin 32} (port : s.sourcePort s.conv[k].cfg = some n)
    (full : s.conv[k].status ≠ .empty) : ((s.selected n).portStatus n .stale).conv[k].status = .stale := by
  have status := (s.selected n).portStatus_get n .stale (k := k) (State.kind_of_sourcePort (s := s) port)
  rw [status.trans (if_pos ⟨port, full⟩)]
  exact ConvEntry.take_status _ _

/-- R43: PROBE sends the port back to DETECTING. -/
theorem portProbe_acts {s : State} {n : PortNo} (opens : s.Opens) (passes : s.portRefusal n .probe = none) (tag :
    Byte) :
    exec (.portProbe tag (portByte n)) s =
      .next (State.replied { (s.reserved 0x40 tag).probe n with link := s.link } 0x40 tag .ok []) := by
  have link : ((s.reserved 0x40 tag).probe n).link = s.link.reserve 0x40 tag :=
    State.probe_keeps (·.link) (fun _ _ => rfl) (fun _ _ => rfl) (fun _ _ => rfl) (fun _ _ => rfl) (fun _ _ => rfl)
      (fun _ _ => rfl) _ n
  have runs : (s.reserved 0x40 tag).runPortOp n .probe s.link.nextOrder = (s.reserved 0x40 tag).probe n := rfl
  generalize (s.reserved 0x40 tag).probe n = v at link runs ⊢
  exact portRow_taken opens (by nofun) passes 3 tag [] false (runs.trans (by rw [State.reserved, ← link])) rfl

/-- Settles O52: each command passes its checks, and its operation is carried out. -/
theorem portCommandsAct : Obligations.PortCommandsAct := by
  intro s tag on data n opens least most p ready
  have ready_iff : ready = true ↔ p.Serves ∧ p.pass = none :=
    decide_eq_true_iff.trans ⟨fun ⟨attached, line, free⟩ => ⟨⟨attached, line⟩, free⟩,
      fun ⟨serves, free⟩ => ⟨serves.attached, serves.line, free⟩⟩
  refine ⟨fun isReady => ?_, fun onNonzero isReady still => ?_, portServiceOff_acts opens n tag,
    fun taken => portForward_acts opens (State.forward_passes taken), fun attached notHeld free => ?_⟩
  · obtain ⟨serves, free⟩ := ready_iff.mp isReady
    have window : (if s.inService n = true then 100 else 10) = if s.service = some n then 100 else 10 :=
      if_congr beq_iff_eq rfl rfl
    rw [portSend_acts opens least most serves free, writeExchange, window]
    rfl
  · obtain ⟨serves, free⟩ := ready_iff.mp isReady
    have passes := State.service_passes serves free still
    have isOn := (flagIn_iff on).mpr onNonzero
    by_cases held : s.service = some n
    · exact ⟨_, portServiceOn_held opens passes isOn held, fun _ => rfl, fun other => absurd held other⟩
    · refine ⟨_, portServiceOn_takes opens passes isOn held, fun same => absurd same held, fun _ => ?_⟩
      have stale (i : Fin 32) := ((s.reserved 0x40 tag)).selected_stale (n := n) (k := i)
      generalize ((s.reserved 0x40 tag).selected n).portStatus n .stale = v at stale ⊢
      simp only [State.replied_service, State.replied_ports, State.replied_conv]
      refine ⟨rfl, ?_, stale, rfl⟩
      rw [State.selected, State.portsFreed_other held]
      cases holder : s.service with
      | none => simp only [State.portsFreed, holder, Option.elim_none]; rfl
      | some k => simp only [State.portsFreed, holder, Option.elim_some]; rfl
  · refine ⟨_, portProbe_acts opens (State.probe_passes attached notHeld free) tag, ?_⟩
    have ports := (s.reserved 0x40 tag).probe_ports n
    have bus := (s.reserved 0x40 tag).probe_bus n
    have lines := (s.reserved 0x40 tag).probe_lines n
    have asked := (s.reserved 0x40 tag).probe_asked n
    have motors := ((s.reserved 0x40 tag).probe_motors n).trans ((s.reserved 0x40 tag).quieted_motors n)
    have conv (i : Fin 32) := (s.reserved 0x40 tag).probe_conv n (k := i)
    have kept := State.probe_keeps (State.masked s [.link, .ports, .scan, .lines, .motors, .conv, .bus, .reportQueue])
      (State.masked_bus (by decide)) (State.masked_ports (by decide)) (State.masked_scan (by decide))
      (State.masked_lines (by decide)) (State.masked_conv (by decide)) (State.masked_motors (by decide))
      (s.reserved 0x40 tag) n
    rw [State.quieted_bus] at bus
    generalize (s.reserved 0x40 tag).probe n = v at ports bus lines asked motors conv kept ⊢
    have off : v.lines[n].mode = .none := by
      rw [lines, vector_set_same]
      exact Lines.enter_mode _ _ _
    have stopped (bound : p.state = .bound) (driving : s.motors[n].mode.driving = true)
        (regulated : s.motors[n].regTimer ≠ none) :
        v.motors[n].mode = .coast ∧ v.motors[n].outcome = .rebound ∧ v.motors[n].regTimer = none := by
      rw [motors, vector_set_same, if_pos ⟨bound, regulated⟩]
      exact ⟨rfl, congrArg Motor.outcome (if_pos driving), rfl⟩
    have others (k : PortNo) (other : k ≠ n) : v.lines[k] = s.lines[k] ∧ v.motors[k] = s.motors[k] := by
      rw [lines, motors]
      exact ⟨vector_set_other _ other.symm _, vector_set_other _ other.symm _⟩
    simp only [State.replied_ports, State.replied_bus, State.replied_lines, State.replied_motors, State.replied_conv,
      State.replied_scan]
    exact ⟨ports, fun _ => bus, off, asked, stopped, others, conv, State.replied_link _ _ _ _ _,
      State.keepsBut_replied (by decide) kept⟩

end Sys2Proof.Machine
end

