-- ==== Sys2Proof/Proofs/PortStates.lean ====
section
/-! PROOFS. What the states of a port leave behind, block by block: the entry to FAULT (R34), the entry to PROBING (R26,
R27), the answer of a pass-through (R38, R39) and a detach (R44). -/

namespace Sys2Proof.Machine

/-- Section 4.2: which port a source lies on is a matter of the SCAN LIST. -/
theorem State.sourcePort_of_scan {s t : State} (h : t.scan.slots = s.scan.slots) (c : ConvConfig) :
    t.sourcePort c = s.sourcePort c := by
  unfold State.sourcePort
  rw [h]

/-- R76, R77: an entry over a port that is not EMPTY takes the status; t differs from s before the pass only beside the
table and the SCAN LIST. -/
theorem State.portStatus_taken {s t : State} (conv : t.conv = s.conv) (slots : t.scan.slots = s.scan.slots) {n : PortNo}
    (st : ConvStatus) {k : Fin 32} (port : s.sourcePort s.conv[k].cfg = some n) (full : s.conv[k].status ≠ .empty) :
    (t.portStatus n st).conv[k].status = st := by
  have status := t.portStatus_get n st (k := k) (by rw [conv]; exact State.kind_of_sourcePort port)
  rw [State.sourcePort_of_scan slots, conv, if_pos ⟨port, full⟩] at status
  rw [status]
  exact ConvEntry.take_status _ _

/-- R107: a channel that loses its binding, where it has one. -/
def Motor.unbound (m : Motor) (o : Outcome) : Motor := if m.regTimer ≠ none then (m.ended o).lose else m

theorem State.loseMotor_unbound (s : State) (n : PortNo) (o : Outcome) :
    (s.loseMotor n o).motors = s.motors.set n (s.motors[n].unbound o) := by
  rw [State.loseMotor_motors]
  exact congrArg (s.motors.set n ·) (if_congr Option.isSome_iff_ne_none rfl rfl)

/-! ## Becoming BOUND (R28, R32) -/

/-- R28: the record of a port that becomes BOUND, its polling not yet started. -/
def Port.boundTo (p : Port) (i : Fin 16) : Port :=
  { p with state := .bound, fault := .none, profile := some i, missed := 0 }

/-- R28, R32: a smart port is polled from its binding on. -/
def Port.polled (p : Port) (pr : Profile) (service : Bool) : Port :=
  if p.smart then
    Port.startWork { p with pollDue := !service, pollTimer := some (pollInterval pr p), resumes := false } service
  else p

theorem State.startPolling_polled (s : State) (n : PortNo) (pr : Profile) :
    (s.startPolling n pr).ports = s.ports.set n (s.ports[n].polled pr (s.inService n)) := by
  unfold State.startPolling Port.polled
  dsimp only
  split
  · rw [State.startWork, State.setPort_same, State.setPort_setPort]
    rfl
  · exact (vector_set_self _ _).symm

theorem State.bindPort_polled (s : State) (n : PortNo) (i : Fin 16) :
    (s.bindPort n i).ports =
      s.ports.set n ((s.ports[n].boundTo i).polled s.profiles[i] (s.inService n)) := by
  let said : State := (((s.setPort n (s.ports[n].boundTo i)).post .portBound (portByte n)
    (BitVec.ofNat 8 i.val)).portNotice n).setLineMode n s.profiles[i].lineUse s.profiles[i].debounceMs.toNat
  have ports : (s.bindPort n i).ports = (said.startPolling n s.profiles[i]).ports := by
    unfold State.bindPort
    dsimp only
    split <;> rfl
  have record : said.ports[n] = s.ports[n].boundTo i := State.setPort_same ..
  have others : said.ports = s.ports.set n (s.ports[n].boundTo i) := rfl
  rw [ports, State.startPolling_polled, record, others]
  simp [said, State.inService, State.setLineMode, State.portNotice]

/-! ## The entry to FAULT (R34) -/

/-- R34: the record of a port that enters FAULT. -/
def Port.faulted (p : Port) (reason : FaultReason) : Port :=
  { p with state := .fault, fault := reason, profile := none, pollDue := false, pollTimer := none,
           resumes := false, queryDue := false, queryTimer := none, reprobeTimer := some 500 }

/-- R29, R34: the port is in FAULT and has said so; its channel and its entries are as they were. -/
def State.faultSaid (s : State) (n : PortNo) (reason : FaultReason) : State :=
  (((s.setPort n (s.ports[n].faulted reason)).post .portFault (portByte n)
    (codeIn FaultReason.list reason)).portNotice n).setLineMode n .none 0

section
variable (s : State) (n : PortNo) (reason : FaultReason)

theorem State.enterFault_eq : s.enterFault n reason =
    (if s.ports[n].state = .bound then (s.faultSaid n reason).loseMotor n .sourceLost
     else s.faultSaid n reason).portStatus n .stale := rfl

/-- A component that the loss of the channel and the statuses leave is as the entry to FAULT said it. -/
theorem State.enterFault_of_said {β : Type} (F : State → β) (hBus : IgnoresBus F) (hConv : IgnoresConv F)
    (hMotors : IgnoresMotors F) : F (s.enterFault n reason) = F (s.faultSaid n reason) := by
  rw [State.enterFault_eq, State.portStatus_keeps F hConv]
  split
  · exact State.loseMotor_keeps F hBus hMotors _ n .sourceLost
  · rfl

theorem State.enterFault_ports : (s.enterFault n reason).ports = s.ports.set n (s.ports[n].faulted reason) :=
  s.enterFault_of_said n reason (·.ports) (fun _ _ => rfl) (fun _ _ => rfl) (fun _ _ => rfl)

theorem State.enterFault_lines : (s.enterFault n reason).lines = s.lines.set n (s.lines[n].enter .none 0) :=
  s.enterFault_of_said n reason (·.lines) (fun _ _ => rfl) (fun _ _ => rfl) (fun _ _ => rfl)

theorem State.enterFault_motors : (s.enterFault n reason).motors = s.motors.set n
    (if s.ports[n].state = .bound then s.motors[n].unbound .sourceLost else s.motors[n]) := by
  rw [State.enterFault_eq, State.portStatus_keeps (·.motors) (fun _ _ => rfl)]
  split
  · exact State.loseMotor_unbound _ n .sourceLost
  · exact (vector_set_self _ _).symm

/-- R29: what an entry to FAULT posts and notices. -/
def State.faultBus : Bus :=
  (s.bus.post .portFault (portByte n) (codeIn FaultReason.list reason)).notify
    (.portChange n .fault reason none s.ports[n].cls s.ports[n].variant)

theorem State.faultSaid_bus : (s.faultSaid n reason).bus = s.faultBus n reason := by
  simp [State.faultSaid, State.setLineMode, State.portNotice, State.faultBus, Port.faulted]

theorem State.enterFault_bus : (s.enterFault n reason).bus =
    if s.ports[n].state = .bound ∧ s.motors[n].regTimer ≠ none then
      State.endingBus { s with bus := s.faultBus n reason } n .sourceLost
    else s.faultBus n reason := by
  rw [State.enterFault_eq, State.portStatus_keeps (·.bus) (fun _ _ => rfl)]
  split
  · next bound =>
    rw [State.loseMotor_bus, State.endingBus_congr (s := s) (t := s.faultSaid n reason) rfl, s.faultSaid_bus]
    exact if_congr (and_iff_right bound).symm rfl rfl
  · next other =>
    rw [if_neg fun both => other both.1]
    exact s.faultSaid_bus n reason

/-- R76: the entries over a port in FAULT are STALE. -/
theorem State.enterFault_stale {k : Fin 32} (port : s.sourcePort s.conv[k].cfg = some n)
    (full : s.conv[k].status ≠ .empty) : (s.enterFault n reason).conv[k].status = .stale := by
  rw [State.enterFault_eq]
  refine State.portStatus_taken ?_ ?_ .stale port full
  · split
    · exact State.loseMotor_keeps (·.conv) (fun _ _ => rfl) (fun _ _ => rfl) _ n .sourceLost
    · rfl
  · split
    · exact State.loseMotor_keeps (·.scan.slots) (fun _ _ => rfl) (fun _ _ => rfl) _ n .sourceLost
    · rfl

end

/-! ## The entry to PROBING (R26, R27) -/

/-- R26, R27: the record of a port that enters PROBING, before its engine takes up the try. -/
def Port.probed (p : Port) : Port := { p with state := .probing, tries := 0, queryDue := true }

section
variable (s : State) (n : PortNo)

theorem State.enterProbing_ports :
    (s.enterProbing n).ports = s.ports.set n (s.ports[n].probed.startWork (s.inService n)) := by
  have noticed : ((s.setPort n s.ports[n].probed).portNotice n).ports[n] = s.ports[n].probed := State.setPort_same ..
  have started : s.enterProbing n = ((s.setPort n s.ports[n].probed).portNotice n).startWork n := rfl
  rw [started, State.startWork, noticed]
  simp [State.portNotice, State.inService]

theorem State.enterProbing_bus : (s.enterProbing n).bus = s.bus.notify
    (.portChange n .probing s.ports[n].fault s.ports[n].profile s.ports[n].cls s.ports[n].variant) := by
  rw [State.enterProbing, State.startWork_keeps (·.bus) (fun _ _ => rfl)]
  simp [State.portNotice]

/-! ## The result of an ID measurement (R26, R35) -/

/-- R26, R35: a port whose ID measurement counts. -/
def Port.Measured (p : Port) : Prop := p.state = .detecting ∨ (p.state = .fault ∧ p.fault = .idShort)

/-- R23: the record with the band of the measurement. -/
def Port.banded (p : Port) (b : Band) : Port := { p with band := some b }

/-- R26: a class band gives the class, and variant 0. -/
def Port.classed (p : Port) (c : Byte) : Port := { p with cls := c, variant := 0 }

theorem State.identResult_discarded {s : State} {n : PortNo} (h : ¬ s.ports[n].Measured) (code : BitVec 12) :
    s.identResult n code = s := if_neg h

theorem State.identResult_short {s : State} {n : PortNo} {code : BitVec 12} (h : s.ports[n].Measured)
    (band : bandOf code.toNat = .short) :
    s.identResult n code =
      if s.ports[n].state = .fault then s.setPort n (s.ports[n].banded .short)
      else (s.setPort n (s.ports[n].banded .short)).enterFault n .idShort := by
  unfold State.identResult
  rw [band]
  exact if_pos h

theorem State.identResult_passive {s : State} {n : PortNo} {code : BitVec 12} {c : Byte} (h : s.ports[n].Measured)
    (band : bandOf code.toNat = .passive c) :
    s.identResult n code =
      (s.setPort n ((s.ports[n].banded (.passive c)).leaveFault.classed c)).lookupPort n := by
  unfold State.identResult
  rw [band]
  exact if_pos h

theorem State.identResult_open {s : State} {n : PortNo} {code : BitVec 12} (h : s.ports[n].Measured)
    (band : bandOf code.toNat = .openLine) :
    s.identResult n code = (s.setPort n (s.ports[n].banded .openLine).leaveFault).enterProbing n := by
  unfold State.identResult
  rw [band]
  exact if_pos h

/-! ## The answer of a pass-through (R38, R39) -/

theorem State.answerPass_ports (status : Status) (result : List Byte) :
    (s.answerPass n status result).ports = s.ports.set n { s.ports[n] with pass := none } := by
  unfold State.answerPass
  split
  · next none =>
    have same : ({ s.ports[n] with pass := Option.none } : Port) = s.ports[n] := by rw [← none]
    rw [same]
    exact (vector_set_self _ _).symm
  · rfl

/-- R38, R39: the answer goes to the place of the pass-through. -/
theorem State.answerPass_link (status : Status) (result : List Byte) :
    (s.answerPass n status result).link = match s.ports[n].pass with
      | none => s.link
      | some w => s.link.finish w.place { status := status, result := result } := by
  unfold State.answerPass
  cases s.ports[n].pass <;> rfl

/-! ## A detach (R44) -/

/-- R44: the pass-through is answered and the channel lost. -/
def State.unhanded : State := (s.answerPass n .noDevice []).loseMotor n .detached

/-- R44: the entries and the lines of the port have lost their source. -/
def State.unlined : State := ((s.unhanded n).portStatus n .noSource).setLineMode n .none 0

/-- R44: what the port held is undone, but for its record. -/
def State.cleared : State := ((s.unlined n).serviceOff n).cancelIdent n

theorem State.detach_eq : s.detach n =
    (((s.cleared n).setPort n (s.cleared n).ports[n].detached).post .portDetach (portByte n) 0).portNotice n := rfl

theorem State.detach_of_cleared {β : Type} (F : State → β) (hBus : IgnoresBus F) (hPorts : IgnoresPorts F) :
    F (s.detach n) = F (s.cleared n) := by
  rw [State.detach_eq, State.portNotice_keeps F hBus, State.post_keeps F hBus, State.setPort_keeps F hPorts]

theorem State.cleared_of_unlined {β : Type} (F : State → β) (hPorts : IgnoresPorts F) (hService : IgnoresService F)
    (hScan : IgnoresScan F) : F (s.cleared n) = F (s.unlined n) := by
  rw [State.cleared, State.cancelIdent_keeps F hScan, State.serviceOff_keeps F hPorts hService]

theorem State.unlined_of_unhanded {β : Type} (F : State → β) (hLines : IgnoresLines F) (hConv : IgnoresConv F) :
    F (s.unlined n) = F (s.unhanded n) := by
  rw [State.unlined, State.setLineMode_keeps F hLines, State.portStatus_keeps F hConv]

theorem State.unhanded_keeps {β : Type} (F : State → β) (hLink : IgnoresLink F) (hBus : IgnoresBus F)
    (hPorts : IgnoresPorts F) (hMotors : IgnoresMotors F) : F (s.unhanded n) = F s := by
  rw [State.unhanded, State.loseMotor_keeps F hBus hMotors, State.answerPass_keeps F hLink hPorts]

theorem State.unhanded_ports : (s.unhanded n).ports = s.ports.set n { s.ports[n] with pass := none } :=
  (State.loseMotor_keeps (·.ports) (fun _ _ => rfl) (fun _ _ => rfl) _ n .detached).trans
    (s.answerPass_ports n .noDevice [])

/-- R41: service mode is lost where the port holds it. -/
theorem State.serviceOff_ports : (s.serviceOff n).ports = s.ports.set n
    (if s.service = some n then { s.ports[n] with resumes := s.ports[n].pollTimer.isSome } else s.ports[n]) := by
  rw [State.serviceOff_eq]
  split
  · rfl
  · exact (vector_set_self _ _).symm

theorem State.serviceOff_service : (s.serviceOff n).service = if s.service = some n then none else s.service := by
  rw [State.serviceOff_eq]
  split <;> rfl

theorem State.unlined_ports : (s.unlined n).ports = s.ports.set n { s.ports[n] with pass := none } :=
  (s.unlined_of_unhanded n (·.ports) (fun _ _ => rfl) (fun _ _ => rfl)).trans (s.unhanded_ports n)

theorem State.unlined_service : (s.unlined n).service = s.service :=
  (s.unlined_of_unhanded n (·.service) (fun _ _ => rfl) (fun _ _ => rfl)).trans
    (s.unhanded_keeps n (·.service) (fun _ _ => rfl) (fun _ _ => rfl) (fun _ _ => rfl) (fun _ _ => rfl))

theorem State.unlined_lines : (s.unlined n).lines = s.lines.set n (s.lines[n].enter .none 0) := by
  have before : ((s.unhanded n).portStatus n .noSource).lines = s.lines :=
    (State.portStatus_keeps (·.lines) (fun _ _ => rfl) _ n .noSource).trans
      (s.unhanded_keeps n (·.lines) (fun _ _ => rfl) (fun _ _ => rfl) (fun _ _ => rfl) (fun _ _ => rfl))
  rw [State.unlined, State.setLineMode, State.setLines_lines, before]

theorem State.unhanded_motors : (s.unhanded n).motors = s.motors.set n (s.motors[n].unbound .detached) := by
  rw [State.unhanded, State.loseMotor_unbound,
    State.answerPass_keeps (·.motors) (fun _ _ => rfl) (fun _ _ => rfl) s n .noDevice []]

/-- R44: the record of a port whose device left, its pass-through answered. -/
theorem State.detach_ports : (s.detach n).ports = s.ports.set n { s.ports[n].detached with pass := none } := by
  have cleared : ∃ resumes : Bool, (s.cleared n).ports =
      s.ports.set n { s.ports[n] with pass := none, resumes := resumes } := by
    rw [State.cleared, State.cancelIdent_keeps (·.ports) (fun _ _ => rfl), State.serviceOff_ports, s.unlined_ports,
      vector_set_same]
    split
    · exact ⟨s.ports[n].pollTimer.isSome, by simp⟩
    · exact ⟨s.ports[n].resumes, by simp⟩
  obtain ⟨resumes, ports⟩ := cleared
  rw [State.detach_eq, State.portNotice_keeps (·.ports) (fun _ _ => rfl), State.post_ports, State.setPort_ports, ports,
    vector_set_same]
  simp [Port.detached, Port.clearIdentity, Port.quiet]

theorem State.detach_motors : (s.detach n).motors = s.motors.set n (s.motors[n].unbound .detached) := by
  rw [s.detach_of_cleared n (·.motors) (fun _ _ => rfl) (fun _ _ => rfl),
    s.cleared_of_unlined n (·.motors) (fun _ _ => rfl) (fun _ _ => rfl) (fun _ _ => rfl),
    s.unlined_of_unhanded n (·.motors) (fun _ _ => rfl) (fun _ _ => rfl), s.unhanded_motors]

theorem State.detach_service : (s.detach n).service = if s.service = some n then none else s.service := by
  rw [s.detach_of_cleared n (·.service) (fun _ _ => rfl) (fun _ _ => rfl), State.cleared,
    State.cancelIdent_keeps (·.service) (fun _ _ => rfl), State.serviceOff_service, s.unlined_service]

/-- R39: of the link, a detach touches the place of the pass-through only. -/
theorem State.detach_link : (s.detach n).link = (s.answerPass n .noDevice []).link := by
  rw [s.detach_of_cleared n (·.link) (fun _ _ => rfl) (fun _ _ => rfl),
    s.cleared_of_unlined n (·.link) (fun _ _ => rfl) (fun _ _ => rfl) (fun _ _ => rfl),
    s.unlined_of_unhanded n (·.link) (fun _ _ => rfl) (fun _ _ => rfl)]
  exact State.loseMotor_keeps (·.link) (fun _ _ => rfl) (fun _ _ => rfl) _ n .detached

theorem State.answerPass_link_state (status : Status) (result : List Byte) :
    (s.answerPass n status result).link.state = s.link.state := by
  rw [State.answerPass_link]
  split <;> rfl

theorem State.detach_lines : (s.detach n).lines = s.lines.set n (s.lines[n].enter .none 0) := by
  rw [s.detach_of_cleared n (·.lines) (fun _ _ => rfl) (fun _ _ => rfl),
    s.cleared_of_unlined n (·.lines) (fun _ _ => rfl) (fun _ _ => rfl) (fun _ _ => rfl), s.unlined_lines]

end

end Sys2Proof.Machine
end

