-- ==== Sys2Proof/Proofs/Guarding.lean ====
section
/-! PROOFS. What a channel needs to drive (R40, R83, R87, R105–R107), port by port: what keeps it, and what every block
operation keeps. -/

namespace Sys2Proof.Machine

/-! ## One port and its channel -/

/-- Chapter 5: the port is BOUND to a profile of the table whose use is MOTOR. -/
def Port.motorBound (p : Port) (profiles : Vector Profile 16) : Bool :=
  p.state == .bound && p.profile.any fun i => profiles[i].use == .motor

theorem State.motorProfile_isSome (s : State) (n : PortNo) :
    (s.motorProfile n).isSome = s.ports[n].motorBound s.profiles := by
  unfold State.motorProfile State.boundProfile Port.motorBound
  split
  · next i state profile => rw [state, profile, Option.isSome_filter]; rfl
  · next other =>
    cases profile : s.ports[n].profile with
    | none => exact (Bool.and_false _).symm
    | some i => rw [beq_false_of_ne fun state => other i state profile]; rfl

theorem Port.motorBound_of_state {p : Port} (h : p.state ≠ .bound) (profiles : Vector Profile 16) :
    p.motorBound profiles = false := by
  simp [Port.motorBound, h]

theorem Port.motorBound_congr {p q : Port} (state : q.state = p.state) (profile : q.profile = p.profile)
    (profiles : Vector Profile 16) : q.motorBound profiles = p.motorBound profiles := by
  rw [Port.motorBound, Port.motorBound, state, profile]

/-- The exchange in flight is a QUERY. -/
def Port.querying (p : Port) : Bool := p.exchange.any fun x => x.kind == .query

/-- R27, R35: no query try waits, runs or is timed, and the re-probe timer is stopped. -/
structure Port.Calm (p : Port) : Prop where
  due     : p.queryDue = false
  timer   : p.queryTimer = none
  flight  : p.querying = false
  reprobe : p.reprobeTimer = none

theorem Port.Calm.phased {p : Port} (h : p.Calm) : p.Phased where
  query := fun work => by
    rcases work with due | timed | flight
    · exact absurd (h.due.symm.trans due) (by decide)
    · rw [h.timer] at timed
      exact absurd timed (by decide)
    · exact absurd (h.flight.symm.trans flight) (by decide)
  reprobe := fun runs => by
    rw [h.reprobe] at runs
    exact absurd runs (by decide)

/-- R27, R34: a port outside PROBING and the FAULTs that are queried has no query work. -/
theorem Port.Phased.unasked {p : Port} (h : p.Phased)
    (outside : ¬ (p.state = .probing ∨ (p.state = .fault ∧ p.fault ≠ .idShort))) :
    p.queryDue = false ∧ p.queryTimer = none ∧ p.querying = false := by
  have quiet := fun work => outside (h.query work)
  refine ⟨?_, ?_, ?_⟩
  · exact Bool.eq_false_of_not_eq_true fun due => quiet (Or.inl due)
  · exact Option.not_isSome_iff_eq_none.mp fun timed => quiet (Or.inr (Or.inl timed))
  · exact Bool.eq_false_of_not_eq_true fun flight => quiet (Or.inr (Or.inr flight))

theorem Port.Phased.reprobe_none {p : Port} (h : p.Phased) (outside : p.state ≠ .fault) : p.reprobeTimer = none :=
  Option.not_isSome_iff_eq_none.mp fun runs => outside (h.reprobe runs)

theorem Port.Phased.calm {p : Port} (h : p.Phased) (notProbing : p.state ≠ .probing) (notFault : p.state ≠ .fault) :
    p.Calm :=
  have ⟨due, timer, flight⟩ := h.unasked (not_or.mpr ⟨notProbing, fun fault => notFault fault.1⟩)
  ⟨due, timer, flight, h.reprobe_none notFault⟩

/-- R26, R35: a port whose ID measurement counts is not BOUND and has no query work. -/
theorem Port.Phased.measured {p : Port} (h : p.Phased) (measured : p.Measured) :
    p.state ≠ .bound ∧ p.queryDue = false ∧ p.queryTimer = none ∧ p.querying = false := by
  refine ⟨fun bound => ?_, h.unasked ?_⟩
  · rcases measured with detecting | ⟨fault, _⟩
    · exact nomatch bound.symm.trans detecting
    · exact nomatch bound.symm.trans fault
  · rcases measured with detecting | ⟨fault, idShort⟩
    · rintro (probing | ⟨fault, _⟩)
      · exact nomatch probing.symm.trans detecting
      · exact nomatch fault.symm.trans detecting
    · rintro (probing | ⟨_, other⟩)
      · exact nomatch probing.symm.trans fault
      · exact other idShort

/-- A port of the same state with no more query and re-probe work. -/
theorem Port.Phased.mono {p q : Port} (h : p.Phased) (state : q.state = p.state) (fault : q.fault = p.fault)
    (due : q.queryDue = true → p.queryDue = true) (timer : q.queryTimer.isSome = true → p.queryTimer.isSome = true)
    (flight : q.querying = true → p.querying = true)
    (reprobe : q.reprobeTimer.isSome = true → p.reprobeTimer.isSome = true) : q.Phased where
  query := fun work => by
    rw [state, fault]
    exact h.query (work.imp due (Or.imp timer flight))
  reprobe := fun runs => state.trans (h.reprobe (reprobe runs))

/-- R27, R36: the engine's next work keeps to the state of the port. -/
theorem Port.Phased.startWork {p : Port} (h : p.Phased) (service : Bool) : (p.startWork service).Phased := by
  unfold Port.startWork
  split
  · exact h
  · exact h.mono rfl rfl id id (fun flight => absurd flight (by simp [Port.querying, writeExchange])) id
  · split_ifs with poll query
    · exact h.mono rfl rfl id id (fun flight => absurd flight (by simp [Port.querying, pollExchange])) id
    · have asked : p.state = .probing ∨ (p.state = .fault ∧ p.fault ≠ .idShort) := h.query (Or.inl query)
      unfold Port.beginQuery
      dsimp only
      split <;> exact ⟨fun _ => asked, h.reprobe⟩
    · exact h

/-- R28, R32: the start of polling is no query work. -/
theorem Port.Calm.polled {p : Port} (h : p.Calm) (pr : Profile) (service : Bool) : (p.polled pr service).Calm := by
  unfold Port.polled
  split
  · unfold Port.startWork
    split
    · exact ⟨h.due, h.timer, h.flight, h.reprobe⟩
    · exact ⟨h.due, h.timer, by simp [Port.querying, writeExchange], h.reprobe⟩
    · dsimp only
      rw [if_neg (ne_true_of_eq_false h.due)]
      split
      · exact ⟨h.due, h.timer, by simp [Port.querying, pollExchange], h.reprobe⟩
      · exact ⟨h.due, h.timer, h.flight, h.reprobe⟩
  · exact h

theorem Port.polled_kept (p : Port) (pr : Profile) (service : Bool) :
    (p.polled pr service).state = p.state ∧ (p.polled pr service).profile = p.profile := by
  unfold Port.polled
  split
  · have kept := Port.startWork_kept
      { p with pollDue := !service, pollTimer := some (pollInterval pr p), resumes := false } service
    exact ⟨kept.1, kept.2.1⟩
  · exact ⟨rfl, rfl⟩

theorem Port.leaveFault_state (p : Port) : p.leaveFault.state = p.state := by
  unfold Port.leaveFault
  split <;> rfl

theorem Port.leaveFault_profile (p : Port) : p.leaveFault.profile = p.profile := by
  unfold Port.leaveFault
  split <;> rfl

/-- R35: a port that leaves FAULT has no re-probe timer, and any other has none. -/
theorem Port.leaveFault_calm {p : Port} (phased : p.Phased) (due : p.queryDue = false) (timer : p.queryTimer = none)
    (flight : p.querying = false) : p.leaveFault.Calm := by
  unfold Port.leaveFault
  split
  · exact ⟨due, timer, flight, rfl⟩
  · next notFault => exact ⟨due, timer, flight, phased.reprobe_none notFault⟩

/-- A start of an operation leaves the regulation timer (R84, R107). -/
theorem Motor.start_regTimer (m : Motor) (op : MotorOp) (notify : Bool) (stamp : Half) :
    (m.start op notify stamp).regTimer = m.regTimer := by
  cases op <;> rfl

/-- O59 of one port and its channel: `clear` says that neither service mode, silence nor BROWNOUT forbids driving. -/
structure Guarding (profiles : Vector Profile 16) (clear : Prop) (p : Port) (m : Motor) : Prop where
  phased : p.Phased
  timed  : p.motorBound profiles = true → m.regTimer.isSome = true
  drives : m.mode.driving = true → p.motorBound profiles = true ∧ clear

section
variable {profiles : Vector Profile 16} {clear : Prop} {p : Port} {m : Motor}

/-- A channel of a port that is not BOUND rests. -/
theorem Guarding.rests (h : Guarding profiles clear p m) (notBound : p.state ≠ .bound) : m.mode.driving = false :=
  Bool.eq_false_of_not_eq_true fun driving => by
    have bound := (h.drives driving).1
    rw [Port.motorBound_of_state notBound] at bound
    exact absurd bound (by decide)

/-- A channel that rests satisfies its part. -/
theorem Guarding.resting {q : Port} {m' : Motor} (phased : q.Phased)
    (timed : q.motorBound profiles = true → m'.regTimer.isSome = true) (rests : m'.mode.driving = false) :
    Guarding profiles clear q m' := ⟨phased, timed, fun driving => absurd (rests.symm.trans driving) (by decide)⟩

/-- A port that is not BOUND, with a channel that rests. -/
theorem Guarding.unbound {q : Port} {m' : Motor} (phased : q.Phased) (notBound : q.state ≠ .bound)
    (rests : m'.mode.driving = false) : Guarding profiles clear q m' :=
  Guarding.resting phased
    (fun bound => absurd ((Port.motorBound_of_state notBound profiles).symm.trans bound) (by decide)) rests

/-- A record of the same state and profile. -/
theorem Guarding.port (h : Guarding profiles clear p m) {q : Port} (phased : q.Phased) (state : q.state = p.state)
    (profile : q.profile = p.profile) : Guarding profiles clear q m where
  phased := phased
  timed := fun bound => h.timed ((Port.motorBound_congr state profile profiles).symm.trans bound)
  drives := fun driving =>
    have ⟨bound, free⟩ := h.drives driving
    ⟨(Port.motorBound_congr state profile profiles).trans bound, free⟩

/-- A channel with its regulation timer that starts no driving. -/
theorem Guarding.motor (h : Guarding profiles clear p m) {m' : Motor} (timer : m'.regTimer = m.regTimer)
    (drives : m'.mode.driving = true → m.mode.driving = true) : Guarding profiles clear p m' where
  phased := h.phased
  timed := fun bound => timer ▸ h.timed bound
  drives := fun driving => h.drives (drives driving)

theorem Guarding.mono (h : Guarding profiles clear p m) {clear' : Prop} (hc : clear → clear') :
    Guarding profiles clear' p m where
  phased := h.phased
  timed := h.timed
  drives := fun driving => have ⟨bound, free⟩ := h.drives driving; ⟨bound, hc free⟩

/-- R107: a channel that loses its binding rests. -/
theorem Motor.unbound_rests {o : Outcome} (timed : m.mode.driving = true → m.regTimer.isSome = true) :
    (m.unbound o).mode.driving = false := by
  unfold Motor.unbound
  split
  · rfl
  · next stopped =>
    refine Bool.eq_false_of_not_eq_true fun driving => ?_
    rw [not_not.mp stopped] at timed
    exact absurd (timed driving) (by decide)

theorem Guarding.lost_rests (h : Guarding profiles clear p m) (o : Outcome) : (m.unbound o).mode.driving = false :=
  Motor.unbound_rests fun driving => h.timed (h.drives driving).1

end

/-! ## Every port -/

/-- R40, R105, R106: nothing of the part forbids channel n to drive. -/
def State.Clear (s : State) (n : PortNo) : Prop :=
  s.inService n = false ∧ s.link.state = .active ∧ s.budget.record.state ≠ .brownout

/-- O59 of every port. -/
def State.Guarded (s : State) : Prop :=
  ∀ n : PortNo, Guarding s.profiles (s.Clear n) s.ports[n] s.motors[n]

theorem State.guarded_iff (s : State) : s.Guarded ↔ s.PortsPhased ∧ s.BoundTimed ∧ s.DrivesSafely := by
  constructor
  · intro h
    refine ⟨fun n => (h n).phased, fun n bound => (h n).timed (s.motorProfile_isSome n ▸ bound), fun n driving => ?_⟩
    obtain ⟨bound, service, link, budget⟩ := (h n).drives driving
    exact ⟨(s.motorProfile_isSome n).trans bound, service, link, budget⟩
  · rintro ⟨phased, timed, safe⟩ n
    refine ⟨phased n, fun bound => timed n ((s.motorProfile_isSome n).trans bound), fun driving => ?_⟩
    have may := safe n driving
    exact ⟨(s.motorProfile_isSome n).symm.trans may.bound, may.service, may.link, may.budget⟩

/-- What Clear speaks of, and the profiles. -/
def State.context (s : State) : Vector Profile 16 × Option PortNo × LinkState × BudgetState :=
  (s.profiles, s.service, s.link.state, s.budget.record.state)

/-- R87: a driving operation that is not refused finds a channel that may drive. -/
theorem State.motorRefusal_passed {s : State} {n : PortNo} {op : MotorOp} (passes : s.motorRefusal n op = none)
    (driving : op.driving = true) : s.ports[n].motorBound s.profiles = true ∧ s.Clear n := by
  rw [← s.motorProfile_isSome]
  cases op
  case coast | brake | setCount => exact absurd driving Bool.false_ne_true
  all_goals
    unfold State.motorRefusal at passes
    dsimp only at passes
    split at passes
    · exact absurd passes nofun
    · split at passes
      · exact absurd passes nofun
      · next p bound =>
        split_ifs at passes with budget service silent
        refine ⟨Option.isSome_of_eq_some bound, Bool.eq_false_of_not_eq_true service, ?_, budget⟩
        cases state : s.link.state with
        | active => rfl
        | silent => exact absurd state silent

namespace State.Guarded

variable {s t : State}

/-- A step that changes the record and the channel of one port. -/
theorem of_one (hs : s.Guarded) (n : PortNo) {p : Port} {m : Motor} (ports : t.ports = s.ports.set n p)
    (motors : t.motors = s.motors.set n m) (profiles : t.profiles = s.profiles)
    (clear : ∀ k, k ≠ n → s.Clear k → t.Clear k) (here : Guarding s.profiles (t.Clear n) p m) : t.Guarded := by
  intro k
  rw [ports, motors, profiles]
  by_cases same : k = n
  · subst same
    rw [vector_set_same, vector_set_same]
    exact here
  · have other : n ≠ k := fun e => same e.symm
    rw [vector_set_other _ other, vector_set_other _ other]
    exact (hs k).mono (clear k same)

/-- The same where what Clear speaks of stands. -/
theorem of_port (hs : s.Guarded) (n : PortNo) {p : Port} {m : Motor} (ports : t.ports = s.ports.set n p)
    (motors : t.motors = s.motors.set n m) (context : t.context = s.context)
    (here : Guarding s.profiles (s.Clear n) p m) : t.Guarded := by
  obtain ⟨profiles, service, link, budget⟩ : _ ∧ _ ∧ _ ∧ _ := by
    simpa only [State.context, Prod.mk.injEq] using context
  have clear (k : PortNo) : t.Clear k = s.Clear k := by
    simp only [State.Clear, State.inService, service, link, budget]
  exact hs.of_one n ports motors profiles (fun k _ => (clear k).symm ▸ id) ((clear n).symm ▸ here)

theorem setPort (hs : s.Guarded) (n : PortNo) {p : Port} (here : Guarding s.profiles (s.Clear n) p s.motors[n]) :
    (s.setPort n p).Guarded := hs.of_port n rfl (vector_set_self _ _).symm rfl here

/-- A record with the state, the profile and the query work of the port. -/
theorem setPort_same (hs : s.Guarded) (n : PortNo) {p : Port} (phased : p.Phased)
    (state : p.state = s.ports[n].state := by rfl) (profile : p.profile = s.ports[n].profile := by rfl) :
    (s.setPort n p).Guarded := hs.setPort n ((hs n).port phased state profile)

/-- A channel that keeps its regulation timer and its mode. -/
theorem setMotor_same (hs : s.Guarded) (n : PortNo) {m : Motor}
    (timer : m.regTimer = s.motors[n].regTimer := by rfl) (mode : m.mode = s.motors[n].mode := by rfl) :
    (s.setMotor n m).Guarded :=
  hs.of_port n (vector_set_self _ _).symm rfl rfl ((hs n).motor timer fun driving => mode ▸ driving)

/-- The channel of one port changes; it keeps its regulation timer, and drives only where it drove or may drive. -/
theorem of_motor (hs : s.Guarded) (n : PortNo) {m : Motor} (motors : t.motors = s.motors.set n m)
    (ports : t.ports = s.ports) (context : t.context = s.context) (timer : m.regTimer = s.motors[n].regTimer)
    (drives : m.mode.driving = true → s.motors[n].mode.driving = true ∨
      (s.ports[n].motorBound s.profiles = true ∧ s.Clear n)) : t.Guarded := by
  refine hs.of_port n (ports.trans (vector_set_self _ _).symm) motors context
    ⟨(hs n).phased, fun bound => timer ▸ (hs n).timed bound, fun driving => ?_⟩
  exact (drives driving).elim (hs n).drives id

/-! ## Motors -/

theorem stopMotor (hs : s.Guarded) (n : PortNo) (o : Outcome) {mode : MotorMode} (rests : mode.driving = false) :
    (s.stopMotor n o mode).Guarded :=
  hs.of_motor n (s.stopMotor_motors n o mode)
    (State.stopMotor_keeps (·.ports) (fun _ _ => rfl) (fun _ _ => rfl) s n o _)
    (State.stopMotor_keeps State.context (fun _ _ => rfl) (fun _ _ => rfl) s n o _) (Motor.ended_regTimer _ o)
    fun driving => absurd (rests.symm.trans driving) (by decide)

/-- R86: a HOLD may follow where the channel was driving. -/
theorem finishMotor (hs : s.Guarded) (n : PortNo) (target : Word) (drives : s.motors[n].mode.driving = true) :
    (s.finishMotor n target).Guarded := by
  refine hs.of_motor n (s.finishMotor_motors n target)
    (State.finishMotor_keeps (·.ports) (fun _ _ => rfl) (fun _ _ => rfl) s n _)
    (State.finishMotor_keeps State.context (fun _ _ => rfl) (fun _ _ => rfl) s n _) ?_ fun _ => Or.inl drives
  split <;> exact Motor.ended_regTimer _ .done

theorem runMotorOp (hs : s.Guarded) {n : PortNo} {op : MotorOp} (passes : s.motorRefusal n op = none) (notify : Bool) :
    (s.runMotorOp n op notify).Guarded := by
  have runs (m : Motor) (begun : s.motors[n].regTimer = m.regTimer) (driving : op.driving = true)
      (motors : (s.runMotorOp n op notify).motors = s.motors.set n m) : (s.runMotorOp n op notify).Guarded :=
    hs.of_motor n motors (State.runMotorOp_keeps (·.ports) (fun _ _ => rfl) (fun _ _ => rfl) (fun _ _ => rfl) s n op _)
      (State.runMotorOp_keeps State.context (fun _ _ => rfl) (fun _ _ => rfl) (fun _ _ => rfl) s n op _) begun.symm
      fun _ => Or.inr (State.motorRefusal_passed passes driving)
  have motors := s.runMotorOp_motors n op notify
  have timer := Motor.start_regTimer (s.motors[n].ended .superseded) op notify s.bus.stamp
  rw [Motor.ended_regTimer] at timer
  cases op
  case coast => exact hs.stopMotor n _ rfl
  case brake => exact hs.stopMotor n _ rfl
  case setCount => exact hs.setMotor_same n
  all_goals exact runs _ timer.symm rfl motors

theorem markUpdate (hs : s.Guarded) (n : PortNo) (p0 p1 : Word) : (s.markUpdate n p0 p1).Guarded :=
  (State.markUpdate_keeps State.Guarded (fun _ _ => rfl) (fun _ _ => rfl) s n p0 p1).mpr hs

theorem sourceUpdate (hs : s.Guarded) (reads : ConvConfig → Option Int) : (s.sourceUpdate reads).Guarded :=
  (State.sourceUpdate_keeps State.Guarded (fun _ _ => rfl) (fun _ _ => rfl) (fun _ _ => rfl) (fun _ _ => rfl) s
    reads).mpr hs

theorem quadraturePosition (hs : s.Guarded) (n : PortNo) (p0 p1 : Word) : (s.quadraturePosition n p0 p1).Guarded := by
  unfold State.quadraturePosition
  split
  · exact hs
  · refine markUpdate ?_ n p0 p1
    split
    · exact hs.setMotor_same n
    · exact hs

theorem fieldPosition (hs : s.Guarded) (n : PortNo) : (s.fieldPosition n).Guarded := by
  unfold State.fieldPosition
  split
  · exact hs
  · split
    · dsimp only
      split
      · exact hs.setMotor_same n
      · split
        · exact hs
        · exact (hs.setMotor_same n).markUpdate n _ _
    · exact hs

theorem stallCheck (hs : s.Guarded) (n : PortNo) (p : Profile) : (s.stallCheck n p).Guarded := by
  have counted (c : Nat) (episode : Bool) :
      (s.setMotor n { s.motors[n] with stallCount := c, stallEpisode := episode }).Guarded := hs.setMotor_same n
  have warned (c : Nat) (episode warn : Bool) :
      (if warn then
        (s.setMotor n { s.motors[n] with stallCount := c, stallEpisode := episode }).post .stallWarn (portByte n) 0
       else s.setMotor n { s.motors[n] with stallCount := c, stallEpisode := episode }).Guarded := by
    split <;> exact counted c episode
  unfold State.stallCheck
  dsimp only
  split
  · split
    · exact stopMotor (warned _ _ _) n _ (SafeAction.mode_driving _)
    · exact warned _ _ _
  · exact counted _ _

theorem completionCheck (hs : s.Guarded) (n : PortNo) (p : Profile) : (s.completionCheck n p).Guarded := by
  have counted (c : Nat) : (s.setMotor n { s.motors[n] with inposCount := c }).Guarded := hs.setMotor_same n
  have ends (running : s.motors[n].mode = .runTo) (c : Nat) (complete : Prop) [Decidable complete] :
      (if complete then
        (s.setMotor n { s.motors[n] with inposCount := c }).finishMotor n s.motors[n].targetPosition
       else (s.setMotor n { s.motors[n] with inposCount := c }).stallCheck n p).Guarded := by
    split
    · refine (counted c).finishMotor n _ ?_
      rw [State.setMotor_same]
      exact congrArg MotorMode.driving running
    · exact (counted c).stallCheck n p
  unfold State.completionCheck
  dsimp only
  split
  · next running => exact ends running _ _
  · exact hs.stallCheck n p

theorem regulation (hs : s.Guarded) (n : PortNo) (p : Profile) : (s.regulation n p).Guarded := by
  have measured : (s.measure n p).Guarded := (hs.setMotor_same n).sourceUpdate _
  unfold State.regulation
  dsimp only
  split
  · split
    · exact measured.stopMotor n _ (SafeAction.mode_driving _)
    · exact (measured.setMotor_same n).completionCheck n p
  · split
    · exact measured.stallCheck n p
    · exact measured

/-- R105, R106: once every channel has been told to stop, none drives. -/
theorem allStopped (hs : s.Guarded) (o : Outcome) (ports : t.ports = s.ports) (motors : t.motors = s.motors)
    (profiles : t.profiles = s.profiles) : (t.stopAll o).Guarded := by
  intro n
  have stopped : (t.stopAll o).ports = s.ports ∧ (t.stopAll o).profiles = s.profiles :=
    ⟨(State.stopAll_keeps (·.ports) (fun _ _ => rfl) (fun _ _ => rfl) t o).trans ports,
      (State.stopAll_keeps (·.profiles) (fun _ _ => rfl) (fun _ _ => rfl) t o).trans profiles⟩
  rw [stopped.1, stopped.2, State.stopAll_motors, motors]
  unfold State.safelyEnded
  split
  · exact Guarding.resting (hs n).phased (fun bound => (Motor.ended_regTimer _ o).symm ▸ (hs n).timed bound)
      (t.safeMode_driving n)
  · next rests => exact Guarding.resting (hs n).phased (hs n).timed (Bool.eq_false_of_not_eq_true rests)

/-! ## Ports -/

theorem startWork (hs : s.Guarded) (n : PortNo) : (s.startWork n).Guarded :=
  have ⟨state, profile, _⟩ := Port.startWork_kept s.ports[n] (s.inService n)
  hs.setPort_same n ((hs n).phased.startWork _) state profile

theorem endExchange (hs : s.Guarded) (n : PortNo) : (s.endExchange n).Guarded :=
  hs.setPort_same n ((hs n).phased.mono rfl rfl id id (fun flight => absurd flight Bool.false_ne_true) id)

theorem answerPass (hs : s.Guarded) (n : PortNo) (status : Status) (result : List Byte) :
    (s.answerPass n status result).Guarded := by
  unfold State.answerPass
  split
  · exact hs
  · exact hs.setPort_same n ((hs n).phased.mono rfl rfl id id id id)

/-- R34: an entry to FAULT; no QUERY is in flight. -/
theorem enterFault (hs : s.Guarded) (n : PortNo) (reason : FaultReason) (flight : s.ports[n].querying = false) :
    (s.enterFault n reason).Guarded := by
  refine hs.of_port n (s.enterFault_ports n reason) (s.enterFault_motors n reason)
    (s.enterFault_of_said n reason State.context (fun _ _ => rfl) (fun _ _ => rfl) (fun _ _ => rfl)) ?_
  refine Guarding.unbound ⟨fun work => ?_, fun _ => rfl⟩ (by simp [Port.faulted]) ?_
  · rcases work with due | timed | query
    · exact absurd due Bool.false_ne_true
    · exact absurd timed Bool.false_ne_true
    · exact absurd (flight.symm.trans query) Bool.false_ne_true
  · split
    · exact (hs n).lost_rests .sourceLost
    · next other => exact (hs n).rests other

theorem enterDetecting (hs : s.Guarded) (n : PortNo) (calm : s.ports[n].Calm) (other : s.ports[n].state ≠ .bound) :
    (s.enterDetecting n).Guarded := by
  refine hs.of_port n (s.enterDetecting_ports n) (m := s.motors[n])
    ((State.enterDetecting_keeps (·.motors) (fun _ _ => rfl) (fun _ _ => rfl) (fun _ _ => rfl) s n).trans
      (vector_set_self _ _).symm)
    (State.enterDetecting_keeps State.context (fun _ _ => rfl) (fun _ _ => rfl) (fun _ _ => rfl) s n) ?_
  exact Guarding.unbound (Port.Calm.phased ⟨calm.due, calm.timer, calm.flight, calm.reprobe⟩) (by simp)
    ((hs n).rests other)

theorem enterProbing (hs : s.Guarded) (n : PortNo) (reprobe : s.ports[n].reprobeTimer = none)
    (other : s.ports[n].state ≠ .bound) : (s.enterProbing n).Guarded := by
  refine hs.of_port n (s.enterProbing_ports n) (m := s.motors[n])
    ((State.enterProbing_keeps (·.motors) (fun _ _ => rfl) (fun _ _ => rfl) s n).trans (vector_set_self _ _).symm)
    (State.enterProbing_keeps State.context (fun _ _ => rfl) (fun _ _ => rfl) s n) ?_
  have probed : s.ports[n].probed.Phased := ⟨fun _ => Or.inl rfl, fun runs => by
    rw [show s.ports[n].probed.reprobeTimer = none from reprobe] at runs
    exact absurd runs (by decide)⟩
  refine Guarding.unbound (probed.startWork _) ?_ ((hs n).rests other)
  rw [(Port.startWork_kept _ _).1]
  exact nofun

end State.Guarded

/-- R28: the lookup of a port without query work, whose channel rests. -/
theorem State.lookupPort_guarding (s : State) (n : PortNo) (calm : s.ports[n].Calm)
    (rests : s.motors[n].mode.driving = false) (clear : Prop) :
    Guarding s.profiles clear (s.lookupPort n).ports[n] (s.lookupPort n).motors[n] := by
  cases found : lookup s.profiles s.ports[n].cls s.ports[n].variant with
  | none =>
    rw [State.lookupPort_none found, State.becomeUnknown_ports, State.becomeUnknown_motors, vector_set_same]
    exact Guarding.unbound (Port.Calm.phased ⟨calm.due, calm.timer, calm.flight, calm.reprobe⟩) (by simp) rests
  | some i =>
    have bound : (s.ports[n].boundTo i).Calm := ⟨calm.due, calm.timer, calm.flight, calm.reprobe⟩
    rw [State.lookupPort_some found, State.bindPort_polled, State.bindPort_motors, vector_set_same, vector_set_same]
    refine Guarding.resting (bound.polled _ _).phased (fun motor => ?_) ?_
    · have use : s.profiles[i].use = .motor := by
        rw [Port.motorBound, (Port.polled_kept _ _ _).1, (Port.polled_kept _ _ _).2] at motor
        exact beq_iff_eq.mp motor
      rw [if_pos use]
      rfl
    · split
      · rfl
      · exact rests

end Sys2Proof.Machine
end

