-- ==== Sys2Proof/Proofs/Driving.lean ====
section
/-! PROOFS. Every step keeps driving modes to channels that may drive: the exchanges of the ports, the writes and
operations of commands, the reactions and the budget window. -/

namespace Sys2Proof.Machine

namespace State.Guarded

variable {s : State}

/-- A run of operations, each of which keeps the invariants. -/
theorem foldl {γ : Type} {f : State → γ → State} (h : ∀ (s : State) (a : γ), s.Guarded → (f s a).Guarded) (l : List γ)
    (hs : s.Guarded) : (l.foldl f s).Guarded := foldl_invariant (I := State.Guarded) h l hs

/-! ## Identification -/

theorem lookupPort (hs : s.Guarded) (n : PortNo) (calm : s.ports[n].Calm) (notBound : s.ports[n].state ≠ .bound) :
    (s.lookupPort n).Guarded := by
  have context := State.lookupPort_keeps State.context (fun _ _ => rfl) (fun _ _ => rfl) (fun _ _ => rfl)
    (fun _ _ => rfl) s n
  obtain ⟨profiles, service, link, budget⟩ : _ ∧ _ ∧ _ ∧ _ := by
    simpa only [State.context, Prod.mk.injEq] using context
  intro k
  rw [profiles]
  by_cases same : n = k
  · subst same
    exact s.lookupPort_guarding n calm ((hs n).rests notBound) _
  · obtain ⟨port, _, motor⟩ := State.atPortNo_inj (s.lookupPort_other same)
    rw [port, motor]
    refine (hs k).mono ?_
    simp only [State.Clear, State.inService, service, link, budget]
    exact id

/-- The same for a port whose record has changed, but for its state and its profile. -/
theorem lookupAs (hs : s.Guarded) (n : PortNo) {q : Port} (state : q.state = s.ports[n].state)
    (profile : q.profile = s.ports[n].profile) (calm : q.Calm) (notBound : s.ports[n].state ≠ .bound) :
    ((s.setPort n q).lookupPort n).Guarded := by
  refine (hs.setPort_same n calm.phased state profile).lookupPort n ?_ ?_
  · rw [State.setPort_same]
    exact calm
  · rw [State.setPort_same, state]
    exact notBound

/-- R26, R35: the result of an ID measurement. -/
theorem identResult (hs : s.Guarded) (n : PortNo) (code : BitVec 12) : (s.identResult n code).Guarded := by
  by_cases measured : s.ports[n].Measured
  · obtain ⟨notBound, due, timer, flight⟩ := (hs n).phased.measured measured
    have phased (b : Band) : (s.ports[n].banded b).Phased := (hs n).phased.mono rfl rfl id id id id
    have left (b : Band) : (s.ports[n].banded b).leaveFault.Calm := Port.leaveFault_calm (phased b) due timer flight
    have state (b : Band) := Port.leaveFault_state (s.ports[n].banded b)
    have profile (b : Band) := Port.leaveFault_profile (s.ports[n].banded b)
    cases band : bandOf code.toNat with
    | short =>
      have banded : (s.setPort n (s.ports[n].banded .short)).Guarded := hs.setPort_same n (phased _)
      rw [State.identResult_short measured band]
      split
      · exact banded
      · refine banded.enterFault n _ ?_
        rw [State.setPort_same]
        exact flight
    | passive c =>
      have calm := left (.passive c)
      rw [State.identResult_passive measured band]
      exact hs.lookupAs n (state _) (profile _) ⟨calm.due, calm.timer, calm.flight, calm.reprobe⟩ notBound
    | openLine =>
      rw [State.identResult_open measured band]
      refine (hs.setPort_same n (left _).phased (state _) (profile _)).enterProbing n ?_ ?_
      · rw [State.setPort_same]
        exact (left _).reprobe
      · rw [State.setPort_same, state]
        exact notBound
  · rw [State.identResult_discarded measured]
    exact hs

/-! ## Exchanges -/

theorem queryFailed (hs : s.Guarded) (n : PortNo) (flight : s.ports[n].querying = false) :
    (s.queryFailed n).Guarded := by
  unfold State.queryFailed
  split
  · exact hs.enterFault n _ flight
  · exact hs

theorem pollMissed (hs : s.Guarded) (n : PortNo) (flight : s.ports[n].querying = false) :
    (s.pollMissed n).Guarded := by
  have counted (missed : Nat) : (s.setPort n { s.ports[n] with missed := missed }).Guarded :=
    hs.setPort_same n ((hs n).phased.mono rfl rfl id id id id)
  unfold State.pollMissed
  dsimp only
  split
  · refine (counted 0).enterFault n _ ?_
    rw [State.setPort_same]
    exact flight
  · exact counted _

theorem takeData (hs : s.Guarded) (n : PortNo) (payload : List Byte) : (s.takeData n payload).Guarded := by
  have replaced : (s.setPort n (s.ports[n].takeData payload)).Guarded :=
    hs.setPort_same n ((hs n).phased.mono rfl rfl id id id id)
  have taken : (((s.setPort n (s.ports[n].takeData payload)).fieldUpdate n).fieldPosition n).Guarded :=
    (replaced.sourceUpdate _).fieldPosition n
  unfold State.takeData
  dsimp only
  split
  · exact (State.offerPass_keeps State.Guarded (fun _ _ => rfl) (fun _ _ => rfl) _ n payload).mpr taken
  · exact taken

theorem endExchange_unasked (s : State) (n : PortNo) : (s.endExchange n).ports[n].querying = false := by
  rw [State.endExchange_port]
  rfl

/-- R27, R35: a frame in the window of a QUERY. -/
theorem queryReply (hs : s.Guarded) (n : PortNo) (f : DeviceFrame) (querying : s.ports[n].querying = true) :
    (s.queryReply n f).Guarded := by
  have ended := hs.endExchange n
  have failed := ended.queryFailed n (endExchange_unasked s n)
  unfold State.queryReply
  dsimp only
  split
  · split
    · next d _ =>
      have notBound : s.ports[n].state ≠ .bound := fun bound => by
        have asked := (hs n).phased.query (Or.inr (Or.inr querying))
        rw [bound] at asked
        exact asked.elim nofun fun both => nomatch both.1
      have identified : ((s.endExchange n).ports[n].identify d).Phased :=
        (ended n).phased.mono rfl rfl (fun due => absurd due Bool.false_ne_true)
          (fun timed => absurd timed Bool.false_ne_true) id id
      refine ended.lookupAs n (Port.leaveFault_state _) (Port.leaveFault_profile _) ?_ ?_
      · exact Port.leaveFault_calm identified rfl rfl (endExchange_unasked s n)
      · rw [State.endExchange_port]
        exact notBound
    · exact failed
  · exact failed
  · exact failed

theorem pollReply (hs : s.Guarded) (n : PortNo) (f : DeviceFrame) : (s.pollReply n f).Guarded := by
  have ended := hs.endExchange n
  have missed := ended.pollMissed n (endExchange_unasked s n)
  unfold State.pollReply
  dsimp only
  split
  · split
    · exact ended.takeData n _
    · exact missed
  · exact missed
  · exact missed

theorem writeReply (hs : s.Guarded) (n : PortNo) (f : DeviceFrame) : (s.writeReply n f).Guarded := by
  have ended := hs.endExchange n
  unfold State.writeReply
  split
  · split
    · exact ended.answerPass n _ _
    · exact hs
  · exact ended.answerPass n _ _
  · exact hs
  · exact hs

theorem deviceFrameIn (hs : s.Guarded) (n : PortNo) (f : DeviceFrame) : (s.deviceFrameIn n f).Guarded := by
  unfold State.deviceFrameIn
  split
  · exact hs
  · next x exchange =>
    split
    · split
      · next query =>
        refine (hs.queryReply n f ?_).startWork n
        rw [Port.querying, exchange, Option.any_some, query]
        rfl
      · exact (hs.pollReply n f).startWork n
      · exact (hs.writeReply n f).startWork n
    · exact hs

theorem setGot (hs : s.Guarded) (n : PortNo) {x : Exchange} (exchange : s.ports[n].exchange = some x)
    (got : List Byte) : (s.setGot n x got).Guarded := by
  refine hs.setPort_same n ((hs n).phased.mono rfl rfl id id (fun query => ?_) id)
  rw [Port.querying, exchange]
  exact query

theorem deviceBytes (hs : s.Guarded) (n : PortNo) (bs : List LineByte) : (s.deviceBytes n bs).Guarded := by
  refine foldl (fun s b hs => ?_) bs hs
  unfold State.deviceByte
  split
  · exact hs
  · next x exchange =>
    split
    · split
      · exact (hs.setGot n exchange _).deviceFrameIn n _
      · dsimp only
        split
        · exact (hs.setGot n exchange _).deviceFrameIn n _
        · split
          · exact (hs.setGot n exchange _).deviceFrameIn n _
          · exact hs.setGot n exchange _
    · exact hs

/-! ## Service mode, PROBE and detach -/

/-- R41: an end of service mode forbids nothing. -/
theorem serviceOff (hs : s.Guarded) (n : PortNo) : (s.serviceOff n).Guarded := by
  rw [State.serviceOff_eq]
  split
  · have freed (ports : Vector Port 6) (k : PortNo) (clear : s.Clear k) :
        State.Clear { s with service := none, ports := ports } k := ⟨rfl, clear.2⟩
    have here (resumes : Bool) : Guarding s.profiles (s.Clear n) { s.ports[n] with resumes := resumes } s.motors[n] :=
      (hs n).port ((hs n).phased.mono rfl rfl id id id id) rfl rfl
    exact hs.of_one n rfl (vector_set_self _ _).symm rfl (fun k _ => freed _ k) ((here _).mono (freed _ n))
  · exact hs

theorem serviceEnds (hs : s.Guarded) : s.serviceEnds.Guarded := by
  unfold State.serviceEnds
  split
  · exact hs.serviceOff _
  · exact hs

/-- R40: a channel that rests takes no harm from service mode. -/
theorem serviceOn (hs : s.Guarded) (n : PortNo) (rests : s.motors[n].mode.driving = false) :
    (s.serviceOn n).Guarded := by
  have ended := hs.serviceEnds
  have motors : s.serviceEnds.motors = s.motors :=
    State.serviceEnds_keeps (·.motors) (fun _ _ => rfl) (fun _ _ => rfl) s
  unfold State.serviceOn
  split
  · exact hs
  · refine (State.portStatus_keeps State.Guarded (fun _ _ => rfl) _ n .stale).mpr ?_
    refine ended.of_one n rfl (vector_set_self _ _).symm rfl (fun k other clear => ⟨?_, clear.2⟩) ?_
    · exact beq_false_of_ne fun same => other (Option.some.inj same).symm
    · exact Guarding.resting ((ended n).phased.mono rfl rfl id id id id) (ended n).timed
        ((congrArg (fun ms : Vector Motor 6 => ms[n].mode.driving) motors).trans rests)

/-- R43: a PROBE takes the binding and the channel's operation with it. -/
theorem probe (hs : s.Guarded) (n : PortNo) : (s.probe n).Guarded := by
  refine hs.of_port n (s.probe_ports n) ((s.probe_motors n).trans (s.quieted_motors n))
    (State.probe_keeps State.context (fun _ _ => rfl) (fun _ _ => rfl) (fun _ _ => rfl) (fun _ _ => rfl)
      (fun _ _ => rfl) (fun _ _ => rfl) s n) ?_
  refine Guarding.unbound (Port.Calm.phased ⟨rfl, rfl, rfl, rfl⟩) nofun ?_
  by_cases bound : s.ports[n].state = .bound
  · rw [if_congr (and_iff_right bound) rfl rfl]
    exact (hs n).lost_rests .rebound
  · rw [if_neg fun both => bound both.1]
    exact (hs n).rests bound

theorem runPortOp (hs : s.Guarded) {n : PortNo} {op : PortOp} (passes : s.portRefusal n op = none) (place : Nat) :
    (s.runPortOp n op place).Guarded := by
  unfold State.runPortOp
  split
  · refine State.Guarded.startWork ?_ n
    exact hs.setPort_same n ((hs n).phased.mono rfl rfl id id id id)
  · refine hs.serviceOn n (Bool.eq_false_of_not_eq_true fun driving => ?_)
    have own : s.portOpRefusal n (.service true) = some .inUse := if_pos (Or.inl driving)
    rw [State.portRefusal, own] at passes
    cases table : s.ports[n].refusal (.service true) with
    | none => rw [table] at passes; exact nomatch passes
    | some st => rw [table] at passes; exact nomatch passes
  · exact hs.serviceOff n
  · exact hs.setPort_same n ((hs n).phased.mono rfl rfl id id id id)
  · exact hs.probe n

/-- R44: a detach takes the binding and the channel's operation with it. -/
theorem detach (hs : s.Guarded) (n : PortNo) : (s.detach n).Guarded := by
  have kept : ((s.detach n).profiles, (s.detach n).budget) = (s.profiles, s.budget) :=
    State.detach_keeps (fun t => (t.profiles, t.budget)) (fun _ _ => rfl) (fun _ _ => rfl)
      (fun _ _ => rfl) (fun _ _ => rfl) (fun _ _ => rfl) (fun _ _ => rfl) (fun _ _ => rfl) (fun _ _ => rfl) s n
  obtain ⟨profiles, budget⟩ := Prod.mk.inj kept
  have link : (s.detach n).link.state = s.link.state := by
    rw [s.detach_link, s.answerPass_link_state]
  refine hs.of_one n (s.detach_ports n) (s.detach_motors n) profiles (fun k _ clear => ?_) ?_
  · obtain ⟨service, active, power⟩ := clear
    refine ⟨?_, link.trans active, by rw [budget]; exact power⟩
    rw [State.inService, s.detach_service]
    split
    · rfl
    · exact service
  · exact Guarding.unbound (Port.Calm.phased ⟨rfl, rfl, rfl, rfl⟩) nofun ((hs n).lost_rests .detached)

theorem acceptDet (hs : s.Guarded) (n : PortNo) : (s.acceptDet n).Guarded := by
  have accepted : (s.setPort n { s.ports[n] with detAccepted := s.ports[n].det }).Guarded :=
    hs.setPort_same n ((hs n).phased.mono rfl rfl id id id id)
  unfold State.acceptDet
  dsimp only
  split
  · exact hs
  · split
    · split
      · next empty =>
        have calm := (hs n).phased.calm (by rw [empty]; exact nofun) (by rw [empty]; exact nofun)
        refine accepted.enterDetecting n ?_ ?_
        · rw [State.setPort_same]
          exact ⟨calm.due, calm.timer, calm.flight, calm.reprobe⟩
        · rw [State.setPort_same, empty]
          exact nofun
      · exact accepted
    · split
      · exact accepted
      · exact accepted.detach n

/-! ## Writes -/

/-- R31: the rebinding of port n, as u finds it, leaves a channel that suits the table of u; s is the state before the
table was written, and every profile that the write does not name stands. -/
theorem rebindPort (hs : s.Guarded) (n : PortNo) {u : State} (port : u.ports[n] = s.ports[n])
    (motor : u.motors[n] = s.motors[n]) (hit : Fin 16 → Bool) (anyValid : Bool)
    (others : ∀ i, hit i = false → u.profiles[i] = s.profiles[i]) :
    Guarding u.profiles (s.Clear n) (State.rebindPort hit anyValid u n).ports[n]
      (State.rebindPort hit anyValid u n).motors[n] := by
  have phased : u.ports[n].Phased := port ▸ (hs n).phased
  by_cases lost : u.rebound hit n = true
  · have bound : u.ports[n].state = .bound := beq_iff_eq.mp (Bool.and_eq_true_iff.mp lost).1
    have calm := phased.calm (by rw [bound]; exact nofun) (by rw [bound]; exact nofun)
    rw [State.rebindPort_rebound anyValid lost, ← u.loseBinding_profiles n]
    refine State.lookupPort_guarding _ n ?_ ?_ _
    · rw [u.loseBinding_ports]
      exact calm
    · rw [u.loseBinding_motors, vector_set_same, if_congr Option.isSome_iff_ne_none rfl rfl, motor]
      exact (hs n).lost_rests .rebound
  · by_cases unknown : u.ports[n].state = .unknown ∧ anyValid = true
    · have notBound : s.ports[n].state ≠ .bound := by
        rw [← port, unknown.1]
        exact nofun
      rw [State.rebindPort_unknown unknown.1 unknown.2]
      refine u.lookupPort_guarding n (phased.calm ?_ ?_) ?_ _
      · rw [unknown.1]
        exact nofun
      · rw [unknown.1]
        exact nofun
      · rw [motor]
        exact (hs n).rests notBound
    · rw [State.rebindPort_unconcerned fun concerned => unknown (concerned.resolve_left lost), port, motor]
      have same : s.ports[n].motorBound u.profiles = s.ports[n].motorBound s.profiles := by
        rw [State.rebound, port] at lost
        unfold Port.motorBound
        cases bound : s.ports[n].state == .bound with
        | false => rfl
        | true =>
          cases profile : s.ports[n].profile with
          | none => rfl
          | some i =>
            rw [bound, profile] at lost
            exact congrArg (fun pr : Profile => pr.use == .motor) (others i (Bool.eq_false_of_not_eq_true lost))
      exact ⟨(hs n).phased, fun bound => (hs n).timed (same ▸ bound), fun driving => same ▸ (hs n).drives driving⟩

/-- R31: a PROFILES write rebinds every port whose profile it writes, so that each channel suits its new profile. -/
theorem writeProfiles (hs : s.Guarded) (first : Nat) (rs : List Profile) : (s.writeProfiles first rs).Guarded := by
  intro n
  have clear : (s.writeProfiles first rs).Clear n = s.Clear n :=
    State.writeProfiles_keeps (fun t => t.Clear n) (fun _ _ => rfl) (fun _ _ => rfl) (fun _ _ => rfl) (fun _ _ => rfl)
      (fun _ _ => rfl) (fun _ _ => rfl) s first rs
  have others (i : Fin 16) (unnamed : named first rs.length i = false) :
      (replaceRange s.profiles first rs)[i] = s.profiles[i] := by
    rw [replaceRange_get s.profiles first rs.length Profile.reset rfl, if_neg]
    simpa only [named, Bool.and_eq_false_iff, decide_eq_false_iff_not, ← not_and_or] using unnamed
  rw [clear, s.writeProfiles_eq, State.rebindAll_profiles]
  obtain ⟨u, profiles, same, after⟩ := State.rebindAll_at (named first rs.length) (rs.any Profile.valid)
    { s with profiles := replaceRange s.profiles first rs } n
  obtain ⟨port, _, motor⟩ := State.atPortNo_inj same
  obtain ⟨rebound, _, channel⟩ := State.atPortNo_inj after
  rw [rebound, channel]
  have table : u.profiles = replaceRange s.profiles first rs := profiles
  rw [← table] at others
  rw [← profiles]
  exact hs.rebindPort n port motor _ _ others

/-- R6: an owner's part of a TABLE WRITE. -/
theorem writes : WritesKeep State.Guarded where
  settings := fun s r hs => by
    unfold State.writeSettings State.allowanceCut
    split <;> exact hs
  profiles := fun _ first rs hs => hs.writeProfiles first rs
  scanList := fun s first rs hs =>
    (State.writeScanList_keeps State.Guarded (fun _ _ => rfl) (fun _ _ => rfl) s first rs).mpr hs
  conversion := fun s first rs hs => (State.writeConversion_keeps State.Guarded (fun _ _ => rfl) s first rs).mpr hs
  reactions := fun s first rs hs =>
    (State.writeReactions_keeps State.Guarded (fun _ _ => rfl) (fun _ _ => rfl) s first rs).mpr hs
  marks := fun _ _ hs => hs
  rows := fun _ _ hs => hs
  reports := fun _ _ hs => hs
  clips := fun _ _ hs => hs
  store := fun _ _ _ _ hs => hs

/-! ## Commands -/

theorem scanOp (hs : s.Guarded) (op : ScanOp) : (s.scanOp op).Guarded :=
  (State.scanOp_keeps State.Guarded (fun _ _ => rfl) s op).mpr hs

theorem runSoundOp (hs : s.Guarded) (op : SoundOp) : (s.runSoundOp op).Guarded :=
  (State.runSoundOp_keeps State.Guarded (fun _ _ => rfl) (fun _ _ => rfl) s op).mpr hs

/-- R56: a filtered line says nothing to a channel. -/
theorem acceptLine (hs : s.Guarded) (n : PortNo) (line : Line) : (s.acceptLine n line).Guarded :=
  (State.acceptLine_keeps State.Guarded (fun _ _ => rfl) (fun _ _ => rfl) s n line).mpr hs

theorem reportDue (hs : s.Guarded) (i : Fin 12) : (s.reportDue i).Guarded :=
  (State.reportDue_keeps State.Guarded (fun _ _ => rfl) (fun _ _ => rfl) s i).mpr hs

/-- R6: whatever a taken command is, its handler keeps the invariants. -/
theorem handlers : HandlersKeep State.Guarded where
  write := writes.write
  motor := fun s channel notify op hs => by
    unfold State.motorCommand State.motorOp
    split
    · dsimp only
      split
      · exact hs
      · exact hs.runMotorOp (by assumption) _
    · exact hs
  sound := fun s op hs => by
    unfold State.soundCommand State.soundOp
    dsimp only [Reply.state_answered]
    split
    · exact hs
    · exact hs.runSoundOp op
  scan := fun s op hs => hs.scanOp op
  port := fun s port op adjusted order hs => by
    unfold State.portCommand
    split
    · split
      · exact hs
      · next passes =>
        split <;> simp only [Reply.state_deferred, Reply.state_taken] <;> exact hs.runPortOp passes _
    · exact hs
  report := fun s entry hs => by
    unfold State.reportNowCommand
    split
    · exact hs.reportDue _
    · exact hs
  reset := fun s payload order hs => by
    unfold State.resetCommand
    split <;> exact hs

/-- R5, R19: the door and the transmitter let the channels be. -/
theorem linkKeeps : LinkKeeps State.Guarded where
  reserve := fun _ _ _ _ hs => hs
  finish := fun _ _ _ _ hs => hs
  offer := fun s f hs => by
    unfold State.offerFrame
    split
    · exact hs
    · dsimp only
      split <;> exact hs
  take := fun _ _ _ _ hs => hs
  transmit := fun s hs => by
    obtain ⟨_, _, _, frame, _⟩ := s.transmitNext_frame
    rw [frame]
    exact hs

/-! ## Reactions -/

theorem motorAction (hs : s.Guarded) (r : Reaction) : (s.motorAction r).Guarded := by
  unfold State.motorAction
  split
  · exact hs
  · split
    · split
      · exact hs
      · split
        · exact hs
        · exact hs.runMotorOp (by assumption) false
    · exact hs

theorem act (hs : s.Guarded) (i : Fin 24) (r : Reaction) (e : Event) : (s.act i r e).Guarded := by
  have sound : (s.soundAction r).Guarded :=
    (State.soundAction_keeps State.Guarded (fun _ _ => rfl) (fun _ _ => rfl) (fun _ _ => rfl) s r).mpr hs
  unfold State.act
  split
  · exact hs
  · exact hs
  · exact hs.motorAction r
  · exact sound
  · exact sound
  · exact sound
  · split
    · exact (State.enable_keeps State.Guarded (fun _ _ => rfl) (fun _ _ => rfl) s _).mpr hs
    · exact hs
  · split <;> exact hs
  · exact (State.markAction_keeps State.Guarded (fun _ _ => rfl) (fun _ _ => rfl) (fun _ _ => rfl) s r).mpr hs
  · split
    · exact hs.reportDue _
    · exact hs
  · exact hs.scanOp _
  · exact hs.scanOp _
  · exact hs.scanOp _

theorem dispatchEvent (hs : s.Guarded) (e : Event) (rest : List Event) : (s.dispatchEvent e rest).Guarded := by
  have reached : ∀ (t : State) (i : Fin 24), t.Guarded → (State.reach e t i).Guarded := fun t i ht => by
    unfold State.reach
    split
    · exact act (s := { t.setReaction i _ with bus := t.bus.atEntry i }) ht i _ e
    · exact ht
  exact foldl reached (s.candidates e) (s := { s with bus := s.bus.takeEvent e rest }) hs

/-! ## Silence, resets and the budget window -/

/-- R16, R105: the entry to SILENT stops every channel. -/
theorem goSilent (hs : s.Guarded) : s.goSilent.Guarded :=
  (State.stopSound_keeps State.Guarded (fun _ _ => rfl) (fun _ _ => rfl) _).mpr (hs.allStopped .safeStop rfl rfl rfl)

/-- R16: a good frame makes the link ACTIVE. -/
theorem goodFrame (hs : s.Guarded) (ms : Nat) : State.Guarded { s with link := s.link.goodFrame ms } :=
  fun n => (hs n).mono fun clear => ⟨clear.1, rfl, clear.2.2⟩

/-- R13: after a reset every channel rests and every port is EMPTY. -/
theorem afterReset (cause : ResetCause) (strap : BitVec 2) (det : Vector Bool 6) (pins : Vector (Bool × Bool) 6)
    (clips : Vector Clip 16) (store : List Host.Cell) (pending : List Instr) :
    (State.afterReset cause strap det pins clips store pending).Guarded := by
  intro n
  have port : (State.afterReset cause strap det pins clips store pending).ports[n] = Port.reset det[n] := by
    simp [State.afterReset]
  have motor : (State.afterReset cause strap det pins clips store pending).motors[n] = Motor.reset := by
    simp [State.afterReset]
  rw [port, motor]
  exact Guarding.unbound (Port.Calm.phased ⟨rfl, rfl, rfl, rfl⟩) nofun rfl

/-- R123, R128: a window that enters BROWNOUT stops every channel. -/
theorem window (hs : s.Guarded) : s.window.Guarded := by
  have granted (t : State) (n : PortNo) (ht : t.Guarded) : (State.grantChannel s.windowGrant.1 t n).Guarded := by
    unfold State.grantChannel
    split
    · exact ht.setMotor_same n
    · exact ht
  refine foldl granted allPorts ?_
  unfold State.budgetChange
  dsimp only
  split
  · next same => exact fun n => (hs n).mono fun clear => ⟨clear.1, clear.2.1, by rw [same]; exact clear.2.2⟩
  · split
    · exact hs.allStopped .brownout rfl rfl rfl
    · next powered => exact fun n => (hs n).mono fun clear => ⟨clear.1, clear.2.1, powered⟩

/-! ## Reception and the transmitter -/

theorem takeAll (hs : s.Guarded) : s.takeAll.Guarded := LinkKeeps.takeFrames linkKeeps handlers _ s hs

theorem acceptFrame (hs : s.Guarded) (f : Frame) : (s.acceptFrame f).Guarded :=
  linkKeeps.transmit _ (takeAll (linkKeeps.offer _ f (hs.goodFrame _)))

theorem receiveByte (hs : s.Guarded) (b : LineByte) : (s.receiveByte b).Guarded := by
  unfold State.receiveByte
  split
  · unfold Link.byteError
    split <;> exact hs
  · split
    · split <;> exact hs
    · split <;> exact hs
    · exact hs
    · split
      · exact hs.acceptFrame _
      · exact hs

theorem transmitted (hs : s.Guarded) (x : Sending) : (s.transmitted x).Guarded := by
  unfold State.transmitted
  split
  · exact afterReset _ _ _ _ _ _ _
  · have sent : State.Guarded { s with link := s.link.sent x } := hs
    exact linkKeeps.transmit _ (takeAll (linkKeeps.transmit _ sent))

end State.Guarded

end Sys2Proof.Machine
end

