-- ==== Sys2Proof/Proofs/DrivingRows.lean ====
section
/-! PROOFS. Every step keeps driving modes to channels that may drive (O59): the rows of exec. -/

namespace Sys2Proof.Machine

/-- A row that the transmitter ends. -/
theorem settled_guarded {s : State} (hs : s.Guarded) : EndsWith State.Guarded (settled s) :=
  State.Guarded.linkKeeps.transmit s hs

/-- R24: the filtered level of DET. -/
theorem State.Guarded.detDebounceExpiry {s : State} (hs : s.Guarded) (n : PortNo) :
    EndsWith State.Guarded (execDetDebounceExpiry n s) := by
  unfold execDetDebounceExpiry
  split
  · exact hs
  · have expired : (s.setPort n { s.ports[n] with detTimer := none }).Guarded :=
      hs.setPort_same n ((hs n).phased.mono rfl rfl id id id id)
    exact settled_guarded (expired.acceptDet n)

/-- R27: a query try falls due at a port that its timer shows to be queried. -/
theorem State.Guarded.queryTryDue {s : State} (hs : s.Guarded) (n : PortNo) :
    EndsWith State.Guarded (execQueryTryDue n s) := by
  unfold execQueryTryDue
  split
  · exact hs
  · next timer =>
    have asked := (hs n).phased.query (Or.inr (Or.inl (Option.isSome_of_eq_some timer)))
    have due : (s.setPort n { s.ports[n] with queryTimer := none, queryDue := true }).Guarded :=
      hs.setPort_same n ⟨fun _ => asked, (hs n).phased.reprobe⟩
    exact due.startWork n

/-- R27: a query whose window closes has failed. -/
theorem State.Guarded.queryWindowClose {s : State} (hs : s.Guarded) (n : PortNo) :
    EndsWith State.Guarded (execQueryWindowClose n s) := by
  unfold execQueryWindowClose
  split
  · exact settled_guarded (((hs.endExchange n).queryFailed n (State.Guarded.endExchange_unasked s n)).startWork n)
  · exact hs

theorem State.Guarded.pollWindowClose {s : State} (hs : s.Guarded) (n : PortNo) :
    EndsWith State.Guarded (execPollWindowClose n s) := by
  unfold execPollWindowClose
  split
  · exact settled_guarded (((hs.endExchange n).pollMissed n (State.Guarded.endExchange_unasked s n)).startWork n)
  · exact hs

theorem State.Guarded.writeWindowClose {s : State} (hs : s.Guarded) (n : PortNo) :
    EndsWith State.Guarded (execWriteWindowClose n s) := by
  unfold execWriteWindowClose
  split
  · exact settled_guarded (((hs.endExchange n).answerPass n _ _).startWork n)
  · exact hs

/-- R36: a reply window that opens is still the window of the same frame. -/
theorem State.Guarded.deviceFrameSent {s : State} (hs : s.Guarded) (n : PortNo) :
    EndsWith State.Guarded (execDeviceFrameSent n s) := by
  unfold execDeviceFrameSent
  split
  · exact hs
  · next x exchange =>
    refine hs.setPort_same n ((hs n).phased.mono rfl rfl id id (fun query => ?_) id)
    rw [Port.querying, exchange]
    exact query

theorem State.Guarded.pollTimerExpiry {s : State} (hs : s.Guarded) (n : PortNo) :
    EndsWith State.Guarded (execPollTimerExpiry n s) := by
  unfold execPollTimerExpiry
  dsimp only
  split
  · exact hs
  · split
    · exact hs
    · have due (missed : Nat) :
          (s.setPort n { s.ports[n] with pollDue := true, resumes := false, missed := missed }).Guarded :=
        hs.setPort_same n ((hs n).phased.mono rfl rfl id id id id)
      exact (due _).startWork n

/-- R35: a re-probe is a query try only where the FAULT is one that is queried. -/
theorem State.Guarded.reprobeExpiry {s : State} (hs : s.Guarded) (n : PortNo) :
    EndsWith State.Guarded (execReprobeExpiry n s) := by
  unfold execReprobeExpiry
  split
  · exact hs
  · next timer =>
    have fault := (hs n).phased.reprobe (Option.isSome_of_eq_some timer)
    have restarted : (s.setPort n { s.ports[n] with reprobeTimer := some 500 }).Guarded :=
      hs.setPort_same n ⟨(hs n).phased.query, fun _ => fault⟩
    dsimp only
    split
    · exact (State.requestIdent_keeps State.Guarded (fun _ _ => rfl) _ n).mpr restarted
    · next other =>
      rw [State.setPort_same, State.setPort_setPort]
      have due : (s.setPort n { s.ports[n] with reprobeTimer := some 500, queryDue := true }).Guarded :=
        hs.setPort_same n ⟨fun _ => Or.inr ⟨fault, other⟩, fun _ => fault⟩
      exact due.startWork n

/-- R98: a regulation. -/
theorem State.Guarded.regulationExpiry {s : State} (hs : s.Guarded) (n : PortNo) :
    EndsWith State.Guarded (execRegulationExpiry n s) := by
  unfold execRegulationExpiry
  split
  · exact settled_guarded (hs.regulation n _)
  · exact hs

/-- R103: the time of a RUN_FOR ends. -/
theorem State.Guarded.runForExpiry {s : State} (hs : s.Guarded) (n : PortNo) :
    EndsWith State.Guarded (execRunForExpiry n s) := by
  unfold execRunForExpiry
  split
  · next mode => exact settled_guarded (hs.finishMotor n _ (congrArg MotorMode.driving mode))
  · exact hs

/-- Every row keeps driving modes to channels that may drive. -/
theorem exec_guarded (c : Instr) {s : State} (hs : s.Guarded) : EndsWith State.Guarded (exec c s) := by
  by_cases hc : isCommand c = true
  · exact State.Guarded.linkKeeps.commands State.Guarded.handlers c hc s hs
  · cases c
    case powerOnReset => exact State.Guarded.afterReset _ _ _ _ _ _ _
    case frameReceived bytes => exact State.Guarded.foldl (fun _ b h => h.receiveByte b) bytes hs
    case gapTimeout =>
      simp only [exec, execGapTimeout]
      split <;> exact hs
    case silenceTimeout =>
      simp only [exec, execSilenceTimeout]
      split
      · exact hs
      · exact settled_guarded hs.goSilent
    case stampTick => exact hs
    case frameTransmitted =>
      simp only [exec, execFrameTransmitted]
      split
      · exact hs
      · exact hs.transmitted _
    case detChange n closed =>
      have changed : (s.setPort n { s.ports[n] with det := closed, detTimer := some 20 }).Guarded :=
        hs.setPort_same n ((hs n).phased.mono rfl rfl id id id id)
      simp only [exec, execDetChange]
      split
      · exact hs
      · exact changed
    case detDebounceExpiry n => exact hs.detDebounceExpiry n
    case idConversionDone =>
      simp only [exec, execIdConversionDone]
      split
      · refine settled_guarded ((State.converterNext_keeps State.Guarded (fun _ _ => rfl) _).mpr ?_)
        split
        · exact hs
        · exact hs.identResult _ _
      all_goals exact hs
    case queryTryDue n => exact hs.queryTryDue n
    case deviceFrameSent n => exact hs.deviceFrameSent n
    case queryWindowClose n => exact hs.queryWindowClose n
    case pollWindowClose n => exact hs.pollWindowClose n
    case writeWindowClose n => exact hs.writeWindowClose n
    case identReceived => exact settled_guarded (hs.deviceBytes _ _)
    case dataReceived => exact settled_guarded (hs.deviceBytes _ _)
    case ackReceived => exact settled_guarded (hs.deviceBytes _ _)
    case nakReceived => exact settled_guarded (hs.deviceBytes _ _)
    case badDeviceFrame => exact settled_guarded (hs.deviceBytes _ _)
    case pollTimerExpiry n => exact hs.pollTimerExpiry n
    case reprobeExpiry n => exact hs.reprobeExpiry n
    case digitalLineChange n line high =>
      simp only [exec, execDigitalLineChange]
      split
      · exact hs
      · split
        · split
          · exact settled_guarded (State.Guarded.acceptLine (s := s.setLines n _) hs n line)
          · exact hs
        · exact hs
    case lineDebounceExpiry n line =>
      simp only [exec, execLineDebounceExpiry]
      split
      · exact hs
      · exact settled_guarded (State.Guarded.acceptLine (s := s.setLines n _) hs n line)
    case quadratureChange n high1 high2 =>
      simp only [exec, execQuadratureChange]
      split
      · split
        · exact hs
        · refine settled_guarded ((State.encoderUpdate_keeps State.Guarded (fun _ _ => rfl) (fun _ _ => rfl)
            (fun _ _ => rfl) (fun _ _ => rfl) (fun _ _ => rfl) _ n).mpr ?_)
          exact State.Guarded.quadraturePosition (s := s.setLines n _) hs n _ _
      · exact hs
    case pulseEdge n rising time =>
      simp only [exec, execPulseEdge]
      split
      · split
        · split
          · exact settled_guarded (State.Guarded.sourceUpdate (s := s.setLines n _) hs _)
          · exact hs
        · exact hs
      · exact hs
    case noEdgeExpiry n =>
      simp only [exec, execNoEdgeExpiry]
      split
      · exact hs
      · exact settled_guarded (State.Guarded.sourceUpdate (s := s.setLines n _) hs _)
    case scanConversionDone =>
      simp only [exec, execScanConversionDone]
      split
      · exact settled_guarded ((State.scanConversion_keeps State.Guarded (fun _ _ => rfl) (fun _ _ => rfl)
          (fun _ _ => rfl) (fun _ _ => rfl) (fun _ _ => rfl) s ..).mpr hs)
      all_goals exact hs
    case regulationExpiry n => exact hs.regulationExpiry n
    case runForExpiry n => exact hs.runForExpiry n
    case budgetWindowExpiry => exact settled_guarded hs.window
    case outputSample =>
      exact settled_guarded ((State.sample_keeps State.Guarded (fun _ _ => rfl) (fun _ _ => rfl) s).mpr hs)
    case noteDurationExpiry =>
      simp only [exec, execNoteDurationExpiry]
      split
      · exact hs
      · exact settled_guarded ((State.noteExpiry_keeps State.Guarded (fun _ _ => rfl) (fun _ _ => rfl) s).mpr hs)
    case eventDispatch =>
      simp only [exec, execEventDispatch]
      split
      · exact hs
      · exact settled_guarded (hs.dispatchEvent _ _)
    case reportPeriodExpiry i =>
      simp only [exec, execReportPeriodExpiry]
      split
      · exact hs
      · exact settled_guarded (State.Guarded.reportDue (s := s.setReport i _) hs i)
    case minIntervalExpiry =>
      simp only [exec, execMinIntervalExpiry]
      split
      · exact hs
      · split
        · exact settled_guarded (hs.reportDue _)
        · exact hs
    all_goals exact absurd rfl hc

/-- Settles O59: each port and its channel keep what a driving channel needs, whatever the row. -/
theorem drivingStaysSafe : Obligations.DrivingStaysSafe := by
  intro s t phased timed safe stepped
  have before : s.Guarded := s.guarded_iff.mpr ⟨phased, timed, safe⟩
  refine t.guarded_iff.mp ?_
  cases hp : s.pending with
  | nil =>
    have same : s = t := by simpa [step, hp] using stepped
    exact same ▸ before
  | cons c rest =>
    have row : exec c { s with pending := rest } = .next t := by simpa [step, hp] using stepped
    have kept : EndsWith State.Guarded (.next t) := row ▸ exec_guarded c (s := { s with pending := rest }) before
    exact kept

end Sys2Proof.Machine
end

