-- ==== Sys2Proof/Proofs/PortChecks.lean ====
section
/-! PROOFS. The PORT commands that their checks refuse (R37–R43), and the fields of a DATA payload (R33). -/

namespace Sys2Proof.Machine

/-! ## The refusals -/

/-- R37: the table of port states refuses. -/
theorem State.portRefusal_table {s : State} {n : PortNo} {op : PortOp} {st : Status} (checked : op.always = false)
    (table : s.ports[n].refusal op = some st) : s.portRefusal n op = some st := by
  rw [State.portRefusal, checked, table]
  rfl

/-- R38, R40, R43: what the table lets pass, the operation still refuses. -/
theorem State.portRefusal_own {s : State} {n : PortNo} {op : PortOp} {st : Status} (checked : op.always = false)
    (table : s.ports[n].refusal op = none) (own : s.portOpRefusal n op = some st) : s.portRefusal n op = some st := by
  rw [State.portRefusal, checked, table, own]
  rfl

/-- A PORT command that is refused. -/
theorem portRow_refused {s : State} {n : PortNo} {op : PortOp} {st : Status} (opens : s.Opens)
    (refused : s.portRefusal n op = some st) (code tag : Byte) (args : List Byte) (adjusted : Bool) :
    portRow code tag (portByte n) args op adjusted s = .next (s.replied 0x40 tag st []) := by
  refine command_refused opens ?_
  rw [State.portCommand, dif_pos (by rw [toNat_portByte]; exact n.isLt), portByte_port,
    show (s.reserved Kind.port.code tag).portRefusal n op = s.portRefusal n op from rfl, refused]

/-- R37: the port number is outside 0–5. -/
theorem portRow_far {s : State} {port : Byte} (opens : s.Opens) (far : 6 ≤ port.toNat) (code tag : Byte)
    (args : List Byte) (op : PortOp) (adjusted : Bool) :
    portRow code tag port args op adjusted s = .next (s.replied 0x40 tag .badIndex []) := by
  refine command_refused opens ?_
  rw [State.portCommand, dif_neg (Nat.not_lt.mpr far)]

theorem execPortSend_row {data : List Byte} (least : 1 ≤ data.length) (most : data.length ≤ 16) (tag port : Byte)
    (s : State) : exec (.portSend tag port data) s = portRow 0 tag port data (.send data) false s :=
  if_pos ⟨least, most⟩

/-- The byte of a port number names the port. -/
theorem eq_portByte {port : Byte} (near : port.toNat < 6) : port = portByte (Fin.ofNat 6 port.toNat) := by
  refine BitVec.eq_of_toNat_eq ?_
  rw [toNat_portByte]
  exact (Nat.mod_eq_of_lt near).symm

/-! ## The rows of a port, by the table and by the operation -/

section
variable {s : State} {n : PortNo} (opens : s.Opens) (tag : Byte)

/-- What a command answers when it is refused. -/
def State.answersPort (s : State) (tag : Byte) (c : Instr) (st : Status) : Prop :=
  exec c s = .next (s.replied 0x40 tag st [])

include opens

theorem answersPort_send {data : List Byte} (least : 1 ≤ data.length) (most : data.length ≤ 16) {st : Status}
    (refused : s.portRefusal n (.send data) = some st) :
    s.answersPort tag (.portSend tag (portByte n) data) st :=
  (execPortSend_row least most tag _ s).trans (portRow_refused opens refused 0 tag data false)

theorem answersPort_serviceOn {on : Byte} (isOn : on ≠ 0) {st : Status}
    (refused : s.portRefusal n (.service true) = some st) :
    s.answersPort tag (.portServiceOn tag (portByte n) on) st := by
  rw [← (flagIn_iff on).mpr isOn] at refused
  exact portRow_refused opens refused 1 tag [on] (flagClamped on)

theorem answersPort_forward {on : Byte} (isOn : on ≠ 0) {st : Status}
    (refused : s.portRefusal n (.forward true) = some st) :
    s.answersPort tag (.portForward tag (portByte n) on) st := by
  rw [← (flagIn_iff on).mpr isOn] at refused
  exact portRow_refused opens refused 2 tag [on] (flagClamped on)

theorem answersPort_probe {st : Status} (refused : s.portRefusal n .probe = some st) :
    s.answersPort tag (.portProbe tag (portByte n)) st := portRow_refused opens refused 3 tag [] false

end

/-! ## The table of port states, row by row (R37) -/

theorem Port.refusal_empty {p : Port} (h : p.state = .empty) (op : PortOp) : p.refusal op = some .portEmpty := by
  simp only [Port.refusal, h]

theorem Port.refusal_detecting {p : Port} (h : p.state = .detecting) (op : PortOp) : p.refusal op = some .inUse := by
  simp only [Port.refusal, h]

/-- R37: only FORWARD is taken in PROBING. -/
theorem Port.refusal_probing {p : Port} (h : p.state = .probing) {op : PortOp} (other : ∀ on, op ≠ .forward on) :
    p.refusal op = some .inUse := by
  simp only [Port.refusal, h]
  cases op with
  | forward on => exact absurd rfl (other on)
  | send data => rfl
  | service on => rfl
  | probe => rfl

/-- R37: what a port without a device that talks answers. -/
def PortOp.untalked : PortOp → Option Status
  | .probe => none
  | .send _ | .service _ | .forward _ => some .badIndex

/-- R37: a port without a device that talks takes PROBE only. -/
theorem Port.refusal_untalked {p : Port}
    (h : ((p.state = .bound ∨ p.state = .unknown) ∧ p.smart = false) ∨ (p.state = .fault ∧ p.fault = .idShort))
    (op : PortOp) : p.refusal op = op.untalked := by
  rcases h with ⟨bound | unknown, dumb⟩ | ⟨fault, short⟩
  · simp only [Port.refusal, bound, dumb, Bool.false_eq_true, if_false]
    rfl
  · simp only [Port.refusal, unknown, dumb, Bool.false_eq_true, if_false]
    rfl
  · simp only [Port.refusal, fault, if_pos short]
    rfl

/-- R37: a FAULT that is queried refuses SEND and SERVICE. -/
theorem Port.refusal_fault {p : Port} (h : p.state = .fault ∧ p.fault ≠ .idShort) {op : PortOp}
    (notForward : ∀ on, op ≠ .forward on) (notProbe : op ≠ .probe) : p.refusal op = some .inUse := by
  simp only [Port.refusal, h.1, if_neg h.2]
  cases op with
  | forward on => exact absurd rfl (notForward on)
  | probe => exact absurd rfl notProbe
  | send data => rfl
  | service on => rfl

/-- Settles O51: the length of the data, the port number, the table of port states, and what the operation refuses. -/
theorem portCommandChecks : Obligations.PortCommandChecks := by
  intro s tag port on data opens n p smart far answers
  refine ⟨fun length => ?_, fun isFar => ?_, fun isNear least most isOn => ?_⟩
  · have wrong : ¬ (1 ≤ data.length ∧ data.length ≤ 16) := by omega
    exact (if_neg wrong).trans (command_refused opens rfl)
  · have outside : 6 ≤ port.toNat := of_decide_eq_true isFar
    exact ⟨fun least most => (execPortSend_row least most tag port s).trans (portRow_far opens outside ..),
      portRow_far opens outside .., portRow_far opens outside .., portRow_far opens outside ..,
      portRow_far opens outside ..⟩
  · have named : port = portByte n := eq_portByte (Nat.not_le.mp (of_decide_eq_false isNear))
    have send {st : Status} (refused : s.portRefusal n (.send data) = some st) : answers (.portSend tag port data) st :=
      named ▸ answersPort_send opens tag least most refused
    have service {st : Status} (refused : s.portRefusal n (.service true) = some st) :
        answers (.portServiceOn tag port on) st := named ▸ answersPort_serviceOn opens tag isOn refused
    have forward {st : Status} (refused : s.portRefusal n (.forward true) = some st) :
        answers (.portForward tag port on) st := named ▸ answersPort_forward opens tag isOn refused
    have probe {st : Status} (refused : s.portRefusal n .probe = some st) : answers (.portProbe tag port) st :=
      named ▸ answersPort_probe opens tag refused
    refine ⟨fun empty => ?_, fun detecting => ?_, fun probing => ?_, fun untalked => ?_, fun fault => ?_,
      fun ⟨attached, line⟩ => ?_, fun attached => ?_⟩
    · have table (op : PortOp) := Port.refusal_empty empty op
      exact ⟨send (State.portRefusal_table rfl (table _)), service (State.portRefusal_table rfl (table _)),
        forward (State.portRefusal_table rfl (table _)), probe (State.portRefusal_table rfl (table _))⟩
    · have table (op : PortOp) := Port.refusal_detecting detecting op
      exact ⟨send (State.portRefusal_table rfl (table _)), service (State.portRefusal_table rfl (table _)),
        forward (State.portRefusal_table rfl (table _)), probe (State.portRefusal_table rfl (table _))⟩
    · exact ⟨send (State.portRefusal_table rfl (Port.refusal_probing probing nofun)),
        service (State.portRefusal_table rfl (Port.refusal_probing probing nofun)),
        probe (State.portRefusal_table rfl (Port.refusal_probing probing nofun))⟩
    · have table := Port.refusal_untalked untalked
      exact ⟨send (State.portRefusal_table rfl (table _)), service (State.portRefusal_table rfl (table _)),
        forward (State.portRefusal_table rfl (table _))⟩
    · exact ⟨send (State.portRefusal_table rfl (Port.refusal_fault fault nofun nofun)),
        service (State.portRefusal_table rfl (Port.refusal_fault fault nofun nofun))⟩
    · have serves : p.Serves := ⟨attached, beq_iff_eq.mp line⟩
      refine ⟨fun pass => ?_, fun driving => ?_⟩
      · have waits : p.pass.isSome = true := Option.isSome_iff_ne_none.mpr pass
        exact ⟨send (State.portRefusal_own rfl (serves.refusal _) (if_pos waits)),
          service (State.portRefusal_own rfl (serves.refusal _) (if_pos (Or.inr waits)))⟩
      · exact service (State.portRefusal_own rfl (serves.refusal _) (if_pos (Or.inl driving)))
    · have table := Port.refusal_probe attached
      refine ⟨fun held => ?_, fun other pass => ?_⟩
      · exact probe (State.portRefusal_own rfl table (if_pos (beq_iff_eq.mpr held)))
      · have waits : p.pass.isSome = true := Option.isSome_iff_ne_none.mpr pass
        exact probe (State.portRefusal_own rfl table
          ((if_neg fun held => other (beq_iff_eq.mp held)).trans (if_pos waits)))

/-! ## The fields of a DATA payload (R33) -/

/-- The four bytes of an s32, the last one the highest. -/
theorem u32At_cons (b0 b1 b2 b3 : Byte) (bs : List Byte) :
    u32At (b0 :: b1 :: b2 :: b3 :: bs) 0 = (b3 ++ b2 ++ b1 ++ b0 : Word) :=
  (BitVec.append_assoc (x₁ := b3 ++ b2) (x₂ := b1) (x₃ := b0)).symm

/-- Settles O49: a format reads its bytes off the front of the payload. -/
theorem fieldsAreExtended : Obligations.FieldsAreExtended := by
  intro fs b0 b1 b2 b3 rest
  refine ⟨rfl, rfl, rfl, rfl, ?_, rfl⟩
  exact congrArg (· :: readFields fs rest) (u32At_cons b0 b1 b2 b3 rest)

end Sys2Proof.Machine
end

