-- ==== Sys2Proof/Proofs/EngineTimers.lean ====
section
/-! PROOFS. The times of the device-line engine (R27, R32, R35, R36): what falls due is sent at once or waits. -/

namespace Sys2Proof.Machine

/-! ## What the engine takes up -/

theorem queryExchange_eq : queryExchange =
    { kind := .query, sent := [0x00, 0xFF], windowMs := 20, windowOpen := false, got := [] } := by decide

theorem pollExchange_eq : pollExchange =
    { kind := .poll, sent := [0x20, 0xDF], windowMs := 5, windowOpen := false, got := [] } := by decide

/-- R32, R36: a due POLL goes ahead of a query try. -/
theorem Port.startWork_poll {p : Port} (idle : p.exchange = none) (noPass : p.pass = none) (due : p.pollDue = true)
    (service : Bool) : p.startWork service = { p with exchange := some pollExchange, pollDue := false } := by
  unfold Port.startWork
  rw [idle, noPass]
  exact if_pos due

/-- R27, R36: a query try, where nothing stands ahead of it. -/
theorem Port.startWork_query {p : Port} (idle : p.exchange = none) (noPass : p.pass = none) (noPoll : p.pollDue = false)
    (due : p.queryDue = true) (service : Bool) : p.startWork service = p.beginQuery := by
  unfold Port.startWork
  rw [idle, noPass]
  exact (if_neg (ne_true_of_eq_false noPoll)).trans (if_pos due)

/-- R27: a try of PROBING counts, and times the next one. -/
theorem Port.beginQuery_probing {p : Port} (h : p.state = .probing) :
    p.beginQuery = { p with exchange := some queryExchange, queryDue := false, tries := p.tries + 1,
                            queryTimer := if p.tries + 1 < 3 then some 50 else none } := if_pos h

/-- R35: a try outside PROBING does not count. -/
theorem Port.beginQuery_other {p : Port} (h : p.state ≠ .probing) :
    p.beginQuery = { p with exchange := some queryExchange, queryDue := false } := if_neg h

/-- R36: the engine takes up the work that a new record shows. -/
theorem State.setPort_startWork (s : State) (n : PortNo) (p : Port) :
    (s.setPort n p).startWork n = s.setPort n (p.startWork (s.inService n)) := by
  rw [State.startWork, State.setPort_same, State.setPort_setPort]
  rfl

/-- R26, R27: a port that enters PROBING with a free line sends its first try. -/
theorem Port.probed_startWork {p : Port} (idle : p.exchange = none) (noPass : p.pass = none)
    (noPoll : p.pollDue = false) (service : Bool) : p.probed.startWork service =
      { p with state := .probing, tries := 1, queryDue := false, queryTimer := some 50,
               exchange := some queryExchange } :=
  (Port.startWork_query (p := p.probed) idle noPass noPoll rfl service).trans (Port.beginQuery_probing rfl)

/-! ## What falls due -/

/-- R27: the query try of the timer is due. -/
def Port.tryDue (p : Port) : Port := { p with queryTimer := none, queryDue := true }

/-- R32, R41: a POLL is due; the first one after service mode starts with missed at 0. -/
def Port.polling (p : Port) : Port :=
  { p with pollDue := true, resumes := false, missed := if p.resumes then 0 else p.missed }

/-- R35: the query try of a re-probe is due. -/
def Port.reprobing (p : Port) : Port := { p with reprobeTimer := some 500, queryDue := true }

/-! ## The rows -/

theorem execQueryTryDue_running {s : State} {n : PortNo} {ms : Nat} (timer : s.ports[n].queryTimer = some ms) :
    execQueryTryDue n s = .next (s.setPort n (s.ports[n].tryDue.startWork (s.inService n))) := by
  rw [← State.setPort_startWork]
  unfold execQueryTryDue
  rw [timer]
  rfl

theorem execPollTimerExpiry_held {s : State} {n : PortNo} (held : s.service = some n) :
    execPollTimerExpiry n s = .next s := by
  unfold execPollTimerExpiry
  dsimp only
  split
  · rfl
  · exact if_pos (beq_iff_eq.mpr held)

theorem execPollTimerExpiry_running {s : State} {n : PortNo} {ms : Nat} (timer : s.ports[n].pollTimer = some ms)
    (other : s.service ≠ some n) :
    execPollTimerExpiry n s = .next (s.setPort n (s.ports[n].polling.startWork (s.inService n))) := by
  have notServing : ¬ s.inService n = true := fun held => other (beq_iff_eq.mp held)
  rw [← State.setPort_startWork]
  unfold execPollTimerExpiry Port.polling
  dsimp only
  rw [timer]
  exact if_neg notServing

theorem execReprobeExpiry_short {s : State} {n : PortNo} {ms : Nat} (timer : s.ports[n].reprobeTimer = some ms)
    (short : s.ports[n].fault = .idShort) :
    execReprobeExpiry n s = .next ((s.setPort n { s.ports[n] with reprobeTimer := some 500 }).requestIdent n) := by
  unfold execReprobeExpiry
  rw [timer]
  exact if_pos short

theorem execReprobeExpiry_queried {s : State} {n : PortNo} {ms : Nat} (timer : s.ports[n].reprobeTimer = some ms)
    (queried : s.ports[n].fault ≠ .idShort) :
    execReprobeExpiry n s = .next (s.setPort n (s.ports[n].reprobing.startWork (s.inService n))) := by
  rw [← State.setPort_startWork]
  unfold execReprobeExpiry
  rw [timer]
  dsimp only
  rw [if_neg queried, State.setPort_same, State.setPort_setPort]
  rfl

/-- A row that sets the record of a port. -/
theorem next_setPort (s : State) (n : PortNo) {p q : Port} (same : p = q) :
    (.next (s.setPort n p) : Host.Outcome State Fault Refusal) = .next (s.setPort n q) := same ▸ rfl

/-- Settles O45: what falls due makes a record with due work, and the engine takes it up when its line is free. -/
theorem engineTimersStartExchanges : Obligations.EngineTimersStartExchanges := by
  intro s n ms x p free query poll setPort
  refine ⟨fun timer probing ⟨idle, noPass, noPoll⟩ => ?_, fun timer busy => ?_, fun busy => ?_, fun _ held => ?_,
    fun timer other idle noPass => ?_, fun timer other busy => ?_, fun timer queried fault ⟨idle, noPass, noPoll⟩ => ?_,
    fun timer short => ⟨_, execReprobeExpiry_short timer short, ?_⟩⟩
  · have sent := Port.startWork_query (p := p.tryDue) idle noPass noPoll rfl (s.inService n)
    rw [Port.beginQuery_probing (p := p.tryDue) probing, queryExchange_eq] at sent
    exact (execQueryTryDue_running timer).trans (next_setPort s n sent)
  · have waits := Port.startWork_busy (p := p.tryDue) busy (s.inService n)
    exact (execQueryTryDue_running timer).trans (next_setPort s n waits)
  · simp only [exec, execDeviceFrameSent]
    rw [show s.ports[n].exchange = some x from busy]
    rfl
  · exact execPollTimerExpiry_held held
  · have sent := Port.startWork_poll (p := p.polling) idle noPass rfl (s.inService n)
    rw [pollExchange_eq] at sent
    exact (execPollTimerExpiry_running timer other).trans (next_setPort s n sent)
  · have waits := Port.startWork_busy (p := p.polling) busy (s.inService n)
    exact (execPollTimerExpiry_running timer other).trans (next_setPort s n waits)
  · have notProbing : p.state ≠ .probing := by
      rw [fault]
      exact nofun
    have sent := Port.startWork_query (p := p.reprobing) idle noPass noPoll rfl (s.inService n)
    rw [Port.beginQuery_other (p := p.reprobing) notProbing, queryExchange_eq] at sent
    exact (execReprobeExpiry_queried timer queried).trans (next_setPort s n sent)
  · have kept := State.requestIdent_keeps (State.masked s [.ports, .scan]) (State.masked_scan (by decide))
      (s.setPort n { s.ports[n] with reprobeTimer := some 500 }) n
    exact ⟨State.requestIdent_keeps (·.ports) (fun _ _ => rfl) _ n, State.requestIdent_asked _ n,
      State.keepsBut_of_masked (kept.trans (State.masked_ports (by decide) s _))⟩

end Sys2Proof.Machine
end

