-- ==== Sys2Proof/Proofs/Settled.lean ====
section
/-! PROOFS. A row that the transmitter ends (R19): what it leaves of the state the row made, beside the frame taken. -/

namespace Sys2Proof.Machine

section
variable {s v : State}

/-- A busy transmitter takes nothing, so the bus is as the row made it. -/
theorem State.transmitNext_bus_of_busy (tx : v.link.tx = s.link.tx) (busy : s.link.tx ≠ none) :
    v.transmitNext.bus = v.bus := by
  rw [State.transmitNext_of_busy (tx ▸ busy)]

theorem State.transmitNext_reportQueue_of_busy (tx : v.link.tx = s.link.tx) (busy : s.link.tx ≠ none) :
    v.transmitNext.reportQueue = v.reportQueue := by
  rw [State.transmitNext_of_busy (tx ▸ busy)]

/-- Of the link, the transmitter sets what it sends. -/
theorem State.linkKept_transmitNext (link : v.link = s.link) : s.linkKept v.transmitNext := by
  rw [State.linkKept, ← link]
  exact v.transmitNext_link

theorem State.keepsBut_transmitNext {changed : List Part} (link : Part.link ∈ changed) (bus : Part.bus ∈ changed)
    (reportQueue : Part.reportQueue ∈ changed) (kept : State.masked s changed v = State.masked s changed s) :
    s.keepsBut v.transmitNext changed :=
  State.keepsBut_of_masked ((State.transmitNext_keeps _ (State.masked_link link) (State.masked_bus bus)
    (State.masked_reportQueue reportQueue) v).trans kept)

end

section
variable {m : State} {changed : List Part}

/-! More components that do not show where they are listed. -/

theorem State.masked_service (h : Part.service ∈ changed) : IgnoresService (State.masked m changed) := fun _ _ => by
  simp only [State.masked, if_pos h]
theorem State.masked_marks (h : Part.marks ∈ changed) : IgnoresMarks (State.masked m changed) := fun _ _ => by
  simp only [State.masked, if_pos h]
theorem State.masked_reports (h : Part.reports ∈ changed) : IgnoresReports (State.masked m changed) := fun _ _ => by
  simp only [State.masked, if_pos h]
theorem State.masked_passSkipped (h : Part.passSkipped ∈ changed) : IgnoresPassSkipped (State.masked m changed) :=
    fun _ _ => by
  simp only [State.masked, if_pos h]

end

/-- R85, R107: a channel with a binding loses it. -/
theorem Motor.unbound_stopped {m : Motor} (regulated : m.regTimer ≠ none) (o : Outcome) :
    (m.unbound o).mode = .coast ∧ (m.unbound o).dutyRequest = 0 ∧ (m.unbound o).dutyGrant = 0 ∧
      (m.unbound o).regTimer = none ∧ (m.mode.driving = true → (m.unbound o).outcome = o) := by
  rw [Motor.unbound, if_pos regulated]
  exact ⟨rfl, rfl, rfl, rfl, fun driving => congrArg Motor.outcome (if_pos driving)⟩

/-- The port that the row speaks of changes its lines and its channel, and no other does. -/
theorem vector_set_others {α : Type} {v w : Vector α 6} {n : PortNo} {a : α} (h : w = v.set n a) (k : PortNo)
    (other : k ≠ n) : w[k] = v[k] := h ▸ vector_set_other v other.symm a

end Sys2Proof.Machine
end

