-- ==== Sys2Proof/Proofs/DetectFilter.lean ====
section
/-! PROOFS. The detect filter (R24), the attach (R25) and the detach (R44). -/

namespace Sys2Proof.Machine

/-! ## What else a detach leaves -/

theorem ConverterWork.voided_other (w : ConverterWork) (n : PortNo) : w.voided n ≠ .ident n false := by
  cases w with
  | idle => exact nofun
  | slot i input k done sum discard => exact nofun
  | ident p void =>
    unfold ConverterWork.voided
    dsimp only
    split
    · exact nofun
    · next other => exact fun same => other (ConverterWork.ident.inj same).1

section
variable (s : State) (n : PortNo)

/-- R44, R54: the ID measurement of the port is cancelled. -/
theorem State.detach_scan : (s.detach n).scan.idReq[n] = false ∧ (s.detach n).scan.work ≠ .ident n false := by
  rw [s.detach_of_cleared n (·.scan) (fun _ _ => rfl) (fun _ _ => rfl), State.cleared]
  generalize (s.unlined n).serviceOff n = v
  exact ⟨vector_set_same _ n false, ConverterWork.voided_other _ n⟩

/-- R77: the entries over a port that is EMPTY take NO_SOURCE. -/
theorem State.detach_conv {k : Fin 32} (port : s.sourcePort s.conv[k].cfg = some n) (full : s.conv[k].status ≠ .empty) :
    (s.detach n).conv[k].status = .noSource := by
  have unlined : (s.unlined n).conv = ((s.unhanded n).portStatus n .noSource).conv :=
    State.setLineMode_keeps (·.conv) (fun _ _ => rfl) _ n .none 0
  rw [s.detach_of_cleared n (·.conv) (fun _ _ => rfl) (fun _ _ => rfl),
    s.cleared_of_unlined n (·.conv) (fun _ _ => rfl) (fun _ _ => rfl) (fun _ _ => rfl), unlined]
  refine State.portStatus_taken ?_ ?_ .noSource port full
  · exact s.unhanded_keeps n (·.conv) (fun _ _ => rfl) (fun _ _ => rfl) (fun _ _ => rfl) (fun _ _ => rfl)
  · exact s.unhanded_keeps n (·.scan.slots) (fun _ _ => rfl) (fun _ _ => rfl) (fun _ _ => rfl) (fun _ _ => rfl)

theorem State.unhanded_bus : (s.unhanded n).bus =
    if s.motors[n].regTimer = none then s.bus else s.endingBus n .detached := by
  have motors : (s.answerPass n .noDevice []).motors = s.motors :=
    State.answerPass_keeps (·.motors) (fun _ _ => rfl) (fun _ _ => rfl) s n .noDevice []
  have bus : (s.answerPass n .noDevice []).bus = s.bus :=
    State.answerPass_keeps (·.bus) (fun _ _ => rfl) (fun _ _ => rfl) s n .noDevice []
  rw [State.unhanded, State.loseMotor_bus, motors, State.endingBus_congr (s := s) (by rw [motors]), bus, ite_not]

/-- R29, R44: what a detach posts and notices, after the RUN_END of an operation that it ends. -/
theorem State.detach_bus : (s.detach n).bus =
    ((if s.motors[n].regTimer = none then s.bus else s.endingBus n .detached).post .portDetach (portByte n) 0).notify
      (.portChange n .empty .none none 0 0) := by
  have cleared : (s.cleared n).bus = if s.motors[n].regTimer = none then s.bus else s.endingBus n .detached := by
    rw [s.cleared_of_unlined n (·.bus) (fun _ _ => rfl) (fun _ _ => rfl) (fun _ _ => rfl),
      s.unlined_of_unhanded n (·.bus) (fun _ _ => rfl) (fun _ _ => rfl), s.unhanded_bus]
  rw [State.detach_eq, ← cleared]
  simp [State.portNotice, Port.detached, Port.clearIdentity, Port.quiet]

end

/-! ## The filter -/

/-- R24: the record once the level at the expiry is the accepted one. -/
def Port.accepted (p : Port) : Port := { p with detTimer := none, detAccepted := p.det }

section
variable {s : State} {n : PortNo} {ms : Nat} (timer : s.ports[n].detTimer = some ms)
include timer

theorem execDetDebounceExpiry_running :
    execDetDebounceExpiry n s = settled ((s.setPort n { s.ports[n] with detTimer := none }).acceptDet n) := by
  unfold execDetDebounceExpiry
  rw [timer]

theorem execDetDebounceExpiry_same (same : s.ports[n].det = s.ports[n].detAccepted) :
    execDetDebounceExpiry n s = settled (s.setPort n { s.ports[n] with detTimer := none }) := by
  rw [execDetDebounceExpiry_running timer, State.acceptDet, State.setPort_same]
  exact congrArg settled (if_pos same)

/-- R24, R25: a contact that stays closed on an EMPTY port is an attach. -/
theorem execDetDebounceExpiry_attach (closed : s.ports[n].det = true) (accepted : s.ports[n].detAccepted = false)
    (empty : s.ports[n].state = .empty) :
    execDetDebounceExpiry n s = settled ((s.setPort n s.ports[n].accepted).enterDetecting n) := by
  have changed : s.ports[n].det ≠ s.ports[n].detAccepted := by
    rw [closed, accepted]
    decide
  rw [execDetDebounceExpiry_running timer, State.acceptDet, State.setPort_same]
  dsimp only
  rw [if_neg changed, if_pos closed, if_pos empty, State.setPort_setPort]
  rfl

/-- R24, R44: a contact that stays open is a detach. -/
theorem execDetDebounceExpiry_detach (opened : s.ports[n].det = false) (accepted : s.ports[n].detAccepted = true)
    (attached : s.ports[n].state ≠ .empty) :
    execDetDebounceExpiry n s = settled ((s.setPort n s.ports[n].accepted).detach n) := by
  have changed : s.ports[n].det ≠ s.ports[n].detAccepted := by
    rw [opened, accepted]
    decide
  rw [execDetDebounceExpiry_running timer, State.acceptDet, State.setPort_same]
  dsimp only
  rw [if_neg changed, if_neg (ne_true_of_eq_false opened), if_neg attached, State.setPort_setPort]
  rfl

end

/-- Settles O44: the filter, the attach, and the detach. -/
theorem detectFilterAttachesAndDetaches : Obligations.DetectFilterAttachesAndDetaches := by
  intro s n closed ms w p cleared
  let u : State := s.setPort n p.accepted
  have record : u.ports[n] = p.accepted := State.setPort_same ..
  refine ⟨fun same => if_pos same, fun changed => if_neg changed, execDetDebounceExpiry_same,
    fun timer shut accepted empty => ⟨_, execDetDebounceExpiry_attach timer shut accepted empty, ?_⟩,
    fun timer opened accepted attached => ⟨_, execDetDebounceExpiry_detach timer opened accepted attached, ?_⟩⟩
  · have ports := u.enterDetecting_ports n
    have bus := u.enterDetecting_bus n
    have asked := u.enterDetecting_asked n
    have link : (u.enterDetecting n).link = s.link :=
      State.enterDetecting_keeps (·.link) (fun _ _ => rfl) (fun _ _ => rfl) (fun _ _ => rfl) u n
    have kept := State.enterDetecting_keeps (State.masked s [.link, .ports, .scan, .bus, .reportQueue])
      (State.masked_bus (by decide)) (State.masked_ports (by decide)) (State.masked_scan (by decide)) u n
    have before := kept.trans (State.masked_ports (by decide) s _)
    rw [record] at ports
    show (_ ∧ _)
    generalize u.enterDetecting n = v at ports bus asked link before ⊢
    refine ⟨?_, ?_, fun idle room => ?_, fun busy => ?_, State.linkKept_transmitNext link,
      State.keepsBut_transmitNext (by decide) (by decide) (by decide) before⟩
    · rw [State.transmitNext_ports, ports]
      exact Vector.set_set ..
    · rw [State.transmitNext_scan]
      exact asked
    · rw [State.transmitNext_bus_events, bus, Bus.notify_events]
      exact congrArg Bus.events (Bus.post_idle s.bus _ _ _ idle room)
    · rw [State.transmitNext_bus_of_busy (congrArg Link.tx link) busy, bus]
      rfl
  · have ports := u.detach_ports n
    have bus := u.detach_bus n
    have service := u.detach_service n
    have lines := u.detach_lines n
    have motors := u.detach_motors n
    have link := u.detach_link n
    have scan := u.detach_scan n
    have conv (i : Fin 32) := u.detach_conv n (k := i)
    have kept := State.detach_keeps
      (State.masked s [.link, .ports, .service, .lines, .motors, .conv, .scan, .bus, .reportQueue])
      (State.masked_link (by decide)) (State.masked_bus (by decide)) (State.masked_ports (by decide))
      (State.masked_service (by decide)) (State.masked_scan (by decide)) (State.masked_lines (by decide))
      (State.masked_conv (by decide)) (State.masked_motors (by decide)) u n
    have before := kept.trans (State.masked_ports (by decide) s _)
    rw [record] at ports
    rw [State.answerPass_link, record] at link
    have tx : (u.detach n).link.tx = s.link.tx := by
      rw [link]
      cases p.accepted.pass <;> rfl
    show (_ ∧ _)
    generalize u.detach n = v at ports bus service lines motors link scan conv before tx ⊢
    refine ⟨?_, fun busy => ?_, ?_, ?_, fun k other => ?_, fun regulated => ?_, fun i => ?_, ?_, ?_, fun noPass => ?_,
      fun pass => ?_, State.keepsBut_transmitNext (by decide) (by decide) (by decide) before⟩
    · rw [State.transmitNext_ports, ports]
      exact Vector.set_set ..
    · rw [State.transmitNext_bus_of_busy tx busy, bus]
      rfl
    · rw [State.transmitNext_service]
      exact service
    · rw [State.transmitNext_lines, lines, vector_set_same]
      exact Lines.enter_mode _ _ _
    · rw [State.transmitNext_lines, State.transmitNext_motors]
      exact ⟨vector_set_others lines k other, vector_set_others motors k other⟩
    · rw [State.transmitNext_motors, motors, vector_set_same]
      exact Motor.unbound_stopped regulated .detached
    · rw [State.transmitNext_conv]
      exact conv i
    · rw [State.transmitNext_scan]
      exact scan.1
    · rw [State.transmitNext_scan]
      exact scan.2
    · refine State.linkKept_transmitNext (link.trans ?_)
      rw [show p.accepted.pass = none from noPass]
      rfl
    · rw [State.transmitNext_link, link, show p.accepted.pass = some w from pass]
      rfl

end Sys2Proof.Machine
end

