-- ==== Sys2Proof/Proofs/ClosingWindows.lean ====
section
/-! PROOFS. A reply window that closes (R27, R34, R38), and the port it leaves in FAULT. -/

namespace Sys2Proof.Machine

/-! ## The exchange of an open window -/

/-- R36: an open window is that of the exchange in flight. -/
theorem State.receiving_of_window {s : State} {n : PortNo} {kind : ExchangeKind}
    (h : s.ports[n].window = some kind) : ∃ x, s.Receiving n x ∧ x.kind = kind := by
  unfold Port.window at h
  obtain ⟨x, exchange, shows⟩ := Option.bind_eq_some_iff.mp h
  split at shows
  · next opened => exact ⟨x, ⟨exchange, opened⟩, Option.some.inj shows⟩
  · exact nomatch shows

section
variable {s : State} {n : PortNo} {x : Exchange}

/-- R27: a query window that closes is a failed try, as a bad frame in it is. -/
theorem State.Receiving.query_lapses (h : s.Receiving n x) (query : x.kind = .query) :
    ((s.endExchange n).queryFailed n).startWork n = s.deviceFrameIn n .bad := by
  rw [h.deviceFrameIn, query]
  rfl

/-- R34: a poll window that closes is a miss, as a bad frame in it is. -/
theorem State.Receiving.poll_lapses (h : s.Receiving n x) (poll : x.kind = .poll) :
    ((s.endExchange n).pollMissed n).startWork n = s.deviceFrameIn n .bad := by
  rw [h.deviceFrameIn, poll]
  rfl

end

/-! ## The port in FAULT -/

section
variable (s : State) (n : PortNo) (reason : FaultReason)

/-- R34, R36: the engine of a port in FAULT rests until the re-probe. -/
theorem State.enterFault_rests (idle : s.ports[n].exchange = none) (noPass : s.ports[n].pass = none) :
    (s.enterFault n reason).startWork n = s.enterFault n reason := by
  refine State.startWork_resting fun service => ?_
  rw [s.enterFault_ports, vector_set_same]
  exact Port.startWork_idle (p := s.ports[n].faulted reason) idle noPass rfl rfl service

/-- A port that was not BOUND has no operation to end. -/
theorem State.enterFault_unbound_keeps {β : Type} (F : State → β) (hBus : IgnoresBus F) (hPorts : IgnoresPorts F)
    (hLines : IgnoresLines F) (hConv : IgnoresConv F) (notBound : s.ports[n].state ≠ .bound) :
    F (s.enterFault n reason) = F s := by
  rw [State.enterFault_eq, if_neg notBound, State.portStatus_keeps F hConv, State.faultSaid,
    State.setLineMode_keeps F hLines, State.portNotice_keeps F hBus, State.post_keeps F hBus,
    State.setPort_keeps F hPorts]

theorem State.enterFault_link : (s.enterFault n reason).link = s.link :=
  State.enterFault_keeps (·.link) (fun _ _ => rfl) (fun _ _ => rfl) (fun _ _ => rfl) (fun _ _ => rfl) (fun _ _ => rfl)
    s n reason

theorem State.enterFault_bus_unbound (notBound : s.ports[n].state ≠ .bound) :
    (s.enterFault n reason).bus = s.faultBus n reason :=
  (s.enterFault_bus n reason).trans (if_neg fun both => notBound both.1)

end

/-! ## The third failure in a row -/

section
variable {s : State} {n : PortNo}

/-- R27: the third try of PROBING that fails enters FAULT NO_IDENT. -/
theorem State.queryFailed_third (noPass : s.ports[n].pass = none) (probing : s.ports[n].state = .probing)
    (tries : 3 ≤ s.ports[n].tries) :
    ((s.endExchange n).queryFailed n).startWork n = (s.endExchange n).enterFault n .noIdent := by
  have failed : (s.endExchange n).queryFailed n = (s.endExchange n).enterFault n .noIdent := by
    rw [State.queryFailed, State.endExchange_port]
    exact if_pos ⟨probing, tries⟩
  rw [failed]
  refine State.enterFault_rests _ n _ ?_ ?_
  · rw [State.endExchange_port]
  · rw [State.endExchange_port]
    exact noPass

/-- R34: the third miss in a row enters FAULT SILENT. -/
theorem State.pollMissed_third (noPass : s.ports[n].pass = none) (missed : s.ports[n].missed = 2) :
    ((s.endExchange n).pollMissed n).startWork n =
      (s.setPort n { s.ports[n] with exchange := none, missed := 0 }).enterFault n .silent := by
  have third : (s.endExchange n).pollMissed n =
      (s.setPort n { s.ports[n] with exchange := none, missed := 0 }).enterFault n .silent := by
    rw [State.pollMissed, State.endExchange_port]
    dsimp only
    rw [if_pos (by omega), State.endExchange, State.setPort_setPort]
  rw [third]
  refine State.enterFault_rests _ n _ ?_ ?_
  · rw [State.setPort_same]
  · rw [State.setPort_same]
    exact noPass

end

/-- Settles O46: a window that closes is a failure, the third one an entry to FAULT. -/
theorem closingWindowsFailExchanges : Obligations.ClosingWindowsFailExchanges := by
  intro s n w p faulted
  have closes {kind : ExchangeKind} {act : State} (window : p.window = some kind) :
      (if s.ports[n].window = some kind then settled act else .next s) = settled act := if_pos window
  refine ⟨fun window noPass noPoll noQuery early => ?_, fun window noPass probing tries => ?_,
    fun window noPass noPoll noQuery early => ?_, fun window noPass missed => ?_,
    fun window pass noPoll noQuery => ?_⟩
  · obtain ⟨x, h, query⟩ := State.receiving_of_window window
    refine (closes window).trans ?_
    rw [h.query_lapses query, h.query_bad query noPass noPoll noQuery early]
    rfl
  · refine ⟨_, (closes window).trans (congrArg settled (State.queryFailed_third noPass probing tries)), ?_⟩
    let u : State := s.endExchange n
    have record : u.ports[n] = { p with exchange := none } := State.endExchange_port
    have notBound : u.ports[n].state ≠ .bound := by
      rw [record, show ({ p with exchange := none } : Port).state = .probing from probing]
      exact nofun
    have ports := u.enterFault_ports n .noIdent
    have lines := u.enterFault_lines n .noIdent
    have bus := u.enterFault_bus_unbound n .noIdent notBound
    have link := u.enterFault_link n .noIdent
    have kept := u.enterFault_unbound_keeps n .noIdent
      (State.masked s [.link, .ports, .lines, .conv, .bus, .reportQueue]) (State.masked_bus (by decide))
      (State.masked_ports (by decide)) (State.masked_lines (by decide)) (State.masked_conv (by decide)) notBound
    have before := kept.trans (State.masked_ports (by decide) s _)
    rw [record] at ports
    rw [State.faultBus, record] at bus
    show (_ ∧ _)
    generalize u.enterFault n .noIdent = v at ports lines bus link before ⊢
    refine ⟨?_, ?_, fun busy => ?_, fun k other => ?_, State.linkKept_transmitNext link,
      State.keepsBut_transmitNext (by decide) (by decide) (by decide) before⟩
    · rw [State.transmitNext_ports, ports]
      exact Vector.set_set ..
    · rw [State.transmitNext_lines, lines, vector_set_same]
      exact Lines.enter_mode _ _ _
    · rw [State.transmitNext_bus_of_busy (congrArg Link.tx link) busy, bus]
      rfl
    · rw [State.transmitNext_lines]
      exact vector_set_others lines k other
  · obtain ⟨x, h, poll⟩ := State.receiving_of_window window
    refine (closes window).trans ?_
    rw [h.poll_lapses poll, h.poll_bad poll noPass noPoll noQuery early]
    rfl
  · refine ⟨_, (closes window).trans (congrArg settled (State.pollMissed_third noPass missed)), ?_⟩
    let u : State := s.setPort n { p with exchange := none, missed := 0 }
    have record : u.ports[n] = { p with exchange := none, missed := 0 } := State.setPort_same ..
    have ports := u.enterFault_ports n .silent
    have lines := u.enterFault_lines n .silent
    have motors := u.enterFault_motors n .silent
    have bus := u.enterFault_bus n .silent
    have link := u.enterFault_link n .silent
    have stale (i : Fin 32) := u.enterFault_stale n .silent (k := i)
    have kept := State.enterFault_keeps (State.masked s [.link, .ports, .lines, .motors, .conv, .bus, .reportQueue])
      (State.masked_bus (by decide)) (State.masked_ports (by decide)) (State.masked_lines (by decide))
      (State.masked_conv (by decide)) (State.masked_motors (by decide)) u n .silent
    have before := kept.trans (State.masked_ports (by decide) s _)
    rw [record] at ports
    rw [State.faultBus, record] at bus
    show (_ ∧ _)
    generalize u.enterFault n .silent = v at ports lines motors bus link stale before ⊢
    refine ⟨?_, ?_, fun busy => ?_, fun k other => ?_, fun bound regulated => ?_, fun i => ?_,
      State.linkKept_transmitNext link, State.keepsBut_transmitNext (by decide) (by decide) (by decide) before⟩
    · rw [State.transmitNext_ports, ports]
      exact Vector.set_set ..
    · rw [State.transmitNext_lines, lines, vector_set_same]
      exact Lines.enter_mode _ _ _
    · rw [State.transmitNext_bus_of_busy (congrArg Link.tx link) busy, bus]
      rfl
    · rw [State.transmitNext_lines, State.transmitNext_motors]
      exact ⟨vector_set_others lines k other, vector_set_others motors k other⟩
    · obtain ⟨coast, _, granted, timer, outcome⟩ := Motor.unbound_stopped regulated .sourceLost
      rw [State.transmitNext_motors, motors, vector_set_same, if_pos (by rw [record]; exact bound)]
      exact ⟨coast, timer, granted, outcome⟩
    · rw [State.transmitNext_conv]
      exact stale i
  · refine (closes window).trans ?_
    rw [State.answerPass_rests pass noPoll noQuery]
    rfl

end Sys2Proof.Machine
end

