-- ==== Sys2Proof/Proofs/Lookups.lean ====
section
/-! PROOFS. What the lookup of a new record makes of its port (R28, R32), for the bands of an ID measurement and for an
IDENT. -/

namespace Sys2Proof.Machine

/-! ## What the engine's next work leaves of a record -/

/-- R36: the engine writes the exchange and the work that was due. -/
theorem Port.startWork_frame (p : Port) (service : Bool) :
    p.startWork service = { p with exchange := (p.startWork service).exchange, pollDue := (p.startWork service).pollDue,
                                   queryDue := (p.startWork service).queryDue, tries := (p.startWork service).tries,
                                   queryTimer := (p.startWork service).queryTimer } := by
  unfold Port.startWork
  split
  · rfl
  · rfl
  · split_ifs
    · rfl
    · unfold Port.beginQuery
      dsimp only
      split <;> rfl
    · rfl

/-- R32: polling writes the poll timer besides. -/
theorem Port.polled_frame (p : Port) (pr : Profile) (service : Bool) :
    ∃ (exchange : Option Exchange) (pollDue queryDue resumes : Bool) (tries : Nat) (queryTimer : Option Nat),
      p.polled pr service = { p with exchange := exchange, pollDue := pollDue, queryDue := queryDue, tries := tries,
                                     queryTimer := queryTimer, resumes := resumes,
                                     pollTimer := if p.smart then some (pollInterval pr p) else p.pollTimer } := by
  unfold Port.polled
  split
  · exact ⟨_, _, _, _, _, _, Port.startWork_frame _ service⟩
  · exact ⟨p.exchange, p.pollDue, p.queryDue, p.resumes, p.tries, p.queryTimer, rfl⟩

/-! ## A lookup of a new record -/

/-- R28: the record of a port that becomes UNKNOWN. -/
def Port.unnamed (p : Port) : Port :=
  { p with state := .unknown, fault := .none, profile := none, pollDue := false, pollTimer := none, resumes := false }

section
variable {s : State} {n : PortNo} {q : Port}

/-- R28, R29, R107: the port is BOUND, with the lines and the channel of its profile. -/
theorem State.lookupAs_bound {i : Fin 16} (found : lookup s.profiles q.cls q.variant = some i) :
    let t := (s.setPort n q).lookupPort n
    t.ports[n] = (q.boundTo i).polled s.profiles[i] (s.inService n) ∧ t.lines[n].mode = s.profiles[i].lineUse ∧
      (s.profiles[i].use = .motor → t.motors[n] = s.motors[n].bind s.profiles[i]) ∧
      t.bus = (s.bus.post .portBound (portByte n) (byteOf i.val)).notify
        (.portChange n .bound .none (some i) q.cls q.variant) := by
  have record : (s.setPort n q).ports[n] = q := State.setPort_same ..
  have found' : lookup (s.setPort n q).profiles (s.setPort n q).ports[n].cls (s.setPort n q).ports[n].variant =
      some i := by
    rw [record]
    exact found
  dsimp only
  rw [State.lookupPort_some found', State.bindPort_polled, State.bindPort_lines, State.bindPort_motors,
    State.bindPort_bus, record, vector_set_same, vector_set_same, vector_set_same]
  exact ⟨rfl, Lines.enter_mode _ _ _, fun motor => if_pos motor, rfl⟩

/-- R28, R29: without a profile that matches the port is UNKNOWN. -/
theorem State.lookupAs_unknown (missing : lookup s.profiles q.cls q.variant = none) (state : q.state ≠ .unknown) :
    let t := (s.setPort n q).lookupPort n
    t.ports[n] = q.unnamed ∧ t.lines[n].mode = .none ∧
      t.bus = s.bus.notify (.portChange n .unknown .none none q.cls q.variant) := by
  have record : (s.setPort n q).ports[n] = q := State.setPort_same ..
  have missing' : lookup (s.setPort n q).profiles (s.setPort n q).ports[n].cls (s.setPort n q).ports[n].variant =
      none := by
    rw [record]
    exact missing
  dsimp only
  rw [State.lookupPort_none missing', State.becomeUnknown_ports, State.becomeUnknown_lines, State.becomeUnknown_bus,
    record, vector_set_same, vector_set_same, if_neg state]
  exact ⟨rfl, Lines.enter_mode _ _ _, rfl⟩

/-- R28: a lookup leaves the identity, and the port is in no FAULT. -/
theorem State.lookupAs_identity (state : q.state ≠ .unknown) :
    let r := ((s.setPort n q).lookupPort n).ports[n]
    r.cls = q.cls ∧ r.variant = q.variant ∧ r.formats = q.formats ∧ r.minPoll = q.minPoll ∧ r.fault = .none ∧
      r.reprobeTimer = q.reprobeTimer := by
  dsimp only
  cases found : lookup s.profiles q.cls q.variant with
  | some i =>
    obtain ⟨port, _⟩ := State.lookupAs_bound (n := n) found
    obtain ⟨_, _, _, _, _, _, polled⟩ := Port.polled_frame (q.boundTo i) s.profiles[i] (s.inService n)
    rw [port, polled]
    exact ⟨rfl, rfl, rfl, rfl, rfl, rfl⟩
  | none =>
    obtain ⟨port, _⟩ := State.lookupAs_unknown (n := n) found state
    rw [port]
    exact ⟨rfl, rfl, rfl, rfl, rfl, rfl⟩

theorem State.atPortNo_setPort {k : PortNo} (other : k ≠ n) : (s.setPort n q).atPortNo k = s.atPortNo k := by
  have ports : (s.setPort n q).ports[k] = s.ports[k] := vector_set_other _ other.symm q
  rw [State.atPortNo, ports]
  rfl

/-- R28: the other ports are as they were. -/
theorem State.lookupAs_other {k : PortNo} (other : k ≠ n) :
    ((s.setPort n q).lookupPort n).atPortNo k = s.atPortNo k :=
  (State.lookupPort_other _ other.symm).trans (State.atPortNo_setPort other)

end

/-- R107: a channel that takes its binding. -/
theorem Motor.bind_fresh (m : Motor) (pr : Profile) :
    (m.bind pr).mode = .coast ∧ (m.bind pr).position = 0 ∧ (m.bind pr).allowance = 0 ∧
      (m.bind pr).regTimer = some pr.regPeriod.toNat := ⟨rfl, rfl, rfl, rfl⟩

end Sys2Proof.Machine
end

