-- ==== Sys2Proof/Proofs/IdentBands.lean ====
section
/-! PROOFS. The result of an ID measurement (R23, R26, R35, R54), band by band. -/

namespace Sys2Proof.Machine

/-! ## The bands (R23) -/

theorem bandOf_short {c : Nat} (h : c < 200) : bandOf c = .short := if_pos h

theorem bandOf_open {c : Nat} (h : 3900 ≤ c) : bandOf c = .openLine := by
  unfold bandOf
  repeat rw [if_neg (by omega)]

/-- R23: the class that a class band names. -/
def bandClass (c : Nat) : Byte :=
  if c < 800 then 1 else if c < 1400 then 2 else if c < 2000 then 3 else if c < 2600 then 4
  else if c < 3200 then 5 else 6

theorem bandOf_passive {c : Nat} (low : 200 ≤ c) (high : c < 3900) : bandOf c = .passive (bandClass c) := by
  unfold bandOf bandClass
  rw [if_neg (by omega)]
  split_ifs <;> rfl

/-! ## The record that leaves FAULT -/

theorem Port.leaveFault_fault {p : Port} (h : p.state = .fault) :
    p.leaveFault = { p with fault := .none, missed := 0, reprobeTimer := none } := if_pos h

theorem Port.leaveFault_other {p : Port} (h : p.state ≠ .fault) : p.leaveFault = p := if_neg h

theorem Port.leaveFault_eq (p : Port) :
    p.leaveFault = { p with fault := if p.state = .fault then .none else p.fault,
                            missed := if p.state = .fault then 0 else p.missed,
                            reprobeTimer := if p.state = .fault then none else p.reprobeTimer } := by
  by_cases h : p.state = .fault
  · rw [Port.leaveFault_fault h, if_pos h, if_pos h, if_pos h]
  · rw [Port.leaveFault_other h, if_neg h, if_neg h, if_neg h]

/-! ## The other ports -/

section
variable (s : State) {n k : PortNo} (other : k ≠ n)
include other

theorem State.enterFault_other (reason : FaultReason) : (s.enterFault n reason).atPortNo k = s.atPortNo k := by
  unfold State.atPortNo
  rw [State.enterFault_ports, State.enterFault_lines, State.enterFault_motors]
  simp only [vector_set_other _ other.symm]

theorem State.enterProbing_other : (s.enterProbing n).atPortNo k = s.atPortNo k := by
  have lines : (s.enterProbing n).lines = s.lines :=
    State.enterProbing_keeps (·.lines) (fun _ _ => rfl) (fun _ _ => rfl) s n
  have motors : (s.enterProbing n).motors = s.motors :=
    State.enterProbing_keeps (·.motors) (fun _ _ => rfl) (fun _ _ => rfl) s n
  unfold State.atPortNo
  rw [State.enterProbing_ports, lines, motors, vector_set_other _ other.symm]

theorem State.identResult_other (code : BitVec 12) : (s.identResult n code).atPortNo k = s.atPortNo k := by
  by_cases measured : s.ports[n].Measured
  · cases band : bandOf code.toNat with
    | short =>
      rw [State.identResult_short measured band]
      split
      · exact State.atPortNo_setPort other
      · exact (State.enterFault_other _ other _).trans (State.atPortNo_setPort other)
    | passive c =>
      rw [State.identResult_passive measured band]
      exact State.lookupAs_other other
    | openLine =>
      rw [State.identResult_open measured band]
      exact (State.enterProbing_other _ other).trans (State.atPortNo_setPort other)
  · rw [State.identResult_discarded measured]

end

/-! ## The row -/

/-- R54: what a conversion that is not void makes of its port. -/
def State.identified (s : State) (n : PortNo) (void : Bool) (code : BitVec 12) : State :=
  if void then s else s.identResult n code

theorem execIdConversionDone_ident {s : State} {n : PortNo} {void : Bool} (work : s.scan.work = .ident n void)
    (code : BitVec 12) : execIdConversionDone code s = settled (s.identified n void code).converterNext := by
  unfold execIdConversionDone
  rw [work]
  rfl

theorem State.identified_keeps {β : Type} (F : State → β) (hBus : IgnoresBus F) (hPorts : IgnoresPorts F)
    (hLines : IgnoresLines F) (hConv : IgnoresConv F) (hMotors : IgnoresMotors F) (s : State) (n : PortNo) (void : Bool)
    (code : BitVec 12) : F (s.identified n void code) = F s := by
  unfold State.identified
  split
  · rfl
  · exact State.identResult_keeps F hBus hPorts hLines hConv hMotors s n code

theorem State.identified_discarded {s : State} {n : PortNo} {void : Bool} (h : void = true ∨ ¬ s.ports[n].Measured)
    (code : BitVec 12) : s.identified n void code = s := by
  unfold State.identified
  rcases h with voided | unmeasured
  · exact if_pos voided
  · rw [State.identResult_discarded unmeasured]
    exact ite_self s

/-- What the transmitter and the converter's next work leave of the state that the result made. -/
structure State.Shown (s r t : State) : Prop where
  ports  : t.ports = r.ports
  lines  : t.lines = r.lines
  motors : t.motors = r.motors
  conv   : t.conv = r.conv
  bus    : s.link.tx ≠ none → t.bus = r.bus

theorem State.shown_settled {s r : State} (link : r.link = s.link) : s.Shown r r.converterNext.transmitNext where
  ports := State.transmitNext_ports _
  lines := State.transmitNext_lines _
  motors := State.transmitNext_motors _
  conv := State.transmitNext_conv _
  bus := State.transmitNext_bus_of_busy (congrArg Link.tx link)

/-! ## A measurement that counts -/

section
variable {s : State} {n : PortNo} {code : BitVec 12}

theorem Port.Measured.named {p : Port} (h : p.Measured) : p.state ≠ .unknown ∧ p.state ≠ .bound := by
  rcases h with detecting | ⟨fault, _⟩
  · rw [detecting]
    exact ⟨nofun, nofun⟩
  · rw [fault]
    exact ⟨nofun, nofun⟩

/-- R26, R34: a short line in DETECTING. -/
theorem State.identResult_detecting_short (detecting : s.ports[n].state = .detecting) (short : code.toNat < 200) :
    let r := s.identResult n code
    r.ports[n] = (s.ports[n].banded .short).faulted .idShort ∧ r.lines[n].mode = .none ∧
      r.bus = (s.bus.post .portFault (portByte n) 1).notify
        (.portChange n .fault .idShort none s.ports[n].cls s.ports[n].variant) := by
  have record : (s.setPort n (s.ports[n].banded .short)).ports[n] = s.ports[n].banded .short := State.setPort_same ..
  have notFault : s.ports[n].state ≠ .fault := by
    rw [detecting]
    exact nofun
  have notBound : (s.ports[n].banded .short).state ≠ .bound := (Port.Measured.named (Or.inl detecting)).2
  dsimp only
  rw [State.identResult_short (Or.inl detecting) (bandOf_short short), if_neg notFault, State.enterFault_ports,
    State.enterFault_lines, State.enterFault_bus_unbound _ _ _ (by rw [record]; exact notBound), State.faultBus, record,
    vector_set_same, vector_set_same]
  exact ⟨rfl, Lines.enter_mode _ _ _, rfl⟩

/-- R35: a short line measured again. -/
theorem State.identResult_fault_short (fault : s.ports[n].state = .fault) (idShort : s.ports[n].fault = .idShort)
    (short : code.toNat < 200) : s.identResult n code = s.setPort n (s.ports[n].banded .short) := by
  rw [State.identResult_short (Or.inr ⟨fault, idShort⟩) (bandOf_short short), if_pos fault]

/-- R26, R35: the record with a class band, as it is looked up. -/
def Port.ofClass (p : Port) (c : Byte) : Port := (p.banded (.passive c)).leaveFault.classed c

theorem Port.ofClass_eq (p : Port) (c : Byte) :
    p.ofClass c = { p with band := some (.passive c), cls := c, variant := 0,
                           fault := if p.state = .fault then .none else p.fault,
                           missed := if p.state = .fault then 0 else p.missed,
                           reprobeTimer := if p.state = .fault then none else p.reprobeTimer } := by
  rw [Port.ofClass, Port.leaveFault_eq]
  rfl

theorem State.identResult_class (measured : s.ports[n].Measured) (low : 200 ≤ code.toNat) (high : code.toNat < 3900) :
    s.identResult n code = (s.setPort n (s.ports[n].ofClass (bandClass code.toNat))).lookupPort n :=
  State.identResult_passive measured (bandOf_passive low high)

/-- R26, R35: the record with the open band, as its query tries begin. -/
def Port.ofOpen (p : Port) : Port := (p.banded .openLine).leaveFault

theorem Port.ofOpen_eq (p : Port) :
    p.ofOpen = { p with band := some .openLine, fault := if p.state = .fault then .none else p.fault,
                        missed := if p.state = .fault then 0 else p.missed,
                        reprobeTimer := if p.state = .fault then none else p.reprobeTimer } := by
  rw [Port.ofOpen, Port.leaveFault_eq]
  rfl

theorem State.identResult_openLine (measured : s.ports[n].Measured) (high : 3900 ≤ code.toNat) :
    let q := s.ports[n].ofOpen
    (s.identResult n code).ports[n] = q.probed.startWork (s.inService n) ∧
      (s.identResult n code).bus = s.bus.notify (.portChange n .probing q.fault q.profile q.cls q.variant) := by
  rw [State.identResult_open measured (bandOf_open high), State.enterProbing_ports, State.enterProbing_bus,
    State.setPort_same, vector_set_same]
  exact ⟨rfl, rfl⟩

/-- R28: a class band whose class and variant 0 find a profile. -/
theorem State.identResult_bound {i : Fin 16} (measured : s.ports[n].Measured) (low : 200 ≤ code.toNat)
    (high : code.toNat < 3900) (found : lookup s.profiles (bandClass code.toNat) 0 = some i) :
    let r := s.identResult n code
    let c := bandClass code.toNat
    r.ports[n] = ((s.ports[n].ofClass c).boundTo i).polled s.profiles[i] (s.inService n) ∧
      r.lines[n].mode = s.profiles[i].lineUse ∧
      (s.profiles[i].use = .motor → r.motors[n] = s.motors[n].bind s.profiles[i]) ∧
      r.bus = (s.bus.post .portBound (portByte n) (byteOf i.val)).notify
        (.portChange n .bound .none (some i) c 0) := by
  have bound := State.lookupAs_bound (s := s) (n := n) (q := s.ports[n].ofClass (bandClass code.toNat)) (i := i)
  rw [← State.identResult_class measured low high] at bound
  exact bound found

/-- R28: a class band whose class and variant 0 find none. -/
theorem State.identResult_unknown (measured : s.ports[n].Measured) (low : 200 ≤ code.toNat)
    (high : code.toNat < 3900) (missing : lookup s.profiles (bandClass code.toNat) 0 = none) :
    let r := s.identResult n code
    let c := bandClass code.toNat
    r.ports[n] = (s.ports[n].ofClass c).unnamed ∧ r.lines[n].mode = .none ∧
      r.bus = s.bus.notify (.portChange n .unknown .none none c 0) := by
  have unknown := State.lookupAs_unknown (s := s) (n := n) (q := s.ports[n].ofClass (bandClass code.toNat))
  rw [← State.identResult_class measured low high] at unknown
  refine unknown missing ?_
  rw [Port.ofClass_eq]
  exact measured.named.1

/-- R26: what the band leaves in the record, whatever the lookup finds. -/
theorem State.identResult_classed (measured : s.ports[n].Measured) (low : 200 ≤ code.toNat)
    (high : code.toNat < 3900) :
    let r := s.identResult n code
    let c := bandClass code.toNat
    r.ports[n].band = some (.passive c) ∧ r.ports[n].cls = c ∧ r.ports[n].variant = 0 ∧
      (s.ports[n].state = .fault → r.ports[n].missed = 0 ∧ r.ports[n].reprobeTimer = none) := by
  dsimp only
  cases found : lookup s.profiles (bandClass code.toNat) 0 with
  | some i =>
    obtain ⟨port, _⟩ := State.identResult_bound measured low high found
    obtain ⟨_, _, _, _, _, _, polled⟩ := Port.polled_frame
      ((s.ports[n].ofClass (bandClass code.toNat)).boundTo i) s.profiles[i] (s.inService n)
    rw [port, polled, Port.boundTo, Port.ofClass_eq]
    exact ⟨rfl, rfl, rfl, fun fault => ⟨rfl, if_pos fault⟩⟩
  | none =>
    obtain ⟨port, _⟩ := State.identResult_unknown measured low high found
    rw [port, Port.unnamed, Port.ofClass_eq]
    exact ⟨rfl, rfl, rfl, fun fault => ⟨if_pos fault, if_pos fault⟩⟩

/-- R35: a port that leaves FAULT, whatever the band. -/
theorem State.identResult_leaves (measured : s.ports[n].Measured) (low : 200 ≤ code.toNat)
    (fault : s.ports[n].state = .fault) :
    (s.identResult n code).ports[n].missed = 0 ∧ (s.identResult n code).ports[n].reprobeTimer = none := by
  by_cases high : code.toNat < 3900
  · obtain ⟨_, _, _, left⟩ := State.identResult_classed measured low high
    exact left fault
  · obtain ⟨port, _⟩ := State.identResult_openLine measured (Nat.not_lt.mp high)
    rw [port, Port.startWork_frame, Port.probed, Port.ofOpen_eq]
    exact ⟨if_pos fault, if_pos fault⟩

end

/-- Settles O43: the result of the measurement, and then the converter's and the transmitter's next work. -/
theorem identBandsDecide : Obligations.IdentBandsDecide := by
  intro s code n void work
  refine ⟨_, execIdConversionDone_ident work code, ?_⟩
  have other (k : PortNo) (h : k ≠ n) : (s.identified n void code).atPortNo k = s.atPortNo k := by
    unfold State.identified
    split
    · rfl
    · exact s.identResult_other h code
  have discarded (h : void = true ∨ ¬ s.ports[n].Measured) := State.identified_discarded h code
  have measures (h : void = false) : s.identified n void code = s.identResult n code := if_neg (ne_true_of_eq_false h)
  have link : (s.identified n void code).link = s.link :=
    State.identified_keeps (·.link) (fun _ _ => rfl) (fun _ _ => rfl) (fun _ _ => rfl) (fun _ _ => rfl)
      (fun _ _ => rfl) s n void code
  have kept := State.identified_keeps
    (State.masked s [.link, .scan, .ports, .lines, .motors, .conv, .bus, .reportQueue])
    (State.masked_bus (by decide)) (State.masked_ports (by decide)) (State.masked_lines (by decide))
    (State.masked_conv (by decide)) (State.masked_motors (by decide)) s n void code
  generalize s.identified n void code = r at other discarded measures link kept ⊢
  have shown : s.Shown r r.converterNext.transmitNext := State.shown_settled link
  have frame : s.keepsBut r.converterNext.transmitNext
      [.link, .scan, .ports, .lines, .motors, .conv, .bus, .reportQueue] :=
    State.keepsBut_transmitNext (by decide) (by decide) (by decide)
      ((State.converterNext_keeps _ (State.masked_scan (by decide)) r).trans kept)
  have linkKept : s.linkKept r.converterNext.transmitNext := State.linkKept_transmitNext link
  generalize r.converterNext.transmitNext = t at shown frame linkKept ⊢
  beta_reduce
  intro p c cls
  refine ⟨fun k h => ?_, fun nothing => ?_, fun real detecting short => ?_, fun real fault idShort short => ?_,
    fun real measured => ⟨fun low fault => ?_, fun low high => ?_, fun high idle noPass noPoll => ?_⟩, linkKept, frame⟩
  · obtain ⟨ports, lines, motors⟩ := State.atPortNo_inj (other k h)
    rw [shown.ports, shown.lines, shown.motors]
    exact ⟨ports, lines, motors⟩
  · have same : r = s := discarded (nothing.imp id fun apart measured => measured.elim apart.1 apart.2)
    rw [shown.ports, shown.lines, shown.motors, shown.conv, same]
    exact ⟨rfl, rfl, rfl, rfl, fun busy => (shown.bus busy).trans (congrArg State.bus same)⟩
  · obtain ⟨port, line, bus⟩ := State.identResult_detecting_short detecting short
    rw [← measures real] at port line bus
    rw [shown.ports, shown.lines]
    exact ⟨port, line, fun busy => (shown.bus busy).trans bus⟩
  · have same : r = s.setPort n (p.banded .short) :=
      (measures real).trans (State.identResult_fault_short fault idShort short)
    have bus : r.bus = s.bus := by rw [same, State.setPort_bus]
    rw [shown.ports, shown.lines, shown.motors, shown.conv, same]
    exact ⟨rfl, rfl, rfl, rfl, fun busy => (shown.bus busy).trans bus⟩
  · have left := State.identResult_leaves (code := code) measured low fault
    rw [← measures real] at left
    rw [shown.ports]
    exact left
  · obtain ⟨band, class', variant, _⟩ := State.identResult_classed (code := code) measured low high
    rw [← measures real] at band class' variant
    rw [shown.ports, shown.lines, shown.motors]
    refine ⟨band, class', variant, fun i found => ?_, fun missing => ?_⟩
    · obtain ⟨port, line, motor, bus⟩ := State.identResult_bound (code := code) measured low high found
      obtain ⟨_, _, _, _, _, _, polled⟩ := Port.polled_frame
        ((p.ofClass (bandClass code.toNat)).boundTo i) s.profiles[i] (s.inService n)
      rw [← measures real] at port line motor bus
      rw [port, polled]
      refine ⟨rfl, rfl, rfl, line, fun use => ?_, fun busy => (shown.bus busy).trans bus⟩
      rw [motor use]
      exact Motor.bind_fresh _ _
    · obtain ⟨port, line, bus⟩ := State.identResult_unknown (code := code) measured low high missing
      rw [← measures real] at port line bus
      rw [port]
      exact ⟨rfl, rfl, rfl, line, fun busy => (shown.bus busy).trans bus⟩
  · obtain ⟨port, bus⟩ := State.identResult_openLine (code := code) measured high
    rw [Port.probed_startWork (by rw [Port.ofOpen_eq]; exact idle) (by rw [Port.ofOpen_eq]; exact noPass)
      (by rw [Port.ofOpen_eq]; exact noPoll), queryExchange_eq] at port
    rw [Port.ofOpen_eq] at port bus
    rw [← measures real] at port bus
    rw [shown.ports]
    exact ⟨port, fun busy => (shown.bus busy).trans bus⟩

end Sys2Proof.Machine
end

