-- ==== Sys2Proof/Proofs/Idents.lean ====
section
/-! PROOFS. An IDENT in a query window (R27, R28, R32, R35). -/

namespace Sys2Proof.Machine

/-! ## The payload of a good IDENT (R27) -/

theorem valueIn_format (f : Format) : valueIn Format.list (codeIn Format.list f) = some f := by cases f <;> rfl

theorem mapM_valueIn_formats (formats : List Format) :
    (formats.map (codeIn Format.list)).mapM (valueIn Format.list) = some formats := by
  induction formats with
  | nil => rfl
  | cons f formats ih =>
    rw [List.map_cons, List.mapM_cons, valueIn_format, ih]
    rfl

/-- R27: the payload that declares an identity. -/
def identPayload (d : Ident) : List Byte :=
  [d.cls, d.variant, byteOf d.formats.length] ++ d.formats.map (codeIn Format.list) ++ [d.minPoll]

theorem identPayload_length (d : Ident) : (identPayload d).length = d.formats.length + 4 := by
  simp [identPayload]

/-- R27: a declared identity with 1–6 formats and a class from 16 on is read back. -/
theorem goodIdent_identPayload {d : Ident} (least : 1 ≤ d.formats.length) (most : d.formats.length ≤ 6)
    (talking : 16 ≤ d.cls.toNat) : goodIdent (identPayload d) = some d := by
  have count : (byteOf d.formats.length).toNat = d.formats.length :=
    Nat.mod_eq_of_lt (Nat.lt_of_le_of_lt most (by decide))
  have taken : (d.formats.map (codeIn Format.list) ++ [d.minPoll]).take d.formats.length =
      d.formats.map (codeIn Format.list) := List.take_left' (List.length_map _)
  have last : (d.formats.map (codeIn Format.list) ++ [d.minPoll]).getD d.formats.length 0 = d.minPoll := by
    simp
  have form : identPayload d =
      d.cls :: d.variant :: byteOf d.formats.length :: (d.formats.map (codeIn Format.list) ++ [d.minPoll]) := rfl
  rw [form, goodIdent, count, if_pos ⟨least, most, by simp, talking⟩, taken, last, mapM_valueIn_formats]
  rfl

/-! ## The frame and the window -/

section
variable {s : State} {n : PortNo} {x : Exchange}

/-- R22: the bytes of a whole good frame. -/
theorem State.Receiving.deviceBytes_good (h : s.Receiving n x) (fresh : x.got = []) {type : BitVec 3}
    (reply : 4 ≤ type.toNat) {payload : List Byte} (short : payload.length ≤ 24) :
    s.deviceBytes n (onLine (deviceFrame type payload)) = s.deviceFrameIn n (.good type payload) := by
  rw [← checkFrame_deviceFrame reply payload]
  exact h.deviceBytes fresh type short _

/-- R27: an IDENT is taken when it passes the tests. -/
theorem State.queryReply_ident (payload : List Byte) :
    s.queryReply n (.good 4 payload) =
      (goodIdent payload).elim ((s.endExchange n).queryFailed n) ((s.endExchange n).takeIdent n) := by
  have form : s.queryReply n (.good 4 payload) = (match goodIdent payload with
      | some d => (s.endExchange n).takeIdent n d
      | none => (s.endExchange n).queryFailed n) := rfl
  rw [form]
  cases goodIdent payload <;> rfl

/-- R27: an IDENT that fails the tests ends the try as a bad frame does. -/
theorem State.Receiving.query_refused (h : s.Receiving n x) (query : x.kind = .query) {payload : List Byte}
    (refused : goodIdent payload = none) : s.deviceFrameIn n (.good 4 payload) = s.deviceFrameIn n .bad := by
  have failed : s.queryReply n (.good 4 payload) = s.queryReply n .bad := by
    rw [State.queryReply_ident, refused]
    rfl
  rw [h.deviceFrameIn, h.deviceFrameIn, query]
  exact congrArg (State.startWork · n) failed

/-- R27, R35: the record that a good IDENT leaves, as it is looked up. -/
def Port.identified (p : Port) (d : Ident) : Port := (({ p with exchange := none } : Port).identify d).leaveFault

theorem Port.identified_eq (p : Port) (d : Ident) :
    ∃ fields : Vector Word 6, p.identified d =
      { p with exchange := none, cls := d.cls, variant := d.variant, formats := d.formats, minPoll := d.minPoll,
               fields := fields, queryDue := false, queryTimer := none,
               fault := if p.state = .fault then .none else p.fault,
               missed := if p.state = .fault then 0 else p.missed,
               reprobeTimer := if p.state = .fault then none else p.reprobeTimer } := by
  refine ⟨(({ p with exchange := none } : Port).identify d).fields, ?_⟩
  rw [Port.identified, Port.leaveFault_eq]
  rfl

/-- R27, R28: a good IDENT is recorded and looked up. -/
theorem State.Receiving.query_taken (h : s.Receiving n x) (query : x.kind = .query) {payload : List Byte} {d : Ident}
    (good : goodIdent payload = some d) :
    s.deviceFrameIn n (.good 4 payload) = ((s.setPort n (s.ports[n].identified d)).lookupPort n).startWork n := by
  have taken : s.queryReply n (.good 4 payload) = (s.setPort n (s.ports[n].identified d)).lookupPort n := by
    rw [State.queryReply_ident, good, Option.elim_some, State.takeIdent, State.endExchange_port, State.endExchange,
      State.setPort_setPort]
    rfl
  rw [h.deviceFrameIn, query]
  exact congrArg (State.startWork · n) taken

end

/-! ## The engine after the lookup (R32, R36) -/

/-- R32, R40: polling starts with a POLL at once, unless in service mode. -/
theorem Port.polled_smart {p : Port} (smart : p.smart = true) (idle : p.exchange = none) (noPass : p.pass = none)
    (noQuery : p.queryDue = false) (pr : Profile) (service : Bool) :
    p.polled pr service = { p with exchange := if service then none else some pollExchange, pollDue := false,
                                   pollTimer := some (pollInterval pr p), resumes := false } := by
  rw [Port.polled, if_pos smart]
  cases service with
  | true =>
    rw [Port.startWork_idle (by exact idle) (by exact noPass) (by rfl) (by exact noQuery), ← idle]
    rfl
  | false =>
    rw [Port.startWork_poll (by exact idle) (by exact noPass) (by rfl)]
    rfl

/-- R36: an engine that has just begun to poll has nothing more to begin. -/
theorem Port.polled_rests {p : Port} (smart : p.smart = true) (idle : p.exchange = none) (noPass : p.pass = none)
    (noQuery : p.queryDue = false) (pr : Profile) (service : Bool) :
    (p.polled pr service).startWork service = p.polled pr service := by
  rw [Port.polled_smart smart idle noPass noQuery]
  cases service with
  | true => exact Port.startWork_idle (by rfl) (by exact noPass) (by rfl) (by exact noQuery) true
  | false => exact Port.startWork_busy (by rfl) false

/-- R28, R32: the engine of a port whose IDENT was looked up begins nothing more. -/
theorem State.lookupAs_rests {s : State} {n : PortNo} {q : Port} (smart : q.smart = true) (idle : q.exchange = none)
    (noPass : q.pass = none) (noQuery : q.queryDue = false) (state : q.state ≠ .unknown) :
    ((s.setPort n q).lookupPort n).startWork n = (s.setPort n q).lookupPort n := by
  have service : ((s.setPort n q).lookupPort n).inService n = s.inService n :=
    State.lookupPort_keeps (fun t => t.inService n) (fun _ _ => rfl) (fun _ _ => rfl) (fun _ _ => rfl)
      (fun _ _ => rfl) (s.setPort n q) n
  have rests : ((s.setPort n q).lookupPort n).ports[n].startWork (s.inService n) =
      ((s.setPort n q).lookupPort n).ports[n] := by
    cases found : lookup s.profiles q.cls q.variant with
    | some i =>
      obtain ⟨port, _⟩ := State.lookupAs_bound (n := n) found
      rw [port]
      exact Port.polled_rests (p := q.boundTo i) smart idle noPass noQuery _ _
    | none =>
      obtain ⟨port, _⟩ := State.lookupAs_unknown (n := n) found state
      rw [port]
      exact Port.startWork_idle (p := q.unnamed) idle noPass rfl noQuery _
  rw [State.startWork, service, rests, State.setPort_self]

/-- Settles O47: the identity is recorded, looked up and announced; a bad IDENT is a failed try. -/
theorem identsAreTaken : Obligations.IdentsAreTaken := by
  intro s n x cls variant minPoll formats other exchange query opened fresh p payload
  have h : s.Receiving n x := ⟨exchange, opened⟩
  have frame {bytes : List Byte} (short : bytes.length ≤ 24) :
      exec (.identReceived n bytes) s = settled (s.deviceFrameIn n (.good 4 bytes)) :=
    congrArg settled (h.deviceBytes_good fresh (by decide) short)
  refine ⟨fun least most talking noPass state line => ?_, fun refused short noPass noPoll noQuery early => ?_⟩
  · let d : Ident := { cls := cls, variant := variant, formats := formats, minPoll := minPoll }
    have short : payload.length ≤ 24 := by
      have length : payload.length = formats.length + 4 := identPayload_length d
      omega
    have good : goodIdent payload = some d := goodIdent_identPayload (d := d) least most talking
    have taken := h.query_taken query good
    obtain ⟨fields, record⟩ := p.identified_eq d
    have named : (p.identified d).state ≠ .unknown := by
      rw [record]
      rcases state with probing | ⟨fault, _⟩
      · exact fun unknown => nomatch probing.symm.trans unknown
      · exact fun unknown => nomatch fault.symm.trans unknown
    have smart : (p.identified d).smart = true := by
      rw [record]
      exact beq_iff_eq.mpr line
    rw [State.lookupAs_rests smart (by rw [record]) (by rw [record]; exact noPass) (by rw [record]) named] at taken
    refine ⟨_, (frame short).trans (congrArg settled taken), ?_⟩
    have bound (i : Fin 16) := State.lookupAs_bound (s := s) (n := n) (q := p.identified d) (i := i)
    have unknown := State.lookupAs_unknown (s := s) (n := n) (q := p.identified d)
    have others (k : PortNo) := State.lookupAs_other (s := s) (n := n) (q := p.identified d) (k := k)
    have link : ((s.setPort n (p.identified d)).lookupPort n).link = s.link :=
      State.lookupPort_keeps (·.link) (fun _ _ => rfl) (fun _ _ => rfl) (fun _ _ => rfl) (fun _ _ => rfl) _ n
    have kept := State.lookupPort_keeps (State.masked s [.link, .ports, .lines, .motors, .bus, .reportQueue])
      (State.masked_bus (by decide)) (State.masked_ports (by decide)) (State.masked_lines (by decide))
      (State.masked_motors (by decide)) (s.setPort n (p.identified d)) n
    have before := kept.trans (State.masked_ports (by decide) s _)
    have identity := State.lookupAs_identity (s := s) (n := n) named
    generalize (s.setPort n (p.identified d)).lookupPort n = v at bound unknown others link before identity ⊢
    obtain ⟨hasCls, hasVariant, hasFormats, hasMinPoll, hasFault, hasReprobe⟩ := identity
    rw [record] at hasCls hasVariant hasFormats hasMinPoll hasReprobe
    beta_reduce
    rw [State.transmitNext_ports, State.transmitNext_lines, State.transmitNext_motors]
    refine ⟨hasCls, hasVariant, hasFormats, hasMinPoll, hasFault, hasReprobe, fun i found => ?_, fun missing => ?_,
      fun k other => State.atPortNo_inj (others k other), State.linkKept_transmitNext link,
      State.keepsBut_transmitNext (by decide) (by decide) (by decide) before⟩
    · obtain ⟨port, line, motor, bus⟩ := bound i (by rw [record]; exact found)
      have polled := Port.polled_smart (p := (p.identified d).boundTo i) smart (by rw [record]; rfl)
        (by rw [record]; exact noPass) (by rw [record]; rfl) s.profiles[i] (s.inService n)
      rw [port, polled]
      refine ⟨rfl, rfl, rfl, line, ?_, ?_, fun use => ?_, fun busy => ?_⟩
      · rw [Port.boundTo, record]
        rfl
      · rw [pollExchange_eq]
        exact if_congr beq_iff_eq rfl rfl
      · rw [motor use]
        exact Motor.bind_fresh _ _
      · rw [State.transmitNext_bus_of_busy (congrArg Link.tx link) busy, bus, record]
    · obtain ⟨port, line, bus⟩ := unknown (by rw [record]; exact missing) named
      rw [port, record]
      refine ⟨rfl, rfl, rfl, rfl, line, fun busy => ?_⟩
      rw [State.transmitNext_bus_of_busy (congrArg Link.tx link) busy, bus, record]
  · refine (frame short).trans ?_
    rw [h.query_refused query refused, h.query_bad query noPass noPoll noQuery early]
    rfl

end Sys2Proof.Machine
end

