-- ==== Sys2Proof/Proofs/SourceUpdates.lean ====
section
/-! PROOFS. What an update of a source makes of one entry (R64, R65, R67), for an entry that reads no other entry. -/

namespace Sys2Proof.Machine

/-! ## One evaluation and the chain below it (R67) -/

theorem ConvEntry.evaluate_cfg (e : ConvEntry) (x : Int) (stamp : Half) : (e.evaluate x stamp).1.cfg = e.cfg := by
  unfold ConvEntry.evaluate
  split_ifs <;> rfl

section
variable {k : Fin 32}

/-- R67: the dependents of an entry read an entry. -/
theorem State.dependents_entry {s : State} {i j : Fin 32} (h : j ∈ s.dependents i) :
    s.conv[j].cfg.sourceKind = .entry :=
  beq_iff_eq.mp (Bool.and_eq_true_iff.mp (List.mem_filter.mp h).2).1

/-- R79: a chain reaches no entry that reads no entry. -/
theorem State.noSourceBelow_missed {s : State} (kind : s.conv[k].cfg.sourceKind ≠ .entry) (i : Fin 32)
    (kept : List (Fin 32)) : (s.noSourceBelow i kept).conv[k] = s.conv[k] :=
  (State.noSourceBelow_get s i kept k).2 (Or.inl fun chained => kind (State.chainBelow_entry chained))

/-- R67: the entry of an evaluation, its events posted and its chain not yet evaluated. -/
def State.evaluated (s : State) (i : Fin 32) (x : Int) : State :=
  { s.setConv i (s.conv[i].evaluate x s.bus.stamp).1 with
    bus := s.bus.postAll (BitVec.ofNat 8 i.val) (s.conv[i].evaluate x s.bus.stamp).2 }

theorem State.evaluated_stamp (s : State) (i : Fin 32) (x : Int) : (s.evaluated i x).bus.stamp = s.bus.stamp :=
  Bus.postAll_stamp _ _ _

theorem State.evaluated_get (s : State) (i : Fin 32) (x : Int) :
    (s.evaluated i x).conv[k] = if i = k then (s.conv[k].evaluate x s.bus.stamp).1 else s.conv[k] := by
  refine (State.setConv_get s i k _).trans ?_
  split
  · next same => rw [same]
  · rfl

theorem State.evaluated_kind {s : State} (kind : s.conv[k].cfg.sourceKind ≠ .entry) (i : Fin 32) (x : Int) :
    (s.evaluated i x).conv[k].cfg.sourceKind ≠ .entry := by
  rw [State.evaluated_get]
  split
  · rw [ConvEntry.evaluate_cfg]
    exact kind
  · exact kind

theorem State.evaluateChain_succ (fuel : Nat) (s : State) (i : Fin 32) (x : Int) :
    State.evaluateChain (fuel + 1) s i x =
      if (s.conv[i].evaluate x s.bus.stamp).1.status = .valid then
        ((s.evaluated i x).dependents i).foldl
          (fun acc j =>
            let next := State.evaluateChain fuel acc.1 j acc.1.conv[i].value.toInt
            (next.1, acc.2 ++ next.2)) (s.evaluated i x, [i])
      else ((s.evaluated i x).noSourceBelow i [], []) := rfl

/-- R67: an evaluation with its chain leaves the time stamp. -/
theorem State.evaluateChain_stamp (fuel : Nat) (s : State) (i : Fin 32) (x : Int) :
    (State.evaluateChain fuel s i x).1.bus.stamp = s.bus.stamp := by
  induction fuel generalizing s i x with
  | zero => rfl
  | succ fuel ih =>
    rw [State.evaluateChain_succ]
    split
    · refine foldl_invariant (I := fun acc : State × List (Fin 32) => acc.1.bus.stamp = s.bus.stamp)
        (fun acc j stamp => ?_) _ (s.evaluated_stamp i x)
      exact (ih acc.1 j _).trans stamp
    · exact (State.noSourceBelow_keeps (·.bus.stamp) (fun _ _ => rfl) _ i []).trans (s.evaluated_stamp i x)

/-- R67: the chain of another entry leaves an entry that reads no entry. -/
theorem State.evaluateChain_missed (fuel : Nat) {s : State} (kind : s.conv[k].cfg.sourceKind ≠ .entry) {i : Fin 32}
    (other : i ≠ k) (x : Int) : (State.evaluateChain fuel s i x).1.conv[k] = s.conv[k] := by
  induction fuel generalizing s i x with
  | zero => rfl
  | succ fuel ih =>
    have first : (s.evaluated i x).conv[k] = s.conv[k] := (s.evaluated_get i x).trans (if_neg other)
    have kind' := State.evaluated_kind kind i x
    rw [State.evaluateChain_succ, ← first]
    split
    · refine List.foldlRecOn (motive := fun acc : State × List (Fin 32) =>
        acc.1.conv[k] = (s.evaluated i x).conv[k]) _ _ rfl fun acc same j member => ?_
      have entry := State.dependents_entry member
      have reached : j ≠ k := fun e => kind' (e ▸ entry)
      exact (ih (s := acc.1) (by rw [same]; exact kind') reached _).trans same
    · exact State.noSourceBelow_missed kind' i []

/-- R67: an entry that reads no entry is evaluated once by its own chain. -/
theorem State.evaluateChain_hit (fuel : Nat) {s : State} (kind : s.conv[k].cfg.sourceKind ≠ .entry) (x : Int) :
    (State.evaluateChain (fuel + 1) s k x).1.conv[k] = (s.conv[k].evaluate x s.bus.stamp).1 := by
  have first : (s.evaluated k x).conv[k] = (s.conv[k].evaluate x s.bus.stamp).1 :=
    (s.evaluated_get k x).trans (if_pos rfl)
  have kind' := State.evaluated_kind kind k x
  rw [State.evaluateChain_succ, ← first]
  split
  · refine List.foldlRecOn (motive := fun acc : State × List (Fin 32) =>
      acc.1.conv[k] = (s.evaluated k x).conv[k]) _ _ rfl fun acc same j member => ?_
    have entry := State.dependents_entry member
    have reached : j ≠ k := fun e => kind' (e ▸ entry)
    exact (State.evaluateChain_missed fuel (s := acc.1) (by rw [same]; exact kind') reached _).trans same
  · exact State.noSourceBelow_missed kind' k []

/-! ## One entry at an update of its source (R64) -/

/-- R64: what an update makes of an entry that it reaches, by the case of its source. -/
def ConvEntry.updated (e : ConvEntry) (check : Option ConvStatus) (x : Int) (stamp : Half) : ConvEntry :=
  match check with
  | some st => e.take st
  | none => (e.evaluate x stamp).1

theorem ConvEntry.updated_cfg (e : ConvEntry) (check : Option ConvStatus) (x : Int) (stamp : Half) :
    (e.updated check x stamp).cfg = e.cfg := by
  cases check with
  | none => exact e.evaluate_cfg x stamp
  | some st => exact e.take_cfg st

theorem State.updateEntry_stamp (acc : State × List (Fin 32)) (i : Fin 32) (x : Int) :
    (State.updateEntry acc i x).1.bus.stamp = acc.1.bus.stamp := by
  unfold State.updateEntry
  split
  · exact State.takeStatus_keeps (·.bus.stamp) (fun _ _ => rfl) acc.1 i _
  · exact State.evaluateChain_stamp 32 acc.1 i x

theorem State.updateEntry_get {acc : State × List (Fin 32)} (kind : acc.1.conv[k].cfg.sourceKind ≠ .entry)
    (i : Fin 32) (x : Int) :
    (State.updateEntry acc i x).1.conv[k] =
      if i = k then acc.1.conv[k].updated (acc.1.sourceCheck acc.1.conv[k].cfg) x acc.1.bus.stamp
      else acc.1.conv[k] := by
  unfold State.updateEntry
  by_cases same : i = k
  · subst same
    rw [if_pos rfl]
    cases check : acc.1.sourceCheck acc.1.conv[i].cfg with
    | some st => exact (acc.1.takeStatus_get i st kind).trans (if_pos rfl)
    | none => exact State.evaluateChain_hit 31 kind x
  · rw [if_neg same]
    split
    · exact (acc.1.takeStatus_get i _ kind).trans (if_neg same)
    · exact State.evaluateChain_missed 32 kind same x

/-! ## An update of a source (R65) -/

/-- R65: the visit of entry i, which takes from the update what the configurations of s say. -/
def State.visit (s : State) (reads : ConvConfig → Option Int) (acc : State × List (Fin 32)) (i : Fin 32) :
    State × List (Fin 32) :=
  match reads s.conv[i].cfg with
  | none => acc
  | some x => State.updateEntry acc i x

/-- R65: the entries are visited in ascending order. -/
def State.visited (s : State) (reads : ConvConfig → Option Int) : State × List (Fin 32) :=
  (List.finRange 32).foldl (s.visit reads) (s, [])

/-- R65, R162: after the visits the on-change reports look. -/
theorem State.sourceUpdate_eq (s : State) (reads : ConvConfig → Option Int) :
    s.sourceUpdate reads = (s.visited reads).2.foldl State.reportChecks (s.visited reads).1 := rfl

/-- R65: what a visit goes by is as it was before the update. -/
structure State.Visiting (s : State) (k : Fin 32) (t : State) : Prop where
  stamp : t.bus.stamp = s.bus.stamp
  kind  : t.conv[k].cfg.sourceKind ≠ .entry
  check : ∀ c, t.sourceCheck c = s.sourceCheck c

theorem State.Visiting.visit {s : State} {reads : ConvConfig → Option Int} {acc : State × List (Fin 32)} {i : Fin 32}
    (h : s.Visiting k acc.1) : s.Visiting k (s.visit reads acc i).1 := by
  unfold State.visit
  split
  · exact h
  · next x _ =>
    refine ⟨(State.updateEntry_stamp acc i x).trans h.stamp, ?_, fun c => ?_⟩
    · rw [State.updateEntry_get h.kind]
      split
      · rw [ConvEntry.updated_cfg]
        exact h.kind
      · exact h.kind
    · exact (State.updateEntry_keeps (fun t => t.sourceCheck c) (fun _ _ => rfl) (fun _ _ => rfl) acc i x).trans
        (h.check c)

theorem State.Visiting.missed {s : State} {reads : ConvConfig → Option Int} {acc : State × List (Fin 32)} {i : Fin 32}
    (h : s.Visiting k acc.1) (other : i ≠ k) : (s.visit reads acc i).1.conv[k] = acc.1.conv[k] := by
  unfold State.visit
  split
  · rfl
  · exact (State.updateEntry_get h.kind i _).trans (if_neg other)

/-- R64, R65: an entry that reads the source of an update and no other entry is updated once. -/
theorem State.sourceUpdate_get {s : State} {reads : ConvConfig → Option Int} {x : Int}
    (kind : s.conv[k].cfg.sourceKind ≠ .entry) (reached : reads s.conv[k].cfg = some x) :
    (s.sourceUpdate reads).conv[k] = s.conv[k].updated (s.sourceCheck s.conv[k].cfg) x s.bus.stamp := by
  obtain ⟨acc, visiting, before, after⟩ := foldl_once (f := s.visit reads)
    (get := fun acc : State × List (Fin 32) => acc.1.conv[k]) (I := fun acc => s.Visiting k acc.1)
    (fun _ _ h => h.visit) (fun _ _ h other => h.missed other) (List.nodup_finRange 32) (List.mem_finRange k)
    (s := (s, [])) ⟨rfl, kind, fun _ => rfl⟩
  have same : acc.1.conv[k] = s.conv[k] := before
  have updated : (s.visit reads acc k).1.conv[k] =
      s.conv[k].updated (s.sourceCheck s.conv[k].cfg) x s.bus.stamp := by
    have visit : s.visit reads acc k = State.updateEntry acc k x := by
      unfold State.visit
      rw [reached]
    rw [visit, State.updateEntry_get visiting.kind, if_pos rfl, visiting.check, visiting.stamp, same]
  have checks : (s.sourceUpdate reads).conv = (s.visited reads).1.conv :=
    foldl_keeps (·.conv) State.reportChecks (State.reportChecks_keeps (·.conv) (fun _ _ => rfl) (fun _ _ => rfl)) _ _
  rw [checks]
  exact after.trans updated

end

theorem State.visited_keeps {β : Type} (F : State → β) (hBus : IgnoresBus F) (hConv : IgnoresConv F) (s : State)
    (reads : ConvConfig → Option Int) : F (s.visited reads).1 = F s := by
  refine foldl_invariant (I := fun acc : State × List (Fin 32) => F acc.1 = F s) (fun acc i same => ?_) _ rfl
  unfold State.visit
  split
  · exact same
  · exact (State.updateEntry_keeps F hBus hConv acc i _).trans same

/-- R65: an update leaves the time stamp. -/
theorem State.sourceUpdate_stamp (s : State) (reads : ConvConfig → Option Int) :
    (s.sourceUpdate reads).bus.stamp = s.bus.stamp := by
  have visited : (s.visited reads).1.bus.stamp = s.bus.stamp := by
    refine foldl_invariant (I := fun acc : State × List (Fin 32) => acc.1.bus.stamp = s.bus.stamp)
      (fun acc i same => ?_) _ rfl
    unfold State.visit
    split
    · exact same
    · exact (State.updateEntry_stamp acc i _).trans same
  exact (foldl_keeps (·.bus.stamp) State.reportChecks
    (State.reportChecks_keeps (·.bus.stamp) (fun _ _ => rfl) (fun _ _ => rfl)) _ _).trans visited

/-- R162: a disabled report entry does not look. -/
theorem State.reportChecks_disabled {s : State} (disabled : ∀ i : Fin 12, s.reports[i].enabled = false) (e : Fin 32) :
    s.reportChecks e = s := by
  refine foldl_eq_self fun i _ => ?_
  unfold State.reportCheck
  dsimp only
  rw [disabled i]
  rfl

/-- R162: with every report entry disabled, an update offers nothing. -/
theorem State.sourceUpdate_disabled {s : State} (disabled : ∀ i : Fin 12, s.reports[i].enabled = false)
    (reads : ConvConfig → Option Int) : (s.sourceUpdate reads).reportQueue = s.reportQueue := by
  have reports : (s.visited reads).1.reports = s.reports :=
    s.visited_keeps (·.reports) (fun _ _ => rfl) (fun _ _ => rfl) reads
  rw [s.sourceUpdate_eq, foldl_eq_self fun e _ => State.reportChecks_disabled (by rw [reports]; exact disabled) e]
  exact s.visited_keeps (·.reportQueue) (fun _ _ => rfl) (fun _ _ => rfl) reads

end Sys2Proof.Machine
end

