-- ==== Sys2Proof/Proofs/FieldPositions.lean ====
section
/-! PROOFS. The position a device field gives (R33, R96), and a RAW entry over a device field (R64, R69). -/

namespace Sys2Proof.Machine

/-! ## A byte that names a field -/

theorem toNat_byteOf_field (k : Fin 6) : (byteOf k.val).toNat = k.val :=
  Nat.mod_eq_of_lt (Nat.lt_trans k.isLt (by decide))

/-- Section 2.1: the field that a byte below 6 names. -/
theorem fieldNamed {α : Type} (fields : Vector Word 6) (f : Word → α) (none : α) {b : Byte} {k : Fin 6}
    (named : b = byteOf k.val) :
    (if h : b.toNat < 6 then f fields[b.toNat] else none) = f fields[k] := by
  have index : b.toNat = k.val := named ▸ toNat_byteOf_field k
  generalize b.toNat = i at index
  subst index
  exact dif_pos k.isLt

/-! ## The mark unit (R111) -/

section
variable (s : State) (n : PortNo)

theorem State.markUpdate_marks (p0 p1 : Word) : (s.markUpdate n p0 p1).marks =
    s.marks.set n (if s.marks[n].enabled = true ∧ (s.motorProfile n).isSome = true then (s.marks[n].update p0 p1).1
      else s.marks[n]) := by
  unfold State.markUpdate
  split
  · rfl
  · exact (vector_set_self _ _).symm

theorem State.markUpdate_stamp (p0 p1 : Word) : (s.markUpdate n p0 p1).bus.stamp = s.bus.stamp := by
  unfold State.markUpdate
  split
  · exact Bus.postAll_stamp _ _ _
  · rfl

/-! ## The position (R96) -/

theorem State.fieldPosition_none (none : s.motorProfile n = none) : s.fieldPosition n = s := by
  unfold State.fieldPosition
  rw [none]

theorem State.fieldPosition_stamp : (s.fieldPosition n).bus.stamp = s.bus.stamp := by
  unfold State.fieldPosition
  split
  · rfl
  · split
    · dsimp only
      split
      · rfl
      · split
        · rfl
        · exact State.markUpdate_stamp _ n _ _
    · rfl

theorem State.fieldPosition_others {k : PortNo} (other : k ≠ n) :
    (s.fieldPosition n).motors[k] = s.motors[k] ∧ (s.fieldPosition n).marks[k] = s.marks[k] := by
  have motors (m : Motor) : (s.setMotor n m).motors[k] = s.motors[k] := vector_set_other _ other.symm m
  have moved (m : Motor) (p0 p1 : Word) : ((s.setMotor n m).markUpdate n p0 p1).motors[k] = s.motors[k] ∧
      ((s.setMotor n m).markUpdate n p0 p1).marks[k] = s.marks[k] := by
    rw [State.markUpdate_keeps (·.motors) (fun _ _ => rfl) (fun _ _ => rfl), State.markUpdate_marks]
    exact ⟨motors m, vector_set_other _ other.symm _⟩
  unfold State.fieldPosition
  split
  · exact ⟨rfl, rfl⟩
  · split
    · dsimp only
      split
      · exact ⟨motors _, rfl⟩
      · split
        · exact ⟨rfl, rfl⟩
        · exact moved _ _ _
    · exact ⟨rfl, rfl⟩

end

section
variable {s : State} {n : PortNo} {pr : Profile} {k : Fin 6} (motor : s.motorProfile n = some pr)
  (source : pr.positionSource = byteOf k.val)
include motor source

/-- R96: the first field after binding is no update, and an unchanged one is none either. -/
theorem State.fieldPosition_eq : s.fieldPosition n =
    if s.motors[n].firstField = true then
      s.setMotor n { s.motors[n] with position := s.ports[n].fields[k], prevPosition := s.ports[n].fields[k],
                                      firstField := false }
    else if s.ports[n].fields[k] = s.motors[n].position then s
    else (s.setMotor n { s.motors[n] with position := s.ports[n].fields[k] }).markUpdate n s.motors[n].position
      s.ports[n].fields[k] := by
  rw [← fieldNamed s.ports[n].fields (fun f => if s.motors[n].firstField = true then
      s.setMotor n { s.motors[n] with position := f, prevPosition := f, firstField := false }
    else if f = s.motors[n].position then s
    else (s.setMotor n { s.motors[n] with position := f }).markUpdate n s.motors[n].position f) s source]
  unfold State.fieldPosition
  rw [motor]

theorem State.fieldPosition_motor : (s.fieldPosition n).motors[n] =
    { s.motors[n] with
      position := s.ports[n].fields[k], firstField := false,
      prevPosition := if s.motors[n].firstField then s.ports[n].fields[k] else s.motors[n].prevPosition } := by
  rw [State.fieldPosition_eq motor source]
  by_cases first : s.motors[n].firstField = true
  · rw [if_pos first, if_pos first, State.setMotor_motors, vector_set_same]
  · have notFirst := Bool.eq_false_of_not_eq_true first
    rw [if_neg first, if_neg first, ← notFirst]
    by_cases same : s.ports[n].fields[k] = s.motors[n].position
    · rw [if_pos same]
      exact congrArg (fun p => ({ s.motors[n] with position := p } : Motor)) same.symm
    · rw [if_neg same, State.markUpdate_keeps (·.motors) (fun _ _ => rfl) (fun _ _ => rfl), State.setMotor_motors,
        vector_set_same]

theorem State.fieldPosition_mark : (s.fieldPosition n).marks[n] =
    if s.motors[n].firstField = false ∧ s.ports[n].fields[k] ≠ s.motors[n].position ∧ s.marks[n].enabled = true then
      (s.marks[n].update s.motors[n].position s.ports[n].fields[k]).1
    else s.marks[n] := by
  have bound : (s.motorProfile n).isSome = true := Option.isSome_of_eq_some motor
  rw [State.fieldPosition_eq motor source]
  by_cases first : s.motors[n].firstField = true
  · rw [if_pos first, if_neg fun all => ne_true_of_eq_false all.1 first]
    rfl
  · have notFirst := Bool.eq_false_of_not_eq_true first
    rw [if_neg first]
    by_cases same : s.ports[n].fields[k] = s.motors[n].position
    · rw [if_pos same, if_neg fun all => all.2.1 same]
    · rw [if_neg same, State.markUpdate_marks, vector_set_same]
      refine if_congr ⟨fun both => ⟨notFirst, same, both.1⟩, fun all => ⟨all.2.2, bound⟩⟩ rfl rfl

end

/-! ## A RAW entry (R69–R74) -/

theorem saturate32_toInt (v : Word) : saturate32 v.toInt = v.toInt := by
  have low := BitVec.le_toInt v
  have high := BitVec.toInt_lt (x := v)
  unfold saturate32 clampInt
  norm_num at low high
  omega

/-- R69–R71: without a change limit a RAW entry shows what it reads. -/
theorem ConvEntry.evaluate_raw {e : ConvEntry} (raw : e.cfg.mode = .raw) (unlimited : e.cfg.maxChange = 0)
    (noRail : e.cfg.railCheck = false) (v : Word) (stamp : Half) :
    let r := (e.evaluate v.toInt stamp).1
    r.value = v ∧ r.status = .valid ∧ r.stamp = stamp ∧ r.updateCount = e.updateCount + 1 := by
  have scaled : e.cfg.scale v.toInt = v.toInt := by
    rw [ConvConfig.scale, raw]
    exact saturate32_toInt v
  have limited : e.cfg.limit e.prevIn v.toInt = v.toInt := by
    unfold ConvConfig.limit
    split
    · rfl
    · exact if_neg fun both => by simp [unlimited] at both
  have filtered : e.cfg.filter e.prevOut v.toInt = v.toInt := by
    unfold ConvConfig.filter
    rw [raw]
  have evaluated : e.evaluate v.toInt stamp = e.stages v.toInt stamp := by
    rw [ConvEntry.evaluate, noRail]
    rfl
  dsimp only
  rw [evaluated, ConvEntry.stages, scaled, limited, filtered]
  exact ⟨BitVec.ofInt_toInt, rfl, rfl, rfl⟩

end Sys2Proof.Machine
end

