-- ==== Sys2Proof/Proofs/DataFrames.lean ====
section
/-! PROOFS. A DATA frame in a poll window (R33, R34, R64, R164). -/

namespace Sys2Proof.Machine

/-! ## The frame and the window -/

section
variable {s : State} {n : PortNo} {x : Exchange}

/-- R33, R34: DATA of another length is a miss, as a bad frame is. -/
theorem State.Receiving.poll_wrongLength (h : s.Receiving n x) (poll : x.kind = .poll) {payload : List Byte}
    (length : payload.length ≠ dataLength s.ports[n].formats) :
    s.deviceFrameIn n (.good 5 payload) = s.deviceFrameIn n .bad := by
  rw [h.deviceFrameIn, h.deviceFrameIn, poll]
  exact congrArg (State.startWork · n) (if_neg length)

/-- R33: the record once all fields are replaced, and the exchange has ended. -/
def Port.dataTaken (p : Port) (payload : List Byte) : Port := ({ p with exchange := none } : Port).takeData payload

theorem Port.dataTaken_field (p : Port) (payload : List Byte) (k : Fin 6) :
    (p.dataTaken payload).fields[k] = (readFields p.formats payload).getD k.val 0 := Vector.getElem_ofFn ..

/-- R33: the fields go to the conversion table and to the channel. -/
def State.fieldsTaken (s : State) (n : PortNo) (payload : List Byte) : State :=
  ((s.setPort n (s.ports[n].dataTaken payload)).fieldUpdate n).fieldPosition n

/-- R33, R42: a good DATA reply, forwarded where the port says so. -/
def State.dataTaken (s : State) (n : PortNo) (payload : List Byte) : State :=
  if s.ports[n].forward then (s.fieldsTaken n payload).offerPass n payload else s.fieldsTaken n payload

theorem State.fieldsTaken_keeps {β : Type} (F : State → β) (hBus : IgnoresBus F) (hPorts : IgnoresPorts F)
    (hConv : IgnoresConv F) (hMotors : IgnoresMotors F) (hMarks : IgnoresMarks F) (hReports : IgnoresReports F)
    (hReportQueue : IgnoresReportQueue F) (s : State) (n : PortNo) (payload : List Byte) :
    F (s.fieldsTaken n payload) = F s := by
  rw [State.fieldsTaken, State.fieldPosition_keeps F hBus hMotors hMarks, State.fieldUpdate,
    State.sourceUpdate_keeps F hBus hConv hReports hReportQueue, State.setPort_keeps F hPorts]

theorem State.fieldsTaken_ports (s : State) (n : PortNo) (payload : List Byte) :
    (s.fieldsTaken n payload).ports = s.ports.set n (s.ports[n].dataTaken payload) := by
  rw [State.fieldsTaken, State.fieldPosition_keeps (·.ports) (fun _ _ => rfl) (fun _ _ => rfl) (fun _ _ => rfl),
    State.fieldUpdate,
    State.sourceUpdate_keeps (·.ports) (fun _ _ => rfl) (fun _ _ => rfl) (fun _ _ => rfl) (fun _ _ => rfl)]
  rfl

/-- What the offer of a PASS leaves. -/
theorem State.dataTaken_of_fields {β : Type} (F : State → β) (hReportQueue : IgnoresReportQueue F)
    (hPassSkipped : IgnoresPassSkipped F) (s : State) (n : PortNo) (payload : List Byte) :
    F (s.dataTaken n payload) = F (s.fieldsTaken n payload) := by
  unfold State.dataTaken
  split
  · exact State.offerPass_keeps F hReportQueue hPassSkipped _ n payload
  · rfl

/-- R33, R36: a DATA frame of the declared length; no work waits. -/
theorem State.Receiving.poll_data (h : s.Receiving n x) (poll : x.kind = .poll) (noPass : s.ports[n].pass = none)
    (noPoll : s.ports[n].pollDue = false) (noQuery : s.ports[n].queryDue = false) {payload : List Byte}
    (length : payload.length = dataLength s.ports[n].formats) :
    s.deviceFrameIn n (.good 5 payload) = s.dataTaken n payload := by
  have ended : (s.endExchange n).setPort n ((s.endExchange n).ports[n].takeData payload) =
      s.setPort n (s.ports[n].dataTaken payload) := by
    rw [State.endExchange_port, State.endExchange, State.setPort_setPort]
    rfl
  have forward : (s.fieldsTaken n payload).ports[n].forward = s.ports[n].forward := by
    rw [State.fieldsTaken_ports, vector_set_same]
    rfl
  have taken : s.pollReply n (.good 5 payload) = s.dataTaken n payload := by
    refine (if_pos length).trans ?_
    rw [State.takeData, ended]
    change (if (s.fieldsTaken n payload).ports[n].forward = true then _ else _) = _
    rw [forward]
    rfl
  rw [h.deviceFrameIn, poll]
  refine (congrArg (State.startWork · n) taken).trans (State.startWork_resting fun service => ?_)
  rw [State.dataTaken_of_fields (·.ports) (fun _ _ => rfl) (fun _ _ => rfl), State.fieldsTaken_ports, vector_set_same]
  exact Port.startWork_idle (p := s.ports[n].dataTaken payload) rfl noPass noPoll noQuery service

end

/-! ## The hand-off to the conversion table (R64) -/

/-- A DEVICE_FIELD source of port n and field k. -/
structure ConvConfig.ReadsField (c : ConvConfig) (n : PortNo) (k : Fin 6) : Prop where
  kind  : c.sourceKind = .deviceField
  index : c.sourceIndex = portByte n
  field : c.sourceField = byteOf k.val

section
variable {s : State} {n : PortNo} {k : Fin 6} {c : ConvConfig}

theorem State.sourcePort_field (h : c.ReadsField n k) : s.sourcePort c = some n := by
  have index : c.sourceIndex.toNat = n.val := h.index ▸ toNat_portByte n
  unfold State.sourcePort
  dsimp only
  rw [h.kind]
  dsimp only
  rw [dif_pos (by rw [index]; exact n.isLt)]
  exact congrArg some (Fin.ext index)

/-- R64: a declared field of a BOUND port with a device that talks is read, but for service mode. -/
theorem State.sourceCheck_field (h : c.ReadsField n k) (bound : s.ports[n].state = .bound)
    (smart : s.ports[n].smart = true) (declared : k.val < s.ports[n].formats.length) :
    s.sourceCheck c = if s.service = some n then some .stale else none := by
  have supplied : s.supplies c n = true := by
    unfold State.supplies
    rw [h.kind, h.field, toNat_byteOf_field, smart]
    exact decide_eq_true declared
  have notFault : s.ports[n].state ≠ .fault := by
    rw [bound]
    exact nofun
  unfold State.sourceCheck
  rw [State.sourcePort_field h]
  dsimp only
  by_cases held : s.service = some n
  · have serving : s.inService n = true := beq_iff_eq.mpr held
    rw [if_pos (Or.inr serving), if_pos held]
  · have notServing : ¬ (s.ports[n].state = .fault ∨ s.inService n = true) :=
      not_or.mpr ⟨notFault, fun serving => held (beq_iff_eq.mp serving)⟩
    rw [if_neg notServing, if_neg (not_not.mpr bound), if_pos supplied, if_neg held]

/-- R33, R65: a good DATA reply hands each of its fields to the entries that read it. -/
theorem State.fieldsTaken_conv {i : Fin 32} (h : s.conv[i].cfg.ReadsField n k) (payload : List Byte) :
    (s.fieldsTaken n payload).conv[i] = s.conv[i].updated
      ((s.setPort n (s.ports[n].dataTaken payload)).sourceCheck s.conv[i].cfg)
      ((readFields s.ports[n].formats payload).getD k.val 0).toInt s.bus.stamp := by
  have index : s.conv[i].cfg.sourceIndex.toNat = n.val := h.index ▸ toNat_portByte n
  have kind : s.conv[i].cfg.sourceKind ≠ .entry := by
    rw [h.kind]
    exact nofun
  rw [State.fieldsTaken, State.fieldPosition_keeps (·.conv) (fun _ _ => rfl) (fun _ _ => rfl) (fun _ _ => rfl)]
  refine State.sourceUpdate_get (s := s.setPort n (s.ports[n].dataTaken payload)) kind
    ((if_pos ⟨h.kind, index⟩).trans (congrArg some ?_))
  rw [State.setPort_same, ← Port.dataTaken_field]
  exact fieldNamed (s.ports[n].dataTaken payload).fields BitVec.toInt 0 h.field

/-- R64: the field evaluates its entry, or leaves it STALE in service mode. -/
theorem State.fieldsTaken_updated {i : Fin 32} (h : s.conv[i].cfg.ReadsField n k) (bound : s.ports[n].state = .bound)
    (smart : s.ports[n].smart = true) (declared : k.val < s.ports[n].formats.length) (payload : List Byte) :
    (s.fieldsTaken n payload).conv[i] = s.conv[i].updated (if s.service = some n then some .stale else none)
      ((readFields s.ports[n].formats payload).getD k.val 0).toInt s.bus.stamp := by
  have record : (s.setPort n (s.ports[n].dataTaken payload)).ports[n] = s.ports[n].dataTaken payload :=
    State.setPort_same ..
  rw [State.fieldsTaken_conv h, State.sourceCheck_field h (by rw [record]; exact bound) (by rw [record]; exact smart)
    (by rw [record]; exact declared), State.setPort_service]

end

/-! ## The channel and the PASS record (R96, R164) -/

section
variable {s : State} {n : PortNo} (payload : List Byte)

/-- The state in which the channel takes its field. -/
def State.handed (s : State) (n : PortNo) (payload : List Byte) : State :=
  (s.setPort n (s.ports[n].dataTaken payload)).fieldUpdate n

theorem State.handed_keeps {β : Type} (F : State → β) (hBus : IgnoresBus F) (hPorts : IgnoresPorts F)
    (hConv : IgnoresConv F) (hReports : IgnoresReports F) (hReportQueue : IgnoresReportQueue F) :
    F (s.handed n payload) = F s := by
  rw [State.handed, State.fieldUpdate, State.sourceUpdate_keeps F hBus hConv hReports hReportQueue,
    State.setPort_keeps F hPorts]

theorem State.handed_port : (s.handed n payload).ports[n] = s.ports[n].dataTaken payload := by
  have ports : (s.handed n payload).ports = s.ports.set n (s.ports[n].dataTaken payload) := by
    rw [State.handed, State.fieldUpdate,
      State.sourceUpdate_keeps (·.ports) (fun _ _ => rfl) (fun _ _ => rfl) (fun _ _ => rfl) (fun _ _ => rfl)]
    rfl
  rw [ports, vector_set_same]

/-- The binding of the port is not a matter of its fields. -/
theorem State.handed_motorProfile : (s.handed n payload).motorProfile n = s.motorProfile n := by
  have profiles : (s.handed n payload).profiles = s.profiles :=
    s.handed_keeps payload (·.profiles) (fun _ _ => rfl) (fun _ _ => rfl) (fun _ _ => rfl) (fun _ _ => rfl)
      (fun _ _ => rfl)
  unfold State.motorProfile State.boundProfile
  rw [State.handed_port, profiles]
  rfl

theorem State.handed_motors : (s.handed n payload).motors = s.motors ∧ (s.handed n payload).marks = s.marks :=
  ⟨s.handed_keeps payload (·.motors) (fun _ _ => rfl) (fun _ _ => rfl) (fun _ _ => rfl) (fun _ _ => rfl)
    (fun _ _ => rfl), s.handed_keeps payload (·.marks) (fun _ _ => rfl) (fun _ _ => rfl) (fun _ _ => rfl)
    (fun _ _ => rfl) (fun _ _ => rfl)⟩

/-- R96: the channel of a device-field motor takes its field, and the mark unit the update. -/
theorem State.fieldsTaken_motor {pr : Profile} {k : Fin 6} (motor : s.motorProfile n = some pr)
    (source : pr.positionSource = byteOf k.val) :
    let f := (readFields s.ports[n].formats payload).getD k.val 0
    (s.fieldsTaken n payload).motors[n] = { s.motors[n] with
        position := f, firstField := false,
        prevPosition := if s.motors[n].firstField then f else s.motors[n].prevPosition } ∧
      (s.fieldsTaken n payload).marks[n] =
        if s.motors[n].firstField = false ∧ f ≠ s.motors[n].position ∧ s.marks[n].enabled = true then
          (s.marks[n].update s.motors[n].position f).1
        else s.marks[n] := by
  have bound := (s.handed_motorProfile (n := n) payload).trans motor
  have motors := State.fieldPosition_motor bound source
  have marks := State.fieldPosition_mark bound source
  obtain ⟨sameMotors, sameMarks⟩ := s.handed_motors (n := n) payload
  rw [State.handed_port, Port.dataTaken_field, sameMotors] at motors
  rw [State.handed_port, Port.dataTaken_field, sameMotors, sameMarks] at marks
  exact ⟨motors, marks⟩

theorem State.fieldsTaken_unbound (none : s.motorProfile n = none) :
    (s.fieldsTaken n payload).motors = s.motors ∧ (s.fieldsTaken n payload).marks = s.marks := by
  have same : s.fieldsTaken n payload = s.handed n payload :=
    State.fieldPosition_none _ n ((s.handed_motorProfile payload).trans none)
  rw [same]
  exact s.handed_motors payload

theorem State.fieldsTaken_others {k : PortNo} (other : k ≠ n) :
    (s.fieldsTaken n payload).motors[k] = s.motors[k] ∧ (s.fieldsTaken n payload).marks[k] = s.marks[k] := by
  obtain ⟨motor, mark⟩ := (s.handed n payload).fieldPosition_others n other
  obtain ⟨sameMotors, sameMarks⟩ := s.handed_motors (n := n) payload
  rw [sameMotors] at motor
  rw [sameMarks] at mark
  exact ⟨motor, mark⟩

theorem State.fieldsTaken_stamp : (s.fieldsTaken n payload).bus.stamp = s.bus.stamp :=
  (State.fieldPosition_stamp _ n).trans (State.sourceUpdate_stamp _ _)

theorem State.fieldsTaken_passSkipped : (s.fieldsTaken n payload).passSkipped = s.passSkipped :=
  State.fieldsTaken_keeps (·.passSkipped) (fun _ _ => rfl) (fun _ _ => rfl) (fun _ _ => rfl) (fun _ _ => rfl)
    (fun _ _ => rfl) (fun _ _ => rfl) (fun _ _ => rfl) s n payload

/-- R162: with every report entry disabled the fields bring no report. -/
theorem State.fieldsTaken_reportQueue (disabled : ∀ i : Fin 12, s.reports[i].enabled = false) :
    (s.fieldsTaken n payload).reportQueue = s.reportQueue :=
  (State.fieldPosition_keeps (·.reportQueue) (fun _ _ => rfl) (fun _ _ => rfl) (fun _ _ => rfl) _ n).trans
    (State.sourceUpdate_disabled (s := s.setPort n _) disabled _)

/-- R164: a PASS record is appended to a queue with room and without one of the port. -/
theorem State.offerPass_appended {t : State} (fresh : t.reportQueue.any (ReportRecord.isPassOf n) = false)
    (room : t.reportQueue.length < Config.reportQueue) :
    (t.offerPass n payload).reportQueue = t.reportQueue ++ [.pass n t.passSkipped[n] t.bus.stamp payload] ∧
      (t.offerPass n payload).passSkipped = t.passSkipped.set n 0 := by
  rw [State.offerPass, if_neg (ne_true_of_eq_false fresh), if_pos room]
  exact ⟨rfl, rfl⟩

end

/-- Section 1.10.3: the declared length, format by format. -/
theorem dataLength_eq (formats : List Format) : dataLength formats =
    (formats.map fun f => match f with | .s8 | .u8 => 1 | .s16 | .u16 => 2 | .s32 => 4).sum := by
  refine congrArg List.sum (List.map_congr_left fun f _ => ?_)
  cases f <;> rfl

/-- Settles O48: the fields are replaced and handed on, and a wrong length is a miss. -/
theorem dataRepliesAreTaken : Obligations.DataRepliesAreTaken := by
  intro s n x payload pr exchange poll opened fresh short noPass noPoll noQuery p sizes values
  have h : s.Receiving n x := ⟨exchange, opened⟩
  have frame : exec (.dataReceived n payload) s = settled (s.deviceFrameIn n (.good 5 payload)) :=
    congrArg settled (h.deviceBytes_good fresh (by decide) short)
  have declared : dataLength p.formats = sizes := dataLength_eq p.formats
  refine ⟨fun length => ?_, fun wrong early => ?_⟩
  · have taken := h.poll_data poll noPass noPoll noQuery (length.trans declared.symm)
    refine ⟨_, frame.trans (congrArg settled taken), ?_⟩
    have of_fields {β : Type} (F : State → β) (hReportQueue : IgnoresReportQueue F)
        (hPassSkipped : IgnoresPassSkipped F) := State.dataTaken_of_fields F hReportQueue hPassSkipped s n payload
    have ports := (of_fields (·.ports) (fun _ _ => rfl) (fun _ _ => rfl)).trans (s.fieldsTaken_ports n payload)
    have motors := of_fields (·.motors) (fun _ _ => rfl) (fun _ _ => rfl)
    have marks := of_fields (·.marks) (fun _ _ => rfl) (fun _ _ => rfl)
    have conv := of_fields (·.conv) (fun _ _ => rfl) (fun _ _ => rfl)
    have link : (s.dataTaken n payload).link = s.link :=
      (of_fields (·.link) (fun _ _ => rfl) (fun _ _ => rfl)).trans
        (State.fieldsTaken_keeps (·.link) (fun _ _ => rfl) (fun _ _ => rfl) (fun _ _ => rfl) (fun _ _ => rfl)
          (fun _ _ => rfl) (fun _ _ => rfl) (fun _ _ => rfl) s n payload)
    have before : State.masked s
        [.link, .ports, .motors, .marks, .conv, .bus, .reports, .reportQueue, .passSkipped] (s.dataTaken n payload) =
        State.masked s [.link, .ports, .motors, .marks, .conv, .bus, .reports, .reportQueue, .passSkipped] s :=
      (of_fields _ (State.masked_reportQueue (by decide)) (State.masked_passSkipped (by decide))).trans
        (State.fieldsTaken_keeps _ (State.masked_bus (by decide)) (State.masked_ports (by decide))
          (State.masked_conv (by decide)) (State.masked_motors (by decide)) (State.masked_marks (by decide))
          (State.masked_reports (by decide)) (State.masked_reportQueue (by decide)) s n payload)
    have offers : s.dataTaken n payload = if p.forward = true then (s.fieldsTaken n payload).offerPass n payload
      else s.fieldsTaken n payload := rfl
    generalize s.dataTaken n payload = v at ports motors marks conv link before offers ⊢
    beta_reduce
    rw [State.transmitNext_ports, State.transmitNext_motors, State.transmitNext_marks, State.transmitNext_conv,
      State.transmitNext_passSkipped, motors, marks, conv]
    refine ⟨ports, fun motor k source => State.fieldsTaken_motor payload motor source,
      State.fieldsTaken_unbound payload, fun k => State.fieldsTaken_others payload,
      fun forward busy disabled noneQueued room => ?_, fun bound line i k field kind index named => ?_,
      fun kept => ?_, State.linkKept_transmitNext link,
      State.keepsBut_transmitNext (by decide) (by decide) (by decide) before⟩
    · have queue := s.fieldsTaken_reportQueue (n := n) payload disabled
      obtain ⟨offered, skipped⟩ := State.offerPass_appended (n := n) (t := s.fieldsTaken n payload) payload
        (by rw [queue]; exact noneQueued) (by rw [queue]; exact room)
      rw [queue, State.fieldsTaken_passSkipped, State.fieldsTaken_stamp] at offered
      rw [State.fieldsTaken_passSkipped] at skipped
      rw [State.transmitNext_reportQueue_of_busy (congrArg Link.tx link) busy, offers, if_pos forward]
      exact ⟨offered, skipped⟩
    · have reads : s.conv[i].cfg.ReadsField n k := ⟨kind, index, named⟩
      rw [State.fieldsTaken_updated reads bound (beq_iff_eq.mpr line) field]
      refine ⟨fun free raw unlimited noRail => ?_, fun held => ?_⟩
      · rw [if_neg free]
        exact ConvEntry.evaluate_raw raw unlimited noRail _ _
      · rw [if_pos held]
        exact ⟨ConvEntry.take_status _ _, ConvEntry.take_value _ _⟩
    · rw [offers, if_neg (ne_true_of_eq_false kept)]
      exact State.fieldsTaken_passSkipped payload
  · have long : payload.length ≠ dataLength p.formats := declared ▸ wrong
    rw [frame, h.poll_wrongLength poll long, h.poll_bad poll noPass noPoll noQuery early]
    rfl

end Sys2Proof.Machine
end

