-- ==== Sys2Proof/Proofs/DigitalLines.lean ====
section
/-! PROOFS. The digital filters of a port's lines (R56). -/

namespace Sys2Proof.Machine

/-! ## One line of a port -/

section
variable (l : Lines) (line : Line) (high : Bool)

@[simp] theorem Lines.setPin_pin : (l.setPin line high).pin line = high := by cases line <;> rfl
@[simp] theorem Lines.setPin_level : (l.setPin line high).level line = l.level line := by cases line <;> rfl
@[simp] theorem Lines.setPin_mode : (l.setPin line high).mode = l.mode := by cases line <;> rfl
@[simp] theorem Lines.setPin_debounce : (l.setPin line high).debounce = l.debounce := by cases line <;> rfl
@[simp] theorem Lines.setTimer_pin (t : Timer) : (l.setTimer line t).pin line = l.pin line := by cases line <;> rfl
@[simp] theorem Lines.setTimer_level (t : Timer) : (l.setTimer line t).level line = l.level line := by
  cases line <;> rfl

/-- R56: accepting the level already accepted changes nothing. -/
theorem Lines.setLevel_self : l.setLevel line (l.level line) = l := by cases line <;> rfl

end

/-- R56: the event of a line that goes high or low. -/
def lineEvent (high : Bool) : EventKind := if high then .lineRise else .lineFall

/-- R56: the state in which line n of a port has its present level accepted, `l` being the port's lines before. -/
def State.accepted (s : State) (n : PortNo) (l : Lines) (line : Line) : State :=
  { s with lines := s.lines.set n (l.setLevel line (l.pin line))
           bus := if l.level line = l.pin line then s.bus
                  else s.bus.post (lineEvent (l.pin line)) (portByte n) (lineCode line) }

/-- R56: a level that differs from the accepted one is accepted with its event, another leaves all as it is. -/
theorem State.setLines_acceptLine (s : State) (n : PortNo) (l : Lines) (line : Line) :
    (s.setLines n l).acceptLine n line = s.accepted n l line := by
  unfold State.acceptLine State.accepted
  rw [State.setLines_same]
  by_cases same : l.pin line = l.level line
  · rw [if_pos same, if_pos same.symm, same, Lines.setLevel_self]
    rfl
  · rw [if_neg same, if_neg (Ne.symm same)]
    simp [State.setLines, State.post, lineEvent]

/-! ## The rows -/

section
variable {s : State} {n : PortNo} {line : Line} {high : Bool}

theorem execDigitalLineChange_same (same : s.lines[n].pin line = high) :
    execDigitalLineChange n line high s = .next s := if_pos same

/-- Log 17: in another mode only the level of the line changes. -/
theorem execDigitalLineChange_other (change : s.lines[n].pin line ≠ high) (other : s.lines[n].mode ≠ .digital) :
    execDigitalLineChange n line high s = .next (s.setLines n (s.lines[n].setPin line high)) := by
  rw [execDigitalLineChange, if_neg change]
  exact if_neg (by rw [Lines.setPin_mode]; exact other)

/-- R56: a change in DIGITAL, filtered or accepted at once. -/
theorem execDigitalLineChange_digital (change : s.lines[n].pin line ≠ high) (digital : s.lines[n].mode = .digital) :
    execDigitalLineChange n line high s =
      if s.lines[n].debounce = 0 then settled (s.accepted n (s.lines[n].setPin line high) line)
      else .next (s.setLines n ((s.lines[n].setPin line high).setTimer line (some s.lines[n].debounce))) := by
  rw [execDigitalLineChange, if_neg change]
  dsimp only
  rw [Lines.setPin_mode, if_pos digital, Lines.setPin_debounce, State.setLines_acceptLine]

theorem execLineDebounceExpiry_stopped (stopped : s.lines[n].timer line = none) :
    execLineDebounceExpiry n line s = .next s := by
  rw [execLineDebounceExpiry, stopped]

theorem execLineDebounceExpiry_running {ms : Nat} (running : s.lines[n].timer line = some ms) :
    execLineDebounceExpiry n line s = settled (s.accepted n (s.lines[n].setTimer line none) line) := by
  rw [execLineDebounceExpiry, running]
  exact congrArg settled (State.setLines_acceptLine s n _ line)

end

/-- Settles O31: each change of level and each expiry ends in one acceptance, a restarted timer or the bare level. -/
theorem digitalLinesAreFiltered : Obligations.DigitalLinesAreFiltered := by
  intro s n line high ms l code event
  have code_eq : lineCode line = code := by cases line <;> rfl
  refine ⟨execDigitalLineChange_same, execDigitalLineChange_other, fun change digital timed => ?_,
    fun change digital instant => ?_, execLineDebounceExpiry_stopped, fun running present => ?_⟩
  · exact (execDigitalLineChange_digital change digital).trans (if_neg timed)
  · refine (execDigitalLineChange_digital change digital).trans ((if_pos instant).trans ?_)
    rw [State.accepted, Lines.setPin_pin, Lines.setPin_level, code_eq]
    rfl
  · refine (execLineDebounceExpiry_running running).trans ?_
    rw [State.accepted, Lines.setTimer_pin, Lines.setTimer_level, present, code_eq]
    rfl

end Sys2Proof.Machine
end

