-- ==== Sys2Proof/Proofs/RawEntries.lean ====
section
/-! PROOFS. A RAW entry at an update of its source (R64, R65, R69). -/

namespace Sys2Proof.Machine

/-- A RAW entry without a change limit and rail check. -/
structure ConvConfig.Plain (c : ConvConfig) : Prop where
  raw       : c.mode = .raw
  unlimited : c.maxChange = 0
  noRail    : c.railCheck = false

/-- R72: an entry after an evaluation that left this value at this time stamp. -/
def ConvEntry.Shows (before after : ConvEntry) (value : Word) (stamp : Half) : Prop :=
  after.value = value ∧ after.status = .valid ∧ after.stamp = stamp ∧ after.updateCount = before.updateCount + 1

/-- R69–R71: a RAW entry shows what it reads, saturated. -/
theorem ConvConfig.Plain.shows {e : ConvEntry} (plain : e.cfg.Plain) (x : Int) (stamp : Half) :
    e.Shows (e.evaluate x stamp).1 (wordOfInt (saturate32 x)) stamp := by
  have scaled : e.cfg.scale x = saturate32 x := by
    rw [ConvConfig.scale, plain.raw]
  have limited : e.cfg.limit e.prevIn (saturate32 x) = saturate32 x := by
    unfold ConvConfig.limit
    split
    · rfl
    · exact if_neg fun both => by simp [plain.unlimited] at both
  have filtered : e.cfg.filter e.prevOut (saturate32 x) = saturate32 x := by
    unfold ConvConfig.filter
    rw [plain.raw]
  have evaluated : e.evaluate x stamp = e.stages x stamp := by
    rw [ConvEntry.evaluate, plain.noRail]
    rfl
  rw [evaluated, ConvEntry.stages, scaled, limited, filtered]
  exact ⟨rfl, rfl, rfl, rfl⟩

/-- R69: the word that a natural number leaves once saturated. -/
theorem wordOfInt_saturate32 (x : Nat) : wordOfInt (saturate32 x) = BitVec.ofNat 32 (min 2147483647 x) := by
  have clamped : saturate32 x = ((min 2147483647 x : Nat) : Int) := by
    unfold saturate32 clampInt
    omega
  rw [clamped, wordOfInt, BitVec.ofInt_natCast]

section
variable {s : State} {c : ConvConfig} {n : PortNo} {i : Fin 32}

/-- R64, R65: an update evaluates a RAW entry whose source is not refused. -/
theorem State.sourceUpdate_shows {reads : ConvConfig → Option Int} {x : Int} (plain : s.conv[i].cfg.Plain)
    (kind : s.conv[i].cfg.sourceKind ≠ .entry) (reached : reads s.conv[i].cfg = some x)
    (free : s.sourceCheck s.conv[i].cfg = none) :
    s.conv[i].Shows (s.sourceUpdate reads).conv[i] (wordOfInt (saturate32 x)) s.bus.stamp := by
  rw [State.sourceUpdate_get kind reached, free]
  exact plain.shows x s.bus.stamp

/-- Section 4.2: a source of a kind that names a port lies on that port. -/
theorem State.sourcePort_named (kind : c.sourceKind ∉ [.none, .slot, .entry]) (index : c.sourceIndex = portByte n) :
    s.sourcePort c = some n := by
  have named : c.sourceIndex.toNat = n.val := index ▸ toNat_portByte n
  have port : (if h : c.sourceIndex.toNat < 6 then some (⟨_, h⟩ : PortNo) else none) = some n := by
    rw [dif_pos (named ▸ n.isLt)]
    exact congrArg some (Fin.ext named)
  unfold State.sourcePort
  cases source : c.sourceKind with
  | none | slot | entry => exact absurd (source ▸ kind) (by simp)
  | deviceField | encoder | pulseHigh | pulsePeriod | pulseDuty | motorSpeed => exact port

/-- R64: a BOUND port out of service mode that supplies what the kind reads refuses nothing. -/
theorem State.sourceCheck_supplied (port : s.sourcePort c = some n) (bound : s.ports[n].state = .bound)
    (free : s.service ≠ some n) (supplied : s.supplies c n = true) : s.sourceCheck c = none := by
  have reachable : ¬ (s.ports[n].state = .fault ∨ s.inService n = true) :=
    not_or.mpr ⟨by rw [bound]; exact nofun, fun held => free (beq_iff_eq.mp held)⟩
  unfold State.sourceCheck
  rw [port]
  exact (if_neg reachable).trans ((if_neg (not_not.mpr bound)).trans (if_pos supplied))

end

end Sys2Proof.Machine
end

