-- ==== Sys2Proof/Proofs/PulseMeter.lean ====
section
/-! PROOFS. The pulse meter and its hand-off to the conversion table (R59, R60). -/

namespace Sys2Proof.Machine

/-! ## The hand-off (R64) -/

/-- R59: what an entry of a PULSE kind reads of the meter. -/
def Lines.pulseReading (l : Lines) : SourceKind → Option Nat
  | .pulseHigh => some l.high.toNat
  | .pulsePeriod => some l.period.toNat
  | .pulseDuty => some l.duty
  | .none | .slot | .deviceField | .encoder | .entry | .motorSpeed => none

/-- R59: the three values go to the entries of their kinds. -/
def State.pulseReads (s : State) (n : PortNo) (c : ConvConfig) : Option Int :=
  if c.sourceIndex.toNat ≠ n.val then none else (s.lines[n].pulseReading c.sourceKind).map Int.ofNat

theorem State.pulseUpdate_eq (s : State) (n : PortNo) : s.pulseUpdate n = s.sourceUpdate (s.pulseReads n) := by
  refine congrArg s.sourceUpdate (funext fun c => ?_)
  unfold State.pulseReads
  cases c.sourceKind <;> rfl

/-- R59, R60: the state once a measurement has been stored as the lines `l` and handed on. -/
def State.metered (s : State) (n : PortNo) (l : Lines) : State := ((s.setLines n l).pulseUpdate n).transmitNext

/-- A RAW entry of this kind over a BOUND port out of service mode shows this value after a measurement. -/
def State.PulseShown (s : State) (n : PortNo) (t : State) (kind : SourceKind) (x : Nat) : Prop :=
  s.ports[n].state = .bound → s.service ≠ some n → ∀ i : Fin 32, s.conv[i].cfg.sourceKind = kind →
    s.conv[i].cfg.sourceIndex = portByte n → s.conv[i].cfg.mode = .raw → s.conv[i].cfg.maxChange = 0 →
    s.conv[i].cfg.railCheck = false →
    s.conv[i].Shows t.conv[i] (BitVec.ofNat 32 (min 2147483647 x)) s.bus.stamp

section
variable {s : State} {n : PortNo} {l : Lines}

/-- R64: what a PULSE entry of a port in PULSE reads is supplied. -/
theorem State.supplies_pulse {c : ConvConfig} {x : Nat} (mode : s.lines[n].mode = .pulse)
    (reading : l.pulseReading c.sourceKind = some x) : s.supplies c n = true := by
  have supplied : (s.lines[n].mode == .pulse) = true := beq_iff_eq.mpr mode
  unfold State.supplies
  cases kind : c.sourceKind with
  | pulseHigh | pulsePeriod | pulseDuty => exact supplied
  | none | slot | entry => rfl
  | deviceField | encoder | motorSpeed =>
    rw [kind] at reading
    exact absurd reading nofun

theorem Lines.pulseReading_kind {kind : SourceKind} {x : Nat} (reading : l.pulseReading kind = some x) :
    kind ∉ [.none, .slot, .entry] := fun other => by
  rcases List.mem_cons.mp other with rfl | other
  · exact nomatch reading
  · rcases List.mem_pair.mp other with rfl | rfl <;> exact nomatch reading

/-- R59, R64: each PULSE kind shows its own value of the measurement. -/
theorem State.metered_shows (mode : l.mode = .pulse) {kind : SourceKind} {x : Nat}
    (reading : l.pulseReading kind = some x) : s.PulseShown n (s.metered n l) kind x := by
  intro bound free i source index raw unlimited noRail
  subst source
  let u := s.setLines n l
  have lines : u.lines[n] = l := State.setLines_same s n l
  have named := Lines.pulseReading_kind reading
  have supplied : u.supplies u.conv[i].cfg n = true := State.supplies_pulse (by rw [lines]; exact mode) reading
  have reached : u.pulseReads n u.conv[i].cfg = some (Int.ofNat x) := by
    have here : u.conv[i].cfg.sourceIndex.toNat = n.val := index ▸ toNat_portByte n
    rw [State.pulseReads, if_neg (not_not.mpr here), lines]
    exact congrArg (Option.map Int.ofNat) reading
  have shown := State.sourceUpdate_shows (s := u) (i := i) ⟨raw, unlimited, noRail⟩
    (fun entry => named (by rw [show s.conv[i].cfg.sourceKind = .entry from entry]; decide)) reached
    (State.sourceCheck_supplied (State.sourcePort_named named index) bound free supplied)
  rw [State.metered, State.transmitNext_conv, State.pulseUpdate_eq, ← wordOfInt_saturate32]
  exact shown

theorem State.metered_lines : (s.metered n l).lines = s.lines.set n l := by
  rw [State.metered, State.transmitNext_lines,
    State.pulseUpdate_keeps (·.lines) (fun _ _ => rfl) (fun _ _ => rfl) (fun _ _ => rfl) (fun _ _ => rfl)]
  rfl

/-- What a measurement leaves. -/
theorem State.metered_keeps : s.linkKept (s.metered n l) ∧
    s.keepsBut (s.metered n l) [.link, .lines, .conv, .bus, .reports, .reportQueue] := by
  refine ⟨State.linkKept_transmitNext ?_,
    State.keepsBut_transmitNext (by decide) (by decide) (by decide) ?_⟩
  · exact State.pulseUpdate_keeps (·.link) (fun _ _ => rfl) (fun _ _ => rfl) (fun _ _ => rfl) (fun _ _ => rfl) _ n
  · exact (State.pulseUpdate_keeps _ (State.masked_bus (by decide)) (State.masked_conv (by decide))
      (State.masked_reports (by decide)) (State.masked_reportQueue (by decide)) _ n).trans
      (State.setLines_keeps _ (State.masked_lines (by decide)) s n l)

end

/-! ## The rows -/

/-- R59: the lines after an edge that the meter sees, before it is timed. -/
def Lines.edge (l : Lines) (rising : Bool) : Lines := { l with pin1 := rising, level1 := rising, noEdge := some 100 }

/-- R60: the lines after 100 ms without an edge. -/
def Lines.still (l : Lines) : Lines :=
  { l with period := 0, high := 0, duty := if l.level1 then 1000 else 0, armed := false, noEdge := none }

section
variable {s : State} {n : PortNo} {rising : Bool} {time : Word}

/-- Log 17: without an edge of the meter only the level of L1 changes. -/
theorem execPulseEdge_none (none : s.lines[n].mode ≠ .pulse ∨ s.lines[n].level1 = rising) :
    execPulseEdge n rising time s = .next (s.setLines n { s.lines[n] with pin1 := rising }) :=
  if_neg fun both => none.elim (fun other => other both.1) both.2

/-- R59: an edge in PULSE. -/
theorem execPulseEdge_edge (mode : s.lines[n].mode = .pulse) (edge : s.lines[n].level1 ≠ rising) :
    execPulseEdge n rising time s =
      if rising then
        if s.lines[n].armed then .next (s.metered n ((s.lines[n].edge rising).measure time))
        else .next (s.setLines n { s.lines[n].edge rising with lastRise := time, armed := true })
      else .next (s.setLines n { s.lines[n].edge rising with lastFall := time }) := if_pos ⟨mode, edge⟩

theorem execNoEdgeExpiry_stopped (stopped : s.lines[n].noEdge = none) : execNoEdgeExpiry n s = .next s := by
  rw [execNoEdgeExpiry, stopped]

theorem execNoEdgeExpiry_running {ms : Nat} (running : s.lines[n].noEdge = some ms) :
    execNoEdgeExpiry n s = .next (s.metered n s.lines[n].still) := by
  rw [execNoEdgeExpiry, running]
  rfl

end

/-- Settles O33: edges are timed, arm or measure, and each measurement is handed on whole. -/
theorem pulseMeterMeasures : Obligations.PulseMeterMeasures := by
  intro s n rising time ms l seen period high shows
  have shown {m : Lines} (mode : m.mode = .pulse) {kind : SourceKind} {x : Nat}
      (reading : m.pulseReading kind = some x) : shows (s.metered n m) kind x := State.metered_shows mode reading
  refine ⟨execPulseEdge_none, fun mode edge falling => ?_, fun mode edge rises idle => ?_,
    fun mode edge rises armed => ?_, execNoEdgeExpiry_stopped, fun running => ?_⟩
  · exact (execPulseEdge_edge mode edge).trans (if_neg (ne_true_of_eq_false falling))
  · exact (execPulseEdge_edge mode edge).trans ((if_pos rises).trans (if_neg (ne_true_of_eq_false idle)))
  · let m := (l.edge rising).measure time
    have pulse : m.mode = .pulse := mode
    have duty (cycle : period ≠ 0) : m.duty = high.toNat * 1000 / period.toNat := if_neg cycle
    exact ⟨_, (execPulseEdge_edge mode edge).trans ((if_pos rises).trans (if_pos armed)), State.metered_lines,
      shown pulse rfl, shown pulse rfl, fun cycle => shown pulse (congrArg some (duty cycle)), State.metered_keeps⟩
  · refine ⟨_, execNoEdgeExpiry_running running, State.metered_lines, fun mode => ?_, State.metered_keeps⟩
    have pulse : l.still.mode = .pulse := mode
    exact ⟨shown pulse rfl, shown pulse rfl, shown pulse rfl⟩

end Sys2Proof.Machine
end

