-- ==== Sys2Proof/Proofs/Quadrature.lean ====
section
/-! PROOFS. The quadrature decoder (R57), the position its count gives (R58, R96, R111) and the hand-off of the count
(R66). -/

namespace Sys2Proof.Machine

/-! ## The decoder (R57) -/

/-- Section 3.8: the transitions at which L1 leads. -/
def leadsUp (last pair : Bool × Bool) : Bool :=
  (last, pair) ∈ [((false, false), (true, false)), ((true, false), (true, true)), ((true, true), (false, true)),
    ((false, true), (false, false))]

/-- R57: the count after a transition of one line. -/
def Lines.counted (l : Lines) (pair : Bool × Bool) : Word :=
  if leadsUp (l.level1, l.level2) pair then l.count + 1 else l.count - 1

theorem eq_nextUp_iff (a b c d : Bool) : (c, d) = nextUp (a, b) ↔ leadsUp (a, b) (c, d) = true := by
  revert a b c d
  decide

/-- A transition of both lines is a step of the cycle in neither direction. -/
theorem nextUp_double {a b c d : Bool} (both : (a != c && b != d) = true) :
    (c, d) ≠ nextUp (a, b) ∧ (a, b) ≠ nextUp (c, d) := by
  revert a b c d
  decide

/-- A transition of one line is a step of the cycle in one direction. -/
theorem nextUp_single {a b c d : Bool} (change : (a, b) ≠ (c, d)) (single : (a != c && b != d) = false)
    (down : (c, d) ≠ nextUp (a, b)) : (a, b) = nextUp (c, d) := by
  revert a b c d
  decide

section
variable {l : Lines} {h1 h2 : Bool}

theorem Lines.decode_double (both : (l.level1 != h1 && l.level2 != h2) = true) :
    l.decode (h1, h2) = { l with level1 := h1, level2 := h2, errors := satInc l.errors } := by
  obtain ⟨up, down⟩ := nextUp_double both
  rw [Lines.decode, if_neg up, if_neg down]

theorem Lines.decode_single (change : (l.level1, l.level2) ≠ (h1, h2))
    (single : (l.level1 != h1 && l.level2 != h2) = false) :
    l.decode (h1, h2) = { l with level1 := h1, level2 := h2, count := l.counted (h1, h2) } := by
  have up := eq_nextUp_iff l.level1 l.level2 h1 h2
  unfold Lines.decode Lines.counted
  by_cases leads : (h1, h2) = nextUp (l.level1, l.level2)
  · rw [if_pos leads, if_pos (up.mp leads)]
  · rw [if_neg leads, if_neg (leads ∘ up.mpr), if_pos (nextUp_single change single leads)]

theorem Lines.counted_ne : l.counted (h1, h2) ≠ l.count := by
  unfold Lines.counted
  split <;> bv_omega

end

/-! ## The position (R96, R111) -/

section
variable (s : State) (n : PortNo) (p0 p1 : Word)

theorem State.quadraturePosition_motors : (s.quadraturePosition n p0 p1).motors =
    if (s.motorProfile n).any (fun p => p.positionSource == 255) then
      s.motors.set n { s.motors[n] with position := p1 } else s.motors := by
  unfold State.quadraturePosition
  cases s.motorProfile n with
  | none => rfl
  | some p =>
    refine (State.markUpdate_keeps (·.motors) (fun _ _ => rfl) (fun _ _ => rfl) _ n p0 p1).trans ?_
    rw [Option.any_some]
    by_cases encoder : p.positionSource = 255
    · rw [if_pos encoder, if_pos (beq_iff_eq.mpr encoder), State.setMotor_motors]
    · rw [if_neg encoder, if_neg (encoder ∘ beq_iff_eq.mp)]

/-- R111: the unit tests the update whatever the channel's position source. -/
theorem State.quadraturePosition_marks : (s.quadraturePosition n p0 p1).marks =
    if (s.motorProfile n).isSome = true ∧ s.marks[n].enabled = true then
      s.marks.set n (s.marks[n].update p0 p1).1 else s.marks := by
  unfold State.quadraturePosition
  cases motor : s.motorProfile n with
  | none => rfl
  | some p =>
    let t := if p.positionSource = 255 then s.setMotor n { s.motors[n] with position := p1 } else s
    have marks : t.marks = s.marks := by
      dsimp only [t]
      split <;> rfl
    have bound : (t.motorProfile n).isSome = true := by
      have same : t.motorProfile n = s.motorProfile n := by
        dsimp only [t]
        split <;> rfl
      rw [same, motor]
      rfl
    refine (State.markUpdate_marks t n p0 p1).trans ?_
    rw [marks]
    by_cases enabled : s.marks[n].enabled = true
    · rw [if_pos ⟨enabled, bound⟩, if_pos ⟨rfl, enabled⟩]
    · rw [if_neg (enabled ·.1), if_neg (enabled ·.2)]
      exact vector_set_self _ _

theorem State.quadraturePosition_stamp : (s.quadraturePosition n p0 p1).bus.stamp = s.bus.stamp := by
  unfold State.quadraturePosition
  cases s.motorProfile n with
  | none => rfl
  | some p =>
    refine (State.markUpdate_stamp _ n p0 p1).trans ?_
    split <;> rfl

end

/-! ## The hand-off of the count (R66) -/

section
variable {s : State} {n : PortNo}

theorem State.encoderUpdate_again (again : s.encStamp[n] = some s.bus.stamp) : s.encoderUpdate n = s := if_pos again

theorem State.encoderUpdate_first (first : s.encStamp[n] ≠ some s.bus.stamp) : s.encoderUpdate n =
    State.sourceUpdate { s with encStamp := s.encStamp.set n (some s.bus.stamp) }
      (readsIndex .encoder n.val s.lines[n].count.toInt) := if_neg first

theorem State.encoderUpdate_encStamp :
    (s.encoderUpdate n).encStamp = s.encStamp.set n (some s.bus.stamp) := by
  by_cases again : s.encStamp[n] = some s.bus.stamp
  · rw [State.encoderUpdate_again again, ← again]
    exact (vector_set_self _ _).symm
  · rw [State.encoderUpdate_first again,
      State.sourceUpdate_keeps (·.encStamp) (fun _ _ => rfl) (fun _ _ => rfl) (fun _ _ => rfl) (fun _ _ => rfl)]

/-- R66: a RAW ENCODER entry over a BOUND port in QUADRATURE, out of service mode, shows the count. -/
theorem State.encoderUpdate_shows (first : s.encStamp[n] ≠ some s.bus.stamp) (bound : s.ports[n].state = .bound)
    (free : s.service ≠ some n) (mode : s.lines[n].mode = .quadrature) {i : Fin 32} (plain : s.conv[i].cfg.Plain)
    (kind : s.conv[i].cfg.sourceKind = .encoder) (index : s.conv[i].cfg.sourceIndex = portByte n) :
    s.conv[i].Shows (s.encoderUpdate n).conv[i] s.lines[n].count s.bus.stamp := by
  have named : s.conv[i].cfg.sourceKind ∉ [.none, .slot, .entry] := by
    rw [kind]
    decide
  have supplied : s.supplies s.conv[i].cfg n = true := by
    unfold State.supplies
    rw [kind]
    exact beq_iff_eq.mpr mode
  have reached : readsIndex .encoder n.val s.lines[n].count.toInt s.conv[i].cfg = some s.lines[n].count.toInt :=
    if_pos ⟨kind, index ▸ toNat_portByte n⟩
  have shown := State.sourceUpdate_shows (s := { s with encStamp := s.encStamp.set n (some s.bus.stamp) }) plain
    (by rw [kind]; exact nofun) reached
    (State.sourceCheck_supplied (State.sourcePort_named named index) bound free supplied)
  have word : wordOfInt (saturate32 s.lines[n].count.toInt) = s.lines[n].count :=
    (congrArg wordOfInt (saturate32_toInt _)).trans BitVec.ofInt_toInt
  rw [word] at shown
  rw [State.encoderUpdate_first first]
  exact shown

end

theorem State.masked_encStamp {m : State} {changed : List Part} (h : Part.encStamp ∈ changed) :
    IgnoresEncStamp (State.masked m changed) := fun _ _ => by
  simp only [State.masked, if_pos h]

/-! ## The row -/

/-- The lines once both levels have changed. -/
def Lines.paired (l : Lines) (h1 h2 : Bool) : Lines := { l with pin1 := h1, pin2 := h2 }

/-- R57: the lines once the decoder has counted a transition. -/
def Lines.counting (l : Lines) (h1 h2 : Bool) : Lines :=
  { l with pin1 := h1, pin2 := h2, level1 := h1, level2 := h2, count := l.counted (h1, h2) }

/-- R58: the state with a new count, before it is handed on. -/
def State.positioned (s : State) (n : PortNo) (h1 h2 : Bool) : State :=
  (s.setLines n (s.lines[n].counting h1 h2)).quadraturePosition n s.lines[n].count (s.lines[n].counted (h1, h2))

section
variable {s : State} {n : PortNo} {h1 h2 : Bool}

/-- Log 17: outside QUADRATURE, and with the pair the decoder last saw, only the levels change. -/
theorem execQuadratureChange_none
    (none : s.lines[n].mode ≠ .quadrature ∨ (s.lines[n].level1, s.lines[n].level2) = (h1, h2)) :
    execQuadratureChange n h1 h2 s = .next (s.setLines n (s.lines[n].paired h1 h2)) :=
  if_neg fun both => none.elim (fun other => other both.1) fun same => both.2 same.symm

/-- R57: a new pair in QUADRATURE is decoded, and handed on if the count changes. -/
theorem execQuadratureChange_new (mode : s.lines[n].mode = .quadrature)
    (change : (s.lines[n].level1, s.lines[n].level2) ≠ (h1, h2)) {m : Lines}
    (decoded : (s.lines[n].paired h1 h2).decode (h1, h2) = m) :
    execQuadratureChange n h1 h2 s =
      if m.count = s.lines[n].count then .next (s.setLines n m)
      else settled (((s.setLines n m).quadraturePosition n s.lines[n].count m.count).encoderUpdate n) :=
  decoded ▸ if_pos ⟨mode, change.symm⟩

theorem execQuadratureChange_double (mode : s.lines[n].mode = .quadrature)
    (change : (s.lines[n].level1, s.lines[n].level2) ≠ (h1, h2))
    (both : (s.lines[n].level1 != h1 && s.lines[n].level2 != h2) = true) :
    execQuadratureChange n h1 h2 s = .next (s.setLines n
      { s.lines[n].paired h1 h2 with level1 := h1, level2 := h2, errors := satInc s.lines[n].errors }) :=
  (execQuadratureChange_new mode change (Lines.decode_double both)).trans (if_pos rfl)

theorem execQuadratureChange_single (mode : s.lines[n].mode = .quadrature)
    (change : (s.lines[n].level1, s.lines[n].level2) ≠ (h1, h2))
    (single : (s.lines[n].level1 != h1 && s.lines[n].level2 != h2) = false) :
    execQuadratureChange n h1 h2 s = settled ((s.positioned n h1 h2).encoderUpdate n) :=
  (execQuadratureChange_new mode change (m := s.lines[n].counting h1 h2)
    (Lines.decode_single (l := s.lines[n].paired h1 h2) change single)).trans (if_neg Lines.counted_ne)

theorem State.positioned_keeps {β : Type} (F : State → β) (hBus : IgnoresBus F) (hLines : IgnoresLines F)
    (hMotors : IgnoresMotors F) (hMarks : IgnoresMarks F) : F (s.positioned n h1 h2) = F s :=
  (State.quadraturePosition_keeps F hBus hMotors hMarks _ n _ _).trans (State.setLines_keeps F hLines s n _)

theorem State.positioned_lines : (s.positioned n h1 h2).lines = s.lines.set n (s.lines[n].counting h1 h2) :=
  State.quadraturePosition_keeps (·.lines) (fun _ _ => rfl) (fun _ _ => rfl) (fun _ _ => rfl) _ n _ _

theorem State.positioned_stamp : (s.positioned n h1 h2).bus.stamp = s.bus.stamp :=
  State.quadraturePosition_stamp _ n _ _

/-- What the hand-off of a count leaves. -/
theorem State.encoderUpdate_positioned {β : Type} (F : State → β) (hBus : IgnoresBus F) (hConv : IgnoresConv F)
    (hEncStamp : IgnoresEncStamp F) (hReports : IgnoresReports F) (hReportQueue : IgnoresReportQueue F) :
    F ((s.positioned n h1 h2).encoderUpdate n) = F (s.positioned n h1 h2) :=
  State.encoderUpdate_keeps F hBus hConv hEncStamp hReports hReportQueue _ n

theorem State.positioned_conv : (s.positioned n h1 h2).conv = s.conv :=
  State.positioned_keeps (·.conv) (fun _ _ => rfl) (fun _ _ => rfl) (fun _ _ => rfl) (fun _ _ => rfl)

theorem State.positioned_encStamp : (s.positioned n h1 h2).encStamp = s.encStamp :=
  State.positioned_keeps (·.encStamp) (fun _ _ => rfl) (fun _ _ => rfl) (fun _ _ => rfl) (fun _ _ => rfl)

/-- R66: a RAW ENCODER entry shows the new count. -/
theorem State.positioned_shows (first : s.encStamp[n] ≠ some s.bus.stamp) (bound : s.ports[n].state = .bound)
    (free : s.service ≠ some n) (mode : s.lines[n].mode = .quadrature) {i : Fin 32} (plain : s.conv[i].cfg.Plain)
    (kind : s.conv[i].cfg.sourceKind = .encoder) (index : s.conv[i].cfg.sourceIndex = portByte n) :
    s.conv[i].Shows ((s.positioned n h1 h2).encoderUpdate n).conv[i] (s.lines[n].counted (h1, h2)) s.bus.stamp := by
  have ports : (s.positioned n h1 h2).ports = s.ports :=
    State.positioned_keeps (·.ports) (fun _ _ => rfl) (fun _ _ => rfl) (fun _ _ => rfl) (fun _ _ => rfl)
  have service : (s.positioned n h1 h2).service = s.service :=
    State.positioned_keeps (·.service) (fun _ _ => rfl) (fun _ _ => rfl) (fun _ _ => rfl) (fun _ _ => rfl)
  have lines : (s.positioned n h1 h2).lines[n] = s.lines[n].counting h1 h2 := by
    rw [State.positioned_lines, vector_set_same]
  have shown := State.encoderUpdate_shows (s := s.positioned n h1 h2) (n := n) (i := i)
  rw [State.positioned_encStamp, State.positioned_stamp, State.positioned_conv, ports, service, lines] at shown
  exact shown first bound free mode plain kind index

end

/-- Settles O32: the pair is decoded, and a new count reaches the channel, the mark unit and the conversion table. -/
theorem quadratureCounts : Obligations.QuadratureCounts := by
  intro s n h1 h2 l seen last up both count
  refine ⟨execQuadratureChange_none, execQuadratureChange_double, fun mode change single => ?_⟩
  refine ⟨_, execQuadratureChange_single mode change single, ?_⟩
  have handed {β : Type} (F : State → β) := State.encoderUpdate_positioned (s := s) (n := n) (h1 := h1) (h2 := h2) F
  beta_reduce
  rw [State.transmitNext_lines, State.transmitNext_motors, State.transmitNext_marks, State.transmitNext_encStamp,
    State.transmitNext_conv]
  refine ⟨?lines, ?motors, ?marks, ?encStamp, fun again => ?again, fun first bound free i kind index raw unlimited
    noRail => State.positioned_shows first bound free mode ⟨raw, unlimited, noRail⟩ kind index,
    State.linkKept_transmitNext ?link, State.keepsBut_transmitNext (by decide) (by decide) (by decide) ?kept⟩
  case lines =>
    exact (handed (·.lines) (fun _ _ => rfl) (fun _ _ => rfl) (fun _ _ => rfl) (fun _ _ => rfl) (fun _ _ => rfl)).trans
      State.positioned_lines
  case motors =>
    exact (handed (·.motors) (fun _ _ => rfl) (fun _ _ => rfl) (fun _ _ => rfl) (fun _ _ => rfl)
      (fun _ _ => rfl)).trans (State.quadraturePosition_motors _ n _ _)
  case marks =>
    exact (handed (·.marks) (fun _ _ => rfl) (fun _ _ => rfl) (fun _ _ => rfl) (fun _ _ => rfl)
      (fun _ _ => rfl)).trans (State.quadraturePosition_marks _ n _ _)
  case encStamp =>
    rw [State.encoderUpdate_encStamp, State.positioned_encStamp, State.positioned_stamp]
  case again =>
    rw [State.encoderUpdate_again (by rw [State.positioned_encStamp, State.positioned_stamp]; exact again),
      State.positioned_conv]
  case link =>
    exact (handed (·.link) (fun _ _ => rfl) (fun _ _ => rfl) (fun _ _ => rfl) (fun _ _ => rfl) (fun _ _ => rfl)).trans
      (State.positioned_keeps (·.link) (fun _ _ => rfl) (fun _ _ => rfl) (fun _ _ => rfl) (fun _ _ => rfl))
  case kept =>
    exact (handed _ (State.masked_bus (by decide)) (State.masked_conv (by decide)) (State.masked_encStamp (by decide))
      (State.masked_reports (by decide)) (State.masked_reportQueue (by decide))).trans
      (State.positioned_keeps _ (State.masked_bus (by decide)) (State.masked_lines (by decide))
        (State.masked_motors (by decide)) (State.masked_marks (by decide)))

end Sys2Proof.Machine
end

