-- ==== Sys2Proof/Proofs/ScanCommands.lean ====
section
/-! PROOFS. What the converter takes up next (R53), a pass that starts (R50), and the SCAN commands (R48, R49). -/

namespace Sys2Proof.Machine

/-! ## ID requests (R53) -/

/-- R53: the lowest request is served first. -/
theorem Scan.firstRequest_some {c : Scan} {n : PortNo} (requested : c.idReq[n] = true)
    (lowest : ∀ k : PortNo, k < n → c.idReq[k] = false) : c.firstRequest = some n := by
  rw [Scan.firstRequest, allPorts_eq, List.find?_eq_some_iff_getElem]
  refine ⟨requested, n.val, by simp, by simp, fun j below => ?_⟩
  have free : c.idReq[j] = false := lowest ⟨j, Nat.lt_trans below n.isLt⟩ below
  simp [free]

theorem Scan.firstRequest_none {c : Scan} (none : ∀ n : PortNo, c.idReq[n] = false) : c.firstRequest = .none :=
  List.find?_eq_none.mpr fun n _ => ne_true_of_eq_false (none n)

section
variable {c : Scan} {start stop : Byte}

theorem Scan.choose_ident {n : PortNo} (requested : c.idReq[n] = true)
    (lowest : ∀ k : PortNo, k < n → c.idReq[k] = false) :
    c.choose start stop = { c with work := .ident n false, idReq := c.idReq.set n false } := by
  rw [Scan.choose, Scan.firstRequest_some requested lowest]

theorem Scan.choose_pass (none : ∀ n : PortNo, c.idReq[n] = false) {p : ScanPass} (pass : c.pass = some p) :
    c.choose start stop = c.beginSlot p.next := by
  rw [Scan.choose, Scan.firstRequest_none none, pass]

theorem Scan.choose_due (none : ∀ n : PortNo, c.idReq[n] = false) (pass : c.pass = .none) (due : c.passDue = true) :
    c.choose start stop = c.startPass start stop := by
  rw [Scan.choose, Scan.firstRequest_none none, pass]
  exact if_pos due

theorem Scan.choose_idle (none : ∀ n : PortNo, c.idReq[n] = false) (pass : c.pass = .none) (due : c.passDue = false) :
    c.choose start stop = { c with work := .idle } := by
  rw [Scan.choose, Scan.firstRequest_none none, pass]
  exact if_neg (ne_true_of_eq_false due)

end

/-! ## A pass (R47, R50) -/

theorem Scan.markSlots_image (c : Scan) (f : Fin 16 → SlotState → SlotState) (j : Fin 16) :
    (c.markSlots f).images[j] = { c.images[j] with slotState := f j c.images[j].slotState } := Vector.getElem_ofFn ..

theorem Scan.setSlotState_image (c : Scan) (i j : Fin 16) (st : SlotState) : (c.setSlotState i st).images[j] =
    if i = j then { c.images[j] with slotState := st } else c.images[j] := by
  by_cases same : i = j
  · subst same
    simp [Scan.setSlotState]
  · have apart : i.val ≠ j.val := fun e => same (Fin.ext e)
    simp [Scan.setSlotState, same, apart]

/-- R50: the last slot of a pass. -/
def lastSlot (start stop : Byte) : Fin 16 := if slotNo stop < slotNo start then slotNo start else slotNo stop

/-- R47: the states of the slots once a pass has started. -/
def startedState (first last j : Fin 16) : SlotState :=
  if j = first then .converting else if first ≤ j ∧ j ≤ last then .pending else .idle

/-- R50: the scan at the start of the pass from `first` to `last`. -/
def Scan.started (c : Scan) (first last : Fin 16) : Scan :=
  { c with
    passDue := false, pass := some { next := first, last := last },
    images := Vector.ofFn fun j => { c.images[j] with slotState := startedState first last j },
    work := .slot first c.slots[first].input c.slots[first].average 0 0 false }

/-- R51: a slot begins, and of the images only the states change. -/
theorem Scan.beginSlot_images {c : Scan} {i : Fin 16} {images : Vector RawImage 16}
    (states : (c.setSlotState i .converting).images = images) :
    c.beginSlot i = { c with images := images, work := .slot i c.slots[i].input c.slots[i].average 0 0 false } := by
  rw [← states]
  rfl

/-- R47, R50: of the slots marked for a pass the first begins. -/
theorem Scan.beginSlot_marked (c : Scan) (first last : Fin 16) :
    (Scan.markSlots { c with passDue := false, pass := some { next := first, last := last } }
      (fun i _ => if first ≤ i ∧ i ≤ last then .pending else .idle)).beginSlot first = c.started first last := by
  generalize marking : Scan.markSlots { c with passDue := false, pass := some { next := first, last := last } }
    (fun i _ => if first ≤ i ∧ i ≤ last then .pending else .idle) = marked
  have images : (marked.setSlotState first .converting).images = (c.started first last).images := by
    refine Vector.ext fun j bound => ?_
    refine (Scan.setSlotState_image marked first ⟨j, bound⟩ .converting).trans ?_
    have begun : (c.started first last).images[j] =
        { c.images[j] with slotState := startedState first last ⟨j, bound⟩ } := Vector.getElem_ofFn ..
    rw [begun, startedState, ← marking, Scan.markSlots_image]
    by_cases here : first = ⟨j, bound⟩
    · rw [if_pos here, if_pos here.symm]
      rfl
    · rw [if_neg here, if_neg (Ne.symm here)]
      rfl
  refine (Scan.beginSlot_images images).trans ?_
  subst marking
  rfl

/-- R50: a due pass starts at scan_start. -/
theorem Scan.startPass_eq (c : Scan) (start stop : Byte) :
    c.startPass start stop = c.started (slotNo start) (lastSlot start stop) :=
  c.beginSlot_marked (slotNo start) (lastSlot start stop)

/-! ## The SCAN commands (R49) -/

section
variable {s : State} {op : ScanOp} {tag : Byte}

/-- The three rows are one command, by its mode. -/
theorem exec_scan {c : Instr} {mode : ScanMode}
    (row : (c = .scanStart tag ∧ mode = .continuous) ∨ (c = .scanSingle tag ∧ mode = .single) ∨
      (c = .scanStop tag ∧ mode = .off)) :
    ∃ op : ScanOp, op.mode = mode ∧ ∃ payload,
      exec c s = command 0x30 tag payload (fun t _ => t.scanCommand op) s := by
  rcases row with ⟨rfl, rfl⟩ | ⟨rfl, rfl⟩ | ⟨rfl, rfl⟩
  · exact ⟨.start, rfl, [2], rfl⟩
  · exact ⟨.single, rfl, [1], rfl⟩
  · exact ⟨.stop, rfl, [0], rfl⟩

/-- R48: a SCAN command is answered OK once the scan has obeyed. -/
theorem command_scan (opens : s.Opens) {payload : List Byte} {scan : Scan}
    (obeyed : ∀ l : Link, State.scanOp { s with link := l } op = { s with link := l, scan := scan }) :
    command 0x30 tag payload (fun t _ => t.scanCommand op) s =
      .next (State.replied { s with scan := scan } 0x30 tag .ok []) :=
  command_replied opens (congrArg (Reply.answered .ok []) (obeyed _)) rfl rfl

end

/-- R47: every slot IDLE. -/
def Scan.idled (c : Scan) : Vector RawImage 16 := Vector.ofFn fun i => { c.images[i] with slotState := .idle }

section
variable {c : Scan}

/-- R49: with a slot's conversion in flight the pass is cut there. -/
theorem Scan.command_slot {i : Fin 16} {input : Fin 8} {n done sum : Nat} {discard : Bool}
    (work : c.work = .slot i input n done sum discard) (op : ScanOp) :
    c.command op = { c with mode := op.mode, passDue := decide (op.mode ≠ .off), cut := true } := by
  rw [Scan.command]
  dsimp only
  rw [work]
  cases op <;> rfl

/-- R49: with no slot's conversion in flight the pass ends at once, and STOP leaves every slot IDLE. -/
theorem Scan.command_free (free : ∀ i input n done sum discard, c.work ≠ .slot i input n done sum discard)
    (op : ScanOp) : c.command op =
      { c with mode := op.mode, passDue := decide (op.mode ≠ .off), pass := none, cut := false,
               images := if op.mode = .off then c.idled else c.images } := by
  rw [Scan.command]
  dsimp only
  cases work : c.work with
  | slot i input n done sum discard => exact absurd work (free i input n done sum discard)
  | idle | ident => cases op <;> rfl

section
variable (idle : c.work = .idle) (none : ∀ n : PortNo, c.idReq[n] = false) {op : ScanOp} (start stop : Byte)
include idle none

/-- R49, R53: after a STOP an IDLE converter stays IDLE. -/
theorem Scan.command_choose_stop (off : op.mode = .off) : (c.command op).choose start stop =
    { c with mode := .off, passDue := false, pass := .none, cut := false, images := c.idled } := by
  rw [Scan.command_free (by rw [idle]; exact nofun), if_pos off, off]
  refine Eq.trans (Scan.choose_idle ?asked ?pass ?due) ?same
  exacts [none, rfl, rfl, by rw [idle]; rfl]

/-- R50, R53: after a START or SINGLE an IDLE converter starts the due pass. -/
theorem Scan.command_choose_start (on : op.mode ≠ .off) : (c.command op).choose start stop =
    Scan.started { c with mode := op.mode, cut := false } (slotNo start) (lastSlot start stop) := by
  rw [Scan.command_free (by rw [idle]; exact nofun), if_neg on]
  refine Eq.trans (Scan.choose_due ?asked ?pass ?due) (Scan.startPass_eq _ start stop)
  exacts [none, rfl, decide_eq_true on]

end

theorem Scan.command_work (op : ScanOp) : (c.command op).work = c.work := by
  cases work : c.work with
  | slot => rw [Scan.command_slot work]; exact work
  | idle | ident => rw [Scan.command_free (by rw [work]; exact nofun)]; exact work

end

section
variable {s : State} {op : ScanOp}

/-- R53: a converter at work goes on. -/
theorem State.scanOp_busy (busy : s.scan.work ≠ .idle) : s.scanOp op = { s with scan := s.scan.command op } := by
  have work : (s.scan.command op).work = s.scan.work := Scan.command_work op
  unfold State.scanOp State.converterWake
  dsimp only
  split
  · next idle => exact absurd (work.symm.trans idle) busy
  · rfl
  · rfl

/-- R53: an IDLE converter chooses. -/
theorem State.scanOp_idle (idle : s.scan.work = .idle) : s.scanOp op =
    { s with scan := (s.scan.command op).choose s.settings.scanStart s.settings.scanStop } := by
  have work : (s.scan.command op).work = .idle := (Scan.command_work op).trans idle
  unfold State.scanOp State.converterWake
  dsimp only
  rw [work]

end

/-- Settles O41: a SCAN command by what the converter does: a slot, an ID measurement, or nothing. -/
theorem scanCommandsAct : Obligations.ScanCommandsAct := by
  intro s tag c mode opens row first last idled
  obtain ⟨op, rfl, payload, run⟩ := exec_scan (s := s) row
  rw [run]
  refine ⟨fun i slot => ?slot, fun n ident => ?ident, fun idle none => ?idle⟩
  case slot =>
    cases work : s.scan.work with
    | idle | ident => rw [work] at slot; exact absurd slot Bool.false_ne_true
    | slot k input n done sum discard =>
      refine command_scan opens fun l => (State.scanOp_busy (by rw [work]; exact nofun)).trans ?_
      rw [Scan.command_slot work]
  case ident =>
    have busy : s.scan.work ≠ .idle ∧ ∀ i input n done sum discard, s.scan.work ≠ .slot i input n done sum discard := by
      rcases ident with work | work <;> rw [work] <;> exact ⟨nofun, nofun⟩
    refine command_scan opens fun l => (State.scanOp_busy (s := { s with link := l }) busy.1).trans ?_
    rw [Scan.command_free busy.2]
    rfl
  case idle =>
    refine command_scan opens fun l => (State.scanOp_idle (s := { s with link := l }) idle).trans
      (congrArg (fun scan => ({ s with link := l, scan := scan } : State)) ?_)
    by_cases off : op.mode = .off
    · exact (Scan.command_choose_stop idle none _ _ off).trans (if_pos off).symm
    · exact (Scan.command_choose_start idle none _ _ off).trans (if_neg off).symm

end Sys2Proof.Machine
end

