-- ==== Sys2Proof/Proofs/Reports.lean ====
section
/-! PROOFS. The report unit: due entries and their offers (R162–R164), the on-change check, and what an item reads
(R161). -/

namespace Sys2Proof.Machine

/-! ## A due entry and its offer (R162, R164) -/

/-- R162: the entry once its report has been assembled. -/
def State.assembled (s : State) (r : Report) : Report :=
  { r with lastSent := s.sentValues r, pending := false, minTimer := timerOf r.minInterval.toNat }

/-- R162, R164: the state once entry i, standing as r, has become due. -/
def State.offered (s : State) (i : Fin 12) (r : Report) : State :=
  let items := r.carried.map s.assembleItem
  if s.reportQueue.any (ReportRecord.isReportOf i) then
    { s with
      reports := s.reports.set i (s.assembled r)
      reportQueue := s.reportQueue.map (ReportRecord.refreshReport i s.bus.stamp items) }
  else if s.reportQueue.length < Config.reportQueue then
    { s with
      reports := s.reports.set i { s.assembled r with skipped := 0 }
      reportQueue := s.reportQueue ++ [.report i s.bus.stamp r.skipped items] }
  else { s with reports := s.reports.set i { s.assembled r with skipped := satInc r.skipped } }

/-- R164: a record of the entry keeps its place and its skipped value, and every other record stands. -/
theorem refreshed_records {i : Fin 12} {stamp : Half} {items : List ReportItem} (f : ReportRecord → ReportRecord)
    (report : ∀ e st skipped is, f (.report e st skipped is) =
      if e = i then .report i stamp skipped items else .report e st skipped is)
    (pass : ∀ p skipped st data, f (.pass p skipped st data) = .pass p skipped st data) (queue : List ReportRecord) :
    queue.map f = queue.map (ReportRecord.refreshReport i stamp items) := by
  refine List.map_congr_left fun q _ => ?_
  cases q with
  | report e st skipped is =>
    rw [report, ReportRecord.refreshReport]
    split
    · next own => rw [own]
    · rfl
  | pass p skipped st data => exact pass p skipped st data

section
variable (s : State) (i : Fin 12) (r : Report)

theorem State.setReport_setReport (q : Report) : (s.setReport i r).setReport i q = s.setReport i q := by
  simp [State.setReport]

/-- R164: the offer of an assembled report. -/
theorem State.offerReport_assembled :
    (s.setReport i (s.assembled r)).offerReport i (r.carried.map s.assembleItem) = s.offered i r := by
  unfold State.offerReport State.offered
  rw [State.setReport_same]
  dsimp only
  refine if_congr Iff.rfl rfl (if_congr Iff.rfl ?_ ?_)
  · simp [State.setReport]
    rfl
  · exact State.setReport_setReport s i _ _

/-- R162: an entry becomes due as it stands. -/
theorem State.setReport_reportDue : (s.setReport i r).reportDue i = s.offered i r := by
  unfold State.reportDue
  rw [State.setReport_same]
  refine Eq.trans ?_ (s.offerReport_assembled i r)
  exact congrArg (State.offerReport · i (r.carried.map s.assembleItem)) (State.setReport_setReport s i _ _)

theorem State.reportDue_eq : s.reportDue i = s.offered i s.reports[i] := by
  have same : s.setReport i s.reports[i] = s := by simp [State.setReport]
  rw [← State.setReport_reportDue, same]

/-- A report is no matter of the link. -/
theorem State.offered_link (l : Link) : State.offered { s with link := l } i r = { s.offered i r with link := l } := by
  unfold State.offered
  dsimp only
  split_ifs <;> rfl

theorem State.offered_keeps_link : (s.offered i r).link = s.link := by
  unfold State.offered
  dsimp only
  split_ifs <;> rfl

end

/-! ## The rows (R162, R163) -/

section
variable {s : State} {tag : Byte} {i : Fin 12} {ms : Nat}

/-- R163: REPORT NOW makes its entry due. -/
theorem execReportNow_entry (opens : s.Opens) : execReportNow tag (byteOf i.val) s =
    .next ((s.offered i s.reports[i]).replied 0x50 tag .ok []) := by
  have index : (byteOf i.val).toNat = i.val := toNat_byteOf (by omega)
  have below : (byteOf i.val).toNat < 12 := lt_of_eq_of_lt index i.isLt
  have entry : (⟨(byteOf i.val).toNat, below⟩ : Fin 12) = i := Fin.ext index
  have due : (s.reserved 0x50 tag).reportDue i = (s.offered i s.reports[i]).reserved 0x50 tag := by
    rw [State.reportDue_eq, State.reserved, State.reserved, State.offered_keeps_link]
    exact State.offered_link s i s.reports[i] (s.link.reserve 0x50 tag)
  refine command_replied opens ?_ (by rw [State.offered_keeps_link]) (by rw [State.offered_keeps_link])
  refine (dif_pos below).trans (congrArg (Reply.answered .ok []) ?_)
  rw [entry]
  exact due

theorem execReportNow_beyond (opens : s.Opens) {entry : Byte} (beyond : 12 ≤ entry.toNat) :
    execReportNow tag entry s = .next (s.replied 0x50 tag .badIndex []) :=
  command_refused opens (dif_neg (Nat.not_lt.mpr beyond))

theorem execReportPeriodExpiry_running (running : s.reports[i].periodTimer = some ms) :
    execReportPeriodExpiry i s =
      settled (s.offered i { s.reports[i] with periodTimer := some s.reports[i].periodMs.toNat }) := by
  rw [execReportPeriodExpiry, running, ← State.setReport_reportDue]

theorem execMinIntervalExpiry_running (running : s.reports[i].minTimer = some ms) : execMinIntervalExpiry i s =
    if s.reports[i].pending then settled (s.offered i s.reports[i])
    else .next (s.setReport i { s.reports[i] with minTimer := none }) := by
  rw [execMinIntervalExpiry, running, ← State.reportDue_eq]

end

/-! ## The on-change check (R162) -/

section
variable {s : State} {r : Report} {e : Fin 32}

/-- R162: a carried CONV item names the entry. -/
theorem Report.names_iff : r.names e = true ↔
    ∃ k : Fin 8, k.val < r.itemCount ∧ r.items[k].kind = .conv ∧ r.items[k].index.toNat = e.val := by
  rw [Report.names, List.any_eq_true]
  constructor
  · rintro ⟨it, carried, named⟩
    obtain ⟨k, counted, rfl⟩ := (Report.mem_carried r it).mp carried
    obtain ⟨kind, index⟩ := Bool.and_eq_true_iff.mp named
    exact ⟨k, counted, beq_iff_eq.mp kind, beq_iff_eq.mp index⟩
  · rintro ⟨k, counted, kind, index⟩
    exact ⟨r.items[k], (Report.mem_carried r _).mpr ⟨k, counted, rfl⟩,
      Bool.and_eq_true_iff.mpr ⟨beq_iff_eq.mpr kind, beq_iff_eq.mpr index⟩⟩

theorem State.readItem_conv {it : Item} (kind : it.kind = .conv) (index : it.index.toNat = e.val) :
    s.readItem it = (s.conv[e].status.code, s.conv[e].value) := by
  unfold State.readItem
  rw [kind, index, ← codeIn_convStatus]
  exact dif_pos e.isLt

/-- R162: a carried CONV item has no last-sent value, or one that its entry has left by change_delta. -/
theorem State.reportChanged_iff
    (ranged : ∀ k : Fin 8, k.val < r.itemCount → r.items[k].kind = .conv → r.items[k].index.toNat < 32) :
    s.reportChanged r = true ↔
      ∃ (k : Fin 8) (e : Fin 32), k.val < r.itemCount ∧ r.items[k].kind = .conv ∧ r.items[k].index.toNat = e.val ∧
        r.lastSent[k].all (fun v => decide ((r.changeDelta.toNat : Int) ≤ |s.conv[e].value.toInt - v|)) = true := by
  have differs {k : Fin 8} {e : Fin 32} (kind : r.items[k].kind = .conv) (index : r.items[k].index.toNat = e.val) :
      (match r.lastSent[k] with
        | none => true
        | some v => decide (|(s.readItem r.items[k]).2.toInt - v| ≥ (r.changeDelta.toNat : Int))) =
      r.lastSent[k].all (fun v => decide ((r.changeDelta.toNat : Int) ≤ |s.conv[e].value.toInt - v|)) := by
    rw [State.readItem_conv kind index]
    cases r.lastSent[k] <;> rfl
  unfold State.reportChanged
  rw [List.any_eq_true]
  constructor
  · rintro ⟨k, -, found⟩
    obtain ⟨item, change⟩ := Bool.and_eq_true_iff.mp found
    obtain ⟨counted, kind⟩ := Bool.and_eq_true_iff.mp item
    have below := ranged k (of_decide_eq_true counted) (beq_iff_eq.mp kind)
    exact ⟨k, ⟨_, below⟩, of_decide_eq_true counted, beq_iff_eq.mp kind, rfl,
      (differs (e := ⟨_, below⟩) (beq_iff_eq.mp kind) rfl).symm.trans change⟩
  · rintro ⟨k, e, counted, kind, index, change⟩
    exact ⟨k, List.mem_finRange k, Bool.and_eq_true_iff.mpr ⟨Bool.and_eq_true_iff.mpr
      ⟨decide_eq_true counted, beq_iff_eq.mpr kind⟩, (differs kind index).trans change⟩⟩

/-- R162: what makes entry i due at an evaluation of e. -/
def State.ReportCalled (s : State) (e : Fin 32) (i : Fin 12) : Prop :=
  (s.reports[i].enabled = true ∧ s.reports[i].periodMs = 0) ∧ s.reports[i].names e = true ∧
    s.reportChanged s.reports[i] = true

theorem State.reportCalled_iff {i : Fin 12} : s.ReportCalled e i ↔
    (s.reports[i].enabled && s.reports[i].periodMs == 0 && s.reports[i].names e && s.reportChanged s.reports[i]) =
      true := by
  simp only [State.ReportCalled, Bool.and_eq_true, beq_iff_eq, and_assoc]

theorem State.reportCheck_uncalled {i : Fin 12} (uncalled : ¬ s.ReportCalled e i) : s.reportCheck e i = s :=
  if_neg (State.reportCalled_iff.not.mp uncalled)

/-- R162: a called entry is due at once. -/
theorem State.reportCheck_free {i : Fin 12} (called : s.ReportCalled e i) (free : s.reports[i].minTimer = none) :
    s.reportCheck e i = s.reportDue i :=
  (if_pos (State.reportCalled_iff.mp called)).trans (by rw [free])

/-- R162: with its minimum interval running, a called entry waits for its end. -/
theorem State.reportCheck_held {i : Fin 12} {ms : Nat} (called : s.ReportCalled e i)
    (held : s.reports[i].minTimer = some ms) :
    s.reportCheck e i = s.setReport i { s.reports[i] with pending := true } := by
  refine (if_pos (State.reportCalled_iff.mp called)).trans ?_
  split
  · next free => exact absurd (held.symm.trans free) nofun
  · rfl

end

/-! ## Items (R161) -/

/-- A byte that names record k of a table reads that record. -/
theorem byteNamed {α : Type} {m : Nat} (few : m ≤ 256) (k : Fin m) (f : Fin m → α) (none : α) :
    (if h : (byteOf k.val).toNat < m then f ⟨(byteOf k.val).toNat, h⟩ else none) = f k := by
  have index : (byteOf k.val).toNat = k.val := toNat_byteOf (by omega)
  exact (dif_pos (lt_of_eq_of_lt index k.isLt)).trans (congrArg f (Fin.ext index))

/-- R161: the items of a port, channel or unit. -/
theorem portNamed (n : PortNo) (f : PortNo → Byte × Word) :
    (if h : (byteOf n.val).toNat < 6 then f ⟨(byteOf n.val).toNat, h⟩ else (0, 0)) = f n :=
  byteNamed (by decide) n f (0, 0)

theorem Lines.shownErrors_word (l : Lines) : l.shownErrors.zeroExtend 32 =
    if l.mode = .quadrature then BitVec.ofNat 32 l.errors.toNat else 0 := by
  unfold Lines.shownErrors
  split
  · exact (BitVec.ofNat_toNat ..).symm
  · rfl

/-- Settles O55: every way a report comes about is one offer of the entry as it stands, and the checks run in order. -/
theorem dueEntriesOfferReports : Obligations.DueEntriesOfferReports := by
  refine ⟨fun s tag entry i ms e => ?_, fun s n e slot any => ?_⟩
  · intro r named changed ranged onChange items sent offered
    have offered_eq (q : Report) (carried : q.carried = r.carried) : offered q = s.offered i q := by
      have assembled : s.assembled q = sent q := by
        rw [State.assembled, timerOf_toNat]
        rfl
      have same : q.carried.map s.assembleItem = items := by
        rw [carried]
        rfl
      rw [State.offered, assembled, same]
      refine if_congr Iff.rfl ?_ rfl
      exact congrArg (fun queue => ({ s with reports := s.reports.set i (sent q), reportQueue := queue } : State))
        (refreshed_records _ (fun _ _ _ _ => rfl) (fun _ _ _ _ => rfl) s.reportQueue)
    have stands : offered r = s.offered i r := offered_eq r rfl
    have due : s.reportDue i = offered r := (s.reportDue_eq i).trans stands.symm
    refine ⟨fun opens beyond => execReportNow_beyond opens beyond, fun opens => ?now, fun running => ?period,
      fun running pending => ?interval, fun running idle => ?stop, due, fun range => ?check, rfl⟩
    case now =>
      rw [stands]
      exact execReportNow_entry opens
    case period =>
      have again := offered_eq { r with periodTimer := some r.periodMs.toNat } rfl
      exact (execReportPeriodExpiry_running running).trans (congrArg settled again.symm)
    case interval =>
      rw [stands]
      exact (execMinIntervalExpiry_running running).trans (if_pos pending)
    case stop => exact (execMinIntervalExpiry_running running).trans (if_neg (ne_true_of_eq_false idle))
    case check =>
      have called : s.ReportCalled e i ↔ onChange ∧ named e ∧ changed :=
        and_congr Iff.rfl (and_congr Report.names_iff (State.reportChanged_iff range))
      refine ⟨fun not => State.reportCheck_uncalled (called.not.mpr not), fun on name change free => ?_,
        fun on name change held => ?_⟩
      · exact (State.reportCheck_free (called.mpr ⟨on, name, change⟩) free).trans due
      · exact State.reportCheck_held (called.mpr ⟨on, name, change⟩) held
  · intro l bound level1 level2 reads
    have ofPort (kind : ItemKind) (f : PortNo → Byte × Word)
        (read : s.readItem { kind := kind, index := byteOf n.val } =
          if h : (byteOf n.val).toNat < 6 then f ⟨_, h⟩ else (0, 0)) : reads kind n.val (f n).1 (f n).2 :=
      read.trans (portNamed n f)
    refine ⟨State.readItem_conv rfl (toNat_byteOf (by omega)),
      ofPort .position (fun k => (flagByte (s.motorProfile k).isSome, s.motors[k].position)) rfl,
      ofPort .speed (fun k => (flagByte (s.motorProfile k).isSome, wordOfInt s.motors[k].speed)) rfl,
      ofPort .duty (fun k => (flagByte (s.motorProfile k).isSome, wordOfInt s.motors[k].dutyGrant)) rfl,
      ?mode, ?port, ?budget, rfl, ?lines, ?raw⟩
    case mode =>
      rw [BitVec.ofNat_toNat, ← codeIn_motorMode, ← codeIn_outcome]
      exact ofPort .mode (fun k => (codeIn MotorMode.list s.motors[k].mode,
        (codeIn Outcome.list s.motors[k].outcome).zeroExtend 32)) rfl
    case port =>
      rw [BitVec.ofNat_toNat, ← codeIn_portState]
      exact ofPort .port (fun k => (codeIn PortState.list s.ports[k].state, s.ports[k].cls.zeroExtend 32)) rfl
    case budget =>
      rw [← codeIn_budgetState]
      rfl
    case lines =>
      rw [← Lines.shownErrors_word]
      exact ofPort .lines (fun k => (flagByte s.lines[k].shown1 + 2 * flagByte s.lines[k].shown2,
        s.lines[k].shownErrors.zeroExtend 32)) rfl
    case raw =>
      rw [BitVec.ofNat_toNat, ← codeIn_slotState]
      exact byteNamed (by decide) slot (fun k => (codeIn SlotState.list s.scan.images[k].slotState,
        s.scan.images[k].raw.zeroExtend 32)) (0, 0)

end Sys2Proof.Machine
end

