-- ==== Sys2Proof/Proofs/ScanConversions.lean ====
section
/-! PROOFS. A scan conversion: the slot it completes (R51), the end of its pass (R49, R52) and the converter's next work
(R53). -/

namespace Sys2Proof.Machine

/-! ## What a source update does to the bus -/

section
variable {P : Bus → Prop} (queued : ∀ b c : Bus, b.Queued c → P b → P c)
include queued

theorem State.evaluateChain_bus (fuel : Nat) {s : State} (h : P s.bus) (i : Fin 32) (x : Int) :
    P (State.evaluateChain fuel s i x).1.bus := by
  induction fuel generalizing s i x with
  | zero => exact h
  | succ fuel ih =>
    have first : P (s.evaluated i x).bus := Bus.postAll_keeps P queued _ _ _ h
    rw [State.evaluateChain_succ]
    split
    · refine foldl_invariant (I := fun acc : State × List (Fin 32) => P acc.1.bus) (fun acc j kept => ?_) _ first
      exact ih kept j _
    · rw [State.noSourceBelow_keeps (·.bus) (fun _ _ => rfl)]
      exact first

theorem State.updateEntry_bus {acc : State × List (Fin 32)} (h : P acc.1.bus) (i : Fin 32) (x : Int) :
    P (State.updateEntry acc i x).1.bus := by
  unfold State.updateEntry
  split
  · rw [State.takeStatus_keeps (·.bus) (fun _ _ => rfl)]
    exact h
  · exact State.evaluateChain_bus queued 32 h i x

/-- R65: an update posts events, and does nothing else to the bus. -/
theorem State.sourceUpdate_bus {s : State} (h : P s.bus) (reads : ConvConfig → Option Int) :
    P (s.sourceUpdate reads).bus := by
  have visited : P (s.visited reads).1.bus := by
    refine foldl_invariant (I := fun acc : State × List (Fin 32) => P acc.1.bus) (fun acc i kept => ?_) _ h
    unfold State.visit
    split
    · exact kept
    · exact State.updateEntry_bus queued kept i _
  rw [s.sourceUpdate_eq, foldl_keeps (·.bus) State.reportChecks
    (State.reportChecks_keeps (·.bus) (fun _ _ => rfl) (fun _ _ => rfl))]
  exact visited

end

theorem Bus.Queued.dispatch_none {b c : Bus} (h : b.Queued c) (none : b.dispatch = none) : c.dispatch = .none := by
  have record := h.record
  rw [none] at record
  exact Option.map_eq_none_iff.mp record

/-- R65: an update that no entry reads changes nothing. -/
theorem State.sourceUpdate_unread {s : State} {reads : ConvConfig → Option Int}
    (unread : ∀ e : Fin 32, reads s.conv[e].cfg = none) : s.sourceUpdate reads = s := by
  have visited : s.visited reads = (s, []) := by
    refine foldl_eq_self fun e _ => ?_
    unfold State.visit
    rw [unread e]
  rw [State.sourceUpdate_eq, visited]
  rfl

/-! ## Slot states and the course of the scan (R47, R50, R53) -/

/-- R47: the same images but for the states of their slots. -/
def Restated (v w : Vector RawImage 16) : Prop := ∀ j : Fin 16, ∃ st, w[j] = { v[j] with slotState := st }

theorem Restated.refl (v : Vector RawImage 16) : Restated v v := fun j => ⟨v[j].slotState, rfl⟩

theorem Restated.trans {u v w : Vector RawImage 16} (h : Restated u v) (k : Restated v w) : Restated u w := by
  intro j
  obtain ⟨_, first⟩ := h j
  obtain ⟨st, second⟩ := k j
  exact ⟨st, by rw [second, first]⟩

section
variable (c : Scan)

/-- R47: halting sets the states only. -/
theorem Scan.halt_eq : c.halt = { c with images := c.idled } := rfl

theorem Scan.idled_image (j : Fin 16) : c.idled[j] = { c.images[j] with slotState := .idle } := Vector.getElem_ofFn ..

theorem Scan.idled_restated : Restated c.images c.idled := fun j => ⟨_, c.idled_image j⟩

theorem Scan.setSlotState_restated (i : Fin 16) (st : SlotState) :
    Restated c.images (c.setSlotState i st).images := by
  intro j
  rw [Scan.setSlotState_image]
  split
  · exact ⟨st, rfl⟩
  · exact ⟨c.images[j].slotState, rfl⟩

theorem Scan.started_image (first last j : Fin 16) :
    (c.started first last).images[j] = { c.images[j] with slotState := startedState first last j } :=
  Vector.getElem_ofFn ..

theorem Scan.started_frame (first last : Fin 16) : (c.started first last).slots = c.slots ∧
    (c.started first last).mode = c.mode ∧ (c.started first last).cut = c.cut := by
  unfold Scan.started
  exact ⟨rfl, rfl, rfl⟩

/-- R53: the choice of work leaves the slots, mode and cut, and the images but for their states. -/
theorem Scan.choose_frame (start stop : Byte) : (c.choose start stop).slots = c.slots ∧
    (c.choose start stop).mode = c.mode ∧ (c.choose start stop).cut = c.cut ∧
    Restated c.images (c.choose start stop).images := by
  unfold Scan.choose
  split
  · exact ⟨rfl, rfl, rfl, Restated.refl c.images⟩
  · split
    · next p _ =>
      rw [Scan.beginSlot_images (c := c) (i := p.next) rfl]
      exact ⟨rfl, rfl, rfl, c.setSlotState_restated p.next .converting⟩
    · split
      · rw [Scan.startPass_eq]
        obtain ⟨slots, mode, cut⟩ := c.started_frame (slotNo start) (lastSlot start stop)
        exact ⟨slots, mode, cut, fun j => ⟨_, c.started_image _ _ j⟩⟩
      · exact ⟨rfl, rfl, rfl, Restated.refl c.images⟩

/-- R53: with no pass running or due, at most an ID request is served. -/
theorem Scan.choose_rest (start stop : Byte) (pass : c.pass = none) (due : c.passDue = false) :
    ∃ work idReq, c.choose start stop = { c with work := work, idReq := idReq } := by
  unfold Scan.choose
  cases c.firstRequest with
  | some n => exact ⟨_, _, rfl⟩
  | none =>
    rw [pass, due]
    exact ⟨_, _, rfl⟩

end

/-! ## A completed slot (R51) -/

section
variable (c : Scan) (i : Fin 16) (input : Fin 8) (k sum : Nat) (discard : Bool) (stamp : Half)

/-- R51: a completed slot changes the images only. -/
theorem Scan.completeSlot_frame : c.completeSlot i input k sum discard stamp =
    { c with images := (c.completeSlot i input k sum discard stamp).images } := by
  unfold Scan.completeSlot
  dsimp only
  split <;> rfl

theorem Scan.completeSlot_done : (c.completeSlot i input k sum discard stamp).images[i].slotState = .done := by
  unfold Scan.completeSlot
  dsimp only
  split
  · rw [Scan.setSlotState_image, if_pos rfl]
  · simp

/-- R46: a discarded result leaves the images but for a state. -/
theorem Scan.completeSlot_discarded : Restated c.images (c.completeSlot i input k sum true stamp).images :=
  c.setSlotState_restated i .done

/-- R51: the image of a completed slot. -/
theorem Scan.completeSlot_image : (c.completeSlot i input k sum false stamp).images[i] =
    { raw := BitVec.ofNat 16 (sum / k), conversions := k, sequence := c.images[i].sequence + 1, stamp := stamp,
      input := input, slotState := .done } := by
  simp [Scan.completeSlot]

theorem Scan.completeSlot_other {j : Fin 16} (other : j ≠ i) :
    ∃ st, (c.completeSlot i input k sum discard stamp).images[j] = { c.images[j] with slotState := st } := by
  cases discard with
  | true => exact c.completeSlot_discarded i input k sum stamp j
  | false =>
    have apart : i.val ≠ j.val := fun e => other (Fin.ext e.symm)
    exact ⟨c.images[j].slotState, by simp [Scan.completeSlot, apart]⟩

end

/-! ## The end of a pass (R49, R51, R52) -/

/-- R49, R52: the scan after slot i has completed, and whether SCAN_DONE is posted. -/
def Scan.passed (c : Scan) (i : Fin 16) : Scan × Bool := if c.cut then (c.endCut, false) else c.afterSlot i

/-- R49, R52: the pass ends with slot i. -/
def Scan.Ends (c : Scan) (i : Fin 16) : Prop :=
  c.cut = true ∨ ∃ q : Fin 16, q ≤ i ∧ c.pass.map ScanPass.last = some q

/-- R49, R52: a pass is due once this one has ended. -/
def Scan.Due (c : Scan) : Prop := c.passDue = true ∨ (c.cut = false ∧ c.mode = .continuous)

/-- The scan after the last slot of a pass: what the converter's choice goes by. -/
structure Scan.Ended (c d : Scan) : Prop where
  pass : d.pass = none
  cut  : d.cut = false
  due  : d.passDue = true ↔ c.Due

section
variable {c : Scan} {i : Fin 16}

theorem Scan.passed_cut (cut : c.cut = true) : c.passed i = (c.endCut, false) := if_pos cut

theorem Scan.passed_none (uncut : c.cut = false) (pass : c.pass = none) : c.passed i = (c, false) := by
  rw [Scan.passed, if_neg (ne_true_of_eq_false uncut), Scan.afterSlot, pass]

theorem Scan.passed_on (uncut : c.cut = false) {p : ScanPass} (pass : c.pass = some p) (more : i < p.last) :
    c.passed i = ({ c with pass := some { p with next := i + 1 } }, false) := by
  rw [Scan.passed, if_neg (ne_true_of_eq_false uncut), Scan.afterSlot, pass]
  exact if_pos more

/-- R52: the last slot of a pass, by the mode. -/
theorem Scan.passed_last (uncut : c.cut = false) {p : ScanPass} (pass : c.pass = some p) (last : p.last ≤ i) :
    c.passed i = match c.mode with
      | .single => ({ c with pass := none, mode := .off }.halt, true)
      | .continuous => ({ c with pass := none, passDue := true }, false)
      | .off => ({ c with pass := none }.halt, false) := by
  rw [Scan.passed, if_neg (ne_true_of_eq_false uncut), Scan.afterSlot, pass]
  exact (if_neg (not_lt.mpr last)).trans rfl

theorem Scan.passed_single (uncut : c.cut = false) {p : ScanPass} (pass : c.pass = some p) (last : p.last ≤ i)
    (mode : c.mode = .single) : c.passed i = ({ c with pass := none, mode := .off, images := c.idled }, true) := by
  rw [Scan.passed_last uncut pass last, mode]
  exact congrArg (·, true) (Scan.halt_eq { c with pass := none, mode := .off })

theorem Scan.passed_continuous (uncut : c.cut = false) {p : ScanPass} (pass : c.pass = some p) (last : p.last ≤ i)
    (mode : c.mode = .continuous) : c.passed i = ({ c with pass := none, passDue := true }, false) := by
  rw [Scan.passed_last uncut pass last, mode]

theorem Scan.passed_off (uncut : c.cut = false) {p : ScanPass} (pass : c.pass = some p) (last : p.last ≤ i)
    (mode : c.mode = .off) : c.passed i = ({ c with pass := none, images := c.idled }, false) := by
  refine (Scan.passed_last uncut pass last).trans ?_
  split
  · next single => exact absurd (mode.symm.trans single) nofun
  · next continuous => exact absurd (mode.symm.trans continuous) nofun
  · exact congrArg (·, false) (Scan.halt_eq { c with pass := none })

/-- R49: STOP leaves every slot of a cut pass IDLE. -/
theorem Scan.endCut_off (off : c.mode = .off) : c.endCut = { c with pass := none, cut := false, images := c.idled } :=
  (if_pos off).trans (Scan.halt_eq { c with pass := none, cut := false })

theorem Scan.endCut_on (on : c.mode ≠ .off) : c.endCut = { c with pass := none, cut := false } := if_neg on

/-- R49, R52: the end of a pass leaves the slots, the requests and the images but for their states. -/
theorem Scan.passed_frame : ∃ images mode passDue pass cut, Restated c.images images ∧ (c.passed i).1 =
    { c with images := images, mode := mode, passDue := passDue, pass := pass, cut := cut } := by
  cases cut : c.cut with
  | true =>
    rw [Scan.passed_cut cut]
    by_cases off : c.mode = .off
    · rw [Scan.endCut_off off]
      exact ⟨_, _, _, _, _, c.idled_restated, rfl⟩
    · rw [Scan.endCut_on off]
      exact ⟨_, _, _, _, _, Restated.refl c.images, rfl⟩
  | false =>
    cases pass : c.pass with
    | none =>
      rw [Scan.passed_none cut pass]
      exact ⟨_, _, _, _, _, Restated.refl c.images, rfl⟩
    | some p =>
      by_cases more : i < p.last
      · rw [Scan.passed_on cut pass more]
        exact ⟨_, _, _, _, _, Restated.refl c.images, rfl⟩
      · have last := not_lt.mp more
        cases mode : c.mode with
        | single =>
          rw [Scan.passed_single cut pass last mode]
          exact ⟨_, _, _, _, _, c.idled_restated, rfl⟩
        | continuous =>
          rw [Scan.passed_continuous cut pass last mode]
          exact ⟨_, _, _, _, _, Restated.refl c.images, rfl⟩
        | off =>
          rw [Scan.passed_off cut pass last mode]
          exact ⟨_, _, _, _, _, c.idled_restated, rfl⟩

theorem Scan.passed_idReq : (c.passed i).1.idReq = c.idReq := by
  obtain ⟨_, _, _, _, _, _, frame⟩ := c.passed_frame (i := i)
  rw [frame]

theorem Scan.passed_slots : (c.passed i).1.slots = c.slots := by
  obtain ⟨_, _, _, _, _, _, frame⟩ := c.passed_frame (i := i)
  rw [frame]

/-- R49, R52: after the last slot of a pass. -/
theorem Scan.passed_ended (ends : c.Ends i) : c.Ended (c.passed i).1 := by
  cases cut : c.cut with
  | true =>
    have due : c.passDue = true ↔ c.Due :=
      ⟨Or.inl, fun due => due.resolve_right fun full => ne_true_of_eq_false full.1 cut⟩
    rw [Scan.passed_cut cut]
    by_cases off : c.mode = .off
    · rw [Scan.endCut_off off]
      exact ⟨rfl, rfl, due⟩
    · rw [Scan.endCut_on off]
      exact ⟨rfl, rfl, due⟩
  | false =>
    obtain ⟨q, last, named⟩ := ends.resolve_left (ne_true_of_eq_false cut)
    obtain ⟨p, pass, rfl⟩ := Option.map_eq_some_iff.mp named
    have due (other : c.mode ≠ .continuous) : c.passDue = true ↔ c.Due :=
      ⟨Or.inl, fun due => due.resolve_right fun full => other full.2⟩
    cases mode : c.mode with
    | single =>
      rw [Scan.passed_single cut pass last mode]
      exact ⟨rfl, cut, due (by rw [mode]; exact nofun)⟩
    | continuous =>
      rw [Scan.passed_continuous cut pass last mode]
      exact ⟨rfl, cut, fun _ => Or.inr ⟨cut, mode⟩, fun _ => rfl⟩
    | off =>
      rw [Scan.passed_off cut pass last mode]
      exact ⟨rfl, cut, due (by rw [mode]; exact nofun)⟩

/-- R52: SCAN_DONE belongs to the last slot of a SINGLE pass that is not cut. -/
theorem Scan.passed_done : (c.passed i).2 = true ↔
    c.cut = false ∧ c.mode = .single ∧ ∃ q : Fin 16, q ≤ i ∧ c.pass.map ScanPass.last = some q := by
  cases cut : c.cut with
  | true =>
    rw [Scan.passed_cut cut]
    exact ⟨nofun, nofun⟩
  | false =>
    cases pass : c.pass with
    | none =>
      rw [Scan.passed_none cut pass]
      exact ⟨nofun, nofun⟩
    | some p =>
      by_cases more : i < p.last
      · rw [Scan.passed_on cut pass more]
        refine ⟨nofun, fun ⟨_, _, q, last, named⟩ => ?_⟩
        obtain rfl : p.last = q := Option.some.inj named
        exact absurd more (not_lt.mpr last)
      · have last := not_lt.mp more
        cases mode : c.mode with
        | single =>
          rw [Scan.passed_single cut pass last mode]
          exact ⟨fun _ => ⟨rfl, rfl, p.last, last, rfl⟩, fun _ => rfl⟩
        | continuous =>
          rw [Scan.passed_continuous cut pass last mode]
          exact ⟨nofun, nofun⟩
        | off =>
          rw [Scan.passed_off cut pass last mode]
          exact ⟨nofun, nofun⟩

end

/-! ## The converter's next work (R53) -/

/-- R49–R53: the scan once slot i has completed, its pass has gone on or ended, and the converter has chosen. -/
def Scan.resumed (c : Scan) (i : Fin 16) (start stop : Byte) : Scan :=
  Scan.choose { (c.passed i).1 with work := .idle } start stop

section
variable {c : Scan} {i : Fin 16} {start stop : Byte}

theorem Scan.resumed_frame : (c.resumed i start stop).slots = c.slots ∧
    Restated c.images (c.resumed i start stop).images := by
  obtain ⟨images, _, _, _, _, restated, frame⟩ := c.passed_frame (i := i)
  obtain ⟨slots, -, -, chosen⟩ := Scan.choose_frame { (c.passed i).1 with work := .idle } start stop
  rw [frame] at slots chosen
  rw [Scan.resumed, frame]
  exact ⟨slots, restated.trans chosen⟩

/-- R53: the choice keeps mode and cut as the pass has left them. -/
theorem Scan.resumed_mode : (c.resumed i start stop).mode = (c.passed i).1.mode ∧
    (c.resumed i start stop).cut = (c.passed i).1.cut := by
  obtain ⟨-, mode, cut, -⟩ := Scan.choose_frame { (c.passed i).1 with work := .idle } start stop
  exact ⟨mode, cut⟩

/-- R49: after a cut pass the mode stands, and after a STOP the scan halts. -/
theorem Scan.resumed_cut (cut : c.cut = true) : (c.resumed i start stop).mode = c.mode ∧
    (c.resumed i start stop).cut = false ∧
    (c.mode = .off → c.passDue = false → (c.resumed i start stop).pass = none ∧
      (∀ j : Fin 16, (c.resumed i start stop).images[j].slotState = .idle) ∧
      ((∀ m : PortNo, c.idReq[m] = false) → (c.resumed i start stop).work = .idle)) := by
  have passed : (c.passed i).1 = c.endCut := congrArg Prod.fst (Scan.passed_cut cut)
  obtain ⟨mode, uncut⟩ := c.resumed_mode (i := i) (start := start) (stop := stop)
  rw [passed] at mode uncut
  have ended : c.endCut.mode = c.mode ∧ c.endCut.cut = false := by
    by_cases off : c.mode = .off
    · rw [Scan.endCut_off off]
      exact ⟨rfl, rfl⟩
    · rw [Scan.endCut_on off]
      exact ⟨rfl, rfl⟩
  refine ⟨mode.trans ended.1, uncut.trans ended.2, fun off due => ?_⟩
  · let d : Scan := { c with pass := none, cut := false, images := c.idled, work := .idle }
    have resumed : c.resumed i start stop = d.choose start stop := by
      rw [Scan.resumed, passed, Scan.endCut_off off]
    have halted (j : Fin 16) : d.images[j].slotState = .idle := congrArg RawImage.slotState (c.idled_image j)
    obtain ⟨work, idReq, rest⟩ := d.choose_rest start stop rfl due
    rw [resumed]
    refine ⟨?_, fun j => ?_, fun none => ?_⟩
    · rw [rest]
    · rw [rest]
      exact halted j
    · rw [Scan.choose_idle (c := d) none rfl due]

/-- R51: a pass that goes on begins its next slot. -/
theorem Scan.resumed_on (uncut : c.cut = false) {p : ScanPass} (pass : c.pass = some p) (more : i < p.last)
    (none : ∀ m : PortNo, c.idReq[m] = false) : (c.resumed i start stop).pass = some { p with next := i + 1 } ∧
    (c.resumed i start stop).work = .slot (i + 1) c.slots[i + 1].input c.slots[i + 1].average 0 0 false ∧
    (c.resumed i start stop).images[i].slotState = c.images[i].slotState ∧
    (c.resumed i start stop).images[i + 1].slotState = .converting := by
  let d : Scan := { c with pass := some { p with next := i + 1 }, work := .idle }
  have resumed : c.resumed i start stop = d.beginSlot (i + 1) := by
    rw [Scan.resumed, Scan.passed_on uncut pass more]
    exact Scan.choose_pass (c := d) none rfl
  have apart : ∀ j : Fin 16, j + 1 ≠ j := by decide
  have here := d.setSlotState_image (i + 1) i .converting
  have next := d.setSlotState_image (i + 1) (i + 1) .converting
  rw [if_neg (apart i)] at here
  rw [if_pos rfl] at next
  rw [resumed]
  exact ⟨rfl, rfl, congrArg RawImage.slotState here, congrArg RawImage.slotState next⟩

/-- R52: after the last slot of a SINGLE pass the scan is OFF. -/
theorem Scan.resumed_single (uncut : c.cut = false) {p : ScanPass} (pass : c.pass = some p) (last : p.last ≤ i)
    (mode : c.mode = .single) (due : c.passDue = false) :
    (c.resumed i start stop).mode = .off ∧ (c.resumed i start stop).pass = none := by
  let d : Scan := { c with pass := none, mode := .off, images := c.idled, work := .idle }
  have resumed : c.resumed i start stop = d.choose start stop := by
    rw [Scan.resumed, Scan.passed_single uncut pass last mode]
  obtain ⟨work, idReq, rest⟩ := d.choose_rest start stop rfl due
  rw [resumed, rest]
  exact ⟨rfl, rfl⟩

theorem Scan.resumed_continuous (uncut : c.cut = false) {p : ScanPass} (pass : c.pass = some p) (last : p.last ≤ i)
    (mode : c.mode = .continuous) : (c.resumed i start stop).mode = .continuous := by
  rw [c.resumed_mode.1, Scan.passed_continuous uncut pass last mode]
  exact mode

section
variable (ends : c.Ends i)
include ends

/-- R53: after a pass the lowest ID request comes first. -/
theorem Scan.resumed_ident {n : PortNo} (requested : c.idReq[n] = true)
    (lowest : ∀ k : PortNo, k < n → c.idReq[k] = false) : (c.resumed i start stop).work = .ident n false ∧
    (c.resumed i start stop).idReq = c.idReq.set n false ∧ (c.resumed i start stop).pass = none ∧
    (c.Due → (c.resumed i start stop).passDue = true) := by
  have ended := Scan.passed_ended ends
  have idReq := c.passed_idReq (i := i)
  have chosen := Scan.choose_ident (c := { (c.passed i).1 with work := .idle }) (start := start) (stop := stop) (n := n)
    (by rw [idReq]; exact requested) (by rw [idReq]; exact lowest)
  rw [Scan.resumed, chosen]
  exact ⟨rfl, congrArg (·.set n false) idReq, ended.pass, ended.due.mpr⟩

/-- R50, R53: after a pass the one that is due starts at scan_start. -/
theorem Scan.resumed_due (none : ∀ n : PortNo, c.idReq[n] = false) (due : c.Due) :
    let first := slotNo start
    let d := c.resumed i start stop
    d.passDue = false ∧ d.cut = false ∧ d.pass = some { next := first, last := lastSlot start stop } ∧
      d.work = .slot first c.slots[first].input c.slots[first].average 0 0 false ∧
      ∀ j : Fin 16, d.images[j].slotState = startedState first (lastSlot start stop) j := by
  have ended := Scan.passed_ended ends
  have idReq := c.passed_idReq (i := i)
  have slots : ({ (c.passed i).1 with work := .idle } : Scan).slots = c.slots := c.passed_slots
  have cut : ({ (c.passed i).1 with work := .idle } : Scan).cut = false := ended.cut
  have resumed : c.resumed i start stop = Scan.started { (c.passed i).1 with work := .idle } (slotNo start)
      (lastSlot start stop) := by
    rw [Scan.resumed, ← Scan.startPass_eq]
    exact Scan.choose_due (c := { (c.passed i).1 with work := .idle }) (by rw [idReq]; exact none) ended.pass
      (ended.due.mpr due)
  generalize ({ (c.passed i).1 with work := .idle } : Scan) = d at slots cut resumed
  obtain ⟨-, -, cut'⟩ := d.started_frame (slotNo start) (lastSlot start stop)
  dsimp only
  rw [resumed, ← slots]
  exact ⟨rfl, cut'.trans cut, rfl, rfl, fun j => congrArg RawImage.slotState (d.started_image _ _ j)⟩

theorem Scan.resumed_idle (none : ∀ n : PortNo, c.idReq[n] = false) (notDue : ¬ c.Due) :
    (c.resumed i start stop).work = .idle ∧ (c.resumed i start stop).pass = .none := by
  have ended := Scan.passed_ended ends
  have idReq := c.passed_idReq (i := i)
  rw [Scan.resumed, Scan.choose_idle (c := { (c.passed i).1 with work := .idle }) (by rw [idReq]; exact none) ended.pass
    (Bool.eq_false_of_not_eq_true (ended.due.not.mpr notDue))]
  exact ⟨rfl, ended.pass⟩

end

end

/-! ## The state once a slot has completed -/

/-- R51, R52: slot i has completed with k conversions and been handed on, and its pass has gone on or ended. -/
def State.slotEnded (s : State) (i : Fin 16) (input : Fin 8) (k sum : Nat) (discard : Bool) : State :=
  let u := s.completeSlot i input k sum discard
  let w := { u with scan := (u.scan.passed i).1 }
  if (u.scan.passed i).2 then w.post .scanDone 0 0 else w

section
variable (s : State) (i : Fin 16) (input : Fin 8) (k sum : Nat) (discard : Bool)

theorem State.completeSlot_scan : (s.completeSlot i input k sum discard).scan =
    s.scan.completeSlot i input k sum discard s.bus.stamp := by
  unfold State.completeSlot
  dsimp only
  split
  · rfl
  · rw [State.slotUpdate_keeps (·.scan) (fun _ _ => rfl) (fun _ _ => rfl) (fun _ _ => rfl) (fun _ _ => rfl)]

theorem State.slotEnded_conv :
    (s.slotEnded i input k sum discard).conv = (s.completeSlot i input k sum discard).conv := by
  unfold State.slotEnded
  dsimp only
  split <;> rfl

theorem State.slotEnded_scan : (s.slotEnded i input k sum discard).scan =
    (Scan.passed (s.scan.completeSlot i input k sum discard s.bus.stamp) i).1 := by
  rw [← State.completeSlot_scan]
  unfold State.slotEnded
  dsimp only
  split <;> rfl

theorem State.slotEnded_bus : (s.slotEnded i input k sum discard).bus =
    if (Scan.passed (s.scan.completeSlot i input k sum discard s.bus.stamp) i).2 then
      (s.completeSlot i input k sum discard).bus.post .scanDone 0 0
    else (s.completeSlot i input k sum discard).bus := by
  rw [← State.completeSlot_scan]
  unfold State.slotEnded
  dsimp only
  split <;> rfl

theorem State.slotEnded_settings : (s.slotEnded i input k sum discard).settings = s.settings := by
  have settings : (s.completeSlot i input k sum discard).settings = s.settings :=
    State.completeSlot_keeps (·.settings) (fun _ _ => rfl) (fun _ _ => rfl) (fun _ _ => rfl) (fun _ _ => rfl)
      (fun _ _ => rfl) s i input k sum discard
  rw [← settings]
  unfold State.slotEnded
  dsimp only
  split <;> rfl

end

/-- R51: a conversion that ends its slot, in full or short. -/
theorem State.scanConversion_ends {s : State} {n done : Nat} (ends : s.scan.cut = true ∨ n ≤ done + 1)
    (code : BitVec 12) (i : Fin 16) (input : Fin 8) (sum : Nat) (discard : Bool) :
    s.scanConversion code i input n done sum discard =
      (s.slotEnded i input (done + 1) (sum + code.toNat) discard).converterNext := by
  have cut : (s.completeSlot i input (done + 1) (sum + code.toNat) discard).scan.cut = s.scan.cut := by
    rw [State.completeSlot_scan, Scan.completeSlot_frame]
  unfold State.scanConversion State.slotEnded Scan.passed
  dsimp only
  rw [cut]
  by_cases short : s.scan.cut = true
  · rw [if_pos short, if_pos short]
    rfl
  · rw [if_neg short, if_neg short, if_neg (not_lt.mpr (ends.resolve_left short))]

/-! ## The hand-off and the events (R51, R52) -/

section
variable {s : State} {i : Fin 16} {input : Fin 8} {k sum : Nat}

/-- The state in which a result that is not discarded goes to the conversion table. -/
def State.slotFilled (s : State) (i : Fin 16) (input : Fin 8) (k sum : Nat) : State :=
  { s with scan := s.scan.completeSlot i input k sum false s.bus.stamp }

theorem State.completeSlot_kept : s.completeSlot i input k sum false = (s.slotFilled i input k sum).slotUpdate i := rfl

/-- R46: a discarded result goes nowhere. -/
theorem State.completeSlot_discarded : (s.completeSlot i input k sum true).conv = s.conv ∧
    (s.completeSlot i input k sum true).bus = s.bus := ⟨rfl, rfl⟩

/-- Section 4.2: a slot lies where its input lies. -/
theorem State.sourcePort_slot {c : ConvConfig} (kind : c.sourceKind = .slot) (index : c.sourceIndex = byteOf i.val) :
    s.sourcePort c = inputPort s.scan.slots[i].input := by
  unfold State.sourcePort
  rw [kind, index]
  exact byteNamed (by decide) i (fun k => inputPort s.scan.slots[k].input) none

/-- R51, R69: a RAW entry over a slot whose input lies on no port shows the mean. -/
theorem State.completeSlot_shows {e : Fin 32} (plain : s.conv[e].cfg.Plain) (kind : s.conv[e].cfg.sourceKind = .slot)
    (index : s.conv[e].cfg.sourceIndex = byteOf i.val) (portless : 6 ≤ s.scan.slots[i].input.val) :
    s.conv[e].Shows (s.completeSlot i input k sum false).conv[e]
      (BitVec.ofNat 32 (BitVec.ofNat 16 (sum / k)).toNat) s.bus.stamp := by
  let v := s.slotFilled i input k sum
  have named : s.conv[e].cfg.sourceIndex.toNat = i.val := index ▸ toNat_byteOf (by omega)
  have reached : readsIndex .slot i.val v.scan.images[i].raw.toNat v.conv[e].cfg =
      some (v.scan.images[i].raw.toNat : Int) := if_pos ⟨kind, named⟩
  have slots : v.scan.slots = s.scan.slots :=
    (congrArg Scan.slots (s.scan.completeSlot_frame i input k sum false s.bus.stamp)).trans rfl
  have port : v.sourcePort s.conv[e].cfg = none := by
    rw [State.sourcePort_slot (s := v) (i := i) kind index, slots]
    exact dif_neg (not_lt.mpr portless)
  have free : v.sourceCheck s.conv[e].cfg = none := by
    unfold State.sourceCheck
    rw [port]
  have shown := State.sourceUpdate_shows (s := v) (i := e) plain (by
    rw [show v.conv[e].cfg.sourceKind = .slot from kind]; exact nofun) reached free
  have value : wordOfInt (saturate32 v.scan.images[i].raw.toNat) =
      BitVec.ofNat 32 (BitVec.ofNat 16 (sum / k)).toNat := by
    have raw : v.scan.images[i].raw = BitVec.ofNat 16 (sum / k) := congrArg RawImage.raw (Scan.completeSlot_image ..)
    rw [wordOfInt_saturate32, raw, Nat.min_eq_right (by omega)]
  rw [value] at shown
  exact shown

/-- R51: without an entry over the slot, or with the result discarded, nothing is posted. -/
theorem State.completeSlot_quiet {discard : Bool} (quiet : discard = true ∨
    ∀ e : Fin 32, s.conv[e].cfg.sourceKind = .slot → s.conv[e].cfg.sourceIndex ≠ byteOf i.val) :
    (s.completeSlot i input k sum discard).bus = s.bus := by
  cases discard with
  | true => exact State.completeSlot_discarded.2
  | false =>
    have unnamed := quiet.resolve_left Bool.false_ne_true
    have unread (e : Fin 32) : readsIndex .slot i.val (s.slotFilled i input k sum).scan.images[i].raw.toNat
        s.conv[e].cfg = none := by
      refine if_neg fun both => unnamed e both.1 (BitVec.eq_of_toNat_eq ?_)
      rw [both.2, toNat_byteOf (by omega)]
    rw [State.completeSlot_kept, State.slotUpdate]
    exact (congrArg State.bus (State.sourceUpdate_unread (s := s.slotFilled i input k sum) unread)).trans rfl

/-- R51: the hand-off posts events, and does nothing else to the bus. -/
theorem State.completeSlot_bus {P : Bus → Prop} (queued : ∀ b c : Bus, b.Queued c → P b → P c) (h : P s.bus)
    (discard : Bool) : P (s.completeSlot i input k sum discard).bus := by
  cases discard with
  | true => exact h
  | false => exact State.sourceUpdate_bus queued (s := s.slotFilled i input k sum) h _

/-- R52: the event of a SINGLE pass. -/
def scanDone (stamp : Half) : Event :=
  { kind := .scanDone, index := 0, detail := 0, depth := 0, stamp := stamp, directed := none }

/-- R150: an event that finds room is the last of the queue. -/
theorem Bus.post_last {b : Bus} (idle : b.dispatch = none) (room : (b.post .scanDone 0 0).events.length < 16) :
    (b.post .scanDone 0 0).events.getLast? = some (scanDone b.stamp) := by
  have before : b.events.length < Config.eventQueue := by
    rcases (b.postRecord_queued .scanDone 0 0 none).events with same | ⟨_, -, before⟩
    · have kept : (b.post .scanDone 0 0).events = b.events := same
      exact kept ▸ room
    · exact before
  rw [Bus.post_idle b .scanDone 0 0 idle before]
  exact List.getLast?_concat

/-- R52: SCAN_DONE stands after what the hand-off posts (log 26). -/
theorem State.slotEnded_last {discard : Bool}
    (finishes : (Scan.passed (s.scan.completeSlot i input k sum discard s.bus.stamp) i).2 = true)
    (idle : s.bus.dispatch = none) (room : (s.slotEnded i input k sum discard).bus.events.length < 16) :
    (s.slotEnded i input k sum discard).bus.events.getLast? = some (scanDone s.bus.stamp) := by
  have idle' : (s.completeSlot i input k sum discard).bus.dispatch = none :=
    State.completeSlot_bus (P := fun b => b.dispatch = none) (fun _ _ h => h.dispatch_none) idle discard
  have stamp : (s.completeSlot i input k sum discard).bus.stamp = s.bus.stamp :=
    State.completeSlot_bus (P := fun b => b.stamp = s.bus.stamp) (fun _ _ h same => h.stamp.trans same) rfl discard
  rw [State.slotEnded_bus, if_pos finishes] at room ⊢
  rw [Bus.post_last idle' room, stamp]

/-- R52: with nothing handed on, SCAN_DONE is all that is posted. -/
theorem State.slotEnded_quiet {discard : Bool} (quiet : discard = true ∨
    ∀ e : Fin 32, s.conv[e].cfg.sourceKind = .slot → s.conv[e].cfg.sourceIndex ≠ byteOf i.val)
    (idle : s.bus.dispatch = none) (room : s.bus.events.length < 16) :
    (s.slotEnded i input k sum discard).bus.events = s.bus.events ++
      if (Scan.passed (s.scan.completeSlot i input k sum discard s.bus.stamp) i).2 then [scanDone s.bus.stamp]
      else [] := by
  rw [State.slotEnded_bus, State.completeSlot_quiet quiet]
  split
  · rw [Bus.post_idle s.bus .scanDone 0 0 idle room]
    rfl
  · exact (List.append_nil _).symm

/-- R49–R53: the scan that the converter leaves. -/
theorem State.slotEnded_resumed (discard : Bool) : (s.slotEnded i input k sum discard).converterNext.scan =
    Scan.resumed { s.scan with images := (s.scan.completeSlot i input k sum discard s.bus.stamp).images } i
      s.settings.scanStart s.settings.scanStop := by
  rw [Scan.resumed, ← Scan.completeSlot_frame, ← State.slotEnded_scan,
    ← State.slotEnded_settings s i input k sum discard]
  rfl

/-- What a completed slot leaves. -/
theorem State.slotEnded_keeps {β : Type} (F : State → β) (hBus : IgnoresBus F) (hScan : IgnoresScan F)
    (hConv : IgnoresConv F) (hReports : IgnoresReports F) (hReportQueue : IgnoresReportQueue F) (discard : Bool) :
    F (s.slotEnded i input k sum discard).converterNext = F s := by
  rw [State.converterNext_keeps F hScan]
  unfold State.slotEnded
  dsimp only
  split
  · rw [State.post_keeps F hBus, hScan, State.completeSlot_keeps F hBus hScan hConv hReports hReportQueue]
  · rw [hScan, State.completeSlot_keeps F hBus hScan hConv hReports hReportQueue]

end

/-! ## The row -/

section
variable {s : State} {code : BitVec 12} {i : Fin 16} {input : Fin 8} {n done sum : Nat} {discard : Bool}

theorem execScanConversionDone_slot (work : s.scan.work = .slot i input n done sum discard) :
    execScanConversionDone code s = settled (s.scanConversion code i input n done sum discard) := by
  rw [execScanConversionDone, work]

/-- R51: a slot that is not complete goes on. -/
theorem State.scanConversion_on (uncut : s.scan.cut = false) (more : done + 1 < n) :
    s.scanConversion code i input n done sum discard =
      { s with scan := { s.scan with work := .slot i input n (done + 1) (sum + code.toNat) discard } } := by
  unfold State.scanConversion
  exact (if_neg (ne_true_of_eq_false uncut)).trans (if_pos more)

end

/-- Settles O42: the slot fills its image and is handed on, its pass goes on or ends, and the converter chooses. -/
theorem scanConversionCompletes : Obligations.ScanConversionCompletes := by
  intro s code i input n done sum discard work k total
  have row := execScanConversionDone_slot (code := code) work
  refine ⟨fun uncut more => row.trans (congrArg settled (State.scanConversion_on uncut more)), fun ends => ?_⟩
  refine ⟨_, row.trans (congrArg settled (State.scanConversion_ends ends code i input sum discard)), ?_⟩
  let c : Scan := { s.scan with images := (s.scan.completeSlot i input k total discard s.bus.stamp).images }
  let w := s.slotEnded i input k total discard
  have scan : w.converterNext.transmitNext.scan = c.resumed i s.settings.scanStart s.settings.scanStop :=
    (State.transmitNext_scan _).trans (State.slotEnded_resumed discard)
  have conv : w.converterNext.transmitNext.conv = (s.completeSlot i input k total discard).conv :=
    (State.transmitNext_conv _).trans (s.slotEnded_conv i input k total discard)
  have events : w.converterNext.transmitNext.bus.events = w.bus.events := State.transmitNext_bus_events _
  have linkKept : s.linkKept w.converterNext.transmitNext := State.linkKept_transmitNext
    (State.slotEnded_keeps (·.link) (fun _ _ => rfl) (fun _ _ => rfl) (fun _ _ => rfl) (fun _ _ => rfl)
      (fun _ _ => rfl) discard)
  have kept : s.keepsBut w.converterNext.transmitNext [.link, .scan, .conv, .bus, .reports, .reportQueue] :=
    State.keepsBut_transmitNext (by decide) (by decide) (by decide)
      (State.slotEnded_keeps _ (State.masked_bus (by decide)) (State.masked_scan (by decide))
        (State.masked_conv (by decide)) (State.masked_reports (by decide)) (State.masked_reportQueue (by decide))
        discard)
  generalize w.converterNext.transmitNext = t at scan conv events linkKept kept ⊢
  obtain ⟨slots, restated⟩ := c.resumed_frame (i := i) (start := s.settings.scanStart) (stop := s.settings.scanStop)
  have finishes : (c.passed i).2 = true ↔ s.scan.cut = false ∧ s.scan.mode = .single ∧
    ∃ q : Fin 16, q ≤ i ∧ s.scan.pass.map ScanPass.last = some q := Scan.passed_done
  have completed : (s.scan.completeSlot i input k total discard s.bus.stamp).passed i = c.passed i :=
    congrArg (Scan.passed · i) (Scan.completeSlot_frame ..)
  beta_reduce
  rw [conv, events, scan]
  refine ⟨?image, ?others, ?shows, ?discarded, fun cut => Scan.resumed_cut (c := c) cut, ?pass, ?posts, ?ends, slots,
    linkKept, kept⟩
  case image =>
    rintro rfl
    have filled := s.scan.completeSlot_image i input k total s.bus.stamp
    obtain ⟨st, image⟩ := restated i
    rw [image]
    exact ⟨congrArg RawImage.raw filled, congrArg RawImage.conversions filled, congrArg RawImage.sequence filled,
      congrArg RawImage.stamp filled, congrArg RawImage.input filled⟩
  case others =>
    intro j other
    have before : ∃ st, c.images[j] = { s.scan.images[j] with slotState := st } := by
      rcases other with other | rfl
      · exact s.scan.completeSlot_other i input k total discard s.bus.stamp other
      · exact s.scan.completeSlot_discarded i input k total s.bus.stamp j
    obtain ⟨_, before⟩ := before
    obtain ⟨st, image⟩ := restated j
    rw [image, before]
    exact ⟨rfl, rfl, rfl⟩
  case shows =>
    rintro e rfl kind index portless raw unlimited noRail
    obtain ⟨value, valid, -⟩ := State.completeSlot_shows (input := input) (k := k) (sum := total)
      ⟨raw, unlimited, noRail⟩ kind index portless
    exact ⟨value, valid⟩
  case discarded =>
    rintro rfl
    exact State.completeSlot_discarded.1
  case pass =>
    intro p uncut pass
    refine ⟨fun more none => ?_, fun last mode due => ?_, Scan.resumed_continuous (c := c) uncut pass⟩
    · obtain ⟨next, work, here, begun⟩ := Scan.resumed_on (c := c) (start := s.settings.scanStart)
        (stop := s.settings.scanStop) uncut pass more none
      exact ⟨next, work, here.trans (s.scan.completeSlot_done i input k total discard s.bus.stamp), begun⟩
    · obtain ⟨off, ended⟩ := Scan.resumed_single (c := c) (start := s.settings.scanStart)
        (stop := s.settings.scanStop) uncut pass last mode due
      refine ⟨off, ended, fun dropped idle room => ?_⟩
      rw [State.slotEnded_quiet (Or.inl dropped) idle room, completed,
        if_pos (finishes.mpr ⟨uncut, mode, p.last, last, by rw [pass]; rfl⟩)]
      rfl
  case posts =>
    intro ended event idle
    have posted : (c.passed i).2 = ended := Bool.eq_iff_iff.mpr (finishes.trans decide_eq_true_iff.symm)
    refine ⟨fun last room => ?_, fun room quiet => ?_⟩
    · exact State.slotEnded_last (by rw [completed]; exact posted.trans last) idle room
    · rw [State.slotEnded_quiet quiet idle room, completed, posted]
      rfl
  case ends =>
    intro passEnds due first last atEnd
    exact ⟨fun n requested lowest => Scan.resumed_ident (c := c) atEnd requested lowest,
      fun none due => Scan.resumed_due (c := c) atEnd none due, fun none notDue =>
      Scan.resumed_idle (c := c) atEnd none notDue⟩

end Sys2Proof.Machine
end

