-- ==== Sys2Proof/Proofs/Chains.lean ====
section
/-! PROOFS. The chain below an entry (R67, R79) in a table whose chains run to lower entries (R62), and tables in which
every VALID entry reads a VALID one: what keeps them so. -/

namespace Sys2Proof.Machine

/-! ## What an entry reads -/

theorem ConvEntry.dependsOn_iff {e : ConvEntry} {i : Fin 32} :
    e.dependsOn i = true ↔ e.cfg.sourceKind = .entry ∧ e.cfg.sourceIndex.toNat = i.val := by
  rw [ConvEntry.dependsOn, Bool.and_eq_true, beq_iff_eq, beq_iff_eq]

/-- R67: an entry has one source. -/
theorem ConvEntry.dependsOn_unique {e : ConvEntry} {i j : Fin 32} (hi : e.dependsOn i = true)
    (hj : e.dependsOn j = true) : i = j :=
  Fin.ext ((ConvEntry.dependsOn_iff.mp hi).2.symm.trans (ConvEntry.dependsOn_iff.mp hj).2)

theorem sameConfigs.dependsOn {v w : Vector ConvEntry 32} (h : sameConfigs v w) (i j : Fin 32) :
    v[i].dependsOn j = w[i].dependsOn j := by
  rw [ConvEntry.dependsOn, ConvEntry.dependsOn, h i]

theorem State.ChainsDown.lt {s : State} (down : s.ChainsDown) {i j : Fin 32} (h : s.conv[j].dependsOn i = true) :
    i < j := by
  obtain ⟨kind, index⟩ := ConvEntry.dependsOn_iff.mp h
  exact Fin.lt_def.mpr (index.symm.trans_lt (down j kind))

theorem State.ChainsDown.congr {s t : State} (down : s.ChainsDown) (h : sameConfigs t.conv s.conv) : t.ChainsDown :=
  fun i => by
    rw [h i]
    exact down i

/-! ## The chain below an entry (R79) -/

section
variable {s : State} {i j k : Fin 32}

theorem State.mem_chainStep_iff {found : List (Fin 32)} {c : Fin 32} :
    j ∈ s.chainStep i found c ↔
      j ∈ found ∨ (j = c ∧ ∃ k, (k = i ∨ k ∈ found) ∧ s.conv[c].dependsOn k = true) := by
  have read : ((i :: found).any fun k => s.conv[c].dependsOn k) = true ↔
      ∃ k, (k = i ∨ k ∈ found) ∧ s.conv[c].dependsOn k = true := by
    simp only [List.any_eq_true, List.mem_cons]
  rw [← read, State.chainStep]
  split
  · next reads => rw [List.mem_append, List.mem_singleton, and_iff_left reads]
  · next free => rw [iff_self_or]; exact fun new => absurd new.2 free

/-- A walk finds only entries that it visits. -/
theorem State.mem_chainWalk {l found : List (Fin 32)} (h : j ∈ l.foldl (s.chainStep i) found) :
    j ∈ found ∨ j ∈ l := by
  induction l generalizing found with
  | nil => exact Or.inl h
  | cons c l ih =>
    rcases ih h with here | later
    · rcases State.mem_chainStep_iff.mp here with old | ⟨new, _⟩
      · exact Or.inl old
      · exact Or.inr (List.mem_cons.mpr (Or.inl new))
    · exact Or.inr (List.mem_cons_of_mem c later)

/-- R79: an entry of the chain reads the head of the chain or another entry of it. -/
theorem State.chainBelow_source (h : j ∈ s.chainBelow i) :
    ∃ k, (k = i ∨ k ∈ s.chainBelow i) ∧ s.conv[j].dependsOn k = true := by
  refine foldl_invariant
    (I := fun found => ∀ j ∈ found, ∃ k, (k = i ∨ k ∈ found) ∧ s.conv[j].dependsOn k = true)
    (f := s.chainStep i) (fun found c sources j hj => ?_) (List.finRange 32)
    (fun j hj => absurd hj List.not_mem_nil) j h
  obtain ⟨k, chained, reads⟩ : ∃ k, (k = i ∨ k ∈ found) ∧ s.conv[j].dependsOn k = true := by
    rcases State.mem_chainStep_iff.mp hj with old | ⟨rfl, new⟩
    · exact sources j old
    · exact new
  exact ⟨k, chained.imp_right State.mem_chainStep, reads⟩

/-- R79: an entry that reads an entry of the chain is in it; it is visited after the entry that it reads. -/
theorem State.chainBelow_closed (down : s.ChainsDown) (h : k ∈ s.chainBelow i) (reads : s.conv[j].dependsOn k = true) :
    j ∈ s.chainBelow i := by
  obtain ⟨before, after, split⟩ := List.append_of_mem (List.mem_finRange j)
  have sorted := List.pairwise_lt_finRange 32
  rw [split, List.pairwise_append, List.pairwise_cons] at sorted
  obtain ⟨-, ⟨later, -⟩, -⟩ := sorted
  rw [State.chainBelow_eq, split, List.foldl_append] at h ⊢
  have found : k ∈ before.foldl (s.chainStep i) [] := by
    refine (State.mem_chainWalk h).resolve_right fun hk => ?_
    have below := down.lt reads
    rcases List.mem_cons.mp hk with rfl | hk
    · exact lt_irrefl _ below
    · exact lt_asymm below (later k hk)
  exact foldl_invariant (I := fun found => j ∈ found) (fun _ _ hj => State.mem_chainStep hj) after
    (State.mem_chainStep_iff.mpr (Or.inr ⟨rfl, k, Or.inr found, reads⟩))

/-- R62, R79: a chain runs above its head. -/
theorem State.chainBelow_lt (down : s.ChainsDown) (h : j ∈ s.chainBelow i) : i < j := by
  induction j using WellFoundedLT.induction with
  | ind j ih =>
    obtain ⟨k, head | chained, reads⟩ := State.chainBelow_source h
    · exact head ▸ down.lt reads
    · exact (ih k (down.lt reads) chained).trans (down.lt reads)

end

/-! ## Tables in which a VALID entry reads a VALID one (R67, R79) -/

/-- R62, R79: chains run to lower entries, and the source entry of a VALID entry is VALID. -/
structure State.Linked (s : State) : Prop where
  down   : s.ChainsDown
  source : ∀ i j : Fin 32, s.conv[i].status = .valid → s.conv[i].dependsOn j = true → s.conv[j].status = .valid

/-- R79: an entry that has taken a status other than VALID. -/
theorem ConvEntry.take_notValid (e : ConvEntry) {st : ConvStatus} (lost : st ≠ .valid) :
    (e.take st).status ≠ .valid := by
  rw [ConvEntry.take_status]
  exact lost

section
variable {s : State} {i : Fin 32}

/-- R79: the entries that are VALID after a chain has taken NO_SOURCE are outside it, and as they were. -/
theorem State.noSourceBelow_valid {k : Fin 32} (h : (s.noSourceBelow i []).conv[k].status = .valid) :
    k ∉ s.chainBelow i ∧ (s.noSourceBelow i []).conv[k] = s.conv[k] := by
  obtain ⟨hit, miss⟩ := s.noSourceBelow_get i [] k
  have outside : k ∉ s.chainBelow i := fun chained => by
    rw [hit chained List.not_mem_nil] at h
    exact ConvEntry.take_notValid _ (by decide) h
  exact ⟨outside, miss (Or.inl outside)⟩

/-- R79: where only the readers of entry i may lack a VALID source, its chain takes NO_SOURCE and none lacks one. -/
theorem State.noSourceBelow_linked (down : s.ChainsDown)
    (source : ∀ k j : Fin 32, j ≠ i → s.conv[k].status = .valid → s.conv[k].dependsOn j = true →
      s.conv[j].status = .valid) : (s.noSourceBelow i []).Linked where
  down := down.congr (s.noSourceBelow_configs i [])
  source k j valid reads := by
    obtain ⟨outside, same⟩ := State.noSourceBelow_valid valid
    rw [same] at valid reads
    have kept : j ∉ s.chainBelow i := fun chained => outside (State.chainBelow_closed down chained reads)
    rw [(s.noSourceBelow_get i [] j).2 (Or.inl kept)]
    refine source k j (fun head => ?_) valid reads
    subst head
    exact outside (State.mem_chainBelow reads)

/-- R64: the entries that are VALID once entry i has taken another status, its chain not yet told. -/
theorem State.setConv_take_valid {st : ConvStatus} (lost : st ≠ .valid) {k : Fin 32}
    (h : (s.setConv i (s.conv[i].take st)).conv[k].status = .valid) :
    i ≠ k ∧ (s.setConv i (s.conv[i].take st)).conv[k] = s.conv[k] := by
  have other : i ≠ k := fun same => by
    subst same
    rw [State.setConv_same] at h
    exact ConvEntry.take_notValid _ lost h
  exact ⟨other, State.setConv_other s i k _ other⟩

/-- R64, R79: an entry that is VALID after entry i has taken another status is as it was. -/
theorem State.takeStatus_valid {st : ConvStatus} (lost : st ≠ .valid) {k : Fin 32}
    (h : (s.takeStatus i st).conv[k].status = .valid) : (s.takeStatus i st).conv[k] = s.conv[k] := by
  unfold State.takeStatus at h ⊢
  dsimp only at h ⊢
  split at h
  · next told =>
    rw [if_pos told]
    obtain ⟨-, same⟩ := State.noSourceBelow_valid h
    rw [same] at h ⊢
    exact (State.setConv_take_valid lost h).2
  · next untold =>
    rw [if_neg untold]
    exact (State.setConv_take_valid lost h).2

/-- R64, R79: an entry that leaves VALID takes its chain with it; one that was not VALID had no VALID reader. -/
theorem State.Linked.takeStatus (hs : s.Linked) (i : Fin 32) {st : ConvStatus} (lost : st ≠ .valid) :
    (s.takeStatus i st).Linked := by
  have down : (s.setConv i (s.conv[i].take st)).ChainsDown := hs.down.congr (s.setConv_take_configs i st)
  have source (k j : Fin 32) (other : j ≠ i) (valid : (s.setConv i (s.conv[i].take st)).conv[k].status = .valid)
      (reads : (s.setConv i (s.conv[i].take st)).conv[k].dependsOn j = true) :
      (s.setConv i (s.conv[i].take st)).conv[j].status = .valid := by
    obtain ⟨-, same⟩ := State.setConv_take_valid lost valid
    rw [same] at valid reads
    rw [State.setConv_other s i j _ other.symm]
    exact hs.source k j valid reads
  unfold State.takeStatus
  dsimp only
  split
  · exact State.noSourceBelow_linked down source
  · next untold =>
    refine ⟨down, fun k j valid reads => source k j (fun head => ?_) valid reads⟩
    subst head
    obtain ⟨-, same⟩ := State.setConv_take_valid lost valid
    rw [same] at valid reads
    exact untold ⟨hs.source k j valid reads, lost⟩

end

/-! ## An evaluation and its chain (R67) -/

section
variable {s : State} {i k : Fin 32}

theorem State.evaluated_configs (s : State) (i : Fin 32) (x : Int) : sameConfigs (s.evaluated i x).conv s.conv := by
  intro k
  rw [State.evaluated_get]
  split
  · exact ConvEntry.evaluate_cfg _ _ _
  · rfl

/-- R67: an evaluation with its chain leaves the configurations. -/
theorem State.evaluateChain_configs (fuel : Nat) (s : State) (i : Fin 32) (x : Int) :
    sameConfigs (State.evaluateChain fuel s i x).1.conv s.conv := by
  induction fuel generalizing s i x with
  | zero => exact fun _ => rfl
  | succ fuel ih =>
    rw [State.evaluateChain_succ]
    split
    · refine foldl_invariant (I := fun acc : State × List (Fin 32) => sameConfigs acc.1.conv s.conv)
        (fun acc j same k => ?_) _ (s.evaluated_configs i x)
      exact (ih acc.1 j _ k).trans (same k)
    · exact fun k => (State.noSourceBelow_configs _ i [] k).trans (s.evaluated_configs i x k)

/-- R62, R67: an evaluation with its chain leaves the entries below it. -/
theorem State.evaluateChain_below (fuel : Nat) {s : State} (down : s.ChainsDown) (x : Int) (below : k < i) :
    (State.evaluateChain fuel s i x).1.conv[k] = s.conv[k] := by
  induction fuel generalizing s i x with
  | zero => rfl
  | succ fuel ih =>
    have here : (s.evaluated i x).conv[k] = s.conv[k] := (s.evaluated_get i x).trans (if_neg below.ne')
    have after : (s.evaluated i x).ChainsDown := down.congr (s.evaluated_configs i x)
    rw [State.evaluateChain_succ, ← here]
    split
    · refine (List.foldlRecOn (motive := fun acc : State × List (Fin 32) =>
        acc.1.ChainsDown ∧ acc.1.conv[k] = (s.evaluated i x).conv[k]) _ _ ⟨after, rfl⟩ fun acc h j member => ?_).2
      have above : i < j := after.lt (List.mem_filter.mp member).2
      exact ⟨h.1.congr (State.evaluateChain_configs fuel acc.1 j _), (ih h.1 _ (below.trans above)).trans h.2⟩
    · exact (State.noSourceBelow_get _ i [] k).2 (Or.inl fun chained =>
        lt_asymm below (State.chainBelow_lt after chained))

/-- R67, R79: the evaluation of an entry whose source entry, if it has one, is VALID. -/
theorem State.Linked.evaluateChain (fuel : Nat) {s : State} (hs : s.Linked) (i : Fin 32) (x : Int)
    (ready : ∀ j : Fin 32, s.conv[i].dependsOn j = true → s.conv[j].status = .valid) :
    (State.evaluateChain fuel s i x).1.Linked := by
  induction fuel generalizing s i x with
  | zero => exact hs
  | succ fuel ih =>
    have configs := s.evaluated_configs i x
    have down : (s.evaluated i x).ChainsDown := hs.down.congr configs
    have here : (s.evaluated i x).conv[i] = (s.conv[i].evaluate x s.bus.stamp).1 :=
      (s.evaluated_get i x).trans (if_pos rfl)
    have source (k j : Fin 32) (other : j ≠ i) (valid : (s.evaluated i x).conv[k].status = .valid)
        (reads : (s.evaluated i x).conv[k].dependsOn j = true) : (s.evaluated i x).conv[j].status = .valid := by
      rw [configs.dependsOn] at reads
      rw [State.evaluated_get, if_neg other.symm]
      by_cases same : i = k
      · subst same
        exact ready j reads
      · rw [State.evaluated_get, if_neg same] at valid
        exact hs.source k j valid reads
    rw [State.evaluateChain_succ]
    split
    · next valid =>
      rw [← here] at valid
      have linked : (s.evaluated i x).Linked := ⟨down, fun k j kValid reads => by
        by_cases head : j = i
        · exact head ▸ valid
        · exact source k j head kValid reads⟩
      refine (List.foldlRecOn (motive := fun acc : State × List (Fin 32) =>
        acc.1.Linked ∧ sameConfigs acc.1.conv (s.evaluated i x).conv ∧ acc.1.conv[i] = (s.evaluated i x).conv[i])
        _ _ ⟨linked, fun _ => rfl, rfl⟩ fun acc h j member => ?_).1
      obtain ⟨accLinked, accConfigs, accHead⟩ := h
      have reads : acc.1.conv[j].dependsOn i = true := by
        rw [accConfigs.dependsOn]
        exact (List.mem_filter.mp member).2
      refine ⟨ih accLinked j _ fun m readsAt => ?_, fun k => ?_, ?_⟩
      · rw [ConvEntry.dependsOn_unique readsAt reads, accHead]
        exact valid
      · exact (State.evaluateChain_configs fuel acc.1 j _ k).trans (accConfigs k)
      · exact (State.evaluateChain_below fuel accLinked.down _ (accLinked.down.lt reads)).trans accHead
    · exact State.noSourceBelow_linked down source

end

end Sys2Proof.Machine
end

