-- ==== Sys2Proof/Proofs/Rooting.lean ====
section
/-! PROOFS. No VALID entry over a port that is not BOUND, directly or through a chain (R62, R77): what the changes of
the table, of one port and of the converter's slots keep of it. -/

namespace Sys2Proof.Machine

theorem State.Linked.congr {s t : State} (h : s.Linked) (conv : t.conv = s.conv) : t.Linked where
  down i := by rw [conv]; exact h.down i
  source i j := by rw [conv]; exact h.source i j

/-- R77: no VALID entry reads port n but through a chain. -/
def State.Free (s : State) (n : PortNo) : Prop :=
  ∀ i : Fin 32, s.conv[i].status = .valid → s.sourcePort s.conv[i].cfg ≠ some n

/-- O60, with the query work of the ports that their changes of state turn on. -/
def State.Rooted (s : State) : Prop := s.PortsPhased ∧ s.ChainsDown ∧ s.ValidOverBound

/-! ## Passes that take statuses (R64, R76, R77, R79) -/

/-- The states that differ from s in that some entries have left VALID, with their chains. -/
structure State.Demoted (s t : State) : Prop extends s.Restatused t where
  linked : s.Linked → t.Linked
  valid  : ∀ k : Fin 32, t.conv[k].status = .valid → t.conv[k] = s.conv[k]

theorem State.Demoted.refl (s : State) : s.Demoted s := ⟨State.Restatused.refl s, id, fun _ _ => rfl⟩

theorem State.Demoted.trans {s t u : State} (h : s.Demoted t) (k : t.Demoted u) : s.Demoted u where
  toRestatused := h.toRestatused.trans k.toRestatused
  linked := k.linked ∘ h.linked
  valid i valid := by
    have same := k.valid i valid
    rw [same] at valid ⊢
    exact h.valid i valid

theorem State.Demoted.sourcePort {s t : State} (h : s.Demoted t) (c : ConvConfig) : t.sourcePort c = s.sourcePort c :=
  h.keep (fun u => u.sourcePort c) fun _ _ => rfl

section
variable {s t : State} {st : ConvStatus}

theorem State.takeStatus_demoted (s : State) (i : Fin 32) (lost : st ≠ .valid) : s.Demoted (s.takeStatus i st) :=
  ⟨s.takeStatus_restatused i st, fun linked => linked.takeStatus i lost, fun _ => State.takeStatus_valid lost⟩

/-- A run of visits, each of which takes statuses or nothing. -/
theorem State.foldl_demoted {β : Type} {f : State → β → State} (visit : ∀ (t : State) (b : β), t.Demoted (f t b))
    (l : List β) : s.Demoted (l.foldl f s) :=
  foldl_invariant (I := s.Demoted) (fun t b ht => ht.trans (visit t b)) l (State.Demoted.refl s)

theorem State.portStatus_demoted (s : State) (n : PortNo) (lost : st ≠ .valid) : s.Demoted (s.portStatus n st) := by
  refine State.foldl_demoted (fun t i => ?_) _
  split
  · exact t.takeStatus_demoted i lost
  · exact State.Demoted.refl t

theorem State.slotNoSource_demoted (s : State) (slot : Fin 16) : s.Demoted (s.slotNoSource slot) := by
  refine State.foldl_demoted (fun t i => ?_) _
  split
  · exact t.takeStatus_demoted i (by decide)
  · exact State.Demoted.refl t

/-- R76, R77: once the entries over a port have taken a status other than VALID, none is VALID over it. -/
theorem State.portStatus_free (s : State) (n : PortNo) (lost : st ≠ .valid) : (s.portStatus n st).Free n := by
  intro i valid port
  have demoted := s.portStatus_demoted n lost
  have same := demoted.valid i valid
  rw [demoted.sourcePort, same] at port
  have full : s.conv[i].status ≠ .empty := by
    rw [← same, valid]
    exact nofun
  exact lost ((State.portStatus_taken rfl rfl st port full).symm.trans valid)

/-! ## The invariant -/

theorem State.Rooted.phased (hs : s.Rooted) (n : PortNo) : s.ports[n].Phased := hs.1 n

theorem State.Rooted.linked (hs : s.Rooted) : s.Linked := ⟨hs.2.1, fun i j valid => (hs.2.2 i valid).1 j⟩

theorem State.Rooted.bound (hs : s.Rooted) {i : Fin 32} {n : PortNo} (valid : s.conv[i].status = .valid)
    (port : s.sourcePort s.conv[i].cfg = some n) : s.ports[n].state = .bound := (hs.2.2 i valid).2 n port

theorem State.Rooted.of_linked (phased : s.PortsPhased) (linked : s.Linked)
    (bound : ∀ (i : Fin 32) (n : PortNo), s.conv[i].status = .valid → s.sourcePort s.conv[i].cfg = some n →
      s.ports[n].state = .bound) : s.Rooted :=
  ⟨phased, linked.down, fun i valid => ⟨fun j => linked.source i j valid, fun n => bound i n valid⟩⟩

/-- R77: no VALID entry reads a port that is not BOUND. -/
theorem State.Rooted.free (hs : s.Rooted) {n : PortNo} (notBound : s.ports[n].state ≠ .bound) : s.Free n :=
  fun _ valid port => notBound (hs.bound valid port)

theorem State.Rooted.demoted (hs : s.Rooted) (h : s.Demoted t) : t.Rooted := by
  have ports : t.ports = s.ports := h.keep (·.ports) fun _ _ => rfl
  refine .of_linked (fun n => ?_) (h.linked hs.linked) fun i n valid port => ?_
  · rw [ports]
    exact hs.phased n
  · rw [h.sourcePort, h.valid i valid] at port
    rw [h.valid i valid] at valid
    rw [ports]
    exact hs.bound valid port

/-- The record of one port changes, and the table as a pass over it has left it: w is the state before that pass, u the
one after it. -/
theorem State.Rooted.of_one {w u : State} (hs : s.Rooted) (n : PortNo) {p : Port}
    (ports : t.ports = s.ports.set n p) (phased : p.Phased) (slots : t.scan.slots = s.scan.slots)
    (conv : t.conv = u.conv) (told : w.Demoted u) (wConv : w.conv = s.conv) (wSlots : w.scan.slots = s.scan.slots)
    (free : p.state = .bound ∨ u.Free n) : t.Rooted := by
  have uSlots : u.scan.slots = w.scan.slots := told.keep (·.scan.slots) fun _ _ => rfl
  refine .of_linked (fun k => ?_) ((told.linked (hs.linked.congr wConv)).congr conv) fun i k valid port => ?_
  · rw [ports]
    by_cases same : n = k
    · subst same
      rw [vector_set_same]
      exact phased
    · rw [vector_set_other _ same]
      exact hs.phased k
  · rw [conv] at valid port
    rw [ports]
    by_cases same : n = k
    · subst same
      rw [vector_set_same]
      rw [State.sourcePort_of_scan (slots.trans (wSlots.symm.trans uSlots.symm))] at port
      exact free.resolve_right fun free => free i valid port
    · rw [State.sourcePort_of_scan slots, told.valid i valid, wConv] at port
      rw [told.valid i valid, wConv] at valid
      rw [vector_set_other _ same]
      exact hs.bound valid port

/-- The record of one port changes, the table does not. -/
theorem State.Rooted.of_port (hs : s.Rooted) (n : PortNo) {p : Port} (ports : t.ports = s.ports.set n p)
    (phased : p.Phased) (slots : t.scan.slots = s.scan.slots) (conv : t.conv = s.conv)
    (free : p.state = .bound ∨ s.Free n) : t.Rooted :=
  hs.of_one n ports phased slots conv (State.Demoted.refl s) rfl rfl free

/-- The record of one port changes, and the entries over it are told; w is the state in which they are. -/
theorem State.Rooted.of_told (hs : s.Rooted) (n : PortNo) {p : Port} {w : State} (ports : t.ports = s.ports.set n p)
    (phased : p.Phased) (slots : t.scan.slots = s.scan.slots) (conv : t.conv = (w.portStatus n st).conv)
    (lost : st ≠ .valid) (wConv : w.conv = s.conv) (wSlots : w.scan.slots = s.scan.slots) : t.Rooted :=
  hs.of_one n ports phased slots conv (w.portStatus_demoted n lost) wConv wSlots (Or.inr (w.portStatus_free n lost))

/-- A record with the state and the query work of the port. -/
theorem State.Rooted.setPort_same (hs : s.Rooted) (n : PortNo) {p : Port} (phased : p.Phased)
    (state : p.state = s.ports[n].state := by rfl) : (s.setPort n p).Rooted := by
  refine hs.of_port n rfl phased rfl rfl ?_
  rw [state, or_iff_not_imp_left]
  exact hs.free

/-- A change of the converter that leaves the slots. -/
theorem State.Rooted.of_scan (hs : s.Rooted) {c : Scan} (slots : c.slots = s.scan.slots) :
    State.Rooted { s with scan := c } :=
  hs.of_port 0 (vector_set_self _ _).symm (hs.phased 0) slots rfl (or_iff_not_imp_left.mpr hs.free)

end

/-! ## Updates of a source (R64, R65) -/

/-- R64: a status taken in place of an evaluation is not VALID. -/
theorem State.sourceCheck_lost {s : State} {c : ConvConfig} {st : ConvStatus} (h : s.sourceCheck c = some st) :
    st ≠ .valid := by
  unfold State.sourceCheck at h
  split at h
  · exact absurd h nofun
  · split_ifs at h <;> exact Option.some.inj h ▸ nofun

/-- R64: a port that supplies an evaluation is BOUND. -/
theorem State.sourceCheck_bound {s : State} {c : ConvConfig} {n : PortNo} (h : s.sourceCheck c = none)
    (port : s.sourcePort c = some n) : s.ports[n].state = .bound := by
  unfold State.sourceCheck at h
  rw [port] at h
  dsimp only at h
  split_ifs at h with _ bound
  exact not_not.mp bound

/-- An update of a source that no entry of the table is. -/
def fromOutside (reads : ConvConfig → Option Int) : Prop := ∀ c x, reads c = some x → c.sourceKind ≠ .entry

theorem readsIndex_fromOutside {kind : SourceKind} (h : kind ≠ .entry) (k : Nat) (x : Int) :
    fromOutside (readsIndex kind k x) := by
  intro c y taken
  unfold readsIndex at taken
  split at taken
  · next reads =>
    rw [reads.1]
    exact h
  · exact absurd taken nofun

section
variable {acc : State × List (Fin 32)} {i : Fin 32}

/-- R64: an update of a source evaluates an entry over no port or a BOUND one. -/
theorem State.Rooted.updateEntry (h : acc.1.Rooted) (kind : acc.1.conv[i].cfg.sourceKind ≠ .entry) (x : Int) :
    (State.updateEntry acc i x).1.Rooted := by
  unfold State.updateEntry
  split
  · next check => exact h.demoted (acc.1.takeStatus_demoted i (State.sourceCheck_lost check))
  · next check =>
    have ports : (State.evaluateChain 32 acc.1 i x).1.ports = acc.1.ports :=
      State.evaluateChain_keeps (·.ports) (fun _ _ => rfl) (fun _ _ => rfl) 32 acc.1 i x
    have source (c : ConvConfig) : (State.evaluateChain 32 acc.1 i x).1.sourcePort c = acc.1.sourcePort c :=
      State.evaluateChain_keeps (fun t => t.sourcePort c) (fun _ _ => rfl) (fun _ _ => rfl) 32 acc.1 i x
    refine .of_linked (fun n => ?_) ?_ fun k n valid port => ?_
    · exact ports ▸ h.phased n
    · exact h.linked.evaluateChain 32 i x fun j reads => absurd (ConvEntry.dependsOn_iff.mp reads).1 kind
    · rw [source, State.evaluateChain_configs 32 acc.1 i x k] at port
      rw [ports]
      by_cases same : i = k
      · subst same
        exact State.sourceCheck_bound check port
      · rw [State.evaluateChain_missed 32 (State.kind_of_sourcePort port) same] at valid
        exact h.bound valid port

theorem State.updateEntry_configs (acc : State × List (Fin 32)) (i : Fin 32) (x : Int) :
    sameConfigs (State.updateEntry acc i x).1.conv acc.1.conv := by
  unfold State.updateEntry
  split
  · exact acc.1.takeStatus_configs i _
  · exact State.evaluateChain_configs 32 acc.1 i x

end

section
variable {s : State}

/-- R65: an update of a source. -/
theorem State.Rooted.sourceUpdate (hs : s.Rooted) {reads : ConvConfig → Option Int} (outside : fromOutside reads) :
    (s.sourceUpdate reads).Rooted := by
  rw [State.sourceUpdate_eq]
  refine (foldl_keeps State.Rooted _ (State.reportChecks_keeps State.Rooted (fun _ _ => rfl) fun _ _ => rfl)
    _ _).mpr ?_
  have visits : (s.visited reads).1.Rooted ∧ sameConfigs (s.visited reads).1.conv s.conv := by
    refine foldl_invariant (I := fun acc : State × List (Fin 32) => acc.1.Rooted ∧ sameConfigs acc.1.conv s.conv)
      (f := s.visit reads) (fun acc i h => ?_) _ ⟨hs, fun _ => rfl⟩
    obtain ⟨rooted, configs⟩ := h
    unfold State.visit
    split
    · exact ⟨rooted, configs⟩
    · next x taken =>
      refine ⟨rooted.updateEntry ?_ x, fun k => (State.updateEntry_configs acc i x k).trans (configs k)⟩
      rw [configs i]
      exact outside _ x taken
  exact visits.1

theorem State.Rooted.slotUpdate (hs : s.Rooted) (slot : Fin 16) : (s.slotUpdate slot).Rooted :=
  hs.sourceUpdate (readsIndex_fromOutside (by decide) _ _)

theorem State.Rooted.speedUpdate (hs : s.Rooted) (n : PortNo) : (s.speedUpdate n).Rooted :=
  hs.sourceUpdate (readsIndex_fromOutside (by decide) _ _)

theorem State.Rooted.encoderUpdate (hs : s.Rooted) (n : PortNo) : (s.encoderUpdate n).Rooted := by
  unfold State.encoderUpdate
  split
  · exact hs
  · have stamped : State.Rooted { s with encStamp := s.encStamp.set n (some s.bus.stamp) } := hs
    exact stamped.sourceUpdate (readsIndex_fromOutside (by decide) _ _)

theorem State.Rooted.fieldUpdate (hs : s.Rooted) (n : PortNo) : (s.fieldUpdate n).Rooted := by
  refine hs.sourceUpdate fun c x taken => ?_
  split at taken
  · next reads =>
    rw [reads.1]
    decide
  · exact absurd taken nofun

theorem State.Rooted.pulseUpdate (hs : s.Rooted) (n : PortNo) : (s.pulseUpdate n).Rooted := by
  refine hs.sourceUpdate fun c x taken entry => ?_
  rw [entry] at taken
  split at taken <;> exact absurd taken nofun

end

end Sys2Proof.Machine
end

