-- ==== Sys2Proof/Proofs/RootedPorts.lean ====
section
/-! PROOFS. What the converter's work, the states of the ports, their exchanges and the PORT operations keep of O60: a
port that leaves BOUND takes the entries over it from VALID (R76, R77). -/

namespace Sys2Proof.Machine

namespace State.Rooted

variable {s t : State}

/-! ## The converter (R49–R54) -/

theorem converterWake (hs : s.Rooted) : s.converterWake.Rooted := by
  unfold State.converterWake
  split
  · exact hs.of_scan (Scan.choose_frame _ _ _).1
  · exact hs
  · exact hs

theorem converterNext (hs : s.Rooted) : s.converterNext.Rooted :=
  hs.of_scan (c := Scan.choose { s.scan with work := .idle } _ _) (Scan.choose_frame _ _ _).1

theorem requestIdent (hs : s.Rooted) (n : PortNo) : (s.requestIdent n).Rooted :=
  converterWake (hs.of_scan rfl)

theorem cancelIdent (hs : s.Rooted) (n : PortNo) : (s.cancelIdent n).Rooted := hs.of_scan rfl

theorem cancelIdent_free {k : PortNo} (free : s.Free k) (n : PortNo) : (s.cancelIdent n).Free k := free

theorem scanOp (hs : s.Rooted) (op : ScanOp) : (s.scanOp op).Rooted := by
  have slots : (s.scan.command op).slots = s.scan.slots := by
    cases work : s.scan.work with
    | slot => rw [Scan.command_slot work]
    | idle | ident => rw [Scan.command_free (by rw [work]; exact nofun)]
  exact converterWake (hs.of_scan slots)

theorem completeSlot (hs : s.Rooted) (i : Fin 16) (input : Fin 8) (k sum : Nat) (discard : Bool) :
    (s.completeSlot i input k sum discard).Rooted := by
  have imaged : State.Rooted { s with scan := s.scan.completeSlot i input k sum discard s.bus.stamp } :=
    hs.of_scan (by rw [Scan.completeSlot_frame])
  unfold State.completeSlot
  dsimp only
  split
  · exact imaged
  · exact imaged.slotUpdate i

theorem slotEnded (hs : s.Rooted) (i : Fin 16) (input : Fin 8) (k sum : Nat) (discard : Bool) :
    (s.slotEnded i input k sum discard).Rooted := by
  have passed := (hs.completeSlot i input k sum discard).of_scan
    (Scan.passed_slots (c := (s.completeSlot i input k sum discard).scan) (i := i))
  unfold State.slotEnded
  dsimp only
  split <;> exact passed

theorem scanConversion (hs : s.Rooted) (code : BitVec 12) (i : Fin 16) (input : Fin 8) (n done sum : Nat)
    (discard : Bool) : (s.scanConversion code i input n done sum discard).Rooted := by
  by_cases ends : s.scan.cut = true ∨ n ≤ done + 1
  · rw [State.scanConversion_ends ends]
    exact (hs.slotEnded i input _ _ discard).converterNext
  · obtain ⟨uncut, more⟩ := not_or.mp ends
    rw [State.scanConversion_on (Bool.eq_false_of_not_eq_true uncut) (not_le.mp more)]
    exact hs.of_scan rfl

/-! ## The states of a port -/

theorem startWork (hs : s.Rooted) (n : PortNo) : (s.startWork n).Rooted :=
  hs.setPort_same n ((hs.phased n).startWork _) (Port.startWork_kept s.ports[n] _).1

theorem endExchange (hs : s.Rooted) (n : PortNo) : (s.endExchange n).Rooted :=
  hs.setPort_same n ((hs.phased n).mono rfl rfl id id (fun flight => absurd flight Bool.false_ne_true) id)

theorem answerPass (hs : s.Rooted) (n : PortNo) (status : Status) (result : List Byte) :
    (s.answerPass n status result).Rooted := by
  unfold State.answerPass
  split
  · exact hs
  · exact hs.setPort_same n ((hs.phased n).mono rfl rfl id id id id)

/-- R34, R76: a port that enters FAULT takes its entries from VALID; no QUERY is in flight. -/
theorem enterFault (hs : s.Rooted) (n : PortNo) (reason : FaultReason) (flight : s.ports[n].querying = false) :
    (s.enterFault n reason).Rooted := by
  have faulted : (s.ports[n].faulted reason).Phased := by
    refine ⟨fun work => ?_, fun _ => rfl⟩
    rcases work with due | timed | query
    · exact absurd due Bool.false_ne_true
    · exact absurd timed Bool.false_ne_true
    · exact absurd (flight.symm.trans query) Bool.false_ne_true
  refine hs.of_told n (s.enterFault_ports n reason) faulted
    (s.enterFault_of_said n reason (·.scan.slots) (fun _ _ => rfl) (fun _ _ => rfl) (fun _ _ => rfl))
    (congrArg State.conv (s.enterFault_eq n reason)) (by decide) ?_ ?_
  · split
    · exact State.loseMotor_keeps (·.conv) (fun _ _ => rfl) (fun _ _ => rfl) _ n .sourceLost
    · rfl
  · split
    · exact State.loseMotor_keeps (·.scan.slots) (fun _ _ => rfl) (fun _ _ => rfl) _ n .sourceLost
    · rfl

/-- R25: a port that no VALID entry reads enters DETECTING. -/
theorem enterDetecting (hs : s.Rooted) (n : PortNo) (calm : s.ports[n].Calm) (free : s.Free n) :
    (s.enterDetecting n).Rooted :=
  requestIdent (s := ((s.setPort n { s.ports[n].clearIdentity with state := .detecting, band := none }).post
      .portAttach (portByte n) 0).portNotice n)
    (hs.of_port n rfl (Port.Calm.phased ⟨calm.due, calm.timer, calm.flight, calm.reprobe⟩) rfl rfl (Or.inr free)) n

theorem enterProbing (hs : s.Rooted) (n : PortNo) (reprobe : s.ports[n].reprobeTimer = none) (free : s.Free n) :
    (s.enterProbing n).Rooted := by
  have probed : s.ports[n].probed.Phased := ⟨fun _ => Or.inl rfl, fun runs => by
    rw [show s.ports[n].probed.reprobeTimer = none from reprobe] at runs
    exact absurd runs (by decide)⟩
  exact startWork (s := (s.setPort n s.ports[n].probed).portNotice n)
    (hs.of_port n rfl probed rfl rfl (Or.inr free)) n

/-! ## Lookup and binding (R28, R31) -/

/-- R28: the lookup of a port without query work that no VALID entry reads. -/
theorem lookupPort (hs : s.Rooted) (n : PortNo) (calm : s.ports[n].Calm) (free : s.Free n) :
    (s.lookupPort n).Rooted := by
  have slots : (s.lookupPort n).scan.slots = s.scan.slots :=
    State.lookupPort_keeps (·.scan.slots) (fun _ _ => rfl) (fun _ _ => rfl) (fun _ _ => rfl) (fun _ _ => rfl) s n
  cases found : lookup s.profiles s.ports[n].cls s.ports[n].variant with
  | none =>
    refine hs.of_port n (s.becomeUnknown_ports n ▸ congrArg State.ports (State.lookupPort_none found)) ?_ slots
      (s.lookupPort_conv n) (Or.inr free)
    exact Port.Calm.phased ⟨calm.due, calm.timer, calm.flight, calm.reprobe⟩
  | some i =>
    have bound : (s.ports[n].boundTo i).Calm := ⟨calm.due, calm.timer, calm.flight, calm.reprobe⟩
    exact hs.of_port n (s.bindPort_polled n i ▸ congrArg State.ports (State.lookupPort_some found))
      (bound.polled _ _).phased slots (s.lookupPort_conv n) (Or.inr free)

/-- R31, R77: a port that loses its binding takes its entries from VALID. -/
theorem loseBinding (hs : s.Rooted) (n : PortNo) : (s.loseBinding n).Rooted ∧ (s.loseBinding n).Free n := by
  have lost : (s.loseMotor n .rebound).Rooted :=
    (State.loseMotor_keeps State.Rooted (fun _ _ => rfl) (fun _ _ => rfl) s n .rebound).mpr hs
  have told := (s.loseMotor n .rebound).portStatus_demoted n (st := .noSource) (by decide)
  have free := (s.loseMotor n .rebound).portStatus_free n (st := .noSource) (by decide)
  exact ⟨(State.setLineMode_keeps State.Rooted (fun _ _ => rfl) _ n .none 0).mpr (lost.demoted told),
    (State.setLineMode_keeps (fun t => t.Free n) (fun _ _ => rfl) _ n .none 0).mpr free⟩

theorem rebindPort (hs : s.Rooted) (hit : Fin 16 → Bool) (anyValid : Bool) (n : PortNo) :
    (State.rebindPort hit anyValid s n).Rooted := by
  by_cases lost : s.rebound hit n = true
  · have bound : s.ports[n].state = .bound := beq_iff_eq.mp (Bool.and_eq_true_iff.mp lost).1
    have calm := (hs.phased n).calm (by rw [bound]; exact nofun) (by rw [bound]; exact nofun)
    obtain ⟨rooted, free⟩ := hs.loseBinding n
    rw [State.rebindPort_rebound anyValid lost]
    exact rooted.lookupPort n (by rw [s.loseBinding_ports]; exact calm) free
  · by_cases unknown : s.ports[n].state = .unknown ∧ anyValid = true
    · have calm := (hs.phased n).calm (by rw [unknown.1]; exact nofun) (by rw [unknown.1]; exact nofun)
      rw [State.rebindPort_unknown unknown.1 unknown.2]
      exact hs.lookupPort n calm (hs.free (by rw [unknown.1]; exact nofun))
    · rw [State.rebindPort_unconcerned fun concerned => unknown (concerned.resolve_left lost)]
      exact hs

/-! ## Identification (R26, R27, R35) -/

/-- R28: the lookup of a port that is not BOUND, its record changed but for the state. -/
theorem lookupAs (hs : s.Rooted) (n : PortNo) {q : Port} (state : q.state = s.ports[n].state) (calm : q.Calm)
    (notBound : s.ports[n].state ≠ .bound) : ((s.setPort n q).lookupPort n).Rooted :=
  (hs.setPort_same n calm.phased state).lookupPort n (by rw [State.setPort_same]; exact calm) (hs.free notBound)

theorem identResult (hs : s.Rooted) (n : PortNo) (code : BitVec 12) : (s.identResult n code).Rooted := by
  by_cases measured : s.ports[n].Measured
  · obtain ⟨notBound, due, timer, flight⟩ := (hs.phased n).measured measured
    have phased (b : Band) : (s.ports[n].banded b).Phased := (hs.phased n).mono rfl rfl id id id id
    have left (b : Band) : (s.ports[n].banded b).leaveFault.Calm := Port.leaveFault_calm (phased b) due timer flight
    have state (b : Band) := Port.leaveFault_state (s.ports[n].banded b)
    cases band : bandOf code.toNat with
    | short =>
      have banded : (s.setPort n (s.ports[n].banded .short)).Rooted := hs.setPort_same n (phased _)
      rw [State.identResult_short measured band]
      split
      · exact banded
      · exact banded.enterFault n _ (by rw [State.setPort_same]; exact flight)
    | passive c =>
      have calm := left (.passive c)
      rw [State.identResult_passive measured band]
      exact hs.lookupAs n (state _) ⟨calm.due, calm.timer, calm.flight, calm.reprobe⟩ notBound
    | openLine =>
      rw [State.identResult_open measured band]
      exact (hs.setPort_same n (left _).phased (state _)).enterProbing n
        (by rw [State.setPort_same]; exact (left _).reprobe) (hs.free notBound)
  · rw [State.identResult_discarded measured]
    exact hs

theorem queryFailed (hs : s.Rooted) (n : PortNo) (flight : s.ports[n].querying = false) :
    (s.queryFailed n).Rooted := by
  unfold State.queryFailed
  split
  · exact hs.enterFault n _ flight
  · exact hs

theorem pollMissed (hs : s.Rooted) (n : PortNo) (flight : s.ports[n].querying = false) :
    (s.pollMissed n).Rooted := by
  have counted (missed : Nat) : (s.setPort n { s.ports[n] with missed := missed }).Rooted :=
    hs.setPort_same n ((hs.phased n).mono rfl rfl id id id id)
  unfold State.pollMissed
  dsimp only
  split
  · exact (counted 0).enterFault n _ (by rw [State.setPort_same]; exact flight)
  · exact counted _

/-! ## Frames from a device (R22, R33, R38) -/

theorem takeData (hs : s.Rooted) (n : PortNo) (payload : List Byte) : (s.takeData n payload).Rooted := by
  have replaced : (s.setPort n (s.ports[n].takeData payload)).Rooted :=
    hs.setPort_same n ((hs.phased n).mono rfl rfl id id id id)
  have taken : (((s.setPort n (s.ports[n].takeData payload)).fieldUpdate n).fieldPosition n).Rooted :=
    (State.fieldPosition_keeps State.Rooted (fun _ _ => rfl) (fun _ _ => rfl) (fun _ _ => rfl) _ n).mpr
      (replaced.fieldUpdate n)
  unfold State.takeData
  dsimp only
  split
  · exact (State.offerPass_keeps State.Rooted (fun _ _ => rfl) (fun _ _ => rfl) _ n payload).mpr taken
  · exact taken

theorem queryReply (hs : s.Rooted) (n : PortNo) (f : DeviceFrame) (querying : s.ports[n].querying = true) :
    (s.queryReply n f).Rooted := by
  have ended := hs.endExchange n
  have unasked := State.Guarded.endExchange_unasked s n
  have failed := ended.queryFailed n unasked
  unfold State.queryReply
  dsimp only
  split
  · split
    · next d _ =>
      have notBound : s.ports[n].state ≠ .bound := fun bound => by
        have asked := (hs.phased n).query (Or.inr (Or.inr querying))
        rw [bound] at asked
        exact asked.elim nofun fun both => nomatch both.1
      have identified : ((s.endExchange n).ports[n].identify d).Phased :=
        (ended.phased n).mono rfl rfl (fun due => absurd due Bool.false_ne_true)
          (fun timed => absurd timed Bool.false_ne_true) id id
      refine ended.lookupAs n (Port.leaveFault_state _) (Port.leaveFault_calm identified rfl rfl unasked) ?_
      rw [State.endExchange_port]
      exact notBound
    · exact failed
  · exact failed
  · exact failed

theorem pollReply (hs : s.Rooted) (n : PortNo) (f : DeviceFrame) : (s.pollReply n f).Rooted := by
  have ended := hs.endExchange n
  have missed := ended.pollMissed n (State.Guarded.endExchange_unasked s n)
  unfold State.pollReply
  dsimp only
  split
  · split
    · exact ended.takeData n _
    · exact missed
  · exact missed
  · exact missed

theorem writeReply (hs : s.Rooted) (n : PortNo) (f : DeviceFrame) : (s.writeReply n f).Rooted := by
  have ended := hs.endExchange n
  unfold State.writeReply
  split
  · split
    · exact ended.answerPass n _ _
    · exact hs
  · exact ended.answerPass n _ _
  · exact hs
  · exact hs

theorem deviceFrameIn (hs : s.Rooted) (n : PortNo) (f : DeviceFrame) : (s.deviceFrameIn n f).Rooted := by
  unfold State.deviceFrameIn
  split
  · exact hs
  · next x exchange =>
    split
    · split
      · next query =>
        refine (hs.queryReply n f ?_).startWork n
        rw [Port.querying, exchange, Option.any_some, query]
        rfl
      · exact (hs.pollReply n f).startWork n
      · exact (hs.writeReply n f).startWork n
    · exact hs

theorem setGot (hs : s.Rooted) (n : PortNo) {x : Exchange} (exchange : s.ports[n].exchange = some x)
    (got : List Byte) : (s.setGot n x got).Rooted := by
  refine hs.setPort_same n ((hs.phased n).mono rfl rfl id id (fun query => ?_) id)
  rw [Port.querying, exchange]
  exact query

theorem deviceBytes (hs : s.Rooted) (n : PortNo) (bs : List LineByte) : (s.deviceBytes n bs).Rooted := by
  refine foldl_invariant (fun s b hs => ?_) bs hs
  unfold State.deviceByte
  split
  · exact hs
  · next x exchange =>
    have frame (got : List Byte) (f : DeviceFrame) := (hs.setGot n exchange got).deviceFrameIn n f
    dsimp only
    split_ifs
    · exact frame _ _
    · exact frame _ _
    · exact frame _ _
    · exact hs.setGot n exchange _
    · exact hs

/-! ## Service mode, PROBE and detach (R40–R44) -/

theorem serviceOff (hs : s.Rooted) (n : PortNo) : (s.serviceOff n).Rooted := by
  rw [State.serviceOff_eq]
  split
  · exact hs.of_port n rfl ((hs.phased n).mono rfl rfl id id id id) rfl rfl (or_iff_not_imp_left.mpr hs.free)
  · exact hs

theorem serviceEnds (hs : s.Rooted) : s.serviceEnds.Rooted := by
  unfold State.serviceEnds
  split
  · exact hs.serviceOff _
  · exact hs

theorem serviceOn (hs : s.Rooted) (n : PortNo) : (s.serviceOn n).Rooted := by
  unfold State.serviceOn
  split
  · exact hs
  · have ended : State.Rooted { s.serviceEnds with service := some n } := hs.serviceEnds
    have held := ended.setPort_same n
      (p := { s.serviceEnds.ports[n] with missed := 0, pollDue := false, resumes := false })
      ((ended.phased n).mono rfl rfl id id id id)
    exact held.demoted (State.portStatus_demoted _ n (st := .stale) (by decide))

/-- R43: a PROBE takes the entries over the port from VALID. -/
theorem probe (hs : s.Rooted) (n : PortNo) : (s.probe n).Rooted := by
  have quiet : s.ports[n].quiet.Calm := ⟨rfl, rfl, rfl, rfl⟩
  have undone : (s.undone n).Rooted :=
    hs.of_told n ((s.undone_of_conv n (·.ports) (fun _ _ => rfl) fun _ _ => rfl).trans (s.quieted_ports n)) quiet.phased
      ((s.undone_of_conv n (·.scan.slots) (fun _ _ => rfl) fun _ _ => rfl).trans
        (s.quieted_keeps n (·.scan.slots) (fun _ _ => rfl) (fun _ _ => rfl) fun _ _ => rfl))
      (st := .noSource) (State.setLineMode_keeps (·.conv) (fun _ _ => rfl) _ n .none 0) (by decide) (s.quieted_conv n)
      (s.quieted_keeps n (·.scan.slots) (fun _ _ => rfl) (fun _ _ => rfl) fun _ _ => rfl)
  have ports : (s.undone n).ports[n] = s.ports[n].quiet := by
    rw [s.undone_of_conv n (·.ports) (fun _ _ => rfl) fun _ _ => rfl, s.quieted_ports, vector_set_same]
  rw [State.probe_eq]
  exact undone.enterDetecting n (ports ▸ quiet)
    ((State.setLineMode_keeps (fun t => t.Free n) (fun _ _ => rfl) _ n .none 0).mpr
      ((s.quieted n).portStatus_free n (by decide)))

theorem runPortOp (hs : s.Rooted) (n : PortNo) (op : PortOp) (place : Nat) : (s.runPortOp n op place).Rooted := by
  unfold State.runPortOp
  split
  · refine State.Rooted.startWork ?_ n
    exact hs.setPort_same n ((hs.phased n).mono rfl rfl id id id id)
  · exact hs.serviceOn n
  · exact hs.serviceOff n
  · exact hs.setPort_same n ((hs.phased n).mono rfl rfl id id id id)
  · exact hs.probe n

/-- R44: a detach takes the entries over the port from VALID. -/
theorem detach (hs : s.Rooted) (n : PortNo) : (s.detach n).Rooted := by
  have unhanded : (s.unhanded n).Rooted :=
    (State.loseMotor_keeps State.Rooted (fun _ _ => rfl) (fun _ _ => rfl) _ n .detached).mpr (hs.answerPass n _ _)
  have told := (s.unhanded n).portStatus_demoted n (st := .noSource) (by decide)
  have unlined : (s.unlined n).Rooted :=
    (State.setLineMode_keeps State.Rooted (fun _ _ => rfl) _ n .none 0).mpr (unhanded.demoted told)
  have unlinedFree : (s.unlined n).Free n :=
    (State.setLineMode_keeps (fun t => t.Free n) (fun _ _ => rfl) _ n .none 0).mpr
      ((s.unhanded n).portStatus_free n (by decide))
  have cleared : (s.cleared n).Rooted := (unlined.serviceOff n).cancelIdent n
  have freed : ((s.unlined n).serviceOff n).Free n :=
    (State.serviceOff_keeps (fun t => t.Free n) (fun _ _ => rfl) (fun _ _ => rfl) _ n).mpr unlinedFree
  have free : (s.cleared n).Free n := cancelIdent_free freed n
  rw [State.detach_eq]
  generalize s.cleared n = u at cleared free ⊢
  exact cleared.of_port n rfl (Port.Calm.phased ⟨rfl, rfl, rfl, rfl⟩) rfl rfl (Or.inr free)

theorem acceptDet (hs : s.Rooted) (n : PortNo) : (s.acceptDet n).Rooted := by
  have accepted : (s.setPort n { s.ports[n] with detAccepted := s.ports[n].det }).Rooted :=
    hs.setPort_same n ((hs.phased n).mono rfl rfl id id id id)
  unfold State.acceptDet
  dsimp only
  split
  · exact hs
  · split
    · split
      · next empty =>
        have calm := (hs.phased n).calm (by rw [empty]; exact nofun) (by rw [empty]; exact nofun)
        refine accepted.enterDetecting n ?_ (hs.free (by rw [empty]; exact nofun))
        rw [State.setPort_same]
        exact ⟨calm.due, calm.timer, calm.flight, calm.reprobe⟩
      · exact accepted
    · split
      · exact accepted
      · exact accepted.detach n

end State.Rooted

end Sys2Proof.Machine
end

