-- ==== Sys2Proof/Proofs/RootedWrites.lean ====
section
/-! PROOFS. What the table writes keep of O60: rebinding (R31), the written slots and their entries (R46, R77, R78), and
the written entries, whose records name lower entries (R62), with the chains below them (R63, R79). -/

namespace Sys2Proof.Machine

/-! ## PROFILES (R31) -/

theorem State.Rooted.writeProfiles {s : State} (hs : s.Rooted) (first : Nat) (rs : List Profile) :
    (s.writeProfiles first rs).Rooted := by
  have written : State.Rooted { s with profiles := replaceRange s.profiles first rs } := hs
  exact foldl_invariant (fun t n ht => ht.rebindPort _ _ n) allPorts written

/-! ## SCAN LIST (R46, R77, R78) -/

/-- Section 4.2: which port a source other than a slot lies on is a matter of its configuration. -/
theorem State.sourcePort_unslotted {s t : State} {c : ConvConfig} (kind : c.sourceKind ≠ .slot) :
    t.sourcePort c = s.sourcePort c := by
  unfold State.sourcePort
  cases h : c.sourceKind
  case slot => exact absurd h kind
  all_goals rfl

/-- Section 4.2: an entry over a port by way of a slot names one of the slots. -/
theorem State.sourcePort_slot_index {s : State} {c : ConvConfig} {n : PortNo} (kind : c.sourceKind = .slot)
    (port : s.sourcePort c = some n) : ∃ i : Fin 16, c.sourceIndex = byteOf i.val := by
  unfold State.sourcePort at port
  rw [kind] at port
  dsimp only at port
  split at port
  · next range => exact ⟨⟨c.sourceIndex.toNat, range⟩, by simp [byteOf]⟩
  · exact absurd port nofun

/-- R46: after a write of slots, a source lies where it lay, or it is a written slot. -/
theorem State.withSlots_sourcePort {s : State} {first : Nat} {rs : List ScanSlot} {c : ConvConfig} {n : PortNo}
    (port : (s.withSlots first rs).sourcePort c = some n) :
    s.sourcePort c = some n ∨ ∃ i : Fin 16, c.sourceKind = .slot ∧ c.sourceIndex.toNat = i.val ∧
      (first ≤ i.val ∧ i.val < first + rs.length) ∧
      inputPort (s.withSlots first rs).scan.slots[i].input = some n := by
  by_cases kind : c.sourceKind = .slot
  · obtain ⟨i, index⟩ := State.sourcePort_slot_index kind port
    have slot : (s.withSlots first rs).scan.slots[i] = _ :=
      replaceRange_get s.scan.slots first rs.length { input := 0, average := 1 } rfl i
    rw [State.sourcePort_slot kind index] at port
    by_cases written : first ≤ i.val ∧ i.val < first + rs.length
    · exact Or.inr ⟨i, kind, by rw [index, toNat_byteOf (by omega)], written, port⟩
    · rw [slot, if_neg written] at port
      exact Or.inl ((State.sourcePort_slot kind index).trans port)
  · exact Or.inl ((State.sourcePort_unslotted kind).symm.trans port)

theorem State.writeScanList_demoted (s : State) (first : Nat) (rs : List ScanSlot) :
    (s.withSlots first rs).Demoted (s.writeScanList first rs) := by
  rw [State.writeScanList_eq]
  refine State.foldl_demoted (fun t i => ?_) _
  unfold State.visitSlot
  split
  · exact t.slotNoSource_demoted i
  · exact State.Demoted.refl t

/-- R77: a SLOT entry that is VALID after a write lies on no port or on a BOUND one. -/
theorem State.Rooted.writeScanList {s : State} (hs : s.Rooted) (first : Nat) (rs : List ScanSlot) :
    (s.writeScanList first rs).Rooted := by
  have demoted := s.writeScanList_demoted first rs
  have ports : (s.writeScanList first rs).ports = s.ports := demoted.keep (·.ports) fun _ _ => rfl
  have linked := demoted.linked (hs.linked.congr (s.withSlots_conv first rs))
  refine .of_linked (fun n => ?_) linked fun e n valid port => ?_
  · rw [ports]
    exact hs.phased n
  · have same := demoted.valid e valid
    rw [State.withSlots_conv] at same
    rw [demoted.sourcePort, same] at port
    rw [ports]
    rcases State.withSlots_sourcePort port with before | ⟨i, kind, index, written, input⟩
    · exact hs.bound (same ▸ valid) before
    · by_contra unbound
      have taken := s.writeScanList_noSource written ((State.slotUnbound_iff _ i).mpr ⟨n, input, unbound⟩) kind index
        (by rw [← same, valid]; exact nofun)
      exact absurd (valid.symm.trans taken) nofun

/-! ## CONVERSION (R62, R63, R79) -/

/-- R8, check 5: each record of a write that passes is the decoding of its bytes, for its index. -/
theorem decodeAll_get {α : Type} {f : Nat → List Byte → Option (α × Bool)} {size count i : Nat} {data : List Byte}
    {rs : List α} {clamped : Bool} (h : decodeAll f size count i data = .ok (rs, clamped)) (k : Nat)
    (hk : k < rs.length) : ∃ bs adjusted, f (i + k) bs = some (rs[k], adjusted) := by
  induction count generalizing i data rs clamped k with
  | zero =>
    cases h
    exact absurd hk (Nat.not_lt_zero k)
  | succ count ih =>
    rw [decodeAll] at h
    split at h
    · cases h
    · next first hfirst =>
      split at h
      · cases h
      · next tail htail =>
        cases h
        cases k with
        | zero => exact ⟨_, _, hfirst⟩
        | succ k =>
          obtain ⟨bs, adjusted, rest⟩ := ih (clamped := tail.2) htail k (Nat.lt_of_succ_lt_succ hk)
          exact ⟨bs, adjusted, by rw [← Nat.add_right_comm, Nat.add_assoc] at rest; exact rest⟩

/-- R62: a record of kind ENTRY that passes names a lower entry. -/
theorem ConvConfig.decode_below {i : Nat} {bs : List Byte} {c : ConvConfig} {adjusted : Bool}
    (h : ConvConfig.decode i bs = some (c, adjusted)) (kind : c.sourceKind = .entry) : c.sourceIndex.toNat < i := by
  simp only [ConvConfig.decode, Option.bind_eq_bind, Option.bind_eq_some_iff, Option.ite_none_left_eq_some,
    Option.some.injEq, Prod.mk.injEq] at h
  obtain ⟨_, _, _, _, _, _, good, rfl, _⟩ := h
  by_contra above
  exact good ((ConvConfig.bad_iff _ i).mpr (Or.inr (Or.inl ⟨kind, not_lt.mp above⟩)))

section
variable {s : State} {first : Nat} {rs : List ConvConfig}

/-- R62: a write of entries that name lower ones. -/
theorem State.withConfigs_down (down : s.ChainsDown)
    (below : ∀ k (hk : k < rs.length), rs[k].sourceKind = .entry → rs[k].sourceIndex.toNat < first + k) :
    (s.withConfigs first rs).ChainsDown := by
  intro i kind
  have entry := s.withConfigs_get first rs i
  generalize (s.withConfigs first rs).conv[i] = e at entry kind ⊢
  by_cases written : first ≤ i.val ∧ i.val < first + rs.length
  · have inside : i.val - first < rs.length := by omega
    rw [if_pos written, List.getD_eq_getElem _ _ inside] at entry
    rw [entry] at kind ⊢
    exact (below _ inside kind).trans_eq (Nat.add_sub_cancel' written.1)
  · rw [if_neg written] at entry
    rw [entry] at kind ⊢
    exact down i kind

theorem State.writeConversion_restatused (s : State) (first : Nat) (rs : List ConvConfig) :
    (s.withConfigs first rs).Restatused (s.writeConversion first rs) := by
  rw [State.writeConversion_eq]
  exact foldl_invariant (I := (s.withConfigs first rs).Restatused)
    (fun t i ht => ht.trans (t.noSourceBelow_restatused i _)) _ (State.Restatused.refl _)

/-- R63, R79: an entry that is VALID after a write is not written, reads no written entry even through a chain, and is
as it was. -/
theorem State.writeConversion_valid {k : Fin 32} (valid : (s.writeConversion first rs).conv[k].status = .valid) :
    ¬ (first ≤ k.val ∧ k.val < first + rs.length) ∧
      (∀ i, i ∈ namedList 32 first rs.length → k ∉ (s.withConfigs first rs).chainBelow i) ∧
      (s.writeConversion first rs).conv[k] = s.conv[k] := by
  obtain ⟨hit, missed⟩ := s.writeConversion_get first rs k
  have unwritten : ¬ (first ≤ k.val ∧ k.val < first + rs.length) := fun written => by
    rw [hit written] at valid
    exact absurd valid nofun
  obtain ⟨chained, free⟩ := missed unwritten
  have outside (i : Fin 32) (hi : i ∈ namedList 32 first rs.length) :
      k ∉ (s.withConfigs first rs).chainBelow i := fun hk => by
    rw [chained ⟨i, hi, hk⟩] at valid
    exact ConvEntry.take_notValid _ (by decide) valid
  exact ⟨unwritten, outside, free outside⟩

theorem State.Rooted.writeConversion (hs : s.Rooted)
    (below : ∀ k (hk : k < rs.length), rs[k].sourceKind = .entry → rs[k].sourceIndex.toNat < first + k) :
    (s.writeConversion first rs).Rooted := by
  have restatused := s.writeConversion_restatused first rs
  have ports : (s.writeConversion first rs).ports = s.ports :=
    State.writeConversion_keeps (·.ports) (fun _ _ => rfl) s first rs
  have source (c : ConvConfig) : (s.writeConversion first rs).sourcePort c = s.sourcePort c :=
    State.writeConversion_keeps (fun u => u.sourcePort c) (fun _ _ => rfl) s first rs
  have down : (s.withConfigs first rs).ChainsDown := State.withConfigs_down hs.linked.down below
  refine .of_linked (fun n => ?_) ⟨down.congr restatused.configs, fun i j valid reads => ?_⟩ fun k n valid port => ?_
  · rw [ports]
    exact hs.phased n
  · obtain ⟨unwritten, outside, same⟩ := State.writeConversion_valid valid
    have chained : (s.withConfigs first rs).conv[i].dependsOn j = true := by
      rw [← restatused.configs.dependsOn]
      exact reads
    have jUnwritten : ¬ (first ≤ j.val ∧ j.val < first + rs.length) := fun written =>
      outside j (mem_namedList.mpr written) (State.mem_chainBelow chained)
    have jOutside : ∀ m, m ∈ namedList 32 first rs.length → j ∉ (s.withConfigs first rs).chainBelow m :=
      fun m hm hj => outside m hm (State.chainBelow_closed down hj chained)
    rw [((s.writeConversion_get first rs j).2 jUnwritten).2 jOutside]
    rw [same] at valid reads
    exact hs.linked.source i j valid reads
  · obtain ⟨_, _, same⟩ := State.writeConversion_valid valid
    rw [same] at valid
    rw [source, same] at port
    rw [ports]
    exact hs.bound valid port

end

/-! ## TABLE WRITE (R8, R9) -/

/-- The state an owner leaves: as it was, or as the records that pass make it. -/
theorem owner_decoded {α : Type} {P : State → Prop} {s : State} (hs : P s) (decoded : Except Nat (List α × Bool))
    {apply : List α → State} (h : ∀ rs clamped, decoded = .ok (rs, clamped) → P (apply rs)) :
    P (owner s decoded fun rs adj => taken adj (apply rs)).state := by
  unfold owner
  split
  · exact hs
  · rw [Reply.state_taken]
    exact h _ _ rfl

/-- R8, R9: a TABLE WRITE refuses, or its owner takes the records. -/
theorem State.Rooted.writeRecords {s : State} (hs : s.Rooted) (t : Table) (first count : Nat) (data : List Byte) :
    (s.writeRecords t first count data).state.Rooted := by
  unfold State.writeRecords
  cases t
  case settings =>
    refine owner_taken hs _ fun rs => foldl_invariant (fun u r hu => ?_) rs hs
    exact (State.writeSettings_keeps State.Rooted (fun _ _ => rfl) (fun _ _ => rfl) (fun _ _ => rfl) (fun _ _ => rfl) u
      r).mpr hu
  case profiles => exact owner_taken hs _ fun rs => hs.writeProfiles first rs
  case scanList => exact owner_taken hs _ fun rs => hs.writeScanList first rs
  case conversion =>
    refine owner_decoded hs _ fun rs clamped decoded => hs.writeConversion fun k hk kind => ?_
    obtain ⟨bs, adjusted, record⟩ := decodeAll_get decoded k hk
    exact ConvConfig.decode_below record kind
  case reactions =>
    exact owner_taken hs _ fun rs =>
      (State.writeReactions_keeps State.Rooted (fun _ _ => rfl) (fun _ _ => rfl) s first rs).mpr hs
  case marks => exact owner_taken hs _ fun _ => hs
  case budget =>
    refine owner_state hs _ fun _ _ => ?_
    unfold State.writeBudget
    split <;> exact hs
  case reports => exact owner_taken hs _ fun _ => hs
  case clips =>
    refine owner_state hs _ fun _ _ => ?_
    unfold State.writeClips
    split <;> exact hs
  case sampleStore =>
    unfold State.writeStore
    dsimp only
    split <;> exact hs
  all_goals exact hs

theorem State.Rooted.tableWrite {s : State} (hs : s.Rooted) (t : Table) (first count : Nat) (data : List Byte) :
    (s.tableWrite t first count data).state.Rooted := by
  unfold State.tableWrite
  split
  · exact hs
  · split
    · exact hs
    · exact hs.writeRecords t first count data

end Sys2Proof.Machine
end

