-- ==== Sys2Proof/Proofs/RootedSteps.lean ====
section
/-! PROOFS. Every step keeps chains running downward and no VALID entry over a port that is not BOUND (O60): the
commands, the reactions, the link and the rows of exec. -/

namespace Sys2Proof.Machine

namespace State.Rooted

variable {s : State}

/-! ## Commands -/

/-- R6: whatever a taken command is, its handler keeps the invariant. -/
theorem handlers : HandlersKeep State.Rooted where
  write s t first count data hs := hs.tableWrite t first count data
  motor s channel notify op hs := by
    unfold State.motorCommand State.motorOp
    split
    · dsimp only
      split
      · exact hs
      · exact (State.runMotorOp_keeps State.Rooted (fun _ _ => rfl) (fun _ _ => rfl) (fun _ _ => rfl) s ..).mpr hs
    · exact hs
  sound s op hs := by
    unfold State.soundCommand State.soundOp
    dsimp only [Reply.state_answered]
    split
    · exact hs
    · exact (State.runSoundOp_keeps State.Rooted (fun _ _ => rfl) (fun _ _ => rfl) s op).mpr hs
  scan s op hs := hs.scanOp op
  port s port op adjusted order hs := by
    unfold State.portCommand
    split
    · split
      · exact hs
      · split <;> simp only [Reply.state_deferred, Reply.state_taken] <;> exact hs.runPortOp ..
    · exact hs
  report s entry hs := by
    unfold State.reportNowCommand
    split
    · exact (State.reportDue_keeps State.Rooted (fun _ _ => rfl) (fun _ _ => rfl) s _).mpr hs
    · exact hs
  reset s payload order hs := by
    unfold State.resetCommand
    split <;> exact hs

/-- R5, R19: the door and the transmitter let the ports and the table be. -/
theorem linkKeeps : LinkKeeps State.Rooted where
  reserve := fun _ _ _ _ hs => hs
  finish := fun _ _ _ _ hs => hs
  offer s f hs := by
    unfold State.offerFrame
    split
    · exact hs
    · dsimp only
      split <;> exact hs
  take := fun _ _ _ _ hs => hs
  transmit s hs := (State.transmitNext_keeps State.Rooted (fun _ _ => rfl) (fun _ _ => rfl) (fun _ _ => rfl) s).mpr hs

/-! ## Motors, reactions, silence and the budget window -/

/-- R98: a regulation hands the speed on; the rest of it is the channel's. -/
theorem regulation (hs : s.Rooted) (n : PortNo) (p : Profile) : (s.regulation n p).Rooted := by
  have measured : (s.measure n p).Rooted := speedUpdate (s := s.setMotor n _) hs n
  unfold State.regulation
  dsimp only
  split
  · split
    · exact (State.stopMotor_keeps State.Rooted (fun _ _ => rfl) (fun _ _ => rfl) _ n _ _).mpr measured
    · exact (State.completionCheck_keeps State.Rooted (fun _ _ => rfl) (fun _ _ => rfl) _ n p).mpr measured
  · split
    · exact (State.stallCheck_keeps State.Rooted (fun _ _ => rfl) (fun _ _ => rfl) _ n p).mpr measured
    · exact measured

/-- R151–R157: of the actions, the SCAN operations alone reach what the invariant speaks of. -/
theorem act (hs : s.Rooted) (i : Fin 24) (r : Reaction) (e : Event) : (s.act i r e).Rooted := by
  have sound : (s.soundAction r).Rooted :=
    (State.soundAction_keeps State.Rooted (fun _ _ => rfl) (fun _ _ => rfl) (fun _ _ => rfl) s r).mpr hs
  unfold State.act
  split
  · exact hs
  · exact hs
  · exact (State.motorAction_keeps State.Rooted (fun _ _ => rfl) (fun _ _ => rfl) (fun _ _ => rfl) (fun _ _ => rfl)
      (fun _ _ => rfl) s r).mpr hs
  · exact sound
  · exact sound
  · exact sound
  · split
    · exact (State.enable_keeps State.Rooted (fun _ _ => rfl) (fun _ _ => rfl) s _).mpr hs
    · exact hs
  · split <;> exact hs
  · exact (State.markAction_keeps State.Rooted (fun _ _ => rfl) (fun _ _ => rfl) (fun _ _ => rfl) s r).mpr hs
  · split
    · exact (State.reportDue_keeps State.Rooted (fun _ _ => rfl) (fun _ _ => rfl) s _).mpr hs
    · exact hs
  · exact hs.scanOp _
  · exact hs.scanOp _
  · exact hs.scanOp _

theorem dispatchEvent (hs : s.Rooted) (e : Event) (rest : List Event) : (s.dispatchEvent e rest).Rooted := by
  have reached : ∀ (t : State) (i : Fin 24), t.Rooted → (State.reach e t i).Rooted := fun t i ht => by
    unfold State.reach
    split
    · exact act (s := { t.setReaction i _ with bus := t.bus.atEntry i }) ht i _ e
    · exact ht
  exact foldl_invariant reached (s.candidates e) (s := { s with bus := s.bus.takeEvent e rest }) hs

theorem goSilent (hs : s.Rooted) : s.goSilent.Rooted :=
  (State.stopSound_keeps State.Rooted (fun _ _ => rfl) (fun _ _ => rfl) _).mpr
    ((State.stopAll_keeps State.Rooted (fun _ _ => rfl) (fun _ _ => rfl) _ .safeStop).mpr hs)

theorem window (hs : s.Rooted) : s.window.Rooted :=
  (State.window_keeps State.Rooted (fun _ _ => rfl) (fun _ _ => rfl) (fun _ _ => rfl) (fun _ _ => rfl) s).mpr hs

/-- R13: after a reset every port and every entry is EMPTY. -/
theorem afterReset (cause : ResetCause) (strap : BitVec 2) (det : Vector Bool 6) (pins : Vector (Bool × Bool) 6)
    (clips : Vector Clip 16) (store : List Host.Cell) (pending : List Instr) :
    (State.afterReset cause strap det pins clips store pending).Rooted := by
  have entry (i : Fin 32) : (State.afterReset cause strap det pins clips store pending).conv[i] =
      ConvEntry.fresh ConvConfig.reset := by simp [State.afterReset]
  refine ⟨fun n => (State.Guarded.afterReset cause strap det pins clips store pending n).phased, fun i kind => ?_,
    fun i valid => ?_⟩
  · rw [entry] at kind
    exact absurd kind nofun
  · rw [entry] at valid
    exact absurd valid nofun

/-! ## Reception and the transmitter -/

theorem takeAll (hs : s.Rooted) : s.takeAll.Rooted := LinkKeeps.takeFrames linkKeeps handlers _ s hs

theorem acceptFrame (hs : s.Rooted) (f : Frame) : (s.acceptFrame f).Rooted :=
  linkKeeps.transmit _ (takeAll (linkKeeps.offer _ f hs))

theorem receiveByte (hs : s.Rooted) (b : LineByte) : (s.receiveByte b).Rooted := by
  unfold State.receiveByte
  split
  · unfold Link.byteError
    split <;> exact hs
  · split
    · split <;> exact hs
    · split <;> exact hs
    · exact hs
    · split
      · exact hs.acceptFrame _
      · exact hs

theorem transmitted (hs : s.Rooted) (x : Sending) : (s.transmitted x).Rooted := by
  unfold State.transmitted
  split
  · exact afterReset _ _ _ _ _ _ _
  · have sent : State.Rooted { s with link := s.link.sent x } := hs
    exact linkKeeps.transmit _ (takeAll (linkKeeps.transmit _ sent))

end State.Rooted

/-! ## Rows -/

/-- A row that the transmitter ends. -/
theorem settled_rooted {s : State} (hs : s.Rooted) : EndsWith State.Rooted (settled s) :=
  State.Rooted.linkKeeps.transmit s hs

section
variable {s : State} (hs : s.Rooted) (n : PortNo)
include hs

/-! ### The rows of a port -/

theorem execDetDebounceExpiry_rooted : EndsWith State.Rooted (execDetDebounceExpiry n s) := by
  unfold execDetDebounceExpiry
  split
  · exact hs
  · have expired : (s.setPort n { s.ports[n] with detTimer := none }).Rooted :=
      hs.setPort_same n ((hs.phased n).mono rfl rfl id id id id)
    exact settled_rooted (expired.acceptDet n)

/-- R27: a query try falls due at a port that its timer shows to be queried. -/
theorem execQueryTryDue_rooted : EndsWith State.Rooted (execQueryTryDue n s) := by
  unfold execQueryTryDue
  split
  · exact hs
  · next timer =>
    have asked := (hs.phased n).query (Or.inr (Or.inl (Option.isSome_of_eq_some timer)))
    have due : (s.setPort n { s.ports[n] with queryTimer := none, queryDue := true }).Rooted :=
      hs.setPort_same n ⟨fun _ => asked, (hs.phased n).reprobe⟩
    exact due.startWork n

theorem execDeviceFrameSent_rooted : EndsWith State.Rooted (execDeviceFrameSent n s) := by
  unfold execDeviceFrameSent
  split
  · exact hs
  · next x exchange =>
    refine hs.setPort_same n ((hs.phased n).mono rfl rfl id id (fun query => ?_) id)
    rw [Port.querying, exchange]
    exact query

theorem execQueryWindowClose_rooted : EndsWith State.Rooted (execQueryWindowClose n s) := by
  unfold execQueryWindowClose
  split
  · exact settled_rooted (((hs.endExchange n).queryFailed n (State.Guarded.endExchange_unasked s n)).startWork n)
  · exact hs

theorem execPollWindowClose_rooted : EndsWith State.Rooted (execPollWindowClose n s) := by
  unfold execPollWindowClose
  split
  · exact settled_rooted (((hs.endExchange n).pollMissed n (State.Guarded.endExchange_unasked s n)).startWork n)
  · exact hs

theorem execWriteWindowClose_rooted : EndsWith State.Rooted (execWriteWindowClose n s) := by
  unfold execWriteWindowClose
  split
  · exact settled_rooted (((hs.endExchange n).answerPass n _ _).startWork n)
  · exact hs

theorem execPollTimerExpiry_rooted : EndsWith State.Rooted (execPollTimerExpiry n s) := by
  unfold execPollTimerExpiry
  dsimp only
  split
  · exact hs
  · split
    · exact hs
    · have due (missed : Nat) :
          (s.setPort n { s.ports[n] with pollDue := true, resumes := false, missed := missed }).Rooted :=
        hs.setPort_same n ((hs.phased n).mono rfl rfl id id id id)
      exact (due _).startWork n

/-- R35: a re-probe is a query try only where the FAULT is one that is queried. -/
theorem execReprobeExpiry_rooted : EndsWith State.Rooted (execReprobeExpiry n s) := by
  unfold execReprobeExpiry
  split
  · exact hs
  · next timer =>
    have fault := (hs.phased n).reprobe (Option.isSome_of_eq_some timer)
    have restarted : (s.setPort n { s.ports[n] with reprobeTimer := some 500 }).Rooted :=
      hs.setPort_same n ⟨(hs.phased n).query, fun _ => fault⟩
    dsimp only
    split
    · exact restarted.requestIdent n
    · next other =>
      rw [State.setPort_same, State.setPort_setPort]
      have due : (s.setPort n { s.ports[n] with reprobeTimer := some 500, queryDue := true }).Rooted :=
        hs.setPort_same n ⟨fun _ => Or.inr ⟨fault, other⟩, fun _ => fault⟩
      exact due.startWork n

theorem deviceRow_rooted (bs : List LineByte) : EndsWith State.Rooted (settled (s.deviceBytes n bs)) :=
  settled_rooted (hs.deviceBytes n bs)

theorem execDetChange_rooted (closed : Bool) : EndsWith State.Rooted (execDetChange n closed s) := by
  unfold execDetChange
  split
  · exact hs
  · exact hs.setPort_same n ((hs.phased n).mono rfl rfl id id id id)

/-! ### The rows of the lines -/

theorem acceptLine_rooted (l : Lines) (line : Line) :
    EndsWith State.Rooted (settled ((s.setLines n l).acceptLine n line)) :=
  settled_rooted ((State.acceptLine_keeps State.Rooted (fun _ _ => rfl) (fun _ _ => rfl) _ n line).mpr hs)

theorem execDigitalLineChange_rooted (line : Line) (high : Bool) :
    EndsWith State.Rooted (execDigitalLineChange n line high s) := by
  unfold execDigitalLineChange
  dsimp only
  split_ifs
  · exact hs
  · exact acceptLine_rooted hs n _ line
  · exact hs
  · exact hs

theorem execLineDebounceExpiry_rooted (line : Line) :
    EndsWith State.Rooted (execLineDebounceExpiry n line s) := by
  unfold execLineDebounceExpiry
  dsimp only
  split
  · exact hs
  · exact acceptLine_rooted hs n _ line

theorem execQuadratureChange_rooted (high1 high2 : Bool) :
    EndsWith State.Rooted (execQuadratureChange n high1 high2 s) := by
  unfold execQuadratureChange
  dsimp only
  split_ifs
  · exact hs
  · refine settled_rooted (State.Rooted.encoderUpdate ?_ n)
    exact (State.quadraturePosition_keeps State.Rooted (fun _ _ => rfl) (fun _ _ => rfl) (fun _ _ => rfl) _ n
      _ _).mpr hs
  · exact hs

theorem execPulseEdge_rooted (rising : Bool) (time : Word) : EndsWith State.Rooted (execPulseEdge n rising time s) := by
  unfold execPulseEdge
  dsimp only
  split_ifs
  · exact settled_rooted (State.Rooted.pulseUpdate (s := s.setLines n _) hs n)
  · exact hs
  · exact hs
  · exact hs

theorem execNoEdgeExpiry_rooted : EndsWith State.Rooted (execNoEdgeExpiry n s) := by
  unfold execNoEdgeExpiry
  dsimp only
  split
  · exact hs
  · exact settled_rooted (State.Rooted.pulseUpdate (s := s.setLines n _) hs n)

/-! ### The rows of the converter and the channels -/

theorem execIdConversionDone_rooted (code : BitVec 12) : EndsWith State.Rooted (execIdConversionDone code s) := by
  unfold execIdConversionDone
  split
  · refine settled_rooted (State.Rooted.converterNext ?_)
    split
    · exact hs
    · exact hs.identResult _ _
  · exact hs
  · exact hs

theorem execScanConversionDone_rooted (code : BitVec 12) : EndsWith State.Rooted (execScanConversionDone code s) := by
  unfold execScanConversionDone
  split
  · exact settled_rooted (hs.scanConversion ..)
  · exact hs
  · exact hs

theorem execRegulationExpiry_rooted : EndsWith State.Rooted (execRegulationExpiry n s) := by
  unfold execRegulationExpiry
  split
  · exact settled_rooted (hs.regulation n _)
  · exact hs

theorem execRunForExpiry_rooted : EndsWith State.Rooted (execRunForExpiry n s) := by
  unfold execRunForExpiry
  split
  · exact settled_rooted ((State.finishMotor_keeps State.Rooted (fun _ _ => rfl) (fun _ _ => rfl) s n _).mpr hs)
  · exact hs

theorem execNoteDurationExpiry_rooted : EndsWith State.Rooted (execNoteDurationExpiry s) := by
  unfold execNoteDurationExpiry
  split
  · exact hs
  · exact settled_rooted ((State.noteExpiry_keeps State.Rooted (fun _ _ => rfl) (fun _ _ => rfl) s).mpr hs)

end

/-- Every row keeps chains running downward and no VALID entry over a port that is not BOUND. -/
theorem exec_rooted (c : Instr) {s : State} (hs : s.Rooted) : EndsWith State.Rooted (exec c s) := by
  have reports (t : State) (i : Fin 12) (ht : t.Rooted) : (t.reportDue i).Rooted :=
    (State.reportDue_keeps State.Rooted (fun _ _ => rfl) (fun _ _ => rfl) t i).mpr ht
  by_cases hc : isCommand c = true
  · exact State.Rooted.linkKeeps.commands State.Rooted.handlers c hc s hs
  · cases c
    case powerOnReset => exact State.Rooted.afterReset _ _ _ _ _ _ _
    case frameReceived bytes => exact foldl_invariant (I := State.Rooted) (fun _ b h => h.receiveByte b) bytes hs
    case gapTimeout =>
      simp only [exec, execGapTimeout]
      split <;> exact hs
    case silenceTimeout =>
      simp only [exec, execSilenceTimeout]
      split
      · exact hs
      · exact settled_rooted hs.goSilent
    case stampTick => exact hs
    case frameTransmitted =>
      simp only [exec, execFrameTransmitted]
      split
      · exact hs
      · exact hs.transmitted _
    case detChange n closed => exact execDetChange_rooted hs n closed
    case detDebounceExpiry n => exact execDetDebounceExpiry_rooted hs n
    case idConversionDone code => exact execIdConversionDone_rooted hs code
    case queryTryDue n => exact execQueryTryDue_rooted hs n
    case deviceFrameSent n => exact execDeviceFrameSent_rooted hs n
    case queryWindowClose n => exact execQueryWindowClose_rooted hs n
    case pollWindowClose n => exact execPollWindowClose_rooted hs n
    case writeWindowClose n => exact execWriteWindowClose_rooted hs n
    case identReceived => exact deviceRow_rooted hs _ _
    case dataReceived => exact deviceRow_rooted hs _ _
    case ackReceived => exact deviceRow_rooted hs _ _
    case nakReceived => exact deviceRow_rooted hs _ _
    case badDeviceFrame => exact deviceRow_rooted hs _ _
    case pollTimerExpiry n => exact execPollTimerExpiry_rooted hs n
    case reprobeExpiry n => exact execReprobeExpiry_rooted hs n
    case digitalLineChange n line high => exact execDigitalLineChange_rooted hs n line high
    case lineDebounceExpiry n line => exact execLineDebounceExpiry_rooted hs n line
    case quadratureChange n high1 high2 => exact execQuadratureChange_rooted hs n high1 high2
    case pulseEdge n rising time => exact execPulseEdge_rooted hs n rising time
    case noEdgeExpiry n => exact execNoEdgeExpiry_rooted hs n
    case scanConversionDone code => exact execScanConversionDone_rooted hs code
    case regulationExpiry n => exact execRegulationExpiry_rooted hs n
    case runForExpiry n => exact execRunForExpiry_rooted hs n
    case budgetWindowExpiry => exact settled_rooted hs.window
    case outputSample =>
      exact settled_rooted ((State.sample_keeps State.Rooted (fun _ _ => rfl) (fun _ _ => rfl) s).mpr hs)
    case noteDurationExpiry => exact execNoteDurationExpiry_rooted hs
    case eventDispatch =>
      simp only [exec, execEventDispatch]
      split
      · exact hs
      · exact settled_rooted (hs.dispatchEvent _ _)
    case reportPeriodExpiry i =>
      simp only [exec, execReportPeriodExpiry]
      split
      · exact hs
      · exact settled_rooted (reports (s.setReport i _) i hs)
    case minIntervalExpiry =>
      simp only [exec, execMinIntervalExpiry]
      split
      · exact hs
      · split
        · exact settled_rooted (reports _ _ hs)
        · exact hs
    all_goals exact absurd rfl hc

/-- Settles O60: each step is a row of exec on a state whose ports, chains and VALID entries agree. -/
theorem validEntriesStayOverBoundPorts : Obligations.ValidEntriesStayOverBoundPorts := by
  intro s t phased down valid stepped
  have before : s.Rooted := ⟨phased, down, valid⟩
  cases hp : s.pending with
  | nil =>
    have same : s = t := by simpa [step, hp] using stepped
    exact same ▸ ⟨down, valid⟩
  | cons c rest =>
    have row : exec c { s with pending := rest } = .next t := by simpa [step, hp] using stepped
    have kept : EndsWith State.Rooted (.next t) := row ▸ exec_rooted c (s := { s with pending := rest }) before
    exact kept.2

end Sys2Proof.Machine
end

