-- ==== Sys2Proof/Proofs/Stages.lean ====
section
/-! PROOFS. The stages of one evaluation (R68–R74), each as the rules state it: saturation and change limit as bounds,
the alarm window by the sides it watches. -/

namespace Sys2Proof.Machine

/-! ## Scaling, change limit, filter (R69–R71) -/

section
variable (c : ConvConfig)

/-- R69: RAW reads the source as it is; every other mode scales it. -/
theorem ConvConfig.scale_eq (x : Int) : c.scale x = max (-2147483648) (min 2147483647
    (if c.mode = .raw then x else ((x + c.offset.toInt) * c.gain.toInt).tdiv 256)) := by
  unfold ConvConfig.scale
  cases c.mode <;> rfl

theorem ConvConfig.limit_none (y : Int) : c.limit none y = y := rfl

/-- R70: a change greater than the limit is cut to the limit, on its side. -/
theorem ConvConfig.limit_some (q y : Int) : c.limit (some q) y =
    if 0 < c.maxChange.toNat then max (q - c.maxChange.toNat) (min (q + c.maxChange.toNat) y) else y := by
  unfold ConvConfig.limit
  dsimp only
  by_cases limited : 0 < c.maxChange.toNat
  · have positive : (0 : Int) < c.maxChange.toNat := Int.natCast_pos.mpr limited
    rw [if_congr (and_iff_right limited) rfl rfl, if_pos limited]
    generalize (c.maxChange.toNat : Int) = m at positive ⊢
    by_cases cut : |y - q| > m
    · rw [if_pos cut]
      split
      · next up =>
        rw [abs_of_pos (sub_pos.mpr up)] at cut
        omega
      · next down =>
        rw [abs_of_nonpos (sub_nonpos.mpr (not_lt.mp down))] at cut
        omega
    · rw [if_neg cut]
      obtain ⟨least, most⟩ := abs_le.mp (not_lt.mp cut)
      omega
  · rw [if_neg fun both => limited both.1, if_neg limited]

theorem ConvConfig.filter_none (y : Int) : c.filter none y = y := by
  unfold ConvConfig.filter
  cases c.mode <;> rfl

/-- R71: FILTERED moves by a part of the difference. -/
theorem ConvConfig.filter_some (q y : Int) : c.filter (some q) y =
    if c.mode = .filtered then q + (y - q).tdiv (2 ^ c.filterShift) else y := by
  unfold ConvConfig.filter
  cases c.mode <;> rfl

/-! ## The alarm window (R73, R74) -/

theorem Window.watchesHigh_iff (w : Window) : w.watchesHigh = true ↔ w = .high ∨ w = .both := by
  cases w <;> decide

theorem Window.watchesLow_iff (w : Window) : w.watchesLow = true ↔ w = .low ∨ w = .both := by
  cases w <;> decide

/-- R73: the HIGH test comes before the LOW test. -/
theorem ConvConfig.normalTests_eq (v : Int) : c.normalTests v =
    if decide ((c.window = .high ∨ c.window = .both) ∧ c.high.toInt < v) = true then c.countHigh 1
    else if decide ((c.window = .low ∨ c.window = .both) ∧ v < c.low.toInt) = true then c.countLow 1
    else (.normal, 0, []) := by
  have high : (c.window.watchesHigh ∧ v > c.high.toInt) ↔
      decide ((c.window = .high ∨ c.window = .both) ∧ c.high.toInt < v) = true := by
    rw [decide_eq_true_iff, Window.watchesHigh_iff]
  have low : (c.window.watchesLow ∧ v < c.low.toInt) ↔
      decide ((c.window = .low ∨ c.window = .both) ∧ v < c.low.toInt) = true := by
    rw [decide_eq_true_iff, Window.watchesLow_iff]
  rw [ConvConfig.normalTests, if_congr high rfl (if_congr low rfl rfl)]

end

/-! ## The rail check (R68) -/

theorem railSample_iff (x : Int) : railSample x = true ↔ x ≤ 8 ∨ 4087 ≤ x := by
  rw [railSample, Bool.or_eq_true, decide_eq_true_iff, decide_eq_true_iff]

section
variable {e : ConvEntry} {x : Int} (stamp : Half)

/-- R68: a sample that the rail check passes, or that it does not see, goes through the stages. -/
theorem ConvEntry.evaluate_passed (passed : ¬ (e.cfg.railCheck = true ∧ (x ≤ 8 ∨ 4087 ≤ x))) :
    e.evaluate x stamp =
      ConvEntry.stages { e with railRun := if e.cfg.railCheck = true then 0 else e.railRun } x stamp := by
  rw [ConvEntry.evaluate]
  by_cases checked : e.cfg.railCheck = true
  · have sample : ¬ railSample x = true := fun rail => passed ⟨checked, (railSample_iff x).mp rail⟩
    rw [if_pos checked, if_neg sample, if_pos checked]
  · rw [if_neg checked, if_neg checked]

variable (rail : e.cfg.railCheck = true ∧ (x ≤ 8 ∨ 4087 ≤ x))
include rail

/-- R68: an entry in RAIL stays there. -/
theorem ConvEntry.evaluate_rail (held : e.status = .rail) : e.evaluate x stamp = (e, []) := by
  rw [ConvEntry.evaluate, if_pos rail.1, if_pos ((railSample_iff x).mpr rail.2), if_pos held]

/-- R68: the run of rail samples reaches trip_count. -/
theorem ConvEntry.evaluate_trips (other : e.status ≠ .rail) (trips : e.cfg.tripCount ≤ e.railRun + 1) :
    e.evaluate x stamp = ({ e with status := .rail, railRun := e.cfg.tripCount }, [(.railFault, 0)]) := by
  rw [ConvEntry.evaluate, if_pos rail.1, if_pos ((railSample_iff x).mpr rail.2), if_neg other, if_pos trips]

/-- R68: a shorter run of rail samples is counted, and the sample goes through the stages. -/
theorem ConvEntry.evaluate_counted (other : e.status ≠ .rail) (short : e.railRun + 1 < e.cfg.tripCount) :
    e.evaluate x stamp = ConvEntry.stages { e with railRun := e.railRun + 1 } x stamp := by
  rw [ConvEntry.evaluate, if_pos rail.1, if_pos ((railSample_iff x).mpr rail.2), if_neg other,
    if_neg (not_le.mpr short)]

end

end Sys2Proof.Machine
end

