-- ==== Sys2Proof/Proofs/ChainStages.lean ====
section
/-! PROOFS. The chain of an evaluation (R67, R79): the chain below an entry by the sources of its entries, what it
leaves once it has lost its source, and the depth of an evaluation with its chain. -/

namespace Sys2Proof.Machine

/-! ## The source of an entry (R62, R67) -/

/-- R62: the entry that an entry of kind ENTRY names. -/
def State.sourceEntry (s : State) (j : Fin 32) : Option (Fin 32) :=
  if s.conv[j].cfg.sourceKind = .entry ∧ s.conv[j].cfg.sourceIndex.toNat < 32 then
    some (Fin.ofNat 32 s.conv[j].cfg.sourceIndex.toNat) else none

section
variable {s : State} {i j : Fin 32}

theorem State.sourceEntry_eq_some_iff : s.sourceEntry j = some i ↔ s.conv[j].dependsOn i = true := by
  rw [ConvEntry.dependsOn_iff, State.sourceEntry, Option.ite_none_right_eq_some, Option.some.injEq]
  constructor
  · rintro ⟨⟨kind, range⟩, rfl⟩
    exact ⟨kind, (Nat.mod_eq_of_lt range).symm⟩
  · rintro ⟨kind, index⟩
    have range : s.conv[j].cfg.sourceIndex.toNat < 32 := index ▸ i.isLt
    exact ⟨⟨kind, range⟩, Fin.ext ((Nat.mod_eq_of_lt range).trans index)⟩

/-- The entry that is n sources below j. -/
def State.sourceAfter (s : State) (n : Nat) (j : Fin 32) : Option (Fin 32) :=
  (fun o : Option (Fin 32) => o.bind s.sourceEntry)^[n] (some j)

theorem State.sourceAfter_succ (s : State) (n : Nat) (j : Fin 32) :
    s.sourceAfter (n + 1) j = (s.sourceEntry j).bind (s.sourceAfter n) := by
  rw [State.sourceAfter, Function.iterate_succ_apply, Option.bind_some]
  cases s.sourceEntry j with
  | none => exact Function.iterate_fixed rfl n
  | some k => rfl

/-- R62: each source is a lower entry. -/
theorem State.ChainsDown.sourceAfter_add_le (down : s.ChainsDown) {n : Nat} (h : s.sourceAfter n j = some i) :
    i.val + n ≤ j.val := by
  induction n generalizing j with
  | zero => exact (Option.some.inj h ▸ le_rfl : i.val ≤ j.val)
  | succ n ih =>
    rw [State.sourceAfter_succ, Option.bind_eq_some_iff] at h
    obtain ⟨k, source, after⟩ := h
    have below := Fin.lt_def.mp (down.lt (State.sourceEntry_eq_some_iff.mp source))
    have rest := ih after
    omega

/-- R79: the chain below an entry holds the entries from which it is reached by sources. -/
theorem State.mem_chainBelow_iff_sourceAfter (down : s.ChainsDown) :
    j ∈ s.chainBelow i ↔ ∃ n : Nat, s.sourceAfter (n + 1) j = some i := by
  constructor
  · intro h
    induction j using WellFoundedLT.induction with
    | ind j ih =>
      obtain ⟨k, head | chained, reads⟩ := State.chainBelow_source h
      · exact ⟨0, State.sourceEntry_eq_some_iff.mpr (head ▸ reads)⟩
      · obtain ⟨n, after⟩ := ih k (down.lt reads) chained
        refine ⟨n + 1, ?_⟩
        rw [State.sourceAfter_succ, State.sourceEntry_eq_some_iff.mpr reads]
        exact after
  · rintro ⟨n, h⟩
    induction n generalizing j with
    | zero => exact State.mem_chainBelow (State.sourceEntry_eq_some_iff.mp h)
    | succ n ih =>
      rw [State.sourceAfter_succ, Option.bind_eq_some_iff] at h
      obtain ⟨k, source, after⟩ := h
      exact State.chainBelow_closed down (ih after) (State.sourceEntry_eq_some_iff.mp source)

/-- R62, R79: a chain is at most 32 sources deep. -/
theorem State.mem_chainBelow_iff_within (down : s.ChainsDown) :
    j ∈ s.chainBelow i ↔ ∃ n : Fin 32, s.sourceAfter (n.val + 1) j = some i := by
  rw [State.mem_chainBelow_iff_sourceAfter down]
  constructor
  · rintro ⟨n, after⟩
    have deep := down.sourceAfter_add_le after
    exact ⟨⟨n, by omega⟩, after⟩
  · rintro ⟨n, after⟩
    exact ⟨n.val, after⟩

end

/-! ## A chain that has lost its source (R79) -/

/-- R79: an entry that takes NO_SOURCE starts afresh; a pending alarm falls back. -/
theorem ConvEntry.take_noSource (e : ConvEntry) : e.take .noSource =
    if e.status = .noSource then e
    else { e with status := .noSource, prevIn := none, prevOut := none, railRun := 0, pending := 0,
                  alarm := match e.alarm with
                    | .pendHigh | .pendLow | .normal => .normal
                    | .high => .high
                    | .low => .low } := by
  rw [ConvEntry.take, if_pos rfl]
  refine if_congr Iff.rfl rfl ?_
  unfold ConvEntry.freshStart
  cases e.alarm <;> rfl

/-- R64: an entry that takes STALE keeps the rest. -/
theorem ConvEntry.take_stale {e : ConvEntry} (other : e.status ≠ .stale) :
    e.take .stale = { e with status := .stale } := by
  rw [ConvEntry.take, if_neg other, if_neg nofun]

/-- The table with entry i as e, and its chain without a source where it has lost it. -/
def State.tableWith (s : State) (i : Fin 32) (e : ConvEntry) (lost : Bool) : Vector ConvEntry 32 :=
  Vector.ofFn fun j =>
    if j = i then e else if lost = true ∧ j ∈ s.chainBelow i then s.conv[j].take .noSource else s.conv[j]

section
variable {s : State} {i : Fin 32} {e : ConvEntry}

theorem State.setConv_eq (s : State) (i : Fin 32) (e : ConvEntry) :
    s.setConv i e = { s with conv := s.tableWith i e false } := by
  have table : s.conv.set i e = s.tableWith i e false := by
    ext j hj
    have entry := s.setConv_get i ⟨j, hj⟩ e
    simp only [State.tableWith, Vector.getElem_ofFn]
    rw [if_neg fun both : false = true ∧ _ => absurd both.1 Bool.false_ne_true]
    exact entry.trans (if_congr eq_comm rfl rfl)
  rw [← table]
  rfl

/-- R79: the chain below an entry that has just been replaced, its configuration kept, takes NO_SOURCE. -/
theorem State.setConv_noSourceBelow (down : s.ChainsDown) (cfg : e.cfg = s.conv[i].cfg) :
    (s.setConv i e).noSourceBelow i [] = { s with conv := s.tableWith i e true } := by
  have configs : sameConfigs (s.setConv i e).conv s.conv := fun k => by
    rw [State.setConv_get]
    split
    · next same => rw [cfg, same]
    · rfl
  have chain := State.chainBelow_congr (s := s.setConv i e) (t := s) configs i
  have table : ((s.setConv i e).noSourceBelow i []).conv = s.tableWith i e true := by
    ext j hj
    obtain ⟨hit, miss⟩ := (s.setConv i e).noSourceBelow_get i [] ⟨j, hj⟩
    rw [chain, State.setConv_get] at hit miss
    simp only [State.tableWith, Vector.getElem_ofFn, true_and]
    by_cases head : (⟨j, hj⟩ : Fin 32) = i
    · rw [if_pos head]
      rw [if_pos head.symm] at miss
      exact miss (Or.inl fun chained => (State.chainBelow_lt down chained).ne' head)
    · rw [if_neg head]
      rw [if_neg fun same => head same.symm] at hit miss
      by_cases chained : (⟨j, hj⟩ : Fin 32) ∈ s.chainBelow i
      · rw [if_pos chained]
        exact hit chained List.not_mem_nil
      · rw [if_neg chained]
        exact miss (Or.inl chained)
  rw [← table]
  have rest := ((s.setConv i e).noSourceBelow_restatused i []).rest
  exact (congrArg (fun t : State => { t with conv := ((s.setConv i e).noSourceBelow i []).conv }) rest)

/-- R64, R79: an entry takes a status, its chain following when it leaves VALID. -/
theorem State.takeStatus_eq (down : s.ChainsDown) (i : Fin 32) {st : ConvStatus} (lost : st ≠ .valid) :
    s.takeStatus i st =
      { s with conv := s.tableWith i (s.conv[i].take st) (decide (s.conv[i].status = .valid)) } := by
  unfold State.takeStatus
  dsimp only
  by_cases leaves : s.conv[i].status = .valid
  · rw [if_pos ⟨leaves, lost⟩, decide_eq_true leaves]
    exact State.setConv_noSourceBelow down (s.conv[i].take_cfg st)
  · rw [if_neg fun both => leaves both.1, decide_eq_false leaves]
    exact s.setConv_eq i _

/-- R64: a status already held is not taken again, and the chain keeps what it has. -/
theorem State.takeStatus_held {st : ConvStatus} (held : s.conv[i].status = st) : s.takeStatus i st = s := by
  unfold State.takeStatus
  dsimp only
  rw [if_neg fun both => both.2 (held.symm.trans both.1), ConvEntry.take_of_held held]
  exact congrArg (fun v => ({ s with conv := v } : State)) (Vector.set_getElem_self _)

/-! ## The depth of an evaluation (R67) -/

/-- R67: the visit of a dependent of entry i, on the value that the entry has. -/
def State.evaluateNext (fuel : Nat) (i : Fin 32) (acc : State × List (Fin 32)) (j : Fin 32) : State × List (Fin 32) :=
  let next := State.evaluateChain fuel acc.1 j acc.1.conv[i].value.toInt
  (next.1, acc.2 ++ next.2)

/-- A run of visits under an invariant. -/
theorem foldl_congr_invariant {σ β : Type} {f g : σ → β → σ} {I : σ → Prop} {l : List β}
    (keep : ∀ s, ∀ b ∈ l, I s → I (g s b)) (same : ∀ s, ∀ b ∈ l, I s → f s b = g s b) {s : σ} (hs : I s) :
    l.foldl f s = l.foldl g s := by
  induction l generalizing s with
  | nil => rfl
  | cons b l ih =>
    rw [List.foldl_cons, List.foldl_cons, same s b List.mem_cons_self hs]
    exact ih (fun s c hc => keep s c (List.mem_cons_of_mem b hc)) (fun s c hc => same s c (List.mem_cons_of_mem b hc))
      (keep s b List.mem_cons_self hs)

theorem State.evaluated_down (down : s.ChainsDown) (x : Int) : (s.evaluated i x).ChainsDown :=
  down.congr (s.evaluated_configs i x)

theorem State.mem_dependents {j : Fin 32} (h : j ∈ s.dependents i) : s.conv[j].dependsOn i = true :=
  (List.mem_filter.mp h).2

/-- R62, R67: fuel that covers the entries above is enough. -/
theorem State.evaluateChain_fuel (fuel : Nat) {s : State} (down : s.ChainsDown) (i : Fin 32) (x : Int)
    (deep : 32 ≤ fuel + i.val) : State.evaluateChain (fuel + 1) s i x = State.evaluateChain fuel s i x := by
  induction fuel generalizing s i x with
  | zero => omega
  | succ fuel ih =>
    rw [State.evaluateChain_succ (fuel + 1), State.evaluateChain_succ fuel]
    refine if_congr Iff.rfl ?_ rfl
    have after := State.evaluated_down (i := i) down x
    refine foldl_congr_invariant (f := State.evaluateNext (fuel + 1) i) (g := State.evaluateNext fuel i)
      (I := fun acc => acc.1.ChainsDown) (fun acc j _ h => ?_) (fun acc j member h => ?_) after
    · exact h.congr (State.evaluateChain_configs fuel acc.1 j _)
    · have above := Fin.lt_def.mp (after.lt (State.mem_dependents member))
      rw [State.evaluateNext, ih h j _ (by omega)]
      rfl

/-- R67: an evaluation that ends VALID evaluates the dependents on the value it left, each with its own chain. -/
theorem State.evaluateChain_valid (down : s.ChainsDown) (x : Int)
    (valid : (s.conv[i].evaluate x s.bus.stamp).1.status = .valid) :
    State.evaluateChain 32 s i x = (s.dependents i).foldl
      (fun acc j =>
        let next := State.evaluateChain 32 acc.1 j (s.conv[i].evaluate x s.bus.stamp).1.value.toInt
        (next.1, acc.2 ++ next.2)) (s.evaluated i x, [i]) := by
  have after := State.evaluated_down (i := i) down x
  have configs := s.evaluated_configs i x
  have dependents : (s.evaluated i x).dependents i = s.dependents i := by
    simp only [State.dependents, configs.dependsOn]
  have here : (s.evaluated i x).conv[i] = (s.conv[i].evaluate x s.bus.stamp).1 :=
    (s.evaluated_get i x).trans (if_pos rfl)
  rw [State.evaluateChain_succ, if_pos valid, dependents, ← here]
  refine foldl_congr_invariant (f := State.evaluateNext 31 i)
    (I := fun acc => acc.1.ChainsDown ∧ acc.1.conv[i] = (s.evaluated i x).conv[i]) (fun acc j member h => ?_)
    (fun acc j member h => ?_) ⟨after, rfl⟩
  · obtain ⟨accDown, head⟩ := h
    have above := down.lt (State.mem_dependents member)
    exact ⟨accDown.congr (State.evaluateChain_configs 32 acc.1 j _),
      (State.evaluateChain_below 32 accDown _ above).trans head⟩
  · obtain ⟨accDown, head⟩ := h
    have above := Fin.lt_def.mp (down.lt (State.mem_dependents member))
    rw [State.evaluateNext, head, ← State.evaluateChain_fuel 31 accDown j _ (by omega)]

/-- R67, R79: any other evaluation leaves the chain without a source. -/
theorem State.evaluateChain_lost (down : s.ChainsDown) (x : Int)
    (lost : (s.conv[i].evaluate x s.bus.stamp).1.status ≠ .valid) :
    State.evaluateChain 32 s i x =
      ({ s.evaluated i x with conv := s.tableWith i (s.conv[i].evaluate x s.bus.stamp).1 true }, []) := by
  rw [State.evaluateChain_succ, if_neg lost]
  have chain := State.setConv_noSourceBelow (s := { s with bus := (s.evaluated i x).bus }) (i := i) down
    (s.conv[i].evaluate_cfg x s.bus.stamp)
  exact congrArg (fun t : State => (t, ([] : List (Fin 32)))) chain

end

end Sys2Proof.Machine
end

