-- ==== Sys2Proof/Proofs/SourceChecks.lean ====
section
/-! PROOFS. The status an entry takes at an update of its source (R64), by the port that the source lies on, and the
entries that an update visits (R65). -/

namespace Sys2Proof.Machine

/-! ## The port of a source (section 4.2) -/

section
variable {s : State} {c : ConvConfig} {n : PortNo}

theorem eq_byteOf_of_toNat {b : Byte} {k : Nat} (h : b.toNat = k) : b = byteOf k := by
  rw [← h, byteOf_toNat]

/-- Section 4.2: a source over port n. -/
def State.Lies (s : State) (c : ConvConfig) (n : PortNo) : Prop :=
  (c.sourceKind = .slot ∧ ∃ k : Fin 16, c.sourceIndex.toNat = k.val ∧ s.scan.slots[k].input.val = n.val) ∨
  (c.sourceKind ≠ .none ∧ c.sourceKind ≠ .entry ∧ c.sourceKind ≠ .slot ∧ c.sourceIndex.toNat = n.val)

theorem State.Lies.sourcePort (lies : s.Lies c n) : s.sourcePort c = some n := by
  rcases lies with ⟨kind, k, index, input⟩ | ⟨some, notEntry, notSlot, index⟩
  · rw [State.sourcePort_slot kind (eq_byteOf_of_toNat index), inputPort, dif_pos (input.trans_lt n.isLt)]
    exact congrArg Option.some (Fin.ext input)
  · exact State.sourcePort_named (by simp [some, notEntry, notSlot]) (eq_byteOf_of_toNat index)

theorem State.sourcePort_portless (kind : c.sourceKind = .none ∨ c.sourceKind = .entry) : s.sourcePort c = none := by
  unfold State.sourcePort
  rcases kind with kind | kind <;> rw [kind]

/-- R64: what a kind reads of its port. -/
def State.Feeds (s : State) (c : ConvConfig) (n : PortNo) : Prop :=
  (c.sourceKind = .deviceField →
    s.ports[n].band = some .openLine ∧ c.sourceField.toNat < s.ports[n].formats.length) ∧
  (c.sourceKind = .encoder → s.lines[n].mode = .quadrature) ∧
  (c.sourceKind = .pulseHigh ∨ c.sourceKind = .pulsePeriod ∨ c.sourceKind = .pulseDuty → s.lines[n].mode = .pulse) ∧
  (c.sourceKind = .motorSpeed → ∃ k : Fin 16, s.ports[n].profile = some k ∧ s.profiles[k].use = .motor)

/-- Chapter 5: a BOUND port is motor-bound where its profile's use is MOTOR. -/
theorem Port.motorBound_iff {p : Port} (bound : p.state = .bound) (profiles : Vector Profile 16) :
    p.motorBound profiles = true ↔ ∃ k : Fin 16, p.profile = some k ∧ profiles[k].use = .motor := by
  rw [Port.motorBound, bound, Bool.and_eq_true, Option.any_eq_true]
  simp only [beq_self_eq_true, true_and, beq_iff_eq]

theorem State.supplies_iff (bound : s.ports[n].state = .bound) : s.supplies c n = true ↔ s.Feeds c n := by
  have declared : decide (c.sourceField.toNat < s.ports[n].fieldCount) = true ↔
      c.sourceField.toNat < s.ports[n].formats.length := decide_eq_true_iff
  have motor : (s.motorProfile n).isSome = true ↔
      ∃ k : Fin 16, s.ports[n].profile = some k ∧ s.profiles[k].use = .motor := by
    rw [s.motorProfile_isSome, Port.motorBound_iff bound]
  unfold State.supplies State.Feeds
  cases kind : c.sourceKind
  case deviceField => simpa [Port.smart] using fun _ => declared
  case motorSpeed => simpa using motor
  all_goals simp

/-! ## The status in place of an evaluation (R64) -/

theorem State.sourceCheck_portless (port : s.sourcePort c = none) : s.sourceCheck c = none := by
  rw [State.sourceCheck, port]

section
variable (port : s.sourcePort c = some n)
include port

theorem State.sourceCheck_stale (h : s.ports[n].state = .fault ∨ s.service = some n) :
    s.sourceCheck c = some .stale := by
  rw [State.sourceCheck, port]
  exact if_pos (h.imp_right beq_iff_eq.mpr)

theorem State.sourceCheck_unbound (notFault : s.ports[n].state ≠ .fault) (free : s.service ≠ some n)
    (unbound : s.ports[n].state ≠ .bound) : s.sourceCheck c = some .noSource := by
  rw [State.sourceCheck, port]
  exact (if_neg (not_or.mpr ⟨notFault, fun held => free (beq_iff_eq.mp held)⟩)).trans (if_pos unbound)

theorem State.sourceCheck_unfed (bound : s.ports[n].state = .bound) (free : s.service ≠ some n)
    (unfed : ¬ s.Feeds c n) : s.sourceCheck c = some .noSource := by
  have notFault : s.ports[n].state ≠ .fault := by rw [bound]; exact nofun
  rw [State.sourceCheck, port]
  exact (if_neg (not_or.mpr ⟨notFault, fun held => free (beq_iff_eq.mp held)⟩)).trans
    ((if_neg (not_not.mpr bound)).trans (if_neg fun fed => unfed ((State.supplies_iff bound).mp fed)))

end

/-! ## One entry at an update of its source (R64) -/

theorem State.updateEntry_status {i : Fin 32} {st : ConvStatus} (check : s.sourceCheck s.conv[i].cfg = some st)
    (done : List (Fin 32)) (x : Int) : State.updateEntry (s, done) i x = (s.takeStatus i st, done) := by
  rw [State.updateEntry, check]

theorem State.updateEntry_evaluates {i : Fin 32} (check : s.sourceCheck s.conv[i].cfg = none) (done : List (Fin 32))
    (x : Int) : State.updateEntry (s, done) i x =
      ((State.evaluateChain 32 s i x).1, done ++ (State.evaluateChain 32 s i x).2) := by
  rw [State.updateEntry, check]

/-- R64: an entry whose source lies on a port, case by case. -/
theorem State.updateEntry_placed {i : Fin 32} (placed : s.Lies s.conv[i].cfg n) (done : List (Fin 32)) (x : Int) :
    let updated := State.updateEntry (s, done) i x
    (s.ports[n].state = .fault → updated = (s.takeStatus i .stale, done)) ∧
    (s.service = some n → updated = (s.takeStatus i .stale, done)) ∧
    (s.ports[n].state = .empty ∨ s.ports[n].state = .detecting ∨ s.ports[n].state = .probing ∨
        s.ports[n].state = .unknown → s.service ≠ some n → updated = (s.takeStatus i .noSource, done)) ∧
    (s.ports[n].state = .bound → s.service ≠ some n → ¬ s.Feeds s.conv[i].cfg n →
      updated = (s.takeStatus i .noSource, done)) ∧
    (s.ports[n].state = .bound → s.service ≠ some n → s.Feeds s.conv[i].cfg n →
      updated = ((State.evaluateChain 32 s i x).1, done ++ (State.evaluateChain 32 s i x).2)) := by
  have port := placed.sourcePort
  refine ⟨fun fault => ?_, fun held => ?_, fun state free => ?_, fun bound free unfed => ?_, fun bound free fed => ?_⟩
  · exact State.updateEntry_status (State.sourceCheck_stale port (Or.inl fault)) done x
  · exact State.updateEntry_status (State.sourceCheck_stale port (Or.inr held)) done x
  · have outside : s.ports[n].state ≠ .fault ∧ s.ports[n].state ≠ .bound := by
      rcases state with state | state | state | state <;> rw [state] <;> decide
    exact State.updateEntry_status (State.sourceCheck_unbound port outside.1 free outside.2) done x
  · exact State.updateEntry_status (State.sourceCheck_unfed port bound free unfed) done x
  · have supplied := (State.supplies_iff bound).mpr fed
    exact State.updateEntry_evaluates (State.sourceCheck_supplied port bound free supplied) done x

/-- R65, log 12: an update of a source visits the entries that read it. -/
theorem State.sourceUpdate_readsIndex (s : State) (kind : SourceKind) (k : Nat) (x : Int) :
    s.sourceUpdate (readsIndex kind k x) =
      let r := ((List.finRange 32).filter fun i =>
          s.conv[i].cfg.sourceKind == kind && s.conv[i].cfg.sourceIndex.toNat == k).foldl
        (fun acc i => State.updateEntry acc i x) (s, [])
      r.2.foldl State.reportChecks r.1 := by
  have visit : s.visit (readsIndex kind k x) = fun acc i =>
      if (s.conv[i].cfg.sourceKind == kind && s.conv[i].cfg.sourceIndex.toNat == k) = true then
        State.updateEntry acc i x else acc := by
    funext acc i
    have reads : (s.conv[i].cfg.sourceKind == kind && s.conv[i].cfg.sourceIndex.toNat == k) = true ↔
        s.conv[i].cfg.sourceKind = kind ∧ s.conv[i].cfg.sourceIndex.toNat = k := by
      rw [Bool.and_eq_true, beq_iff_eq, beq_iff_eq]
    rw [State.visit, readsIndex, if_congr reads rfl rfl]
    split_ifs <;> rfl
  rw [State.sourceUpdate_eq, State.visited, visit, ← List.foldl_filter]

end

end Sys2Proof.Machine
end

