-- ==== Sys2Proof/Proofs/EvaluationRuns.lean ====
section
/-! PROOFS. One evaluation of an entry, with its chain and at an update of its source (O53). -/

namespace Sys2Proof.Machine

/-- Settles O53: the stages one after the other, then the chain below, then the statuses given by ports, then the visits
of an update. -/
theorem evaluationRunsStages : Obligations.EvaluationRunsStages := by
  refine ⟨?stages, ?chain, ?update, State.sourceUpdate_readsIndex⟩
  case stages =>
    intro e x stamp c rail scaled y v high low above below normal alarm evaluated
    have isScaled : c.scale x = scaled := c.scale_eq x
    have isLimited : c.limit e.prevIn (c.scale x) = y := by
      rw [isScaled]
      simp only [y]
      cases e.prevIn with
      | none => exact c.limit_none scaled
      | some q => exact c.limit_some q scaled
    have isFiltered : c.filter e.prevOut y = v := by
      simp only [v]
      cases e.prevOut with
      | none => exact c.filter_none y
      | some q => exact c.filter_some q y
    have isNormal : c.normalTests v = normal := c.normalTests_eq v
    have isAlarm : c.alarmStage e.alarm e.pending v = alarm := by
      simp only [alarm, ← isNormal, ConvConfig.alarmStage]
      cases e.alarm <;> rfl
    have staged (run : Nat) : ConvEntry.stages { e with railRun := run } x stamp = evaluated run := by
      simp only [ConvEntry.stages, evaluated]
      rw [isLimited, isFiltered, isAlarm]
      rfl
    rw [Bool.eq_false_iff, ne_eq, decide_eq_true_iff]
    refine ⟨fun passed => ?_, ConvEntry.evaluate_rail stamp, ConvEntry.evaluate_trips stamp,
      fun isRail other short => ?_⟩
    · rw [ConvEntry.evaluate_passed stamp passed, staged]
    · rw [ConvEntry.evaluate_counted stamp isRail other short, staged]
  case chain =>
    intro s i x st down source below freshened out first conv
    have isBelow (j : Fin 32) : below j ↔ j ∈ s.chainBelow i := (State.mem_chainBelow_iff_within down).symm
    have isFresh (e : ConvEntry) : freshened e = e.take .noSource := e.take_noSource.symm
    have table (e : ConvEntry) (lost : Bool) : conv e lost = s.tableWith i e lost :=
      congrArg Vector.ofFn (funext fun j => if_congr Iff.rfl rfl
        (if_congr (and_congr_right fun _ => isBelow j) (isFresh _) rfl))
    have dependents : ((List.finRange 32).filter fun j => source j == some i) = s.dependents i := by
      refine List.filter_congr fun j _ => ?_
      rw [Bool.eq_iff_iff, beq_iff_eq]
      exact State.sourceEntry_eq_some_iff
    rw [dependents]
    refine ⟨State.evaluateChain_valid down x, fun lost => ?_, State.takeStatus_held, ?_, ?_⟩
    · rw [State.evaluateChain_lost down x lost, table]
      rfl
    · rintro other rfl
      rw [State.takeStatus_eq down i (st := .stale) nofun, table, ConvEntry.take_stale other]
    · rintro _ rfl
      rw [State.takeStatus_eq down i (st := .noSource) nofun, table, isFresh]
  case update =>
    intro s i x done n c p lies supplies updated evaluated
    refine ⟨fun placed => State.updateEntry_placed placed done x, fun kind => ?_, fun k kind index input => ?_⟩
    · exact State.updateEntry_evaluates (State.sourceCheck_portless (State.sourcePort_portless kind)) done x
    · refine State.updateEntry_evaluates (State.sourceCheck_portless ?_) done x
      rw [State.sourcePort_slot kind (eq_byteOf_of_toNat index)]
      exact dif_neg (not_lt.mpr input)

end Sys2Proof.Machine
end

