-- ==== Sys2Proof/Proofs/Regulations.lean ====
section
/-! PROOFS. What a regulation does after the regulator's step (R102, R104): the in-position count, the stall count with
its warning, and the branches they decide. -/

namespace Sys2Proof.Machine

/-- R102: the in-position count after a RUN_TO regulation. -/
def Motor.inposNext (m : Motor) (p : Profile) : Nat :=
  if |wrapDiff m.targetPosition m.position| ≤ (p.tolerance.toNat : Int) then m.inposCount + 1 else 0

/-- R104: the stall count after a stall regulation. -/
def Motor.stallNext (m : Motor) : Nat := min 255 (m.stallCount + 1)

/-- R104: a stall regulation warns, once an episode. -/
def Motor.warns (m : Motor) (p : Profile) : Bool :=
  decide (p.stallWarn ≠ 0 ∧ m.stallNext ≥ p.stallWarn.toNat) && !m.stallEpisode

/-- R104: a stall regulation stops the channel. -/
def Motor.stallStops (m : Motor) (p : Profile) : Prop := p.stallStop ≠ 0 ∧ m.stallNext ≥ p.stallStop.toNat

/-- R104: the channel with a stall counted. -/
def Motor.stallCounted (m : Motor) (p : Profile) : Motor :=
  { m with stallCount := m.stallNext, stallEpisode := m.stallEpisode || m.warns p }

/-- R104: the part with a stall of channel n counted, and STALL_WARN posted where it warns. -/
def State.stallCounted (s : State) (n : PortNo) (p : Profile) : State :=
  let t := s.setMotor n (s.motors[n].stallCounted p)
  if s.motors[n].warns p then t.post .stallWarn (portByte n) 0 else t

section
variable {s : State} {n : PortNo} {p : Profile}

theorem State.stallCheck_free (free : s.motors[n].stalling p = false) :
    s.stallCheck n p = s.setMotor n { s.motors[n] with stallCount := 0, stallEpisode := false } :=
  if_neg (Bool.eq_false_iff.mp free)

theorem State.stallCheck_stops (stalling : s.motors[n].stalling p = true) (stops : s.motors[n].stallStops p) :
    s.stallCheck n p = (s.stallCounted n p).stopMotor n .stalled p.safeAction.mode :=
  (if_pos stalling).trans (if_pos stops)

theorem State.stallCheck_counts (stalling : s.motors[n].stalling p = true) (goesOn : ¬ s.motors[n].stallStops p) :
    s.stallCheck n p = s.stallCounted n p :=
  (if_pos stalling).trans (if_neg goesOn)

/-- R102: the other modes go to the stall check. -/
theorem State.completionCheck_other (other : s.motors[n].mode ≠ .runTo) : s.completionCheck n p = s.stallCheck n p :=
  if_neg other

theorem State.completionCheck_done (runTo : s.motors[n].mode = .runTo)
    (complete : s.motors[n].inposNext p ≥ p.inposCount.toNat) :
    s.completionCheck n p = (s.setMotor n { s.motors[n] with inposCount := s.motors[n].inposNext p }).finishMotor n
      s.motors[n].targetPosition :=
  (if_pos runTo).trans (if_pos complete)

theorem State.completionCheck_goesOn (runTo : s.motors[n].mode = .runTo)
    (short : ¬ s.motors[n].inposNext p ≥ p.inposCount.toNat) :
    s.completionCheck n p = (s.setMotor n { s.motors[n] with inposCount := s.motors[n].inposNext p }).stallCheck n p :=
  (if_pos runTo).trans (if_neg short)

end

end Sys2Proof.Machine
end

