-- ==== Sys2Proof/Proofs/Rationing.lean ====
section
/-! PROOFS. What the drive budget allows (R100, R101, R128, R129), as rations: each channel within an allowance whose
load fits a quota of its own, the sound within a room of its own, all of them within the ceiling. What every block
operation but the window keeps of it, for rations that stand. -/

namespace Sys2Proof.Machine

/-! ## One channel -/

theorem natAbs_grantWithin (d : Int) (a : Nat) : (grantWithin d a).natAbs = min d.natAbs a := by
  rw [grantWithin, Int.natAbs_mul, Int.natAbs_sign, Int.abs_eq_natAbs]
  split
  · next zero => simp [zero]
  · omega

/-- R89: a grant has the sign of its request. -/
theorem grantWithin_mul_nonneg (d : Int) (a : Nat) : 0 ≤ grantWithin d a * d := by
  rw [grantWithin, Int.mul_right_comm, Int.sign_mul_self_eq_abs]
  exact Int.mul_nonneg (abs_nonneg d) (le_min (abs_nonneg d) (Int.natCast_nonneg a))

namespace Motor.GrantBounded

variable {m m' : Motor}

/-- R89, R100: a request of −1000–1000, granted within the allowance. -/
theorem of_grantWithin {d : Int} (request : m.dutyRequest = d) (grant : m.dutyGrant = grantWithin d m.allowance)
    (low : -1000 ≤ d) (high : d ≤ 1000) : m.GrantBounded := by
  refine ⟨?_, ?_, ?_⟩
  · rw [request]
    omega
  · rw [grant, request, natAbs_grantWithin]
  · rw [grant, request]
    exact grantWithin_mul_nonneg d _

theorem of_zero (request : m.dutyRequest = 0) (grant : m.dutyGrant = 0) : m.GrantBounded := by
  constructor <;> simp [request, grant]

theorem congr (h : m.GrantBounded) (request : m'.dutyRequest = m.dutyRequest) (grant : m'.dutyGrant = m.dutyGrant)
    (allowance : m'.allowance = m.allowance) : m'.GrantBounded := by
  constructor
  · rw [request]
    exact h.request
  · rw [grant, request, allowance]
    exact h.grant
  · rw [grant, request]
    exact h.sign

theorem ended (h : m.GrantBounded) (o : Outcome) : (m.ended o).GrantBounded :=
  h.congr (m.ended_dutyRequest o) (m.ended_dutyGrant o) (m.ended_allowance o)

/-- R84: a start leaves request and grant, or is a DUTY granted at once. -/
theorem start (h : m.GrantBounded) (op : MotorOp) (notify : Bool) (stamp : Half) :
    (m.start op notify stamp).GrantBounded := by
  cases op
  case duty d => exact of_grantWithin rfl rfl (le_max_left _ _) (max_le (by decide) (min_le_left _ _))
  all_goals exact h.congr rfl rfl rfl

/-- R107: a channel that loses its binding. -/
theorem unbound (h : m.GrantBounded) (o : Outcome) : (m.unbound o).GrantBounded := by
  unfold Motor.unbound
  split
  · exact of_zero rfl rfl
  · exact h

end Motor.GrantBounded

theorem Motor.start_allowance (m : Motor) (op : MotorOp) (notify : Bool) (stamp : Half) :
    (m.start op notify stamp).allowance = m.allowance := by
  cases op <;> rfl

theorem Motor.unbound_allowance_le (m : Motor) (o : Outcome) : (m.unbound o).allowance ≤ m.allowance := by
  unfold Motor.unbound
  split
  · exact Nat.zero_le _
  · exact Nat.le_refl _

/-! ## One port and its channel -/

/-- R128: the rated_load_mA of a port's profile in a table, where the port is BOUND and the profile's use is MOTOR. -/
def Port.ratedLoad (p : Port) (profiles : Vector Profile 16) : Nat :=
  match p.state, p.profile with
  | .bound, some i => if profiles[i].use = .motor then profiles[i].ratedLoad.toNat else 0
  | _, _ => 0

theorem State.boundProfile_unbound {s : State} {n : PortNo}
    (other : ∀ i, s.ports[n].state = .bound → s.ports[n].profile = some i → False) : s.boundProfile n = none := by
  unfold State.boundProfile
  split
  · next i state profile => exact (other i state profile).elim
  · rfl

theorem State.ratedLoad_eq (s : State) (n : PortNo) :
    s.ports[n].ratedLoad s.profiles = ((s.motorProfile n).map fun p => p.ratedLoad.toNat).getD 0 := by
  unfold Port.ratedLoad State.motorProfile
  split
  · next i state profile =>
    rw [State.boundProfile, state, profile, Option.filter_some]
    by_cases use : s.profiles[i].use = .motor
    · rw [if_pos use, if_pos (beq_iff_eq.mpr use)]
      rfl
    · rw [if_neg use, if_neg fun same => use (beq_iff_eq.mp same)]
      rfl
  · next other =>
    rw [State.boundProfile_unbound other]
    rfl

/-- R128: the load over the motor-bound channels, channel by channel. -/
theorem State.loadOver_eq (s : State) (f : Motor → Nat) :
    s.loadOver f = (allPorts.map fun n => f s.motors[n] * s.ports[n].ratedLoad s.profiles).sum := by
  unfold State.loadOver
  refine congrArg List.sum (List.map_congr_left fun n _ => ?_)
  rw [s.ratedLoad_eq]
  cases s.motorProfile n <;> simp

theorem Port.ratedLoad_congr {p q : Port} (state : q.state = p.state) (profile : q.profile = p.profile)
    (profiles : Vector Profile 16) : q.ratedLoad profiles = p.ratedLoad profiles := by
  rw [Port.ratedLoad, Port.ratedLoad, state, profile]

theorem Port.ratedLoad_of_state {p : Port} (notBound : p.state ≠ .bound) (profiles : Vector Profile 16) :
    p.ratedLoad profiles = 0 := by
  unfold Port.ratedLoad
  split
  · next bound _ => exact absurd bound notBound
  · rfl

/-- R128: the channel's grant is bounded, and the load its allowance admits is within a quota. -/
structure Rationing (profiles : Vector Profile 16) (quota : Nat) (p : Port) (m : Motor) : Prop where
  grant : m.GrantBounded
  load  : m.allowance * p.ratedLoad profiles ≤ quota

namespace Rationing

variable {profiles : Vector Profile 16} {quota : Nat} {p : Port} {m : Motor}

theorem port (h : Rationing profiles quota p m) {q : Port} (state : q.state = p.state)
    (profile : q.profile = p.profile) : Rationing profiles quota q m := by
  refine ⟨h.grant, ?_⟩
  rw [Port.ratedLoad_congr state profile]
  exact h.load

/-- A port that is not BOUND takes no part. -/
theorem unloaded {q : Port} (grant : m.GrantBounded) (notBound : q.state ≠ .bound) :
    Rationing profiles quota q m := by
  refine ⟨grant, ?_⟩
  rw [Port.ratedLoad_of_state notBound]
  exact Nat.zero_le _

theorem motor (h : Rationing profiles quota p m) {m' : Motor} (grant : m'.GrantBounded)
    (allowance : m'.allowance ≤ m.allowance) : Rationing profiles quota p m' :=
  ⟨grant, (Nat.mul_le_mul_right _ allowance).trans h.load⟩

/-- R96, R101: a channel that binds starts with allowance 0, and a sensor takes no part. -/
theorem bound (grant : m.GrantBounded) {i : Fin 16} (profile : p.profile = some i) :
    Rationing profiles quota p (if profiles[i].use = .motor then m.bind profiles[i] else m) := by
  split
  · refine ⟨Motor.GrantBounded.of_zero rfl rfl, ?_⟩
    rw [show (m.bind profiles[i]).allowance = 0 from rfl, Nat.zero_mul]
    exact Nat.zero_le _
  · next sensor =>
    refine ⟨grant, ?_⟩
    have none : p.ratedLoad profiles = 0 := by
      unfold Port.ratedLoad
      split
      · next j _ named =>
        rw [profile] at named
        rw [← Option.some.inj named, if_neg sensor]
      · rfl
    rw [none]
    exact Nat.zero_le _

end Rationing

/-! ## Every channel and the sound -/

/-- R129: the sound's volume allowance over the speaker load it was formed against is within a room, and that load is no
smaller than the one that stands. -/
structure SoundRation (room allowance loadOld speakerLoad : Nat) : Prop where
  load    : 10 * allowance * loadOld ≤ room
  speaker : speakerLoad ≤ loadOld

/-- R128: every channel is within its quota, the sound within its room, and all of them within the ceiling. -/
def State.Rationed (quota : PortNo → Nat) (room : Nat) (s : State) : Prop :=
  (∀ n : PortNo, Rationing s.profiles (quota n) s.ports[n] s.motors[n]) ∧
    SoundRation room s.sound.allowance s.budget.loadOld s.settings.speakerLoad.toNat ∧
    (allPorts.map quota).sum + room ≤ 1000 * s.budget.record.ceiling

/-- What the rations speak of outside the ports and their channels. -/
def State.means (s : State) : Vector Profile 16 × Nat × Nat × Half × Nat :=
  (s.profiles, s.sound.allowance, s.budget.loadOld, s.settings.speakerLoad, s.budget.record.ceiling)

/-- O58 of a state: there are rations it keeps to. -/
def State.Budgeted (s : State) : Prop := ∃ quota room, s.Rationed quota room

theorem State.budgeted_iff (s : State) : s.Budgeted ↔ s.GrantsBounded ∧ s.AllowancesWithin := by
  constructor
  · rintro ⟨quota, room, channels, sound, ceiling⟩
    refine ⟨fun n => (channels n).grant, ?_, sound.speaker⟩
    rw [State.loadOver_eq]
    have loads := List.sum_le_sum (l := allPorts) fun n _ => (channels n).load
    have room := sound.load
    omega
  · rintro ⟨grants, load, speaker⟩
    rw [State.loadOver_eq] at load
    exact ⟨fun n => s.motors[n].allowance * s.ports[n].ratedLoad s.profiles,
      10 * s.sound.allowance * s.budget.loadOld, fun n => ⟨grants n, Nat.le_refl _⟩, ⟨Nat.le_refl _, speaker⟩, load⟩

/-- R128: what the allowances let through bounds the load itself. -/
theorem State.AllowancesWithin.loadWithin {s : State} (h : s.AllowancesWithin) (grants : s.GrantsBounded) :
    s.LoadWithin := by
  obtain ⟨load, speaker⟩ := h
  have channels : s.loadOver (fun m => m.dutyGrant.natAbs) ≤ s.loadOver Motor.allowance := by
    rw [State.loadOver_eq, State.loadOver_eq]
    refine List.sum_le_sum fun n _ => Nat.mul_le_mul_right _ ?_
    exact (grants n).grant.trans (min_le_right _ _)
  have sound : 10 * s.sound.effective * s.settings.speakerLoad.toNat ≤ 10 * s.sound.allowance * s.budget.loadOld :=
    Nat.mul_le_mul (Nat.mul_le_mul_left _ (min_le_right _ _)) speaker
  unfold State.LoadWithin
  omega

end Sys2Proof.Machine
end

