-- ==== Sys2Proof/Proofs/RationedMotors.lean ====
section
/-! PROOFS. What the operations of the channels keep of the rations (R84–R104): a grant within its request and its
allowance, and no higher allowance. -/

namespace Sys2Proof.Machine

namespace State.Rationed

variable {quota : PortNo → Nat} {room : Nat} {s t : State}

/-- A step that changes the record and the channel of one port. -/
theorem of_port (hs : s.Rationed quota room) (n : PortNo) {p : Port} {m : Motor} (ports : t.ports = s.ports.set n p)
    (motors : t.motors = s.motors.set n m) (means : t.means = s.means) (here : Rationing s.profiles (quota n) p m) :
    t.Rationed quota room := by
  obtain ⟨profiles, allowance, loadOld, speaker, ceiling⟩ : _ ∧ _ ∧ _ ∧ _ ∧ _ := by
    simpa only [State.means, Prod.mk.injEq] using means
  obtain ⟨channels, outside⟩ := hs
  refine ⟨fun k => ?_, by rw [allowance, loadOld, speaker, ceiling]; exact outside⟩
  rw [ports, motors, profiles]
  by_cases same : n = k
  · subst same
    rw [vector_set_same, vector_set_same]
    exact here
  · rw [vector_set_other _ same, vector_set_other _ same]
    exact channels k

/-- A record with the state and the profile of the port. -/
theorem setPort (hs : s.Rationed quota room) (n : PortNo) {p : Port} (state : p.state = s.ports[n].state := by rfl)
    (profile : p.profile = s.ports[n].profile := by rfl) : (s.setPort n p).Rationed quota room :=
  hs.of_port n rfl (vector_set_self _ _).symm rfl ((hs.1 n).port state profile)

/-- A record of a port that is not BOUND. -/
theorem setPort_unbound (hs : s.Rationed quota room) (n : PortNo) {p : Port}
    (notBound : p.state ≠ .bound := by nofun) :
    (s.setPort n p).Rationed quota room :=
  hs.of_port n rfl (vector_set_self _ _).symm rfl (Rationing.unloaded (hs.1 n).grant notBound)

/-- A channel within its grant and no higher allowance. -/
theorem of_motor (hs : s.Rationed quota room) (n : PortNo) {m : Motor} (motors : t.motors = s.motors.set n m)
    (ports : t.ports = s.ports) (means : t.means = s.means) (grant : m.GrantBounded)
    (allowance : m.allowance ≤ s.motors[n].allowance) : t.Rationed quota room :=
  hs.of_port n (ports.trans (vector_set_self _ _).symm) motors means ((hs.1 n).motor grant allowance)

/-- A channel with its request, its grant and its allowance. -/
theorem setMotor (hs : s.Rationed quota room) (n : PortNo) {m : Motor}
    (request : m.dutyRequest = s.motors[n].dutyRequest := by rfl)
    (grant : m.dutyGrant = s.motors[n].dutyGrant := by rfl)
    (allowance : m.allowance = s.motors[n].allowance := by rfl) : (s.setMotor n m).Rationed quota room :=
  hs.of_motor n rfl rfl rfl ((hs.1 n).grant.congr request grant allowance) allowance.le

/-- R129: a sound engine with its volume allowance. -/
theorem setSound (hs : s.Rationed quota room) {e : Sound} (allowance : e.allowance = s.sound.allowance) :
    State.Rationed quota room { s with sound := e } := by
  refine ⟨hs.1, ?_, hs.2.2⟩
  rw [show ({ s with sound := e } : State).sound.allowance = _ from allowance]
  exact hs.2.1

/-! ## Motors -/

theorem endOperation (hs : s.Rationed quota room) (n : PortNo) (o : Outcome) :
    (s.endOperation n o).Rationed quota room :=
  hs.of_motor n (s.endOperation_motors n o)
    (State.endOperation_keeps (·.ports) (fun _ _ => rfl) (fun _ _ => rfl) s n o)
    (State.endOperation_keeps State.means (fun _ _ => rfl) (fun _ _ => rfl) s n o) ((hs.1 n).grant.ended o)
    (Motor.ended_allowance _ o).le

theorem stopMotor (hs : s.Rationed quota room) (n : PortNo) (o : Outcome) (mode : MotorMode) :
    (s.stopMotor n o mode).Rationed quota room :=
  have ended := hs.endOperation n o
  ended.of_motor n rfl rfl rfl (Motor.GrantBounded.of_zero rfl rfl) (Nat.le_refl _)

theorem stopAll (hs : s.Rationed quota room) (o : Outcome) : (s.stopAll o).Rationed quota room := by
  refine foldl_invariant (I := State.Rationed quota room) (fun s n hs => ?_) allPorts hs
  unfold State.safeEnd
  split
  · exact hs.stopMotor n o _
  · exact hs

theorem finishMotor (hs : s.Rationed quota room) (n : PortNo) (target : Word) :
    (s.finishMotor n target).Rationed quota room := by
  unfold State.finishMotor
  dsimp only
  split
  · exact hs.stopMotor n _ _
  · exact hs.stopMotor n _ _
  · exact (hs.endOperation n .done).setMotor n

theorem runMotorOp (hs : s.Rationed quota room) (n : PortNo) (op : MotorOp) (notify : Bool) :
    (s.runMotorOp n op notify).Rationed quota room := by
  have ended := hs.endOperation n .superseded
  have starts : ((s.endOperation n .superseded).setMotor n ((s.endOperation n .superseded).motors[n].start op notify
      (s.endOperation n .superseded).bus.stamp)).Rationed quota room :=
    ended.of_motor n rfl rfl rfl ((ended.1 n).grant.start op notify _) (Motor.start_allowance _ op notify _).le
  cases op
  case coast => exact hs.stopMotor n _ _
  case brake => exact hs.stopMotor n _ _
  case setCount => exact hs.setMotor n
  all_goals exact starts

theorem loseMotor (hs : s.Rationed quota room) (n : PortNo) (o : Outcome) : (s.loseMotor n o).Rationed quota room :=
  hs.of_motor n (s.loseMotor_unbound n o) (State.loseMotor_keeps (·.ports) (fun _ _ => rfl) (fun _ _ => rfl) s n o)
    (State.loseMotor_keeps State.means (fun _ _ => rfl) (fun _ _ => rfl) s n o) ((hs.1 n).grant.unbound o)
    (Motor.unbound_allowance_le _ o)

theorem markUpdate (hs : s.Rationed quota room) (n : PortNo) (p0 p1 : Word) :
    (s.markUpdate n p0 p1).Rationed quota room :=
  (State.markUpdate_keeps (State.Rationed quota room) (fun _ _ => rfl) (fun _ _ => rfl) s n p0 p1).mpr hs

theorem sourceUpdate (hs : s.Rationed quota room) (reads : ConvConfig → Option Int) :
    (s.sourceUpdate reads).Rationed quota room :=
  (State.sourceUpdate_keeps (State.Rationed quota room) (fun _ _ => rfl) (fun _ _ => rfl) (fun _ _ => rfl)
    (fun _ _ => rfl) s reads).mpr hs

theorem quadraturePosition (hs : s.Rationed quota room) (n : PortNo) (p0 p1 : Word) :
    (s.quadraturePosition n p0 p1).Rationed quota room := by
  unfold State.quadraturePosition
  split
  · exact hs
  · refine markUpdate ?_ n p0 p1
    split
    · exact hs.setMotor n
    · exact hs

theorem fieldPosition (hs : s.Rationed quota room) (n : PortNo) : (s.fieldPosition n).Rationed quota room := by
  unfold State.fieldPosition
  dsimp only
  split
  · exact hs
  · split_ifs
    · exact hs.setMotor n
    · exact hs
    · exact (hs.setMotor n).markUpdate n _ _
    · exact hs

theorem stallCheck (hs : s.Rationed quota room) (n : PortNo) (p : Profile) :
    (s.stallCheck n p).Rationed quota room := by
  have counted : (s.stallCounted n p).Rationed quota room := by
    unfold State.stallCounted
    dsimp only
    split <;> exact hs.setMotor n
  by_cases stalling : s.motors[n].stalling p = true
  · by_cases stops : s.motors[n].stallStops p
    · rw [State.stallCheck_stops stalling stops]
      exact counted.stopMotor n _ _
    · rw [State.stallCheck_counts stalling stops]
      exact counted
  · rw [State.stallCheck_free (Bool.eq_false_of_not_eq_true stalling)]
    exact hs.setMotor n

theorem completionCheck (hs : s.Rationed quota room) (n : PortNo) (p : Profile) :
    (s.completionCheck n p).Rationed quota room := by
  by_cases runTo : s.motors[n].mode = .runTo
  · by_cases complete : s.motors[n].inposNext p ≥ p.inposCount.toNat
    · rw [State.completionCheck_done runTo complete]
      exact finishMotor (hs.setMotor n) n _
    · rw [State.completionCheck_goesOn runTo complete]
      exact stallCheck (hs.setMotor n) n p
  · rw [State.completionCheck_other runTo]
    exact hs.stallCheck n p

/-- R100: a regulation grants its request within the allowance. -/
theorem regulation (hs : s.Rationed quota room) (n : PortNo) (p : Profile) :
    (s.regulation n p).Rationed quota room := by
  have measured : (s.measure n p).Rationed quota room := (hs.setMotor n).sourceUpdate _
  have regulated (target : Int) :
      ((s.measure n p).setMotor n ((s.measure n p).motors[n].regulate p target)).Rationed quota room :=
    measured.of_motor n rfl rfl rfl (Motor.GrantBounded.of_grantWithin rfl rfl (le_max_left _ _)
      (max_le (by decide) (min_le_left _ _))) (Nat.le_refl _)
  unfold State.regulation
  dsimp only
  split
  · split
    · exact measured.stopMotor n _ _
    · exact (regulated _).completionCheck n p
  · split
    · exact measured.stallCheck n p
    · exact measured

end State.Rationed
end Sys2Proof.Machine
end

