-- ==== Sys2Proof/Proofs/RationedOperations.lean ====
section
/-! PROOFS. What the operations of the ports, the writes, the commands, the reactions and the receiver keep of the
rations (R28, R31, R107, R129). -/

namespace Sys2Proof.Machine

/-- R28: the lookup of a port leaves its channel within any quota it fits. -/
theorem State.lookupPort_rationing (s : State) (n : PortNo) (grant : s.motors[n].GrantBounded) (quota : Nat) :
    Rationing s.profiles quota (s.lookupPort n).ports[n] (s.lookupPort n).motors[n] := by
  cases found : lookup s.profiles s.ports[n].cls s.ports[n].variant with
  | none =>
    rw [State.lookupPort_none found, State.becomeUnknown_ports, State.becomeUnknown_motors, vector_set_same]
    exact Rationing.unloaded grant nofun
  | some i =>
    obtain ⟨q, ports, _, profile, _⟩ := s.bindPort_ports n i
    rw [State.lookupPort_some found, ports, State.bindPort_motors, vector_set_same, vector_set_same]
    exact Rationing.bound grant profile

namespace State.Rationed

variable {quota : PortNo → Nat} {room : Nat} {s : State}

/-! ## Ports -/

theorem startWork (hs : s.Rationed quota room) (n : PortNo) : (s.startWork n).Rationed quota room :=
  have ⟨state, profile, _⟩ := Port.startWork_kept s.ports[n] (s.inService n)
  hs.setPort n state profile

theorem answerPass (hs : s.Rationed quota room) (n : PortNo) (status : Status) (result : List Byte) :
    (s.answerPass n status result).Rationed quota room := by
  unfold State.answerPass
  split
  · exact hs
  · exact hs.setPort n

theorem portStatus (hs : s.Rationed quota room) (n : PortNo) (st : ConvStatus) :
    (s.portStatus n st).Rationed quota room :=
  (State.portStatus_keeps (State.Rationed quota room) (fun _ _ => rfl) s n st).mpr hs

theorem requestIdent (hs : s.Rationed quota room) (n : PortNo) : (s.requestIdent n).Rationed quota room :=
  (State.requestIdent_keeps (State.Rationed quota room) (fun _ _ => rfl) s n).mpr hs

theorem enterFault (hs : s.Rationed quota room) (n : PortNo) (reason : FaultReason) :
    (s.enterFault n reason).Rationed quota room := by
  have said : (s.faultSaid n reason).Rationed quota room :=
    hs.setPort_unbound n
  rw [State.enterFault_eq]
  refine portStatus ?_ n _
  split
  · exact said.loseMotor n _
  · exact said

theorem enterDetecting (hs : s.Rationed quota room) (n : PortNo) : (s.enterDetecting n).Rationed quota room :=
  requestIdent (s := State.portNotice (State.post _ _ _ _) n) (hs.setPort_unbound n) n

theorem enterProbing (hs : s.Rationed quota room) (n : PortNo) : (s.enterProbing n).Rationed quota room :=
  startWork (s := State.portNotice _ n) (hs.setPort_unbound n) n

/-- R28: a lookup binds the port with allowance 0, or leaves it unbound. -/
theorem lookupPort (hs : s.Rationed quota room) (n : PortNo) : (s.lookupPort n).Rationed quota room := by
  have means := State.lookupPort_keeps State.means (fun _ _ => rfl) (fun _ _ => rfl) (fun _ _ => rfl) (fun _ _ => rfl)
    s n
  obtain ⟨profiles, allowance, loadOld, speaker, ceiling⟩ : _ ∧ _ ∧ _ ∧ _ ∧ _ := by
    simpa only [State.means, Prod.mk.injEq] using means
  refine ⟨fun k => ?_, by rw [allowance, loadOld, speaker, ceiling]; exact hs.2⟩
  rw [profiles]
  by_cases same : n = k
  · subst same
    exact s.lookupPort_rationing n (hs.1 n).grant _
  · obtain ⟨port, _, motor⟩ := State.atPortNo_inj (s.lookupPort_other same)
    rw [port, motor]
    exact hs.1 k

/-- R26, R35: the result of an ID measurement. -/
theorem identResult (hs : s.Rationed quota room) (n : PortNo) (code : BitVec 12) :
    (s.identResult n code).Rationed quota room := by
  by_cases measured : s.ports[n].Measured
  · have left (b : Band) : (s.setPort n (s.ports[n].banded b).leaveFault).Rationed quota room :=
      hs.setPort n (Port.leaveFault_state _) (Port.leaveFault_profile _)
    cases band : bandOf code.toNat with
    | short =>
      have banded : (s.setPort n (s.ports[n].banded .short)).Rationed quota room := hs.setPort n
      rw [State.identResult_short measured band]
      split
      · exact banded
      · exact banded.enterFault n _
    | passive c =>
      rw [State.identResult_passive measured band]
      exact lookupPort (hs.setPort n (p := (s.ports[n].banded (.passive c)).leaveFault.classed c)
        (Port.leaveFault_state _) (Port.leaveFault_profile _)) n
    | openLine =>
      rw [State.identResult_open measured band]
      exact (left _).enterProbing n
  · rw [State.identResult_discarded measured]
    exact hs

/-! ## Exchanges -/

theorem endExchange (hs : s.Rationed quota room) (n : PortNo) : (s.endExchange n).Rationed quota room := hs.setPort n

theorem queryFailed (hs : s.Rationed quota room) (n : PortNo) : (s.queryFailed n).Rationed quota room := by
  unfold State.queryFailed
  split
  · exact hs.enterFault n _
  · exact hs

theorem pollMissed (hs : s.Rationed quota room) (n : PortNo) : (s.pollMissed n).Rationed quota room := by
  have counted (missed : Nat) : (s.setPort n { s.ports[n] with missed := missed }).Rationed quota room := hs.setPort n
  unfold State.pollMissed
  dsimp only
  split
  · exact (counted 0).enterFault n _
  · exact counted _

theorem takeData (hs : s.Rationed quota room) (n : PortNo) (payload : List Byte) :
    (s.takeData n payload).Rationed quota room := by
  have replaced : (s.setPort n (s.ports[n].takeData payload)).Rationed quota room := hs.setPort n
  have taken : (((s.setPort n (s.ports[n].takeData payload)).fieldUpdate n).fieldPosition n).Rationed quota room :=
    (replaced.sourceUpdate _).fieldPosition n
  unfold State.takeData
  dsimp only
  split
  · exact (State.offerPass_keeps (State.Rationed quota room) (fun _ _ => rfl) (fun _ _ => rfl) _ n payload).mpr taken
  · exact taken

theorem queryReply (hs : s.Rationed quota room) (n : PortNo) (f : DeviceFrame) :
    (s.queryReply n f).Rationed quota room := by
  have ended := hs.endExchange n
  unfold State.queryReply
  dsimp only
  split
  · split
    · next d _ =>
      exact lookupPort (ended.setPort n (p := ((s.endExchange n).ports[n].identify d).leaveFault)
        (Port.leaveFault_state _) (Port.leaveFault_profile _)) n
    · exact ended.queryFailed n
  · exact ended.queryFailed n
  · exact ended.queryFailed n

theorem pollReply (hs : s.Rationed quota room) (n : PortNo) (f : DeviceFrame) :
    (s.pollReply n f).Rationed quota room := by
  have ended := hs.endExchange n
  unfold State.pollReply
  dsimp only
  split
  · split
    · exact ended.takeData n _
    · exact ended.pollMissed n
  · exact ended.pollMissed n
  · exact ended.pollMissed n

theorem writeReply (hs : s.Rationed quota room) (n : PortNo) (f : DeviceFrame) :
    (s.writeReply n f).Rationed quota room := by
  have ended := hs.endExchange n
  unfold State.writeReply
  split
  · split
    · exact ended.answerPass n _ _
    · exact hs
  · exact ended.answerPass n _ _
  · exact hs
  · exact hs

theorem deviceFrameIn (hs : s.Rationed quota room) (n : PortNo) (f : DeviceFrame) :
    (s.deviceFrameIn n f).Rationed quota room := by
  unfold State.deviceFrameIn
  split
  · exact hs
  · split
    · split
      · exact (hs.queryReply n f).startWork n
      · exact (hs.pollReply n f).startWork n
      · exact (hs.writeReply n f).startWork n
    · exact hs

theorem setGot (hs : s.Rationed quota room) (n : PortNo) (x : Exchange) (got : List Byte) :
    (s.setGot n x got).Rationed quota room := hs.setPort n

theorem deviceBytes (hs : s.Rationed quota room) (n : PortNo) (bs : List LineByte) :
    (s.deviceBytes n bs).Rationed quota room := by
  refine foldl_invariant (I := State.Rationed quota room) (fun s b hs => ?_) bs hs
  have framed (x : Exchange) (f : DeviceFrame) : ((s.setGot n x []).deviceFrameIn n f).Rationed quota room :=
    (hs.setGot n x []).deviceFrameIn n f
  unfold State.deviceByte
  dsimp only
  split
  · exact hs
  · split_ifs
    · exact framed _ _
    · exact framed _ _
    · exact framed _ _
    · exact hs.setGot n _ _
    · exact hs

/-! ## Service mode, PROBE and detach -/

theorem serviceOff (hs : s.Rationed quota room) (n : PortNo) : (s.serviceOff n).Rationed quota room := by
  unfold State.serviceOff
  split
  · exact setPort (s := { s with service := none }) hs n
  · exact hs

theorem serviceOn (hs : s.Rationed quota room) (n : PortNo) : (s.serviceOn n).Rationed quota room := by
  have ended : s.serviceEnds.Rationed quota room := by
    unfold State.serviceEnds
    split
    · exact hs.serviceOff _
    · exact hs
  unfold State.serviceOn
  split
  · exact hs
  · exact portStatus (setPort (s := { s.serviceEnds with service := some n }) ended n) n .stale

/-- R43: a PROBE takes the binding and the channel's operation with it. -/
theorem probe (hs : s.Rationed quota room) (n : PortNo) : (s.probe n).Rationed quota room := by
  have quiet : (s.setPort n s.ports[n].quiet).Rationed quota room := hs.setPort n
  have quieted : (s.quieted n).Rationed quota room := by
    unfold State.quieted
    split
    · exact quiet.loseMotor n _
    · exact quiet
  rw [State.probe_eq]
  exact enterDetecting
    ((s.undone_of_conv n (State.Rationed quota room) (fun _ _ => rfl) (fun _ _ => rfl)).mpr quieted) n

theorem runPortOp (hs : s.Rationed quota room) (n : PortNo) (op : PortOp) (place : Nat) :
    (s.runPortOp n op place).Rationed quota room := by
  unfold State.runPortOp
  split
  · exact startWork (hs.setPort n) n
  · exact hs.serviceOn n
  · exact hs.serviceOff n
  · exact hs.setPort n
  · exact hs.probe n

/-- R44: a detach takes the binding and the channel's operation with it. -/
theorem detach (hs : s.Rationed quota room) (n : PortNo) : (s.detach n).Rationed quota room := by
  have unlined : (s.unlined n).Rationed quota room :=
    (s.unlined_of_unhanded n (State.Rationed quota room) (fun _ _ => rfl) (fun _ _ => rfl)).mpr
      ((hs.answerPass n .noDevice []).loseMotor n .detached)
  have cleared : (s.cleared n).Rationed quota room :=
    (State.cancelIdent_keeps (State.Rationed quota room) (fun _ _ => rfl) _ n).mpr (unlined.serviceOff n)
  have detached : ((s.cleared n).setPort n (s.cleared n).ports[n].detached).Rationed quota room :=
    cleared.setPort_unbound n
  rw [State.detach_eq, State.portNotice_keeps (State.Rationed quota room) (fun _ _ => rfl),
    State.post_keeps (State.Rationed quota room) (fun _ _ => rfl)]
  exact detached

theorem acceptDet (hs : s.Rationed quota room) (n : PortNo) : (s.acceptDet n).Rationed quota room := by
  have accepted : (s.setPort n { s.ports[n] with detAccepted := s.ports[n].det }).Rationed quota room := hs.setPort n
  unfold State.acceptDet
  dsimp only
  split_ifs
  · exact hs
  · exact accepted.enterDetecting n
  · exact accepted
  · exact accepted
  · exact accepted.detach n

/-! ## Writes -/

/-- R31: the rebinding of port n, as u finds it, leaves a channel within the table of u; s is the state before the table
was written, and every profile that the write does not name stands. -/
theorem rebindPort (hs : s.Rationed quota room) (n : PortNo) {u : State} (port : u.ports[n] = s.ports[n])
    (motor : u.motors[n] = s.motors[n]) (hit : Fin 16 → Bool) (anyValid : Bool)
    (others : ∀ i, hit i = false → u.profiles[i] = s.profiles[i]) :
    Rationing u.profiles (quota n) (State.rebindPort hit anyValid u n).ports[n]
      (State.rebindPort hit anyValid u n).motors[n] := by
  have grant : u.motors[n].GrantBounded := motor ▸ (hs.1 n).grant
  by_cases concerned : u.concerned hit anyValid n
  · obtain ⟨w, rebound, _, profiles, channel, _⟩ := State.rebindPort_concerned concerned
    rw [rebound, ← profiles]
    refine w.lookupPort_rationing n ?_ _
    rw [channel]
    split
    · exact Motor.GrantBounded.of_zero rfl rfl
    · exact grant
  · rw [State.rebindPort_unconcerned concerned, port, motor]
    refine ⟨(hs.1 n).grant, ?_⟩
    have same : s.ports[n].ratedLoad u.profiles = s.ports[n].ratedLoad s.profiles := by
      have kept := (not_or.mp concerned).1
      rw [State.rebound, port] at kept
      unfold Port.ratedLoad
      split
      · next i bound profile =>
        rw [bound, profile] at kept
        rw [others i (Bool.eq_false_of_not_eq_true kept)]
      · rfl
    rw [same]
    exact (hs.1 n).load

/-- R31: a PROFILES write rebinds every port whose profile it writes. -/
theorem writeProfiles (hs : s.Rationed quota room) (first : Nat) (rs : List Profile) :
    (s.writeProfiles first rs).Rationed quota room := by
  have outside : (s.writeProfiles first rs).means.2 = s.means.2 :=
    State.writeProfiles_keeps (fun t => t.means.2) (fun _ _ => rfl) (fun _ _ => rfl) (fun _ _ => rfl) (fun _ _ => rfl)
      (fun _ _ => rfl) (fun _ _ => rfl) s first rs
  obtain ⟨allowance, loadOld, speaker, ceiling⟩ : _ ∧ _ ∧ _ ∧ _ := by
    simpa only [State.means, Prod.mk.injEq] using outside
  refine ⟨fun n => ?_, by rw [allowance, loadOld, speaker, ceiling]; exact hs.2⟩
  have others (i : Fin 16) (unnamed : named first rs.length i = false) :
      (replaceRange s.profiles first rs)[i] = s.profiles[i] := by
    rw [replaceRange_get s.profiles first rs.length Profile.reset rfl, if_neg]
    simpa only [named, Bool.and_eq_false_iff, decide_eq_false_iff_not, ← not_and_or] using unnamed
  rw [s.writeProfiles_eq, State.rebindAll_profiles]
  obtain ⟨u, profiles, same, after⟩ := State.rebindAll_at (named first rs.length) (rs.any Profile.valid)
    { s with profiles := replaceRange s.profiles first rs } n
  obtain ⟨port, _, motor⟩ := State.atPortNo_inj same
  obtain ⟨rebound, _, channel⟩ := State.atPortNo_inj after
  have table : u.profiles = replaceRange s.profiles first rs := profiles
  rw [rebound, channel, ← profiles]
  exact hs.rebindPort n port motor _ _ (table ▸ others)

/-- R129: a SETTINGS write that raises the speaker load cuts the volume allowance to fit. -/
theorem writeSettings (hs : s.Rationed quota room) (r : Settings) : (s.writeSettings r).Rationed quota room := by
  obtain ⟨channels, sound, ceiling⟩ := hs
  unfold State.writeSettings State.allowanceCut
  dsimp only
  split
  · refine ⟨channels, ⟨?_, Nat.le_refl _⟩, ceiling⟩
    have cut := Nat.div_mul_le_self (s.sound.allowance * s.budget.loadOld) r.speakerLoad.toNat
    have load := sound.load
    rw [Nat.mul_assoc] at load ⊢
    exact (Nat.mul_le_mul_left 10 cut).trans load
  · next fits => exact ⟨channels, ⟨sound.load, Nat.le_of_not_lt fits⟩, ceiling⟩

theorem writes : WritesKeep (State.Rationed quota room) where
  settings := fun _ r hs => hs.writeSettings r
  profiles := fun _ first rs hs => hs.writeProfiles first rs
  scanList := fun s first rs hs =>
    (State.writeScanList_keeps (State.Rationed quota room) (fun _ _ => rfl) (fun _ _ => rfl) s first rs).mpr hs
  conversion := fun s first rs hs =>
    (State.writeConversion_keeps (State.Rationed quota room) (fun _ _ => rfl) s first rs).mpr hs
  reactions := fun s first rs hs =>
    (State.writeReactions_keeps (State.Rationed quota room) (fun _ _ => rfl) (fun _ _ => rfl) s first rs).mpr hs
  marks := fun _ _ hs => hs
  rows := fun _ _ hs => hs
  reports := fun _ _ hs => hs
  clips := fun _ _ hs => hs
  store := fun _ _ _ _ hs => hs

/-! ## Sound -/

theorem stopTone (hs : s.Rationed quota room) : s.stopTone.Rationed quota room := by
  unfold State.stopTone
  split <;> exact hs

theorem stopClip (hs : s.Rationed quota room) : s.stopClip.Rationed quota room := by
  unfold State.stopClip
  split <;> exact hs

theorem runSoundOp (hs : s.Rationed quota room) (op : SoundOp) : (s.runSoundOp op).Rationed quota room := by
  cases op
  case tone note =>
    refine hs.setSound ?_
    unfold Sound.append
    split <;> rfl
  case clip i repeats level =>
    have started : State.Rationed quota room
        { s with sound := s.sound.startClip (Fin.ofNat 16 i) repeats (min 100 level) } := hs
    simp only [State.runSoundOp, State.playClip]
    split <;> exact started
  case flush => exact hs
  case volume => exact hs
  case stopTone => exact hs.stopTone
  case stopClip => exact hs.stopClip
  case stopAll => exact hs.stopTone.stopClip

theorem noteExpiry (hs : s.Rationed quota room) : s.noteExpiry.Rationed quota room := by
  unfold State.noteExpiry
  dsimp only
  split
  · exact hs
  · split <;> exact hs

theorem sample (hs : s.Rationed quota room) : s.sample.Rationed quota room := by
  have toned (e : Sound) : e.toneAdvance.allowance = e.allowance := by
    unfold Sound.toneAdvance
    split <;> rfl
  have clipped (e : Sound) : e.clipAdvance.1.allowance = e.allowance := by
    unfold Sound.clipAdvance
    dsimp only
    split_ifs <;> rfl
  have sampled := hs.setSound (e := (Sound.clipAdvance (Sound.toneAdvance { s.sound with out := s.sound.output })).1)
    ((clipped _).trans (toned _))
  unfold State.sample
  dsimp only
  split <;> exact sampled

/-! ## Commands -/

theorem scanOp (hs : s.Rationed quota room) (op : ScanOp) : (s.scanOp op).Rationed quota room :=
  (State.scanOp_keeps (State.Rationed quota room) (fun _ _ => rfl) s op).mpr hs

theorem reportDue (hs : s.Rationed quota room) (i : Fin 12) : (s.reportDue i).Rationed quota room :=
  (State.reportDue_keeps (State.Rationed quota room) (fun _ _ => rfl) (fun _ _ => rfl) s i).mpr hs

/-- R6: whatever a taken command is, its handler keeps the rations. -/
theorem handlers : HandlersKeep (State.Rationed quota room) :=
  OperationsKeep.handlers
    { toWritesKeep := writes
      motor := fun _ n op notify hs => hs.runMotorOp n op notify
      sound := fun _ op _ hs => hs.runSoundOp op
      scan := fun _ op hs => hs.scanOp op
      port := fun _ n op place hs => hs.runPortOp n op place
      report := fun _ i hs => hs.reportDue i
      reset := fun _ _ hs => hs }

/-- R5, R19: the door and the transmitter let the rations be. -/
theorem linkKeeps : LinkKeeps (State.Rationed quota room) where
  reserve := fun _ _ _ _ hs => hs
  finish := fun _ _ _ _ hs => hs
  offer := fun s f hs => by
    unfold State.offerFrame
    dsimp only
    split_ifs <;> exact hs
  take := fun _ _ _ _ hs => hs
  transmit := fun s hs =>
    (State.transmitNext_keeps (State.Rationed quota room) (fun _ _ => rfl) (fun _ _ => rfl) (fun _ _ => rfl) s).mpr hs

theorem takeAll (hs : s.Rationed quota room) : s.takeAll.Rationed quota room :=
  LinkKeeps.takeFrames linkKeeps handlers _ s hs

/-! ## Reactions, silence and reception -/

theorem act (hs : s.Rationed quota room) (i : Fin 24) (r : Reaction) (e : Event) :
    (s.act i r e).Rationed quota room := by
  have motor : (s.motorAction r).Rationed quota room := by
    unfold State.motorAction
    split
    · exact hs
    · split
      · split
        · exact hs
        · split
          · exact hs
          · exact hs.runMotorOp _ _ _
      · exact hs
  have sound : (s.soundAction r).Rationed quota room := by
    unfold State.soundAction
    split
    · exact hs
    · split
      · exact hs
      · exact hs.runSoundOp _
  unfold State.act
  split
  · exact hs
  · exact hs
  · exact motor
  · exact sound
  · exact sound
  · exact sound
  · split
    · exact (State.enable_keeps (State.Rationed quota room) (fun _ _ => rfl) (fun _ _ => rfl) s _).mpr hs
    · exact hs
  · split <;> exact hs
  · exact (State.markAction_keeps (State.Rationed quota room) (fun _ _ => rfl) (fun _ _ => rfl) (fun _ _ => rfl) s
      r).mpr hs
  · split
    · exact hs.reportDue _
    · exact hs
  · exact hs.scanOp _
  · exact hs.scanOp _
  · exact hs.scanOp _

theorem dispatchEvent (hs : s.Rationed quota room) (e : Event) (rest : List Event) :
    (s.dispatchEvent e rest).Rationed quota room := by
  have reached (t : State) (i : Fin 24) (ht : t.Rationed quota room) : (State.reach e t i).Rationed quota room := by
    unfold State.reach
    split
    · exact act (s := { t.setReaction i _ with bus := t.bus.atEntry i }) ht i _ e
    · exact ht
  exact foldl_invariant (I := State.Rationed quota room) reached (s.candidates e)
    (s := { s with bus := s.bus.takeEvent e rest }) hs

/-- R16, R105: the entry to SILENT stops motors and sound. -/
theorem goSilent (hs : s.Rationed quota room) : s.goSilent.Rationed quota room := by
  have silent : State.Rationed quota room (State.post { s with link := s.link.goSilent } .linkSilent 0 0) := hs
  exact (silent.stopAll .safeStop).stopTone.stopClip

theorem receiveByte (hs : s.Rationed quota room) (b : LineByte) : (s.receiveByte b).Rationed quota room := by
  have good (f : Frame) : (s.acceptFrame f).Rationed quota room :=
    linkKeeps.transmit _ (takeAll (linkKeeps.offer { s with link := s.link.goodFrame s.settings.silenceMs.toNat } f hs))
  unfold State.receiveByte
  dsimp only
  split
  · unfold Link.byteError
    split <;> exact hs
  · split
    · split <;> exact hs
    · split <;> exact hs
    · exact hs
    · split
      · exact good _
      · exact hs

end State.Rationed
end Sys2Proof.Machine
end

