-- ==== Sys2Proof/Proofs/BudgetWindow.lean ====
section
/-! PROOFS. What a budget window grants (R123–R128): each channel's grant and allowance, and that the load of all
allowances is within the ceiling, from every state. -/

namespace Sys2Proof.Machine

/-! ## Rounding (R122, R128) -/

/-- R122: a motor demand is rounded up. -/
theorem natAbs_mul_le_motorLoad (d : Int) (load : Nat) : d.natAbs * load ≤ 1000 * motorLoad d load := by
  unfold motorLoad ceilDiv
  omega

/-- R122: a sound demand is rounded up. -/
theorem mul_le_soundLoad (v load : Nat) : v * load ≤ 100 * soundLoad v load := by
  unfold soundLoad ceilDiv
  omega

theorem soundLoad_le {v load c : Nat} (h : v * load ≤ 100 * c) : soundLoad v load ≤ c := by
  unfold soundLoad ceilDiv
  omega

/-! ## The grants of a window -/

/-- R125–R127: the scale of a grant is at most 1024, and 1024 in NORMAL. -/
structure WindowGrant.Scaled (g : WindowGrant) : Prop where
  normal : g.state = .normal → g.scale = 1024
  most   : g.scale ≤ 1024

/-- R123–R127: a window grants nothing, or what the fit check grants. -/
theorem WindowInput.evaluate_cases (w : WindowInput) (before : BudgetState) (recovery recover : Nat) :
    (w.evaluate before recovery recover).1 = brownoutGrant ∨
      (w.evaluate before recovery recover).1 = w.granting := by
  unfold WindowInput.evaluate
  dsimp only
  split
  · split
    · exact Or.inl rfl
    · exact Or.inr rfl
  · split
    · exact Or.inl rfl
    · exact Or.inr rfl
  · split_ifs
    · exact Or.inl rfl
    · exact Or.inr rfl
    · exact Or.inl rfl

theorem WindowInput.limiting_state (w : WindowInput) : w.limiting.state = .limiting := by
  unfold WindowInput.limiting
  dsimp only
  split <;> rfl

theorem WindowInput.granting_state (w : WindowInput) : w.granting.state ≠ .brownout := by
  unfold WindowInput.granting
  split
  · nofun
  · rw [w.limiting_state]
    nofun

theorem WindowInput.granting_scaled (w : WindowInput) : w.granting.Scaled := by
  unfold WindowInput.granting
  split
  · exact ⟨fun _ => rfl, Nat.le_refl _⟩
  · refine ⟨fun normal => absurd (w.limiting_state.symm.trans normal) nofun, ?_⟩
    unfold WindowInput.limiting
    dsimp only
    split
    · exact Nat.le_refl _
    · next short =>
      exact Nat.div_le_of_le_mul (Nat.mul_le_mul_right _ (Nat.le_of_not_le short))

theorem WindowInput.evaluate_scaled (w : WindowInput) (before : BudgetState) (recovery recover : Nat) :
    (w.evaluate before recovery recover).1.Scaled := by
  rcases w.evaluate_cases before recovery recover with nothing | granting
  · rw [nothing]
    exact ⟨nofun, Nat.zero_le _⟩
  · rw [granting]
    exact w.granting_scaled

/-! ## One channel -/

theorem WindowGrant.duty_brownout {g : WindowGrant} (h : g.state = .brownout) (d : Int) : g.duty d = 0 := by
  rw [WindowGrant.duty, h]

theorem WindowGrant.allowance_brownout {g : WindowGrant} (h : g.state = .brownout) (d : Int) (load : Nat) :
    g.allowance d load = 0 := by
  rw [WindowGrant.allowance, h]

theorem WindowGrant.duty_eq {g : WindowGrant} (h : g.state ≠ .brownout) (d : Int) :
    g.duty d = (d * g.scale).tdiv 1024 := by
  unfold WindowGrant.duty
  split
  · next brownout => exact absurd brownout h
  · rfl
  · rfl

theorem WindowGrant.natAbs_duty {g : WindowGrant} (h : g.state ≠ .brownout) (d : Int) :
    (g.duty d).natAbs = d.natAbs * g.scale / 1024 := by
  rw [g.duty_eq h, Int.natAbs_tdiv, Int.natAbs_mul]
  rfl

theorem WindowGrant.Scaled.natAbs_duty_le {g : WindowGrant} (scaled : g.Scaled) (d : Int) :
    (g.duty d).natAbs ≤ d.natAbs := by
  by_cases h : g.state = .brownout
  · rw [g.duty_brownout h]
    exact Nat.zero_le _
  · rw [g.natAbs_duty h]
    have := Nat.mul_le_mul_left d.natAbs scaled.most
    omega

/-- R125, R127: a granted duty has the sign of its request. -/
theorem WindowGrant.duty_mul_nonneg (g : WindowGrant) (d : Int) : 0 ≤ g.duty d * d := by
  by_cases h : g.state = .brownout
  · rw [g.duty_brownout h, Int.zero_mul]
  · rw [g.duty_eq h]
    have scale : (0 : Int) ≤ g.scale := Int.natCast_nonneg _
    rcases Int.le_total 0 d with forward | reverse
    · exact Int.mul_nonneg (Int.tdiv_nonneg (Int.mul_nonneg forward scale) (by decide)) forward
    · have turned : (-d * g.scale).tdiv 1024 = -(d * g.scale).tdiv 1024 := by rw [Int.neg_mul, Int.neg_tdiv]
      have nonneg := Int.tdiv_nonneg (Int.mul_nonneg (Int.neg_nonneg_of_nonpos reverse) scale) (b := 1024) (by decide)
      exact Int.mul_nonneg_of_nonpos_of_nonpos (by omega) reverse

theorem WindowGrant.Scaled.natAbs_duty_le_allowance {g : WindowGrant} (scaled : g.Scaled) {d : Int}
    (request : d.natAbs ≤ 1000) (load : Nat) : (g.duty d).natAbs ≤ g.allowance d load := by
  have within := scaled.natAbs_duty_le d
  cases state : g.state with
  | brownout =>
    rw [g.duty_brownout state]
    exact Nat.zero_le _
  | normal =>
    unfold WindowGrant.allowance
    rw [state]
    dsimp only
    split
    · exact within.trans request
    · exact le_min (within.trans request) (within.trans (Nat.le_add_right _ _))
  | limiting =>
    unfold WindowGrant.allowance
    rw [state]
    dsimp only
    split
    · exact within.trans request
    · exact Nat.le_refl _

/-- R101, R128: a channel that takes a window's grant. -/
theorem Motor.GrantBounded.granted {m : Motor} (h : m.GrantBounded) {g : WindowGrant} (scaled : g.Scaled) (load : Nat) :
    (m.granted g load).GrantBounded where
  request := h.request
  grant := le_min (scaled.natAbs_duty_le _) (scaled.natAbs_duty_le_allowance h.request load)
  sign := g.duty_mul_nonneg _

/-- R125–R127: the load of an allowance: the demand, scaled, and a share. -/
theorem WindowGrant.Scaled.allowance_load {g : WindowGrant} (scaled : g.Scaled) (h : g.state ≠ .brownout) (d : Int)
    (load : Nat) :
    1024 * (g.allowance d load * load) ≤ 1000 * (g.scale * motorLoad d load) + 1024 * (1000 * g.share) := by
  by_cases zero : load = 0
  · rw [zero, Nat.mul_zero, Nat.mul_zero]
    exact Nat.zero_le _
  have demand := natAbs_mul_le_motorLoad d load
  cases state : g.state with
  | brownout => exact absurd state h
  | normal =>
    rw [scaled.normal state, WindowGrant.allowance, state]
    dsimp only
    rw [if_neg zero]
    have most := Nat.mul_le_mul_right load (min_le_right 1000 (d.natAbs + g.share * 1000 / load))
    have share := Nat.div_mul_le_self (g.share * 1000) load
    rw [Nat.add_mul] at most
    omega
  | limiting =>
    rw [WindowGrant.allowance, state]
    dsimp only
    rw [if_neg zero, g.natAbs_duty h]
    have rounded := Nat.mul_div_le (d.natAbs * g.scale) 1024
    calc 1024 * (d.natAbs * g.scale / 1024 * load)
        = 1024 * (d.natAbs * g.scale / 1024) * load := (Nat.mul_assoc _ _ _).symm
      _ ≤ d.natAbs * g.scale * load := Nat.mul_le_mul_right _ rounded
      _ = g.scale * (d.natAbs * load) := by ring
      _ ≤ g.scale * (1000 * motorLoad d load) := Nat.mul_le_mul_left _ demand
      _ = 1000 * (g.scale * motorLoad d load) := by ring
      _ ≤ _ := Nat.le_add_right _ _

/-! ## All consumers -/

/-- R125: in NORMAL, the demands and the shares are within the ceiling. -/
theorem WindowInput.normal_fits (w : WindowInput) (fits : w.demand + soundLoad w.volume w.load ≤ w.ceiling) :
    w.demand + w.normal.share * w.motors + soundLoad w.volume w.load + w.normal.share * (if w.load > 0 then 1 else 0) ≤
      w.ceiling := by
  have shares := Nat.div_mul_le_self (w.ceiling - w.demand - soundLoad w.volume w.load) w.consumers
  have split : w.normal.share * w.consumers =
      w.normal.share * w.motors + w.normal.share * (if w.load > 0 then 1 else 0) :=
    Nat.mul_add _ _ _
  have same : w.normal.share * w.consumers =
    (w.ceiling - w.demand - soundLoad w.volume w.load) / w.consumers * w.consumers := rfl
  omega

/-- R125: in NORMAL, the sound's allowance is its demand and a share. -/
theorem WindowInput.normal_sound (w : WindowInput) :
    10 * w.normal.soundAllowance * w.load ≤
      1000 * (soundLoad w.volume w.load + w.normal.share * (if w.load > 0 then 1 else 0)) := by
  have demand := mul_le_soundLoad w.volume w.load
  by_cases load : w.load > 0
  · have most := Nat.mul_le_mul_right w.load (min_le_right 100 (w.volume + w.headroom * 100 / w.load))
    have share := Nat.div_mul_le_self (w.headroom * 100) w.load
    rw [Nat.add_mul] at most
    simp only [WindowInput.normal, if_pos load]
    rw [Nat.mul_assoc]
    omega
  · rw [show w.load = 0 by omega, Nat.mul_zero]
    exact Nat.zero_le _

/-- R126: the protected volume fits the ceiling. -/
theorem WindowInput.protected_fits (w : WindowInput) : soundLoad w.protectedVolume w.load ≤ w.ceiling := by
  refine soundLoad_le ?_
  unfold WindowInput.protectedVolume
  split
  · have least : min w.volume (min w.floor (w.ceiling * 100 / w.load)) ≤ w.ceiling * 100 / w.load :=
      (min_le_right _ _).trans (min_le_right _ _)
    have most := Nat.mul_le_mul_right w.load least
    have ceiling := Nat.div_mul_le_self (w.ceiling * 100) w.load
    omega
  · next none =>
    rw [show w.load = 0 by omega, Nat.mul_zero]
    exact Nat.zero_le _

/-- R125–R128: what a window's allowances let through is within the ceiling. -/
theorem WindowInput.granting_fits (w : WindowInput) :
    1000 * (w.granting.scale * w.demand) + 1024 * (1000 * (w.granting.share * w.motors)) +
      1024 * (10 * w.granting.soundAllowance * w.load) ≤ 1024 * (1000 * w.ceiling) := by
  unfold WindowInput.granting
  split
  · next fits =>
    have channels := w.normal_fits fits
    have sound := w.normal_sound
    rw [show w.normal.scale = 1024 from rfl]
    omega
  · have reserve := w.protected_fits
    unfold WindowInput.limiting
    dsimp only
    split
    · next enough =>
      have most := Nat.mul_le_mul_right w.load (min_le_right w.volume ((w.ceiling - w.demand) * 100 / w.load))
      have left := Nat.div_mul_le_self ((w.ceiling - w.demand) * 100) w.load
      unfold WindowInput.motorCeiling at enough
      dsimp only
      rw [Nat.mul_assoc 10]
      omega
    · have motors := Nat.div_mul_le_self (w.motorCeiling * 1024) w.demand
      have sound := mul_le_soundLoad w.protectedVolume w.load
      unfold WindowInput.motorCeiling at motors ⊢
      dsimp only
      rw [Nat.mul_assoc 10]
      omega

end Sys2Proof.Machine
end

