-- ==== Sys2Proof/Proofs/WindowWrites.lean ====
section
/-! PROOFS. The write-back of a budget window (R123, R128): the channels it leaves, and the load their allowances
let through. -/

namespace Sys2Proof.Machine

/-! ## The write-back (R123, R128) -/

theorem State.motorProfile_congr {s t : State} (profiles : t.profiles = s.profiles) (ports : t.ports = s.ports)
    (n : PortNo) : t.motorProfile n = s.motorProfile n := by
  unfold State.motorProfile State.boundProfile
  rw [profiles, ports]

section
variable (s : State)

/-- R123, R130: the part once the window's record is written and its change is told. -/
def State.windowTold : State := s.windowWrite.budgetChange s.budget.record.state

theorem State.windowTold_keeps {β : Type} (F : State → β) (hBus : IgnoresBus F) (hMotors : IgnoresMotors F) :
    F s.windowTold = F s.windowWrite := State.budgetChange_keeps F hBus hMotors _ _

theorem State.windowTold_motorProfile (n : PortNo) : s.windowTold.motorProfile n = s.motorProfile n :=
  s.windowTold_keeps (·.motorProfile n) (fun _ _ => rfl) (fun _ _ => rfl)

/-- R123: only a window that enters BROWNOUT touches the channels before the write-back. -/
theorem State.windowTold_motors (h : s.windowGrant.1.state ≠ .brownout) : s.windowTold.motors = s.motors := by
  have powered : s.windowWrite.budget.record.state ≠ .brownout := h
  unfold State.windowTold State.budgetChange
  dsimp only
  split
  · rfl
  · rfl

theorem State.window_eq : s.window = allPorts.foldl (State.grantChannel s.windowGrant.1) s.windowTold := rfl

/-- R101, R128: the write-back gives each motor-bound channel its allowance and its grant. -/
theorem State.window_motors (n : PortNo) : s.window.motors[n] =
    match s.motorProfile n with
    | some p => s.windowTold.motors[n].granted s.windowGrant.1 p.ratedLoad.toNat
    | none => s.windowTold.motors[n] := by
  have keep (t : State) (k : PortNo) (ht : ∀ j, t.motorProfile j = s.motorProfile j) (j : PortNo) :
      (State.grantChannel s.windowGrant.1 t k).motorProfile j = s.motorProfile j :=
    (State.grantChannel_keeps (·.motorProfile j) (fun _ _ => rfl) _ t k).trans (ht j)
  have miss (t : State) (k : PortNo) (_ : ∀ j, t.motorProfile j = s.motorProfile j) (other : k ≠ n) :
      (State.grantChannel s.windowGrant.1 t k).motors[n] = t.motors[n] := by
    unfold State.grantChannel
    split
    · exact State.setMotor_other t k n _ other
    · rfl
  obtain ⟨u, profiles, same, after⟩ := foldl_once (get := fun t : State => t.motors[n]) keep miss
    (by decide) (allPorts_eq ▸ List.mem_finRange n) s.windowTold_motorProfile
  rw [State.window_eq, after]
  cases bound : s.motorProfile n with
  | none => rw [State.grantChannel, profiles n, bound, same]
  | some p => rw [State.grantChannel, profiles n, bound, State.setMotor_same, same]

theorem State.window_of_told {β : Type} (F : State → β) (hMotors : IgnoresMotors F) : F s.window = F s.windowTold :=
  foldl_keeps F _ (State.grantChannel_keeps F hMotors _) _ _

theorem State.window_motorProfile (n : PortNo) : s.window.motorProfile n = s.motorProfile n :=
  (s.window_of_told (·.motorProfile n) (fun _ _ => rfl)).trans (s.windowTold_motorProfile n)

/-- R122, R128: a sum over the motor-bound channels. -/
def State.sumOverBound (f : PortNo → Profile → Nat) : Nat :=
  (allPorts.map fun n => ((s.motorProfile n).map (f n)).getD 0).sum

/-- R128: the load over the channels after a window. -/
theorem State.window_loadOver (f : Motor → Nat) : s.window.loadOver f = s.sumOverBound fun n p =>
    f (s.windowTold.motors[n].granted s.windowGrant.1 p.ratedLoad.toNat) * p.ratedLoad.toNat := by
  refine congrArg List.sum (List.map_congr_left fun n _ => ?_)
  rw [s.window_motorProfile, s.window_motors]
  cases s.motorProfile n <;> rfl

/-- R122, R125: a sum over the motor-bound channels, bounded by their demands and their number. -/
theorem State.sumOverBound_le (f : PortNo → Profile → Nat) (a b c : Nat)
    (h : ∀ n p, s.motorProfile n = some p →
      a * f n p ≤ b * motorLoad s.motors[n].dutyRequest p.ratedLoad.toNat + c) :
    a * s.sumOverBound f ≤ b * s.motorDemand + c * s.motorCount := by
  unfold State.sumOverBound State.motorDemand State.motorCount
  induction allPorts with
  | nil => exact Nat.zero_le _
  | cons n rest ih =>
    rw [List.map_cons, List.sum_cons, List.map_cons, List.sum_cons, List.countP_cons, Nat.mul_add, Nat.mul_add,
      Nat.mul_add, State.channelDemand]
    cases bound : s.motorProfile n with
    | none =>
      simp only [Option.map_none, Option.getD_none, Option.isSome_none, Bool.false_eq_true, if_false]
      omega
    | some p =>
      have here := h n p bound
      simp only [Option.map_some, Option.getD_some, Option.isSome_some, if_true]
      omega

/-- R128: what the allowances let through after a window is within its ceiling, whatever the state it found. -/
theorem State.window_allowancesWithin : s.window.AllowancesWithin := by
  have outside : (s.window.sound, s.window.budget, s.window.settings) =
      (s.windowWrite.sound, s.windowWrite.budget, s.windowWrite.settings) :=
    (s.window_of_told (fun t => (t.sound, t.budget, t.settings)) (fun _ _ => rfl)).trans
      (s.windowTold_keeps (fun t => (t.sound, t.budget, t.settings)) (fun _ _ => rfl) (fun _ _ => rfl))
  obtain ⟨sound, budget, settings⟩ : _ ∧ _ ∧ _ := by simpa only [Prod.mk.injEq] using outside
  have scaled : s.windowGrant.1.Scaled := s.windowInput.evaluate_scaled _ _ _
  refine ⟨?_, ?_⟩
  · rw [s.window_loadOver, sound, budget]
    change _ + 10 * s.windowGrant.1.soundAllowance * s.windowInput.load ≤ 1000 * s.windowInput.ceiling
    rcases s.windowInput.evaluate_cases s.budget.record.state s.budget.record.recovery
      s.settings.brownoutRecover.toNat with nothing | granting
    · have nothing : s.windowGrant.1 = brownoutGrant := nothing
      have channels := s.sumOverBound_le (fun n p =>
        (s.windowTold.motors[n].granted s.windowGrant.1 p.ratedLoad.toNat).allowance * p.ratedLoad.toNat) 1 0 0
        fun n p _ => by simp [Motor.granted, nothing, WindowGrant.allowance, brownoutGrant]
      rw [show s.windowGrant.1.soundAllowance = 0 by rw [nothing]; rfl]
      omega
    · have granting : s.windowGrant.1 = s.windowInput.granting := granting
      have powered : s.windowGrant.1.state ≠ .brownout := granting ▸ s.windowInput.granting_state
      have channels := s.sumOverBound_le (fun n p =>
        (s.windowTold.motors[n].granted s.windowGrant.1 p.ratedLoad.toNat).allowance * p.ratedLoad.toNat) 1024
        (1000 * s.windowGrant.1.scale) (1024 * (1000 * s.windowGrant.1.share)) fun n p _ => by
          rw [s.windowTold_motors powered, Nat.mul_assoc]
          exact scaled.allowance_load powered _ _
      have fits := s.windowInput.granting_fits
      rw [← granting] at fits
      rw [Nat.mul_assoc, Nat.mul_assoc 1024, Nat.mul_assoc 1000] at channels
      have demand : s.windowInput.demand = s.motorDemand := rfl
      have motors : s.windowInput.motors = s.motorCount := rfl
      rw [demand, motors] at fits
      omega
  · rw [settings, budget]
    exact Nat.le_refl _

/-- R101, R128: a window keeps every grant bounded. -/
theorem State.GrantsBounded.window {s : State} (h : s.GrantsBounded) : s.window.GrantsBounded := by
  have scaled : s.windowGrant.1.Scaled := s.windowInput.evaluate_scaled _ _ _
  have told (n : PortNo) : s.windowTold.motors[n].GrantBounded := by
    unfold State.windowTold State.budgetChange
    dsimp only
    split
    · exact h n
    · split
      · rw [State.stopAll_motors]
        unfold State.safelyEnded
        split
        · exact Motor.GrantBounded.of_zero rfl rfl
        · exact h n
      · exact h n
  intro n
  rw [s.window_motors]
  cases s.motorProfile n with
  | none => exact told n
  | some p => exact (told n).granted scaled _

end

end Sys2Proof.Machine
end

