-- ==== Sys2Proof/Proofs/LoadStaysWithinCeiling.lean ====
section
/-! PROOFS. Every step keeps the load within the ceiling of the last window (O58): the rows of exec. -/

namespace Sys2Proof.Machine

theorem State.Rationed.settled {quota : PortNo → Nat} {room : Nat} {s : State} (hs : s.Rationed quota room) :
    EndsWith (State.Rationed quota room) (settled s) := State.Rationed.linkKeeps.transmit s hs

/-- Every row but the window and the resets keeps the rations. -/
theorem exec_rationed (c : Instr) {quota : PortNo → Nat} {room : Nat} {s : State} (hs : s.Rationed quota room)
    (noReset : ∀ straps, c ≠ .powerOnReset straps) (noSending : c ≠ .frameTransmitted)
    (noWindow : c ≠ .budgetWindowExpiry) : EndsWith (State.Rationed quota room) (exec c s) := by
  by_cases hc : isCommand c = true
  · exact State.Rationed.linkKeeps.commands State.Rationed.handlers c hc s hs
  cases c
  case powerOnReset straps => exact absurd rfl (noReset straps)
  case frameTransmitted => exact absurd rfl noSending
  case budgetWindowExpiry => exact absurd rfl noWindow
  case frameReceived bytes =>
    exact foldl_invariant (I := State.Rationed quota room) (fun _ b h => h.receiveByte b) bytes hs
  case gapTimeout =>
    simp only [exec, execGapTimeout]
    split <;> exact hs
  case silenceTimeout =>
    simp only [exec, execSilenceTimeout]
    split
    · exact hs
    · exact hs.goSilent.settled
  case stampTick => exact hs
  case detChange n closed =>
    simp only [exec, execDetChange]
    split
    · exact hs
    · exact hs.setPort n
  case detDebounceExpiry n =>
    simp only [exec, execDetDebounceExpiry]
    split
    · exact hs
    · exact (State.Rationed.acceptDet (hs.setPort n) n).settled
  case idConversionDone code =>
    have next (t : State) (ht : t.Rationed quota room) : t.converterNext.Rationed quota room :=
      (State.converterNext_keeps (State.Rationed quota room) (fun _ _ => rfl) t).mpr ht
    simp only [exec, execIdConversionDone]
    split
    · split
      · exact (next _ hs).settled
      · exact (next _ (hs.identResult _ _)).settled
    · exact hs
    · exact hs
  case queryTryDue n =>
    simp only [exec, execQueryTryDue]
    split
    · exact hs
    · exact State.Rationed.startWork (hs.setPort n) n
  case deviceFrameSent n =>
    simp only [exec, execDeviceFrameSent]
    split
    · exact hs
    · exact hs.setPort n
  case queryWindowClose n =>
    simp only [exec, execQueryWindowClose]
    split
    · exact (((hs.endExchange n).queryFailed n).startWork n).settled
    · exact hs
  case pollWindowClose n =>
    simp only [exec, execPollWindowClose]
    split
    · exact (((hs.endExchange n).pollMissed n).startWork n).settled
    · exact hs
  case writeWindowClose n =>
    simp only [exec, execWriteWindowClose]
    split
    · exact (((hs.endExchange n).answerPass n _ _).startWork n).settled
    · exact hs
  case identReceived n payload => exact (hs.deviceBytes n _).settled
  case dataReceived n payload => exact (hs.deviceBytes n _).settled
  case ackReceived n payload => exact (hs.deviceBytes n _).settled
  case nakReceived n payload => exact (hs.deviceBytes n _).settled
  case badDeviceFrame n bytes => exact (hs.deviceBytes n bytes).settled
  case pollTimerExpiry n =>
    simp only [exec, execPollTimerExpiry]
    split
    · exact hs
    · split
      · exact hs
      · exact State.Rationed.startWork (hs.setPort n) n
  case reprobeExpiry n =>
    have restarted : (s.setPort n { s.ports[n] with reprobeTimer := some 500 }).Rationed quota room := hs.setPort n
    simp only [exec, execReprobeExpiry]
    split
    · exact hs
    · split
      · exact restarted.requestIdent n
      · exact State.Rationed.startWork (restarted.setPort n) n
  case digitalLineChange n line high =>
    have accepted (l : Lines) : ((s.setLines n l).acceptLine n line).Rationed quota room :=
      (State.acceptLine_keeps (State.Rationed quota room) (fun _ _ => rfl) (fun _ _ => rfl) _ n line).mpr hs
    simp only [exec, execDigitalLineChange]
    split_ifs
    · exact hs
    · exact (accepted _).settled
    · exact hs
    · exact hs
  case lineDebounceExpiry n line =>
    have accepted (l : Lines) : ((s.setLines n l).acceptLine n line).Rationed quota room :=
      (State.acceptLine_keeps (State.Rationed quota room) (fun _ _ => rfl) (fun _ _ => rfl) _ n line).mpr hs
    simp only [exec, execLineDebounceExpiry]
    split
    · exact hs
    · exact (accepted _).settled
  case quadratureChange n high1 high2 =>
    have counted (l : Lines) (p0 p1 : Word) :
        (((s.setLines n l).quadraturePosition n p0 p1).encoderUpdate n).Rationed quota room :=
      (State.encoderUpdate_keeps (State.Rationed quota room) (fun _ _ => rfl) (fun _ _ => rfl) (fun _ _ => rfl)
        (fun _ _ => rfl) (fun _ _ => rfl) _ n).mpr (State.Rationed.quadraturePosition (s := s.setLines n l) hs n p0 p1)
    simp only [exec, execQuadratureChange]
    split_ifs
    · exact hs
    · exact (counted _ _ _).settled
    · exact hs
  case pulseEdge n rising time =>
    simp only [exec, execPulseEdge]
    split_ifs
    · exact (State.Rationed.sourceUpdate (s := s.setLines n _) hs _).settled
    · exact hs
    · exact hs
    · exact hs
  case noEdgeExpiry n =>
    simp only [exec, execNoEdgeExpiry]
    split
    · exact hs
    · exact (State.Rationed.sourceUpdate (s := s.setLines n _) hs _).settled
  case scanConversionDone code =>
    simp only [exec, execScanConversionDone]
    split
    · exact State.Rationed.settled ((State.scanConversion_keeps (State.Rationed quota room) (fun _ _ => rfl)
        (fun _ _ => rfl) (fun _ _ => rfl) (fun _ _ => rfl) (fun _ _ => rfl) s ..).mpr hs)
    · exact hs
    · exact hs
  case regulationExpiry n =>
    simp only [exec, execRegulationExpiry]
    split
    · exact (hs.regulation n _).settled
    · exact hs
  case runForExpiry n =>
    simp only [exec, execRunForExpiry]
    split
    · exact (hs.finishMotor n _).settled
    · exact hs
  case outputSample => exact hs.sample.settled
  case noteDurationExpiry =>
    simp only [exec, execNoteDurationExpiry]
    split
    · exact hs
    · exact hs.noteExpiry.settled
  case eventDispatch =>
    simp only [exec, execEventDispatch]
    split
    · exact hs
    · exact (hs.dispatchEvent _ _).settled
  case reportPeriodExpiry i =>
    simp only [exec, execReportPeriodExpiry]
    split
    · exact hs
    · exact (State.Rationed.reportDue (s := s.setReport i _) hs i).settled
  case minIntervalExpiry i =>
    simp only [exec, execMinIntervalExpiry]
    split
    · exact hs
    · split
      · exact (hs.reportDue i).settled
      · exact hs
  all_goals exact absurd rfl hc

/-- R13: after a reset no port is BOUND, and the sound's allowance fits the reset ceiling. -/
theorem State.afterReset_budgeted (cause : ResetCause) (strap : BitVec 2) (det : Vector Bool 6)
    (pins : Vector (Bool × Bool) 6) (clips : Vector Clip 16) (store : List Host.Cell) (pending : List Instr) :
    (State.afterReset cause strap det pins clips store pending).Budgeted := by
  have sound : SoundRation 300000 100 Budget.reset.loadOld Settings.reset.speakerLoad.toNat := ⟨by decide, by decide⟩
  have ceiling : (allPorts.map fun _ => 0).sum + 300000 ≤ 1000 * Budget.reset.record.ceiling := by decide
  refine ⟨fun _ => 0, 300000, fun n => ?_, sound, ceiling⟩
  have port : (State.afterReset cause strap det pins clips store pending).ports[n] = Port.reset det[n] := by
    simp [State.afterReset]
  have motor : (State.afterReset cause strap det pins clips store pending).motors[n] = Motor.reset := by
    simp [State.afterReset]
  rw [port, motor]
  exact Rationing.unloaded (Motor.GrantBounded.of_zero rfl rfl) nofun

/-- R128: a window grants new rations. -/
theorem State.Budgeted.window {s : State} (h : s.Budgeted) : s.window.Budgeted :=
  s.window.budgeted_iff.mpr ⟨State.GrantsBounded.window (s.budgeted_iff.mp h).1, s.window_allowancesWithin⟩

theorem State.Budgeted.transmitNext {s : State} (h : s.Budgeted) : s.transmitNext.Budgeted :=
  have ⟨quota, room, rationed⟩ := h
  ⟨quota, room, State.Rationed.linkKeeps.transmit s rationed⟩

theorem State.Budgeted.transmitted {s : State} (h : s.Budgeted) (x : Sending) : (s.transmitted x).Budgeted := by
  unfold State.transmitted
  split
  · exact State.afterReset_budgeted _ _ _ _ _ _ _
  · obtain ⟨quota, room, rationed⟩ := h
    have sent : State.Rationed quota room { s with link := s.link.sent x } := rationed
    exact ⟨quota, room, State.Rationed.linkKeeps.transmit _ (State.Rationed.linkKeeps.transmit _ sent).takeAll⟩

/-- Every row keeps the grants bounded and the allowances within the ceiling. -/
theorem exec_budgeted (c : Instr) {s : State} (hs : s.Budgeted) : EndsWith State.Budgeted (exec c s) := by
  by_cases reset : ∃ straps, c = .powerOnReset straps
  · obtain ⟨straps, rfl⟩ := reset
    exact State.afterReset_budgeted _ _ _ _ _ _ _
  by_cases sending : c = .frameTransmitted
  · subst sending
    simp only [exec, execFrameTransmitted]
    split
    · exact hs
    · exact hs.transmitted _
  by_cases window : c = .budgetWindowExpiry
  · subst window
    exact hs.window.transmitNext
  obtain ⟨quota, room, rationed⟩ := hs
  have kept := exec_rationed c rationed (fun straps same => reset ⟨straps, same⟩) sending window
  cases after : exec c s with
  | next t =>
    rw [after] at kept
    exact ⟨quota, room, kept⟩
  | fault => trivial
  | refused => trivial

/-- Settles O58: each row keeps to rations, or grants anew within its own ceiling, and the allowances bound the load. -/
theorem loadStaysWithinCeiling : Obligations.LoadStaysWithinCeiling := by
  intro s t grants allowances stepped
  have before : s.Budgeted := s.budgeted_iff.mpr ⟨grants, allowances⟩
  have after : t.Budgeted := by
    cases hp : s.pending with
    | nil =>
      have same : s = t := by simpa [step, hp] using stepped
      exact same ▸ before
    | cons c rest =>
      have row : exec c { s with pending := rest } = .next t := by simpa [step, hp] using stepped
      have kept : EndsWith State.Budgeted (.next t) := row ▸ exec_budgeted c (s := { s with pending := rest }) before
      exact kept
  obtain ⟨granted, allowed⟩ := t.budgeted_iff.mp after
  exact ⟨granted, allowed, allowed.loadWithin granted⟩

end Sys2Proof.Machine
end

