-- ==== Sys2Proof/Proofs/MotorOperations.lean ====
section
/-! PROOFS. The motor operations and their ends as whole states (R84–R95): what an end, a stop and a start leave of the
channel and of the bus, and the commands that carry them out or refuse them. -/

namespace Sys2Proof.Machine

/-! ## Whole states -/

/-- R85: an end of an operation changes one channel and the bus. -/
theorem State.endOperation_eq (s : State) (n : PortNo) (o : Outcome) :
    s.endOperation n o = { s with motors := s.motors.set n (s.motors[n].ended o), bus := s.endingBus n o } := by
  unfold State.endOperation Motor.ended State.endingBus
  dsimp only
  split
  · split <;> rfl
  · rw [vector_set_self]

/-- R86, R88: so does a stop, -/
theorem State.stopMotor_eq (s : State) (n : PortNo) (o : Outcome) (mode : MotorMode) :
    s.stopMotor n o mode =
      { s with motors := s.motors.set n ((s.motors[n].ended o).stopped mode), bus := s.endingBus n o } := by
  simp [State.stopMotor, State.endOperation_eq, State.setMotor]

/-- R86: the channel after an end DONE with its end action. -/
def Motor.finished (m : Motor) (target : Word) : Motor :=
  match m.endAction with
  | .coast => (m.ended .done).stopped .coast
  | .brake => (m.ended .done).stopped .brake
  | .hold => (m.ended .done).beginHold m.notify target

/-- the end of a RUN_TO or RUN_FOR, -/
theorem State.finishMotor_eq (s : State) (n : PortNo) (target : Word) :
    s.finishMotor n target =
      { s with motors := s.motors.set n (s.motors[n].finished target), bus := s.endingBus n .done } := by
  unfold State.finishMotor Motor.finished
  dsimp only
  cases s.motors[n].endAction with
  | coast => exact s.stopMotor_eq n .done .coast
  | brake => exact s.stopMotor_eq n .done .brake
  | hold => simp [State.endOperation_eq, State.setMotor]

section
variable {m : Motor}

theorem Motor.finished_coast (action : m.endAction = .coast) (target : Word) :
    m.finished target = (m.ended .done).stopped .coast := by rw [Motor.finished, action]

theorem Motor.finished_brake (action : m.endAction = .brake) (target : Word) :
    m.finished target = (m.ended .done).stopped .brake := by rw [Motor.finished, action]

theorem Motor.finished_hold (action : m.endAction = .hold) (target : Word) :
    m.finished target = (m.ended .done).beginHold m.notify target := by rw [Motor.finished, action]

end

theorem State.endingBus_stamp (s : State) (n : PortNo) (o : Outcome) : (s.endingBus n o).stamp = s.bus.stamp := by
  have ended : (s.endOperation n o).bus.stamp = s.bus.stamp := by
    unfold State.endOperation
    dsimp only
    split
    · split <;> simp [State.notify, State.post]
    · rfl
  rw [← ended, s.endOperation_bus]

/-- and the start of a driving operation. -/
theorem State.runMotorOp_driving (s : State) (n : PortNo) {op : MotorOp} (driving : op.driving = true) (notify : Bool) :
    s.runMotorOp n op notify =
      { s with motors := s.motors.set n ((s.motors[n].ended .superseded).start op notify s.bus.stamp)
               bus := s.endingBus n .superseded } := by
  have started : ∀ t : State, t = s.endOperation n .superseded →
      t.setMotor n (t.motors[n].start op notify t.bus.stamp) =
        { s with motors := s.motors.set n ((s.motors[n].ended .superseded).start op notify s.bus.stamp)
                 bus := s.endingBus n .superseded } := by
    rintro t rfl
    simp [State.endOperation_eq, State.setMotor, s.endingBus_stamp]
  cases op with
  | coast | brake | setCount => exact absurd driving Bool.false_ne_true
  | duty | speed | runTo | runFor | hold | follow => exact started _ rfl

/-- A place reserved in the intake is not an operation's concern. -/
theorem State.runMotorOp_reserved (s : State) (kind tag : Byte) (n : PortNo) (op : MotorOp) (notify : Bool) :
    (s.reserved kind tag).runMotorOp n op notify = (s.runMotorOp n op notify).reserved kind tag := by
  cases driving : op.driving with
  | true =>
    rw [State.runMotorOp_driving _ n driving, State.runMotorOp_driving _ n driving]
    rfl
  | false =>
    cases op with
    | coast | brake =>
      simp only [State.runMotorOp, State.stopMotor_eq]
      rfl
    | setCount => rfl
    | duty | speed | runTo | runFor | hold | follow => exact absurd driving.symm Bool.false_ne_true

theorem State.runMotorOp_link (s : State) (n : PortNo) (op : MotorOp) (notify : Bool) :
    (s.runMotorOp n op notify).link = s.link :=
  State.runMotorOp_keeps (·.link) (fun _ _ => rfl) (fun _ _ => rfl) (fun _ _ => rfl) s n op notify

/-! ## The checks (R87) -/

/-- R87, check 3: FOLLOW of an entry beyond the table. -/
def MotorOp.badEntry : MotorOp → Bool
  | .follow e _ => decide (e ≥ 32)
  | .coast | .brake | .duty _ | .speed _ | .runTo .. | .runFor .. | .hold | .setCount _ => false

/-- R87, check 6: what refuses a driving operation. -/
def State.drivingRefusal (s : State) (n : PortNo) : Option Status :=
  if s.budget.record.state = .brownout then some .brownout
  else if s.service = some n ∨ s.link.state = .silent then some .inUse else none

section
variable {s : State} {n : PortNo} {op : MotorOp} {p : Profile}

theorem State.motorRefusal_badEntry (bad : op.badEntry = true) : s.motorRefusal n op = some .badIndex := if_pos bad

theorem State.motorRefusal_unbound (good : op.badEntry = false) (unbound : s.motorProfile n = none) :
    s.motorRefusal n op = some .notMotor := by
  refine (if_neg (Bool.eq_false_iff.mp good)).trans ?_
  rw [unbound]

theorem State.motorRefusal_coast (bound : s.motorProfile n = some p) : s.motorRefusal n .coast = none := by
  unfold State.motorRefusal
  rw [bound]
  rfl

theorem State.motorRefusal_brake (bound : s.motorProfile n = some p) : s.motorRefusal n .brake = none := by
  unfold State.motorRefusal
  rw [bound]
  rfl

theorem State.motorRefusal_setCount (bound : s.motorProfile n = some p) (value : Word) :
    s.motorRefusal n (.setCount value) =
      if p.positionSource ≠ 255 then some .badIndex
      else if s.motors[n].mode.driving then some .inUse else none := by
  unfold State.motorRefusal
  rw [bound]
  rfl

theorem State.motorRefusal_driving (driving : op.driving = true) (good : op.badEntry = false)
    (bound : s.motorProfile n = some p) : s.motorRefusal n op = s.drivingRefusal n := by
  have checks : (if s.budget.record.state = .brownout then some Status.brownout
      else if s.inService n then some .inUse else if s.link.state = .silent then some .inUse else none) =
      s.drivingRefusal n := by
    unfold State.drivingRefusal State.inService
    by_cases serving : s.service = some n <;> simp [serving]
  refine (if_neg (Bool.eq_false_iff.mp good)).trans ?_
  rw [bound]
  cases op with
  | coast | brake | setCount => exact absurd driving Bool.false_ne_true
  | duty | speed | runTo | runFor | hold | follow => exact checks

/-- R87: nothing stands against a driving operation. -/
theorem State.motorRefusal_free (driving : op.driving = true) (good : op.badEntry = false)
    (bound : s.motorProfile n = some p) (power : s.budget.record.state ≠ .brownout) (free : s.service ≠ some n)
    (active : s.link.state = .active) : s.motorRefusal n op = none := by
  rw [State.motorRefusal_driving driving good bound, State.drivingRefusal, if_neg power,
    if_neg (by rw [active]; exact not_or.mpr ⟨free, nofun⟩)]

end

/-! ## The commands -/

/-- R6, R87: a MOTOR command that passes its checks is answered once it is carried out. -/
theorem motorRow_taken {s : State} {n : PortNo} {op : MotorOp} (opens : s.Opens) (passes : s.motorRefusal n op = none)
    (code tag notify : Byte) (args : List Byte) :
    motorRow code tag (portByte n) notify args op s = .next (State.replied (s.runMotorOp n op (flagIn notify))
      0x10 tag (adjustedIf (op.clamped || (op.driving && flagClamped notify))) []) := by
  have link := s.runMotorOp_link n op (flagIn notify)
  refine command_replied opens ?_ (congrArg Link.places link) (congrArg Link.nextOrder link)
  have passes' : (s.reserved Kind.motor.code tag).motorRefusal n op = none := passes
  rw [State.motorCommand, dif_pos (by rw [toNat_portByte]; exact n.isLt), portByte_port, State.motorOp, passes',
    State.runMotorOp_reserved]
  cases op.clamped <;> cases op.driving <;> cases flagClamped notify <;> rfl

/-- R87: a refusal is no OK. -/
theorem State.motorRefusal_ne_ok (s : State) (n : PortNo) (op : MotorOp) : s.motorRefusal n op ≠ some .ok := by
  by_cases bad : op.badEntry = true
  · rw [State.motorRefusal_badEntry bad]
    nofun
  have good := Bool.eq_false_of_not_eq_true bad
  cases bound : s.motorProfile n with
  | none =>
    rw [State.motorRefusal_unbound good bound]
    nofun
  | some p =>
    cases op with
    | coast =>
      rw [State.motorRefusal_coast bound]
      nofun
    | brake =>
      rw [State.motorRefusal_brake bound]
      nofun
    | setCount value =>
      rw [State.motorRefusal_setCount bound]
      split_ifs <;> nofun
    | duty | speed | runTo | runFor | hold | follow =>
      rw [State.motorRefusal_driving rfl good bound, State.drivingRefusal]
      split_ifs <;> nofun

/-- R87, check 2: a channel beyond the last. -/
theorem State.motorCommand_far {channel : Byte} (far : 6 ≤ channel.toNat) (s : State) (notify : Byte) (op : MotorOp) :
    s.motorCommand channel notify op = refuse s .badIndex := dif_neg (Nat.not_lt.mpr far)

/-- R87: a refused command changes nothing. -/
theorem State.motorCommand_refused {s : State} {channel : Byte} {op : MotorOp} {status : Status}
    (near : channel.toNat < 6) (refused : s.motorRefusal (Fin.ofNat 6 channel.toNat) op = some status)
    (notify : Byte) : s.motorCommand channel notify op = refuse s status := by
  have channelIs : Fin.ofNat 6 channel.toNat = ⟨channel.toNat, near⟩ := Fin.ext (Nat.mod_eq_of_lt near)
  rw [channelIs] at refused
  have notOk : status ≠ .ok := fun ok => s.motorRefusal_ne_ok _ op (ok ▸ refused)
  rw [State.motorCommand, dif_pos near, State.motorOp, refused]
  dsimp only
  rw [if_neg fun ok => notOk ok.1]
  rfl

/-- The row of a MOTOR command whose end action code is right carries its operation out. -/
theorem exec_motorOperands {c : Instr} {tag channel : Byte} {op : MotorOp}
    (row : motorOperands c = some (tag, channel, some op)) (s : State) :
    ∃ payload notify, exec c s = command 0x10 tag payload (fun t _ => t.motorCommand channel notify op) s := by
  have ended : ∀ {e : Byte} {code : Byte} {notify : Byte} {args : List Byte} {ops : EndAction → MotorOp},
      EndAction.list[e.toNat]?.map ops = some op →
      ∃ payload notify', motorEndRow code tag channel notify args e ops s =
        command 0x10 tag payload (fun t _ => t.motorCommand channel notify' op) s := by
    intro e code notify args ops found
    obtain ⟨a, named, rfl⟩ := Option.map_eq_some_iff.mp found
    refine ⟨motorPayload code channel notify args, notify, ?_⟩
    rw [motorEndRow, valueIn, named]
    rfl
  cases c <;> simp only [motorOperands, reduceCtorEq, Option.some.injEq, Prod.mk.injEq] at row
  case motorRunTo =>
    obtain ⟨rfl, rfl, found⟩ := row
    exact ended found
  case motorRunFor =>
    obtain ⟨rfl, rfl, found⟩ := row
    exact ended found
  all_goals
    obtain ⟨rfl, rfl, rfl⟩ := row
    exact ⟨_, _, rfl⟩

/-- R87, check 1: an end action code of 3–255. -/
theorem exec_motorOperands_none {c : Instr} {tag channel : Byte}
    (row : motorOperands c = some (tag, channel, none)) (s : State) :
    ∃ payload, exec c s = command 0x10 tag payload (fun t _ => refuse t .badLength) s := by
  have ended : ∀ {e : Byte} {code : Byte} {notify : Byte} {args : List Byte} {ops : EndAction → MotorOp},
      EndAction.list[e.toNat]?.map ops = none →
      ∃ payload, motorEndRow code tag channel notify args e ops s =
        command 0x10 tag payload (fun t _ => refuse t .badLength) s := by
    intro e code notify args ops found
    refine ⟨motorPayload code channel notify args, ?_⟩
    rw [motorEndRow, valueIn, Option.map_eq_none_iff.mp found]
    rfl
  cases c <;> simp only [motorOperands, reduceCtorEq, Option.some.injEq, Prod.mk.injEq, and_false] at row
  case motorRunTo =>
    obtain ⟨rfl, rfl, found⟩ := row
    exact ended found
  case motorRunFor =>
    obtain ⟨rfl, rfl, found⟩ := row
    exact ended found

/-! ## The statement of the checks -/

/-- R87: checks 3 to 6 of a channel, from the profile its port is bound to. -/
theorem State.motorRefusal_good {s : State} {n : PortNo} {op : MotorOp} (good : op.badEntry = false) :
    s.motorRefusal n op = match s.motorProfile n with
      | none => some .notMotor
      | some p =>
        match op with
        | .setCount _ =>
          if p.positionSource ≠ 255 then some .badIndex
          else if s.motors[n].mode.driving = true then some .inUse else none
        | .coast | .brake => none
        | .duty _ | .speed _ | .runTo .. | .runFor .. | .hold | .follow .. => s.drivingRefusal n := by
  cases bound : s.motorProfile n with
  | none => exact State.motorRefusal_unbound good bound
  | some p =>
    cases op with
    | coast => exact State.motorRefusal_coast bound
    | brake => exact State.motorRefusal_brake bound
    | setCount value => exact State.motorRefusal_setCount bound value
    | duty | speed | runTo | runFor | hold | follow => exact State.motorRefusal_driving rfl good bound

/-- Settles O23: a MOTOR row hands its operation to the channel, and its refusals are the checks in their order. -/
theorem motorCommandChecks : Obligations.MotorCommandChecks := by
  unfold Obligations.MotorCommandChecks
  refine ⟨fun s c tag channel opens row => ?_, fun s c tag channel op status opens row => ?_⟩
  · obtain ⟨payload, runs⟩ := exec_motorOperands_none row s
    rw [runs]
    exact command_refused opens rfl
  · obtain ⟨payload, notify, runs⟩ := exec_motorOperands row s
    rw [runs]
    dsimp only
    intro checks
    refine command_refused opens ?_
    by_cases far : 6 ≤ channel.toNat
    · rw [if_pos far] at checks
      rw [State.motorCommand_far far, Option.some.inj checks]
    · have near : channel.toNat < 6 := Nat.lt_of_not_le far
      rw [if_neg far] at checks
      refine State.motorCommand_refused near ?_ notify
      refine Eq.trans ?_ checks
      cases bad : op.badEntry with
      | true =>
        refine (State.motorRefusal_badEntry bad).trans ?_
        cases op with
        | follow => exact (if_pos bad).symm
        | coast | brake | duty | speed | runTo | runFor | hold | setCount => exact absurd bad Bool.false_ne_true
      | false =>
        refine (State.motorRefusal_good bad).trans ?_
        cases op with
        | follow => exact (if_neg (Bool.eq_false_iff.mp bad)).symm
        | coast | brake | duty | speed | runTo | runFor | hold | setCount => rfl

end Sys2Proof.Machine
end

