-- ==== Sys2Proof/Proofs/MotorCommands.lean ====
section
/-! PROOFS. The MOTOR commands that pass their checks (R88–R95), and the end of a RUN_FOR (R103). -/

namespace Sys2Proof.Machine

/-! ## COAST, BRAKE and SET_COUNT -/

/-- R85, R88: an end followed by COAST or BRAKE, said at once. -/
theorem Motor.ended_stopped (m : Motor) (o : Outcome) (mode : MotorMode) :
    (m.ended o).stopped mode =
      { (if m.mode.driving then
          { m with outcome := o, integral := 0, stallCount := 0, inposCount := 0, stallEpisode := false,
                   targetSpeed := 0, runForTimer := none, dutyRequest := 0, dutyGrant := 0 }
        else { m with dutyRequest := 0, dutyGrant := 0 }) with mode := mode } := by
  unfold Motor.ended
  split <;> rfl

/-- Settles O24: each of the three operations passes its checks, and its whole state is known. -/
theorem nonDrivingOperationsAct : Obligations.NonDrivingOperationsAct := by
  unfold Obligations.NonDrivingOperationsAct
  intro s n p tag notify value opens bound stopped
  refine ⟨?_, ?_, rfl, rfl, fun quadrature rests => ?_⟩
  · have row := motorRow_taken opens (State.motorRefusal_coast bound) 0 tag notify []
    rw [State.runMotorOp, State.stopMotor_eq, Motor.ended_stopped] at row
    exact row
  · have row := motorRow_taken opens (State.motorRefusal_brake bound) 1 tag notify []
    rw [State.runMotorOp, State.stopMotor_eq, Motor.ended_stopped] at row
    exact row
  · have passes : s.motorRefusal n (.setCount value) = none := by
      rw [State.motorRefusal_setCount bound, if_neg (not_not_intro quadrature),
        if_neg (Bool.eq_false_iff.mp rests)]
    exact motorRow_taken opens passes 8 tag notify (le32 value)

/-! ## The driving operations -/

/-- R84, R87: a driving operation that finds its channel bound and free begins. -/
theorem motorRow_begins {s : State} {n : PortNo} {p : Profile} {op : MotorOp} (opens : s.Opens)
    (bound : s.motorProfile n = some p) (power : s.budget.record.state ≠ .brownout) (free : s.service ≠ some n)
    (active : s.link.state = .active) (driving : op.driving = true) (good : op.badEntry = false)
    (code tag notify : Byte) (args : List Byte) :
    motorRow code tag (portByte n) notify args op s = .next (State.replied
      { s with motors := s.motors.set n ((s.motors[n].ended .superseded).start op (notify != 0) s.bus.stamp)
               bus := s.endingBus n .superseded }
      0x10 tag (adjustedIf (op.clamped || decide (2 ≤ notify.toNat))) []) := by
  have row := motorRow_taken opens (State.motorRefusal_free driving good bound power free active) code tag notify args
  rw [State.runMotorOp_driving s n driving, driving, Bool.true_and] at row
  exact row

/-- Settles O25: DUTY passes its checks, and its start is granted within the allowance. -/
theorem dutyDrivesAtOnce : Obligations.DutyDrivesAtOnce := by
  unfold Obligations.DutyDrivesAtOnce
  intro s n p tag notify duty opens bound power free active d
  have row := motorRow_begins (op := .duty duty.toInt) opens bound power free active rfl rfl 2 tag notify (le16 duty)
  have allowance : (s.motors[n].ended .superseded).allowance = s.motors[n].allowance := Motor.ended_allowance _ _
  have adjusted : decide (d ≠ duty.toInt ∨ 2 ≤ notify.toNat) =
      (MotorOp.clamped (.duty duty.toInt) || decide (2 ≤ notify.toNat)) := Bool.decide_or _ _
  rw [adjusted, ← allowance]
  exact row

/-- Settles O26: each operation passes its checks, and its start is its own rule's. -/
theorem regulatedOperationsBegin : Obligations.RegulatedOperationsBegin := by
  unfold Obligations.RegulatedOperationsBegin
  intro s n p tag notify endCode entry speed vmax duration gain target e opens bound power free active named inTable
    m flagged v limit time begins
  have begun {op : MotorOp} (driving : op.driving = true) (good : op.badEntry = false) (code : Byte)
      (args : List Byte) := motorRow_begins opens bound power free active driving good code tag notify args
  refine ⟨begun (op := .speed speed.toInt) rfl rfl 3 _, ?_, ?_, ?_, ?_⟩
  · have row := begun (op := .runTo target vmax.toNat e) rfl rfl 4 (le32 target ++ le16 vmax ++ [endCode])
    have form : exec (.motorRunTo tag (portByte n) notify target vmax endCode) s =
        motorRow 4 tag (portByte n) notify (le32 target ++ le16 vmax ++ [endCode]) (.runTo target vmax.toNat e) s := by
      change motorEndRow 4 tag (portByte n) notify _ endCode (.runTo target vmax.toNat) s = _
      rw [motorEndRow, valueIn, named]
    rw [form]
    exact row
  · have row := begun (op := .runFor speed.toInt duration.toNat e) rfl rfl 5 (le16 speed ++ le16 duration ++ [endCode])
    have form : exec (.motorRunFor tag (portByte n) notify speed duration endCode) s =
        motorRow 5 tag (portByte n) notify (le16 speed ++ le16 duration ++ [endCode])
          (.runFor speed.toInt duration.toNat e) s := by
      change motorEndRow 5 tag (portByte n) notify _ endCode (.runFor speed.toInt duration.toNat) s = _
      rw [motorEndRow, valueIn, named]
    have clamped : clampNat 1 65535 duration.toNat = time := by
      have below := duration.isLt
      change max 1 (min 65535 duration.toNat) = max 1 duration.toNat
      omega
    have adjusted : decide (v ≠ speed.toInt ∨ time ≠ duration.toNat) =
        MotorOp.clamped (.runFor speed.toInt duration.toNat e) := by
      rw [MotorOp.clamped, clamped]
      rfl
    have started : (s.motors[n].ended .superseded).start (.runFor speed.toInt duration.toNat e) (notify != 0)
        s.bus.stamp = { m with mode := .runFor, operation := .runFor, targetSpeed := v, endAction := e
                               runForTimer := some time, runEnd := s.bus.stamp + BitVec.ofNat 16 time } := by
      rw [Motor.start, clamped]
      rfl
    rw [form, row, adjusted, started]
  · have row := begun (op := .hold) rfl rfl 6 []
    have position : (s.motors[n].ended .superseded).position = s.motors[n].position := Motor.ended_position _ _
    rw [← position]
    exact row
  · have good : MotorOp.badEntry (.follow entry.toNat gain) = false := decide_eq_false (Nat.not_le.mpr inTable)
    exact begun (op := .follow entry.toNat gain) rfl good 7 (entry :: le16 gain)

/-! ## The end of a RUN_FOR -/

/-- Settles O30: the expiry ends the operation DONE at the channel's position. -/
theorem runForEndsAtItsTime : Obligations.RunForEndsAtItsTime := by
  unfold Obligations.RunForEndsAtItsTime
  intro s n ms timed mode ended
  have isEnded : s.motors[n].ended .done = ended := by
    rw [Motor.ended, mode]
    rfl
  have runs : exec (.runForExpiry n) s = settled (s.finishMotor n s.motors[n].position) := by
    change execRunForExpiry n s = _
    rw [execRunForExpiry, timed, mode]
  rw [runs, State.finishMotor_eq]
  refine congrArg (fun m => Host.Outcome.next (State.transmitNext
    { s with motors := s.motors.set n m, bus := s.endingBus n .done })) ?_
  split
  · next action => exact (Motor.finished_coast action _).trans (congrArg (·.stopped .coast) isEnded)
  · next action => exact (Motor.finished_brake action _).trans (congrArg (·.stopped .brake) isEnded)
  · next action =>
    exact (Motor.finished_hold action _).trans (congrArg (·.beginHold s.motors[n].notify s.motors[n].position) isEnded)

end Sys2Proof.Machine
end

