-- ==== Sys2Proof/Proofs/RegulatedMotors.lean ====
section
/-! PROOFS. One regulation as a change of one channel (R98–R104): what the measurement, the regulator's step, the
completion and the stall check leave of it, and the measurement they all keep (O27). -/

namespace Sys2Proof.Machine

/-! ## The channel -/

/-- Section 5.2: a regulated mode drives. -/
theorem MotorMode.driving_of_regulated {mode : MotorMode} (h : mode.regulated = true) : mode.driving = true := by
  cases mode with
  | coast | brake | duty => exact absurd h Bool.false_ne_true
  | speed | runTo | runFor | hold | follow => rfl

/-- R98: the channel with its speed measured. -/
def Motor.measured (m : Motor) (p : Profile) : Motor :=
  { m with speed := measuredSpeed (wrapDiff m.position m.prevPosition) p.cpr.toNat p.regPeriod.toNat
           prevPosition := m.position }

/-- R104: the channel after the stall check. -/
def Motor.stallChecked (m : Motor) (p : Profile) : Motor :=
  if m.stalling p then
    if p.stallStop ≠ 0 ∧ m.stallNext ≥ p.stallStop.toNat then
      ((m.stallCounted p).ended .stalled).stopped p.safeAction.mode
    else m.stallCounted p
  else { m with stallCount := 0, stallEpisode := false }

/-- R102: the channel with the regulation counted, in RUN_TO. -/
def Motor.counted (m : Motor) (p : Profile) : Motor :=
  { m with inposCount := if m.mode = .runTo then m.inposNext p else m.inposCount }

/-- R102: the regulation completes a RUN_TO. -/
def Motor.completes (m : Motor) (p : Profile) : Prop := m.mode = .runTo ∧ p.inposCount.toNat ≤ m.inposNext p

/-- R102, R104: the channel after the completion and the stall check. -/
def Motor.completed (m : Motor) (p : Profile) : Motor :=
  if m.mode = .runTo ∧ p.inposCount.toNat ≤ m.inposNext p then (m.counted p).finished m.targetPosition
  else (m.counted p).stallChecked p

/-- R99: the target speed, from the channel and the conversion table. -/
def Motor.targetOver (m : Motor) (p : Profile) (conv : Vector ConvEntry 32) : Int :=
  match m.mode with
  | .runTo | .hold => approachSpeed p m.vmax (wrapDiff m.targetPosition m.position)
  | .follow =>
    if conv[m.followEntry].status = .valid then
      clampInt (-2000) 2000 ((conv[m.followEntry].value.toInt * m.followGain.toInt).tdiv 256)
    else 0
  | .coast | .brake | .duty | .speed | .runFor => m.targetSpeed

/-- R97–R104: the measured channel after the rest of its regulation. -/
def Motor.regulated (m : Motor) (p : Profile) (lost : Bool) (target : Int) : Motor :=
  if m.mode.regulated then
    if lost then (m.ended .sourceLost).stopped p.safeAction.mode else (m.regulate p target).completed p
  else if m.mode.driving then m.stallChecked p
  else m

section
variable {s : State} {n : PortNo} {p : Profile} {m : Motor}

theorem Motor.stallChecked_free (free : m.stalling p = false) :
    m.stallChecked p = { m with stallCount := 0, stallEpisode := false } := if_neg (Bool.eq_false_iff.mp free)

theorem Motor.stallChecked_stops (stalling : m.stalling p = true) (stops : m.stallStops p) :
    m.stallChecked p = ((m.stallCounted p).ended .stalled).stopped p.safeAction.mode :=
  (if_pos stalling).trans (if_pos stops)

theorem Motor.stallChecked_counts (stalling : m.stalling p = true) (goesOn : ¬ m.stallStops p) :
    m.stallChecked p = m.stallCounted p := (if_pos stalling).trans (if_neg goesOn)

theorem Motor.completed_done (done : m.completes p) : m.completed p = (m.counted p).finished m.targetPosition :=
  if_pos done

theorem Motor.completed_goesOn (goesOn : ¬ m.completes p) : m.completed p = (m.counted p).stallChecked p :=
  if_neg goesOn

/-! ## The channel of the part -/

theorem State.setMotor_same_motor (s : State) (n : PortNo) : s.setMotor n s.motors[n] = s := by
  unfold State.setMotor
  rw [vector_set_self]

theorem State.stallCounted_motors (s : State) (n : PortNo) (p : Profile) :
    (s.stallCounted n p).motors = s.motors.set n (s.motors[n].stallCounted p) := by
  unfold State.stallCounted
  dsimp only
  split <;> rfl

theorem State.stallCheck_motors (s : State) (n : PortNo) (p : Profile) :
    (s.stallCheck n p).motors = s.motors.set n (s.motors[n].stallChecked p) := by
  cases stalling : s.motors[n].stalling p with
  | false =>
    rw [State.stallCheck_free stalling, Motor.stallChecked_free stalling]
    rfl
  | true =>
    by_cases stops : s.motors[n].stallStops p
    · rw [State.stallCheck_stops stalling stops, Motor.stallChecked_stops stalling stops, State.stopMotor_motors,
        s.stallCounted_motors, vector_set_same, Vector.set_set]
    · rw [State.stallCheck_counts stalling stops, Motor.stallChecked_counts stalling stops, s.stallCounted_motors]

/-- R102: a regulation that completes nothing goes on to the stall check. -/
theorem State.completionCheck_checks (goesOn : ¬ s.motors[n].completes p) :
    s.completionCheck n p = (s.setMotor n (s.motors[n].counted p)).stallCheck n p := by
  by_cases runTo : s.motors[n].mode = .runTo
  · rw [State.completionCheck_goesOn runTo fun complete => goesOn ⟨runTo, complete⟩, Motor.counted, if_pos runTo]
  · have same : s.motors[n].counted p = s.motors[n] := by
      rw [Motor.counted, if_neg runTo]
    rw [State.completionCheck_other runTo, same, s.setMotor_same_motor]

theorem State.completionCheck_completes (done : s.motors[n].completes p) :
    s.completionCheck n p = (s.setMotor n (s.motors[n].counted p)).finishMotor n s.motors[n].targetPosition := by
  obtain ⟨runTo, complete⟩ := done
  rw [State.completionCheck_done runTo complete, Motor.counted, if_pos runTo]

theorem State.completionCheck_motors (s : State) (n : PortNo) (p : Profile) :
    (s.completionCheck n p).motors = s.motors.set n (s.motors[n].completed p) := by
  by_cases done : s.motors[n].completes p
  · rw [State.completionCheck_completes done, Motor.completed_done done, State.finishMotor_eq]
    simp
  · rw [State.completionCheck_checks done, Motor.completed_goesOn done, State.stallCheck_motors]
    simp

/-! ## The measurement -/

theorem State.measure_motors (s : State) (n : PortNo) (p : Profile) :
    (s.measure n p).motors = s.motors.set n (s.motors[n].measured p) :=
  State.speedUpdate_keeps (·.motors) (fun _ _ => rfl) (fun _ _ => rfl) (fun _ _ => rfl) (fun _ _ => rfl) _ n

theorem State.measure_motor (s : State) (n : PortNo) (p : Profile) :
    (s.measure n p).motors[n] = s.motors[n].measured p := by
  rw [s.measure_motors, vector_set_same]

theorem State.measure_sourceLost (s : State) (n : PortNo) (p : Profile) :
    (s.measure n p).sourceLost n p = s.sourceLost n p :=
  State.measure_keeps (fun t => t.sourceLost n p) (fun _ _ => rfl) (fun _ _ => rfl) (fun _ _ => rfl) (fun _ _ => rfl)
    (fun _ _ => rfl) s n p

theorem State.measure_stamp (s : State) (n : PortNo) (p : Profile) : (s.measure n p).bus.stamp = s.bus.stamp :=
  State.sourceUpdate_stamp _ _

/-- R65, R98: a speed that no entry reads is only measured. -/
theorem State.measure_unread
    (unread : ∀ i : Fin 32, s.conv[i].cfg.sourceKind = .motorSpeed → s.conv[i].cfg.sourceIndex ≠ portByte n) :
    s.measure n p = s.setMotor n (s.motors[n].measured p) := by
  refine State.sourceUpdate_unread fun e => if_neg ?_
  rintro ⟨kind, index⟩
  exact unread e kind (BitVec.eq_of_toNat_eq (index.trans (toNat_portByte n).symm))

theorem State.measure_formTarget (s : State) (n : PortNo) (p : Profile) :
    (s.measure n p).formTarget n p = s.motors[n].targetOver p (s.measure n p).conv := by
  have formed : (s.measure n p).formTarget n p = (s.measure n p).motors[n].targetOver p (s.measure n p).conv := rfl
  exact formed.trans (congrArg (·.targetOver p (s.measure n p).conv) (s.measure_motor n p))

/-- R98: a regulation changes one channel. -/
theorem State.regulation_motors (s : State) (n : PortNo) (p : Profile) :
    (s.regulation n p).motors = s.motors.set n ((s.motors[n].measured p).regulated p (s.sourceLost n p)
      (s.motors[n].targetOver p (s.measure n p).conv)) := by
  unfold State.regulation Motor.regulated
  dsimp only
  rw [s.measure_motor, s.measure_sourceLost, s.measure_formTarget]
  split
  · split
    · rw [State.stopMotor_motors, s.measure_motor, s.measure_motors, Vector.set_set]
    · rw [State.completionCheck_motors, State.setMotor_motors, s.measure_motors, vector_set_same, Vector.set_set,
        Vector.set_set]
  · split
    · rw [State.stallCheck_motors, s.measure_motor, s.measure_motors, Vector.set_set]
    · exact s.measure_motors n p

end

/-! ## What every regulation keeps of the measurement -/

/-- R98: position, speed, the previous position and the regulation timer of a channel. -/
def Motor.measurement (m : Motor) : Word × Word × Int × Option Nat := (m.position, m.prevPosition, m.speed, m.regTimer)

section
variable (m : Motor) (p : Profile)

theorem Motor.ended_measurement (o : Outcome) : (m.ended o).measurement = m.measurement := by
  unfold Motor.ended
  split <;> rfl

theorem Motor.finished_measurement (target : Word) : (m.finished target).measurement = m.measurement := by
  unfold Motor.finished
  split <;> exact m.ended_measurement .done

theorem Motor.stallChecked_measurement : (m.stallChecked p).measurement = m.measurement := by
  unfold Motor.stallChecked
  split
  · split
    · exact (m.stallCounted p).ended_measurement .stalled
    · rfl
  · rfl

theorem Motor.completed_measurement : (m.completed p).measurement = m.measurement := by
  unfold Motor.completed
  split
  · exact (m.counted p).finished_measurement _
  · exact (m.counted p).stallChecked_measurement p

theorem Motor.regulated_measurement (lost : Bool) (target : Int) :
    (m.regulated p lost target).measurement = m.measurement := by
  unfold Motor.regulated
  split
  · split
    · exact m.ended_measurement .sourceLost
    · exact (m.regulate p target).completed_measurement p
  · split
    · exact m.stallChecked_measurement p
    · rfl

end

section
variable {s : State} {n : PortNo} {p : Profile}

/-! ## The row -/

theorem execRegulationExpiry_runs {ms : Nat} (timed : s.motors[n].regTimer = some ms)
    (bound : s.motorProfile n = some p) : exec (.regulationExpiry n) s = .next (s.regulation n p).transmitNext := by
  change execRegulationExpiry n s = _
  rw [execRegulationExpiry, timed, bound]
  rfl

theorem State.motorProfile_bound (bound : s.motorProfile n = some p) : s.ports[n].state = .bound := by
  by_contra other
  rw [State.motorProfile, State.boundProfile_unbound fun _ state _ => other state] at bound
  exact nomatch bound

/-- R98: a measured speed lies within ±4000, so no entry saturates it. -/
theorem measuredSpeed_saturated (delta : Int) (cpr period : Nat) :
    saturate32 (measuredSpeed delta cpr period) = measuredSpeed delta cpr period := by
  have high : measuredSpeed delta cpr period ≤ 4000 := max_le (by decide) (min_le_left _ _)
  have low : -4000 ≤ measuredSpeed delta cpr period := le_max_left _ _
  unfold saturate32 clampInt
  omega

/-- R64, R98: a RAW entry over a motor's speed shows what is measured. -/
theorem State.measure_shows {i : Fin 32} (bound : s.motorProfile n = some p) (free : s.service ≠ some n)
    (kind : s.conv[i].cfg.sourceKind = .motorSpeed) (index : s.conv[i].cfg.sourceIndex = portByte n)
    (plain : s.conv[i].cfg.Plain) :
    s.conv[i].Shows (s.measure n p).conv[i] (BitVec.ofInt 32 (s.motors[n].measured p).speed) s.bus.stamp := by
  have named : s.conv[i].cfg.sourceIndex.toNat = n.val := index ▸ toNat_portByte n
  have port : s.sourcePort s.conv[i].cfg = some n := State.sourcePort_named (by rw [kind]; decide) index
  have supplied : s.supplies s.conv[i].cfg n = true := by
    rw [State.supplies, kind, bound]
    rfl
  have unrefused : s.sourceCheck s.conv[i].cfg = none :=
    State.sourceCheck_supplied port (State.motorProfile_bound bound) free supplied
  have reached : readsIndex .motorSpeed n.val (s.motors[n].measured p).speed s.conv[i].cfg =
      some (s.motors[n].measured p).speed := if_pos ⟨kind, named⟩
  have speed : (s.setMotor n (s.motors[n].measured p)).motors[n].speed = (s.motors[n].measured p).speed := by
    rw [State.setMotor_motors, vector_set_same]
  have shown := State.sourceUpdate_shows (s := s.setMotor n (s.motors[n].measured p)) plain
    (by rw [State.setMotor_conv, kind]; nofun) reached unrefused
  have saturated : saturate32 (s.motors[n].measured p).speed = (s.motors[n].measured p).speed :=
    measuredSpeed_saturated _ _ _
  rw [saturated] at shown
  have measure : s.measure n p = (s.setMotor n (s.motors[n].measured p)).sourceUpdate
      (readsIndex .motorSpeed n.val (s.motors[n].measured p).speed) := by
    rw [← speed]
    rfl
  rw [measure]
  exact shown

/-- R98: after the measurement a regulation leaves the conversion table. -/
theorem State.regulation_conv (s : State) (n : PortNo) (p : Profile) :
    (s.regulation n p).conv = (s.measure n p).conv := by
  unfold State.regulation
  dsimp only
  split
  · split
    · exact State.stopMotor_keeps (·.conv) (fun _ _ => rfl) (fun _ _ => rfl) _ n _ _
    · exact State.completionCheck_keeps (·.conv) (fun _ _ => rfl) (fun _ _ => rfl) _ n p
  · split
    · exact State.stallCheck_keeps (·.conv) (fun _ _ => rfl) (fun _ _ => rfl) _ n p
    · rfl

/-- What a regulation leaves. -/
theorem State.regulation_kept (s : State) (n : PortNo) (p : Profile) :
    s.linkKept (s.regulation n p).transmitNext ∧
    s.keepsBut (s.regulation n p).transmitNext [.link, .motors, .conv, .bus, .reports, .reportQueue] := by
  refine ⟨State.linkKept_transmitNext ?_, State.keepsBut_transmitNext (by decide) (by decide) (by decide) ?_⟩
  · exact State.regulation_keeps (·.link) (fun _ _ => rfl) (fun _ _ => rfl) (fun _ _ => rfl) (fun _ _ => rfl)
      (fun _ _ => rfl) s n p
  · exact State.regulation_keeps _ (State.masked_bus (by decide)) (State.masked_conv (by decide))
      (State.masked_motors (by decide)) (State.masked_reports (by decide)) (State.masked_reportQueue (by decide)) s n p

end

/-- Settles O27: a regulation changes one channel, whatever it does keeps the measurement, and the conversion table is
what the hand-off made of it. -/
theorem regulationMeasuresSpeed : Obligations.RegulationMeasuresSpeed := by
  unfold Obligations.RegulationMeasuresSpeed
  intro s n p ms timed bound v
  rw [execRegulationExpiry_runs timed bound]
  have here : (s.regulation n p).transmitNext.motors[n] = (s.motors[n].measured p).regulated p (s.sourceLost n p)
      (s.motors[n].targetOver p (s.measure n p).conv) := by
    rw [State.transmitNext_motors, s.regulation_motors, vector_set_same]
  have measurement := (congrArg Motor.measurement here).trans (Motor.regulated_measurement _ _ _ _)
  simp only [Motor.measurement, Prod.mk.injEq] at measurement
  obtain ⟨position, prevPosition, speed, regTimer⟩ := measurement
  refine ⟨_, rfl, speed, position, prevPosition, regTimer.trans timed, fun k other => ?_, fun rests => ?_,
    fun duty free => ?_, fun i kind index raw unlimited noRail unserved => ?_, s.regulation_kept n p⟩
  · rw [State.transmitNext_motors, s.regulation_motors, vector_set_other _ fun e => other e.symm]
  · have unregulated : (s.motors[n].measured p).mode.regulated ≠ true := by
      exact fun regulated => absurd (MotorMode.driving_of_regulated regulated) (Bool.eq_false_iff.mp rests)
    exact here.trans ((if_neg unregulated).trans (if_neg (Bool.eq_false_iff.mp rests)))
  · have free' : (s.motors[n].measured p).stalling p = false := by
      rw [Motor.stalling, ← Bool.decide_and]
      exact decide_eq_false free
    have unregulated : (s.motors[n].measured p).mode.regulated ≠ true := by
      change s.motors[n].mode.regulated ≠ true
      rw [duty]
      exact Bool.false_ne_true
    have driving : (s.motors[n].measured p).mode.driving = true := by
      change s.motors[n].mode.driving = true
      rw [duty]
      rfl
    exact here.trans ((if_neg unregulated).trans ((if_pos driving).trans (Motor.stallChecked_free free')))
  · rw [State.transmitNext_conv, s.regulation_conv]
    exact State.measure_shows bound unserved kind index ⟨raw, unlimited, noRail⟩

end Sys2Proof.Machine
end

