-- ==== Sys2Proof/Proofs/RegulationSteps.lean ====
section
/-! PROOFS. The regulations of a regulated mode that go on (R99, R100, R102), and those that end an operation (R86, R97,
R102, R104). -/

namespace Sys2Proof.Machine

section
variable {s : State} {n : PortNo} {p : Profile} {m : Motor}

theorem answers_next {P : State → Prop} (h : P s) : Answers (.next s) P := ⟨s, rfl, h⟩

/-! ## The branches of a regulation -/

/-- R97: the position source is not lost. -/
theorem State.sourceLost_false (there : ¬ (p.positionSource ≠ 255 ∧ s.ports[n].missed = 2)) :
    s.sourceLost n p = false := by
  refine Bool.eq_false_iff.mpr fun lost => there ?_
  rw [State.sourceLost, Bool.and_eq_true, bne_iff_ne, beq_iff_eq] at lost
  exact lost

/-- R97: it is. -/
theorem State.sourceLost_true (field : p.positionSource ≠ 255) (missed : s.ports[n].missed = 2) :
    s.sourceLost n p = true := by
  rw [State.sourceLost, Bool.and_eq_true, bne_iff_ne, beq_iff_eq]
  exact ⟨field, missed⟩

theorem Motor.regulated_steps (regulated : m.mode.regulated = true) (target : Int) :
    m.regulated p false target = (m.regulate p target).completed p :=
  (if_pos regulated).trans (if_neg Bool.false_ne_true)

/-- Settles O28: a regulation that completes nothing and is no stall leaves the regulator's step, counted. -/
theorem regulationStepsRegulator : Obligations.RegulationStepsRegulator := by
  unfold Obligations.RegulationStepsRegulator
  intro s n p ms timed bound regulated there
  rw [execRegulationExpiry_runs timed bound]
  refine answers_next ?_
  intro m v D target e A u d g inpos goesOn free
  refine ⟨?_, s.regulation_kept n p⟩
  have formed : target = s.motors[n].targetOver p (s.measure n p).conv := by
    rw [← s.regulation_conv, ← State.transmitNext_conv]
    rfl
  have regulated' : (s.motors[n].measured p).mode.regulated = true := regulated
  rw [State.transmitNext_motors, s.regulation_motors, State.sourceLost_false there, Motor.regulated_steps regulated',
    ← formed]
  clear_value target
  have short : ¬ ((s.motors[n].measured p).regulate p target).completes p := by
    rintro ⟨runTo, complete⟩
    have counted : inpos = ((s.motors[n].measured p).regulate p target).inposNext p := if_pos runTo
    exact absurd (goesOn runTo) (by rw [counted]; exact Nat.not_lt.mpr complete)
  have moving : (((s.motors[n].measured p).regulate p target).counted p).stalling p = false := by
    rw [Motor.stalling, ← Bool.decide_and]
    exact decide_eq_false free
  rw [Motor.completed_goesOn short, Motor.stallChecked_free moving]
  rfl

/-! ## The end of an operation on the bus -/

/-- R85: the bus after an end is the same where the bus and what the end tells of the channel are. -/
theorem State.endingBus_of {t : State} (bus : t.bus = s.bus) (mode : t.motors[n].mode = s.motors[n].mode)
    (notify : t.motors[n].notify = s.motors[n].notify) (operation : t.motors[n].operation = s.motors[n].operation)
    (position : t.motors[n].position = s.motors[n].position) (o : Outcome) : t.endingBus n o = s.endingBus n o := by
  simp only [State.endingBus, bus, mode, notify, operation, position]

/-- R85: RUN_END of a channel. -/
def runEnd (n : PortNo) (o : Outcome) (stamp : Half) : Event :=
  { kind := .runEnd, index := portByte n, detail := o.code, depth := 0, stamp := stamp, directed := none }


/-- R150: an event that finds room is the last of the queue. -/
theorem Bus.post_getLast {b : Bus} {kind : EventKind} {index detail : Byte} (idle : b.dispatch = none)
    (room : (b.post kind index detail).events.length < 16) :
    (b.post kind index detail).events.getLast? =
      some { kind := kind, index := index, detail := detail, depth := 0, stamp := b.stamp, directed := none } := by
  have before : b.events.length < Config.eventQueue := by
    rcases (b.postRecord_queued kind index detail none).events with same | ⟨_, -, before⟩
    · have kept : (b.post kind index detail).events = b.events := same
      exact kept ▸ room
    · exact before
  rw [Bus.post_idle b kind index detail idle before]
  exact List.getLast?_concat

/-- R85: the events after an end: RUN_END posted. -/
theorem State.endingBus_events (driving : s.motors[n].mode.driving = true) (o : Outcome) :
    (s.endingBus n o).events = (s.bus.post .runEnd (portByte n) o.code).events := by
  rw [State.endingBus, ← codeIn_outcome]
  dsimp only
  rw [if_pos driving]
  split
  · exact Bus.notify_events _ _
  · rfl

/-- R85: what the end of the operation of channel n in a regulation says. -/
def State.EndsBy (s : State) (n : PortNo) (o : Outcome) (t : State) : Prop :=
  ((∀ i : Fin 32, s.conv[i].cfg.sourceKind = .motorSpeed → s.conv[i].cfg.sourceIndex ≠ portByte n) →
    t.bus.events = (s.endingBus n o).events ∧ (s.link.tx ≠ none → t.bus = s.endingBus n o)) ∧
  (s.bus.dispatch = none → t.bus.events.length < 16 → t.bus.events.getLast? = some (runEnd n o s.bus.stamp))

/-- R65, R98: the hand-off of the measured speed posts events, and does nothing else to the bus. -/
theorem State.measure_idle (idle : s.bus.dispatch = none) : (s.measure n p).bus.dispatch = none :=
  State.sourceUpdate_bus (P := fun b => b.dispatch = none) (fun _ _ h => h.dispatch_none)
    (s := s.setMotor n (s.motors[n].measured p)) idle _

theorem State.measure_endingBus
    (unread : ∀ i : Fin 32, s.conv[i].cfg.sourceKind = .motorSpeed → s.conv[i].cfg.sourceIndex ≠ portByte n)
    (o : Outcome) : (s.measure n p).endingBus n o = s.endingBus n o := by
  have here := s.measure_motor n p
  refine State.endingBus_of ?_ ?_ ?_ ?_ ?_ o
  · rw [State.measure_unread unread]
    rfl
  all_goals
    rw [here]
    rfl

/-- R85, R98: an end over the bus that the hand-off left. -/
theorem State.endsBy {v : State} (driving : s.motors[n].mode.driving = true) {o : Outcome}
    (bus : v.bus = (s.measure n p).endingBus n o) (link : v.link = s.link) : s.EndsBy n o v.transmitNext := by
  refine ⟨fun unread => ?_, fun idle room => ?_⟩
  · rw [State.transmitNext_bus_events, bus, State.measure_endingBus unread]
    refine ⟨rfl, fun busy => ?_⟩
    rw [State.transmitNext_bus_of_busy (congrArg Link.tx link) busy, bus, State.measure_endingBus unread]
  · have driving' : (s.measure n p).motors[n].mode.driving = true := by
      rw [s.measure_motor]
      exact driving
    rw [State.transmitNext_bus_events, bus, State.endingBus_events driving'] at room ⊢
    rw [Bus.post_getLast (State.measure_idle idle) room, s.measure_stamp]
    rfl

/-! ## The stall check on the bus -/

theorem State.stallCounted_bus (s : State) (n : PortNo) (p : Profile) : (s.stallCounted n p).bus =
    if s.motors[n].warns p then s.bus.post .stallWarn (portByte n) 0 else s.bus := by
  unfold State.stallCounted
  dsimp only
  split <;> rfl

/-- R104: the events of a stall regulation, with room for both. -/
theorem State.stallCheck_events (driving : s.motors[n].mode.driving = true) (idle : s.bus.dispatch = none)
    (room : s.bus.events.length ≤ 14) (stalling : s.motors[n].stalling p = true) :
    (s.stallCheck n p).bus.events = s.bus.events ++
      (if s.motors[n].warns p then [{ kind := .stallWarn, index := portByte n, detail := 0, depth := 0
                                      stamp := s.bus.stamp, directed := none }] else []) ++
      (if p.stallStop ≠ 0 ∧ s.motors[n].stallNext ≥ p.stallStop.toNat then [runEnd n .stalled s.bus.stamp]
       else []) := by
  have warned : (s.stallCounted n p).bus.events = s.bus.events ++
      (if s.motors[n].warns p then [{ kind := .stallWarn, index := portByte n, detail := 0, depth := 0
                                      stamp := s.bus.stamp, directed := none }] else []) ∧
      (s.stallCounted n p).bus.dispatch = none ∧ (s.stallCounted n p).bus.stamp = s.bus.stamp := by
    rw [s.stallCounted_bus]
    split
    · rw [Bus.post_idle _ _ _ _ idle (Nat.lt_of_le_of_lt room (by decide))]
      exact ⟨rfl, idle, rfl⟩
    · exact ⟨(List.append_nil _).symm, idle, rfl⟩
  obtain ⟨events, idle', stamp⟩ := warned
  by_cases stops : s.motors[n].stallStops p
  · have driving' : (s.stallCounted n p).motors[n].mode.driving = true := by
      rw [s.stallCounted_motors, vector_set_same]
      exact driving
    have room' : (s.stallCounted n p).bus.events.length < Config.eventQueue := by
      rw [events, List.length_append]
      split <;> simp [Config.eventQueue] <;> omega
    rw [State.stallCheck_stops stalling stops, State.stopMotor_eq, State.endingBus_events driving',
      Bus.post_idle _ _ _ _ idle' room', if_pos (show p.stallStop ≠ 0 ∧ _ from stops), events, stamp]
    rfl
  · rw [State.stallCheck_counts stalling stops, if_neg (show ¬ (p.stallStop ≠ 0 ∧ _) from stops), List.append_nil,
      events]

end

end Sys2Proof.Machine
end

