-- ==== Sys2Proof/Proofs/RegulationEnds.lean ====
section
/-! PROOFS. The regulations that end an operation (R86, R97, R102, R104): a lost source, a completed RUN_TO, a stall. -/

namespace Sys2Proof.Machine

/-- R104: the warning of a stall regulation, said at once. -/
theorem Motor.warns_eq (m : Motor) (p : Profile) : m.warns p =
    decide (p.stallWarn ≠ 0 ∧ p.stallWarn.toNat ≤ m.stallNext ∧ m.stallEpisode = false) := by
  rw [Bool.eq_iff_iff, Motor.warns, Bool.and_eq_true, decide_eq_true_eq, decide_eq_true_eq, Bool.not_eq_true',
    and_assoc]

theorem Motor.ended_driving {m : Motor} (driving : m.mode.driving = true) (o : Outcome) :
    m.ended o = { m.cleared with outcome := o } := if_pos driving

section
variable {s : State} {n : PortNo} {p : Profile} {ms : Nat}

/-! ## The branches of a regulation, as states -/

/-- R99, R100: the channel after the measurement and the regulator's step. -/
def State.stepped (s : State) (n : PortNo) (p : Profile) : Motor :=
  (s.motors[n].measured p).regulate p (s.motors[n].targetOver p (s.measure n p).conv)

theorem State.regulation_lost (regulated : s.motors[n].mode.regulated = true) (lost : s.sourceLost n p = true) :
    s.regulation n p = (s.measure n p).stopMotor n .sourceLost p.safeAction.mode := by
  have regulated' : (s.measure n p).motors[n].mode.regulated = true := by
    rw [s.measure_motor]
    exact regulated
  exact (if_pos regulated').trans (if_pos ((s.measure_sourceLost n p).trans lost))

theorem State.regulation_steps (regulated : s.motors[n].mode.regulated = true) (there : s.sourceLost n p = false) :
    s.regulation n p = ((s.measure n p).setMotor n (s.stepped n p)).completionCheck n p := by
  have regulated' : (s.measure n p).motors[n].mode.regulated = true := by
    rw [s.measure_motor]
    exact regulated
  refine (if_pos regulated').trans ((if_neg ?_).trans ?_)
  · rw [s.measure_sourceLost, there]
    exact Bool.false_ne_true
  · rw [s.measure_formTarget, s.measure_motor]
    rfl

theorem State.regulation_duty (duty : s.motors[n].mode = .duty) :
    s.regulation n p = (s.measure n p).stallCheck n p := by
  have duty' : (s.measure n p).motors[n].mode = .duty := by
    rw [s.measure_motor]
    exact duty
  refine (if_neg ?_).trans (if_pos ?_)
  · rw [duty']
    exact Bool.false_ne_true
  · rw [duty']
    rfl

/-- R65, R98: what a regulation leaves where no entry reads the speed. -/
theorem State.regulation_kept_unread
    (unread : ∀ i : Fin 32, s.conv[i].cfg.sourceKind = .motorSpeed → s.conv[i].cfg.sourceIndex ≠ portByte n) :
    s.linkKept (s.regulation n p).transmitNext ∧
    s.keepsBut (s.regulation n p).transmitNext [.link, .motors, .bus, .reportQueue] := by
  have bus := State.masked_bus (m := s) (changed := [.link, .motors, .bus, .reportQueue]) (by decide)
  have motors := State.masked_motors (m := s) (changed := [.link, .motors, .bus, .reportQueue]) (by decide)
  have measured : State.masked s [.link, .motors, .bus, .reportQueue] (s.measure n p) =
      State.masked s [.link, .motors, .bus, .reportQueue] s := by
    rw [State.measure_unread unread]
    exact State.setMotor_keeps _ motors s n _
  refine ⟨(s.regulation_kept n p).1, State.keepsBut_transmitNext (by decide) (by decide) (by decide) ?_⟩
  refine Eq.trans ?_ measured
  unfold State.regulation
  dsimp only
  split
  · split
    · exact State.stopMotor_keeps _ bus motors _ n _ _
    · exact (State.completionCheck_keeps _ bus motors _ n p).trans (State.setMotor_keeps _ motors _ n _)
  · split
    · exact State.stallCheck_keeps _ bus motors _ n p
    · rfl

/-! ## A lost source and a completed RUN_TO -/

theorem State.setMotor_setMotor (s : State) (n : PortNo) (a b : Motor) :
    (s.setMotor n a).setMotor n b = s.setMotor n b := by
  simp only [State.setMotor, Vector.set_set]

theorem State.setMotor_endingBus {m : Motor} (mode : m.mode = s.motors[n].mode) (notify : m.notify = s.motors[n].notify)
    (operation : m.operation = s.motors[n].operation) (position : m.position = s.motors[n].position) (o : Outcome) :
    (s.setMotor n m).endingBus n o = s.endingBus n o := by
  refine State.endingBus_of (s := s) (n := n) (State.setMotor_bus s n m) ?_ ?_ ?_ ?_ o
  all_goals
    rw [State.setMotor_motors, vector_set_same]
    assumption

theorem State.regulation_link (s : State) (n : PortNo) (p : Profile) : (s.regulation n p).link = s.link :=
  State.regulation_keeps (·.link) (fun _ _ => rfl) (fun _ _ => rfl) (fun _ _ => rfl) (fun _ _ => rfl) (fun _ _ => rfl)
    s n p

/-- R97: a lost device position source stops the channel. -/
theorem State.regulation_sourceLost (regulated : s.motors[n].mode.regulated = true) (lost : s.sourceLost n p = true) :
    (s.regulation n p).motors = s.motors.set n
      { (s.motors[n].measured p).cleared with
          mode := p.safeAction.mode, outcome := .sourceLost, dutyRequest := 0, dutyGrant := 0 } ∧
    s.EndsBy n .sourceLost (s.regulation n p).transmitNext := by
  have driving : s.motors[n].mode.driving = true := MotorMode.driving_of_regulated regulated
  have driving' : (s.motors[n].measured p).mode.driving = true := driving
  refine ⟨?_, State.endsBy (p := p) driving ?_ (s.regulation_link n p)⟩
  · rw [State.regulation_lost regulated lost, State.stopMotor_motors, s.measure_motor, s.measure_motors,
      Vector.set_set, Motor.ended_driving driving']
    rfl
  · rw [State.regulation_lost regulated lost, State.stopMotor_eq]

/-- R86, R102: the regulation that completes a RUN_TO ends it. -/
theorem State.regulation_done (runTo : s.motors[n].mode = .runTo) (there : s.sourceLost n p = false)
    (complete : (s.stepped n p).completes p) :
    (s.regulation n p).motors = s.motors.set n (((s.stepped n p).counted p).finished s.motors[n].targetPosition) ∧
    s.EndsBy n .done (s.regulation n p).transmitNext := by
  have driving : s.motors[n].mode.driving = true := by rw [runTo]; rfl
  have regulated : s.motors[n].mode.regulated = true := by rw [runTo]; rfl
  have here : ((s.measure n p).setMotor n (s.stepped n p)).motors[n] = s.stepped n p := by
    rw [State.setMotor_motors, vector_set_same]
  have ends : s.regulation n p =
      ((s.measure n p).setMotor n ((s.stepped n p).counted p)).finishMotor n (s.stepped n p).targetPosition := by
    rw [State.regulation_steps regulated there, State.completionCheck_completes (by rw [here]; exact complete), here,
      State.setMotor_setMotor]
  have bus : ((s.measure n p).setMotor n ((s.stepped n p).counted p)).endingBus n .done =
      (s.measure n p).endingBus n .done := by
    have measured := s.measure_motor n p
    refine State.setMotor_endingBus ?_ ?_ ?_ ?_ .done
    all_goals
      rw [measured]
      rfl
  refine ⟨?_, State.endsBy (p := p) driving ?_ (s.regulation_link n p)⟩
  · rw [ends, State.finishMotor_eq]
    simp only [State.setMotor_motors, vector_set_same, s.measure_motors, Vector.set_set]
    rfl
  · rw [ends, State.finishMotor_eq]
    exact bus

/-! ## A stall -/

/-- R104: what a stall regulation leaves of the channel m, measured and stepped, and says. -/
theorem State.regulation_stall {m : Motor} (timed : s.motors[n].regTimer = some ms)
    (bound : s.motorProfile n = some p)
    (unread : ∀ i : Fin 32, s.conv[i].cfg.sourceKind = .motorSpeed → s.conv[i].cfg.sourceIndex ≠ portByte n)
    (idle : s.bus.dispatch = none) (room : s.bus.events.length ≤ 14)
    (checks : s.regulation n p = (s.setMotor n m).stallCheck n p) (driving : m.mode.driving = true)
    (stalling : m.stalling p = true) :
    Answers (exec (.regulationExpiry n) s) fun t =>
      t.motors = s.motors.set n
        (if decide (p.stallStop ≠ 0 ∧ p.stallStop.toNat ≤ m.stallNext) then
          { m.cleared with mode := p.safeAction.mode, outcome := .stalled, dutyRequest := 0, dutyGrant := 0 }
         else { m with stallCount := m.stallNext, stallEpisode := m.stallEpisode || m.warns p }) ∧
      t.bus.events = s.bus.events ++
        (if m.warns p then [{ kind := .stallWarn, index := portByte n, detail := 0, depth := 0, stamp := s.bus.stamp,
                              directed := none }] else []) ++
        (if decide (p.stallStop ≠ 0 ∧ p.stallStop.toNat ≤ m.stallNext) then [runEnd n .stalled s.bus.stamp] else []) ∧
      s.linkKept t ∧ s.keepsBut t [.link, .motors, .bus, .reportQueue] := by
  have here : (s.setMotor n m).motors[n] = m := by rw [State.setMotor_motors, vector_set_same]
  have driving' : (m.stallCounted p).mode.driving = true := driving
  rw [execRegulationExpiry_runs timed bound]
  refine answers_next ⟨?_, ?_, State.regulation_kept_unread unread⟩
  · rw [State.transmitNext_motors, checks, State.stallCheck_motors, here, State.setMotor_motors, Vector.set_set]
    by_cases stops : m.stallStops p
    · have due : p.stallStop ≠ 0 ∧ p.stallStop.toNat ≤ m.stallNext := stops
      rw [Motor.stallChecked_stops stalling stops, if_pos (decide_eq_true due), Motor.ended_driving driving']
      rfl
    · have early : ¬ (p.stallStop ≠ 0 ∧ p.stallStop.toNat ≤ m.stallNext) := stops
      rw [Motor.stallChecked_counts stalling stops, if_neg (by rw [decide_eq_true_eq]; exact early)]
      rfl
  · have events := State.stallCheck_events (s := s.setMotor n m) (n := n) (p := p) (by rw [here]; exact driving) idle
      room (by rw [here]; exact stalling)
    rw [here] at events
    rw [State.transmitNext_bus_events, checks, events]
    simp only [decide_eq_true_eq]
    rfl

end

/-- Settles O29: each of the four is one branch of the regulation. -/
theorem regulationEndsOperations : Obligations.RegulationEndsOperations := by
  unfold Obligations.RegulationEndsOperations
  intro s n p ms timed bound m v safe ended ends
  refine ⟨fun regulated field missed => ?_, fun runTo there near complete => ?_,
    fun duty high low unread idle room => ?_, fun regulated there unread idle room => ?_⟩
  · rw [execRegulationExpiry_runs timed bound]
    obtain ⟨motors, told⟩ := State.regulation_sourceLost regulated (State.sourceLost_true field missed)
    refine answers_next ⟨?_, told, s.regulation_kept n p⟩
    rw [State.transmitNext_motors, motors]
    rfl
  · rw [execRegulationExpiry_runs timed bound]
    intro A u d
    have target : m.targetOver p (s.measure n p).conv = 0 := by
      rw [Motor.targetOver, runTo]
      exact if_pos near
    have stepped : s.stepped n p = (m.measured p).regulate p 0 := congrArg ((m.measured p).regulate p) target
    have inpos : (s.stepped n p).inposNext p = m.inposCount + 1 := by
      rw [stepped]
      exact if_pos near
    have done : (s.stepped n p).completes p := ⟨runTo, by rw [inpos]; exact complete⟩
    obtain ⟨motors, told⟩ := State.regulation_done runTo (State.sourceLost_false there) done
    have driving : (((m.measured p).regulate p 0).counted p).mode.driving = true := by
      change m.mode.driving = true
      rw [runTo]
      rfl
    have finished_coast (action : m.endAction = .coast) :=
      Motor.finished_coast (m := ((m.measured p).regulate p 0).counted p) action m.targetPosition
    have finished_brake (action : m.endAction = .brake) :=
      Motor.finished_brake (m := ((m.measured p).regulate p 0).counted p) action m.targetPosition
    have finished_hold (action : m.endAction = .hold) :=
      Motor.finished_hold (m := ((m.measured p).regulate p 0).counted p) action m.targetPosition
    refine answers_next ⟨fun action => ?_, fun action => ?_, fun action => ?_, told, s.regulation_kept n p⟩
    · rw [State.transmitNext_motors, motors, stepped, finished_coast action, Motor.ended_driving driving]
      rfl
    · rw [State.transmitNext_motors, motors, stepped, finished_brake action, Motor.ended_driving driving]
      rfl
    · rw [State.transmitNext_motors, motors, stepped, finished_hold action, Motor.ended_driving driving]
      rfl
  · have driving : m.mode.driving = true := by rw [duty]; rfl
    have stalling : (m.measured p).stalling p = true := by
      rw [Motor.stalling, ← Bool.decide_and]
      exact decide_eq_true ⟨high, low⟩
    have checks : s.regulation n p = (s.setMotor n (m.measured p)).stallCheck n p := by
      rw [State.regulation_duty duty, State.measure_unread unread]
    have stall := State.regulation_stall timed bound unread idle room checks driving stalling
    rw [Motor.warns_eq] at stall
    exact stall
  · have driving : m.mode.driving = true := MotorMode.driving_of_regulated regulated
    have measured := State.measure_unread (p := p) unread
    intro D target e A u d g inpos goesOn high low
    have formed : m.targetOver p (s.measure n p).conv = target := by
      rw [measured]
      rfl
    have stepped : s.stepped n p = (m.measured p).regulate p target := congrArg ((m.measured p).regulate p) formed
    clear_value target
    have short : ¬ (s.stepped n p).completes p := by
      rw [stepped]
      rintro ⟨runTo, complete⟩
      have counted : inpos = ((m.measured p).regulate p target).inposNext p := if_pos runTo
      exact absurd (goesOn runTo) (by rw [counted]; exact Nat.not_lt.mpr complete)
    have here : ((s.measure n p).setMotor n (s.stepped n p)).motors[n] = s.stepped n p := by
      rw [State.setMotor_motors, vector_set_same]
    have stalling : (((m.measured p).regulate p target).counted p).stalling p = true := by
      rw [Motor.stalling, ← Bool.decide_and]
      exact decide_eq_true ⟨high, low⟩
    have checks : s.regulation n p =
        (s.setMotor n (((m.measured p).regulate p target).counted p)).stallCheck n p := by
      rw [State.regulation_steps regulated (State.sourceLost_false there),
        State.completionCheck_checks (by rw [here]; exact short), here, measured, stepped]
      simp only [State.setMotor_setMotor]
    have stall := State.regulation_stall timed bound unread idle room checks driving stalling
    rw [Motor.warns_eq] at stall
    exact stall

end Sys2Proof.Machine
end

