-- ==== Sys2Proof/Proofs/Dispatches.lean ====
section
/-! PROOFS. One dispatch (R150–R154): the record taken, the entries it reaches, and the state in which the action of a
firing entry is carried out. -/

namespace Sys2Proof.Machine

/-! ## Candidates -/

/-- R151: an event carries no index. -/
def EventKind.indexless (kind : EventKind) : Bool :=
  kind ∈ [.budgetLimit, .budgetNormal, .brownout, .queueLow, .toneIdle, .clipEnd, .scanDone, .linkSilent, .none]

/-- R151: an enabled entry that the event matches. -/
def Event.hits (e : Event) (r : Reaction) : Bool :=
  decide (r.enabled = true ∧ r.triggerKind = e.kind ∧ e.kind ≠ .none ∧
    (e.kind.indexless = true ∨ r.triggerIndex = 255 ∨ r.triggerIndex = e.index) ∧
    (r.triggerDetail = 255 ∨ r.triggerDetail = e.detail))

theorem EventKind.indices_eq_zero (kind : EventKind) : (kind.indices == 0) = kind.indexless := by
  cases kind <;> rfl

theorem Event.hits_eq (e : Event) (r : Reaction) : (r.enabled && r.matchesEvent e) = e.hits r := by
  rw [Bool.eq_iff_iff, Event.hits, decide_eq_true_eq, Reaction.matchesEvent, EventKind.indices_eq_zero]
  simp only [Bool.and_eq_true, Bool.or_eq_true, bne_iff_ne, beq_iff_eq]
  constructor
  · rintro ⟨enabled, ⟨⟨⟨some, kind⟩, index⟩, detail⟩⟩
    exact ⟨enabled, kind, kind ▸ some, or_assoc.mp index, detail⟩
  · rintro ⟨enabled, kind, some, index, detail⟩
    exact ⟨enabled, ⟨⟨⟨kind ▸ some, kind⟩, or_assoc.mpr index⟩, detail⟩⟩

/-- An ascending list of all that satisfy a condition is what the filter leaves. -/
theorem filter_finRange_eq {m : Nat} {holds : Fin m → Bool} {l : List (Fin m)} (ascending : l.Pairwise (· < ·))
    (members : ∀ k, k ∈ l ↔ holds k = true) : (List.finRange m).filter holds = l := by
  have sorted : ((List.finRange m).filter holds).Pairwise (· < ·) := (List.pairwise_lt_finRange m).filter _
  have perm : ((List.finRange m).filter holds).Perm l := by
    refine (List.perm_ext_iff_of_nodup (sorted.imp ne_of_lt) (ascending.imp ne_of_lt)).mpr fun k => ?_
    rw [List.mem_filter, members]
    exact and_iff_right (List.mem_finRange k)
  exact perm.eq_of_pairwise' sorted ascending

section
variable {s : State} {e : Event} {rest : List Event} {i j : Fin 24}

theorem State.candidates_event (event : e.directed = none) :
    s.candidates e = (List.finRange 24).filter fun k => e.hits s.reactions[k] := by
  rw [State.candidates, event]
  exact List.filter_congr fun k _ => e.hits_eq _

/-- R151: one entry matches. -/
theorem State.candidates_only (event : e.directed = none) (hit : e.hits s.reactions[i] = true)
    (others : ∀ k : Fin 24, k ≠ i → e.hits s.reactions[k] = false) : s.candidates e = [i] := by
  refine (State.candidates_event event).trans (filter_finRange_eq (List.pairwise_singleton _ _) fun k => ?_)
  rw [List.mem_singleton]
  refine ⟨fun here => here ▸ hit, fun hits => ?_⟩
  by_contra other
  exact absurd hits (by rw [others k other]; exact Bool.false_ne_true)

/-- R152: two match, in their order. -/
theorem State.candidates_pair (event : e.directed = none) (order : i < j) (first : e.hits s.reactions[i] = true)
    (second : e.hits s.reactions[j] = true)
    (others : ∀ k : Fin 24, k ≠ i → k ≠ j → e.hits s.reactions[k] = false) : s.candidates e = [i, j] := by
  refine (State.candidates_event event).trans (filter_finRange_eq ?_ fun k => ?_)
  · exact List.pairwise_pair.mpr order
  · rw [List.mem_cons, List.mem_singleton]
    refine ⟨fun here => ?_, fun hits => ?_⟩
    · rcases here with rfl | rfl
      · exact first
      · exact second
    · by_contra other
      obtain ⟨notFirst, notSecond⟩ := not_or.mp other
      exact absurd hits (by rw [others k notFirst notSecond]; exact Bool.false_ne_true)

/-- R154: a level record has its directed entry. -/
theorem State.candidates_directed (directed : e.directed = some i) :
    s.candidates e = if s.reactions[i].level ∧ s.reactions[i].triggerKind = e.kind then [i] else [] := by
  rw [State.candidates, directed]

/-! ## The dispatch -/

/-- R150: the bus with the head record taken. -/
def State.takenBus (s : State) (rest : List Event) : Bus :=
  { s.bus with events := rest, overflow := if rest = [] then false else s.bus.overflow }

/-- R153: that bus while the action of entry i is carried out. -/
def State.actingBus (s : State) (e : Event) (rest : List Event) (i : Fin 24) : Bus :=
  { s.takenBus rest with dispatch := some { record := e, entry := i, cut := false } }

/-- R152: the entries with entry i fired. -/
def State.firedEntries (s : State) (i : Fin 24) : Vector Reaction 24 :=
  s.reactions.set i { s.reactions[i] with hitCount := satInc s.reactions[i].hitCount, enabled := s.reactions[i].always }

/-- R152, R153: the part while the action of entry i is carried out. -/
def State.acting (s : State) (e : Event) (rest : List Event) (i : Fin 24) : State :=
  { s with bus := s.actingBus e rest i, reactions := s.firedEntries i }

/-- R152: the dispatcher falls IDLE. -/
def State.dispatched (t : State) : State := { t with bus := t.bus.endDispatch }

theorem State.takeEvent_eq (s : State) (e : Event) (rest : List Event) : s.bus.takeEvent e rest =
    { s.takenBus rest with dispatch := some { record := e, entry := 0, cut := false } } := by
  have overflow : (s.bus.overflow && !rest.isEmpty) = if rest = [] then false else s.bus.overflow := by
    cases rest with
    | nil => rw [if_pos rfl]; exact Bool.and_false _
    | cons a l => rw [if_neg nofun]; exact Bool.and_true _
  rw [Bus.takeEvent, overflow]
  rfl

theorem State.dispatchEvent_eq (s : State) (e : Event) (rest : List Event) : s.dispatchEvent e rest =
    State.dispatched ((s.candidates e).foldl (State.reach e) { s with bus := s.bus.takeEvent e rest }) := rfl

/-- R152: a candidate that is enabled fires. -/
theorem State.reach_enabled (enabled : s.reactions[i].enabled = true) : State.reach e s i = s.fire i e := if_pos enabled

/-- R152: one that is not does nothing. -/
theorem State.reach_disabled (disabled : s.reactions[i].enabled = false) : State.reach e s i = s :=
  if_neg (Bool.eq_false_iff.mp disabled)

/-- R152: an enabled entry's firing, as the first of its dispatch. -/
theorem State.fire_first (enabled : s.reactions[i].enabled = true) :
    State.fire { s with bus := s.bus.takeEvent e rest } i e = (s.acting e rest i).act i s.reactions[i] e := by
  have fired : s.reactions[i].fired =
      { s.reactions[i] with hitCount := satInc s.reactions[i].hitCount, enabled := s.reactions[i].always } := by
    rw [Reaction.fired, enabled, Bool.true_and]
  rw [State.fire, s.takeEvent_eq]
  dsimp only
  rw [fired]
  rfl

/-! ## The row -/

section
variable (queue : s.bus.events = e :: rest)
include queue

theorem exec_eventDispatch : exec .eventDispatch s = .next (s.dispatchEvent e rest).transmitNext := by
  change execEventDispatch s = _
  rw [execEventDispatch, queue]
  rfl

/-- R152: a dispatch of one enabled entry. -/
theorem exec_eventDispatch_one (one : s.candidates e = [i]) (enabled : s.reactions[i].enabled = true) :
    exec .eventDispatch s =
      .next (State.transmitNext (State.dispatched ((s.acting e rest i).act i s.reactions[i] e))) := by
  have reached : State.reach e { s with bus := s.bus.takeEvent e rest } i =
      (s.acting e rest i).act i s.reactions[i] e := 
    (State.reach_enabled (s := { s with bus := s.bus.takeEvent e rest }) enabled).trans (State.fire_first enabled)
  rw [exec_eventDispatch queue, s.dispatchEvent_eq, one, List.foldl_cons, List.foldl_nil, reached]

end

section
variable (idle : s.bus.dispatch = none)
include idle

theorem State.takenBus_idle (rest : List Event) : { s.takenBus rest with dispatch := none } = s.takenBus rest := by
  rw [← idle]
  rfl

theorem State.actingBus_ends (e : Event) (rest : List Event) (i : Fin 24) :
    (s.actingBus e rest i).endDispatch = s.takenBus rest := s.takenBus_idle idle rest

/-- R152: a record that reaches no entry. -/
theorem exec_eventDispatch_nothing (queue : s.bus.events = e :: rest)
    (nothing : (s.candidates e).foldl (State.reach e) { s with bus := s.bus.takeEvent e rest } =
      { s with bus := s.bus.takeEvent e rest }) :
    exec .eventDispatch s = .next (State.transmitNext { s with bus := s.takenBus rest }) := by
  rw [exec_eventDispatch queue, s.dispatchEvent_eq, nothing, s.takeEvent_eq]
  exact congrArg (fun b => Host.Outcome.next (State.transmitNext { s with bus := b })) (s.takenBus_idle idle rest)

end

end

/-! ## What an action posts -/

/-- R153: an event that an action causes is one deeper. -/
def Event.caused (e : Event) (kind : EventKind) (index detail : Byte) (stamp : Half) (aim : Option (Fin 24)) : Event :=
  { kind := kind, index := index, detail := detail, depth := e.depth + 1, stamp := stamp, directed := aim }

/-- R150, R153: an event of an action that finds room, not too deep. -/
theorem Bus.postRecord_acting {b : Bus} {d : Dispatch} (kind : EventKind) (index detail : Byte) (aim : Option (Fin 24))
    (dispatching : b.dispatch = some d) (shallow : d.record.depth ≤ 3) (room : b.events.length < 16) :
    b.postRecord kind index detail aim =
      { b with events := b.events ++ [d.record.caused kind index detail b.stamp aim] } := by
  have deeper : d.record.depth + 1 ≤ Config.maxDepth := Nat.succ_le_succ shallow
  have offered : b.postRecord kind index detail aim = b.offer (d.record.caused kind index detail b.stamp aim) := by
    unfold Bus.postRecord
    rw [dispatching]
    exact if_pos deeper
  rw [offered]
  exact if_pos room

/-- A notice does not see the dispatcher. -/
theorem Bus.notify_dispatching (b : Bus) (d : Option Dispatch) (body : NoticeBody) :
    Bus.notify { b with dispatch := d } body = { b.notify body with dispatch := d } := by
  unfold Bus.notify
  dsimp only
  split <;> rfl

end Sys2Proof.Machine
end

