-- ==== Sys2Proof/Proofs/DispatchMotors.lean ====
section
/-! PROOFS. The MOTOR actions of a firing entry (R108, R156–R158). -/

namespace Sys2Proof.Machine

/-! ## A dispatch of one entry -/

/-- R152: the head record reaches one entry, which is enabled; no dispatch runs. -/
structure State.FiresOne (s : State) (e : Event) (rest : List Event) (i : Fin 24) : Prop where
  queue   : s.bus.events = e :: rest
  idle    : s.bus.dispatch = none
  one     : s.candidates e = [i]
  enabled : s.reactions[i].enabled = true

namespace State.FiresOne

variable {s : State} {e : Event} {rest : List Event} {i : Fin 24}

/-- R152: what the action makes of the part, beside the bus, stands; the dispatcher falls IDLE. -/
theorem fires (h : s.FiresOne e rest i) {v : State} {b c : Bus}
    (acts : (s.acting e rest i).act i s.reactions[i] e = { v with bus := b }) (ends : b.endDispatch = c) :
    exec .eventDispatch s = .next (State.transmitNext { v with bus := c }) := by
  rw [exec_eventDispatch_one h.queue h.one h.enabled, acts, ← ends]
  rfl

theorem bus_ends (h : s.FiresOne e rest i) : (s.actingBus e rest i).endDispatch = s.takenBus rest :=
  State.actingBus_ends h.idle e rest i

theorem events_end (h : s.FiresOne e rest i) (l : List Event) :
    Bus.endDispatch { s.actingBus e rest i with events := l } = { s.takenBus rest with events := l } := by
  rw [← h.bus_ends]
  rfl

/-- R158: an action that is refused. -/
theorem fails (h : s.FiresOne e rest i)
    (acts : (s.acting e rest i).act i s.reactions[i] e = (s.acting e rest i).fail) :
    exec .eventDispatch s = .next (State.transmitNext
      { s with bus := s.takenBus rest, reactions := s.firedEntries i, failures := satInc s.failures }) :=
  h.fires (v := { s with reactions := s.firedEntries i, failures := satInc s.failures }) acts h.bus_ends

end State.FiresOne

/-! ## The operation of a MOTOR action -/

section
variable {r : Reaction}

theorem Reaction.motorOp_none (beyond : 9 ≤ r.arg2.toNat) : r.motorOp = none := by
  unfold Reaction.motorOp
  split
  case h_10 => rfl
  all_goals omega

theorem Reaction.endAction_eq {x : EndAction} (code : r.arg1.toInt / 65536 = x.code.toNat) : r.endAction = some x := by
  have floor : r.arg1.toInt.fdiv 65536 = x.code.toNat := by
    rw [Int.fdiv_eq_ediv_of_nonneg _ (by decide), code]
  rw [Reaction.endAction, floor]
  rw [if_pos (Int.natCast_nonneg _), Int.toNat_natCast]
  cases x <;> rfl

theorem Reaction.endAction_none (code : r.arg1.toInt / 65536 < 0 ∨ 2 < r.arg1.toInt / 65536) : r.endAction = none := by
  rw [Reaction.endAction, Int.fdiv_eq_ediv_of_nonneg _ (by decide)]
  split
  · refine List.getElem?_eq_none ?_
    have three : EndAction.list.length = 3 := rfl
    omega
  · rfl

theorem Reaction.arg1Low_eq (r : Reaction) : r.arg1Low = (r.arg1.toInt % 65536).toNat := by
  rw [Reaction.arg1Low, Int.fmod_eq_emod_of_nonneg _ (by decide)]

/-! R108: the operation of each code. -/

theorem Reaction.motorOp_coast (code : r.arg2.toNat = 0) : r.motorOp = some .coast := by
  simp only [Reaction.motorOp, code]
theorem Reaction.motorOp_brake (code : r.arg2.toNat = 1) : r.motorOp = some .brake := by
  simp only [Reaction.motorOp, code]
theorem Reaction.motorOp_duty (code : r.arg2.toNat = 2) : r.motorOp = some (.duty r.arg0.toInt) := by
  simp only [Reaction.motorOp, code]
theorem Reaction.motorOp_speed (code : r.arg2.toNat = 3) : r.motorOp = some (.speed r.arg0.toInt) := by
  simp only [Reaction.motorOp, code]
theorem Reaction.motorOp_runTo_code (code : r.arg2.toNat = 4) :
    r.motorOp = r.endAction.map (MotorOp.runTo r.arg0 (r.arg1.toInt % 65536).toNat) := by
  simp only [Reaction.motorOp, code, r.arg1Low_eq]
theorem Reaction.motorOp_runFor_code (code : r.arg2.toNat = 5) :
    r.motorOp = r.endAction.map (MotorOp.runFor r.arg0.toInt (r.arg1.toInt % 65536).toNat) := by
  simp only [Reaction.motorOp, code, r.arg1Low_eq]
theorem Reaction.motorOp_hold (code : r.arg2.toNat = 6) : r.motorOp = some .hold := by
  simp only [Reaction.motorOp, code]
theorem Reaction.motorOp_follow_code (code : r.arg2.toNat = 7) : r.motorOp =
    some (.follow r.arg0.toNat (BitVec.ofInt 16 (max (-32768) (min 32767 r.arg1.toInt)))) := by
  simp only [Reaction.motorOp, code, clampInt]
theorem Reaction.motorOp_setCount (code : r.arg2.toNat = 8) : r.motorOp = some (.setCount r.arg0) := by
  simp only [Reaction.motorOp, code]

/-! R108: those with an end action or an entry that is named. -/

theorem Reaction.motorOp_runTo {x : EndAction} (code : r.arg2.toNat = 4)
    (named : r.arg1.toInt / 65536 = x.code.toNat) :
    r.motorOp = some (.runTo r.arg0 (r.arg1.toInt % 65536).toNat x) := by
  rw [Reaction.motorOp_runTo_code code, Reaction.endAction_eq named]
  rfl

theorem Reaction.motorOp_runFor {x : EndAction} (code : r.arg2.toNat = 5)
    (named : r.arg1.toInt / 65536 = x.code.toNat) :
    r.motorOp = some (.runFor r.arg0.toInt (r.arg1.toInt % 65536).toNat x) := by
  rw [Reaction.motorOp_runFor_code code, Reaction.endAction_eq named]
  rfl

theorem Reaction.motorOp_follow {k : Fin 32} (code : r.arg2.toNat = 7) (named : r.arg0.toInt = k.val) :
    r.motorOp = some (.follow k.val (BitVec.ofInt 16 (max (-32768) (min 32767 r.arg1.toInt)))) := by
  have index : r.arg0.toNat = k.val := by
    rw [BitVec.toInt_eq_toNat_cond] at named
    split at named <;> omega
  rw [Reaction.motorOp_follow_code code, index]

/-- R108: the codes 2–7 are the driving operations. -/
theorem Reaction.motorOp_driving {op : MotorOp} (found : r.motorOp = some op) (low : 2 ≤ r.arg2.toNat)
    (high : r.arg2.toNat ≤ 7) : op.driving = true := by
  unfold Reaction.motorOp at found
  split at found
  case h_1 code | h_2 code => omega
  case h_5 | h_6 =>
    obtain ⟨x, -, rfl⟩ := Option.map_eq_some_iff.mp found
    rfl
  case h_9 code => omega
  case h_10 => exact absurd found nofun
  all_goals
    obtain rfl := Option.some.inj found
    rfl

end

/-! ## The channel that begins -/

/-- R84, R85: a channel whose operation is superseded by one with notify 0, before the operation's own fields. -/
def Motor.begun (m : Motor) : Motor :=
  { m.ended .superseded with
      notify := false, integral := 0, stallCount := 0, inposCount := 0, stallEpisode := false }

section
variable (m : Motor) (stamp : Half)

theorem Motor.start_duty (d : Int) : (m.ended .superseded).start (.duty d) false stamp =
    { m.begun with
        mode := .duty, operation := .duty, targetSpeed := 0, dutyRequest := max (-1000) (min 1000 d)
        dutyGrant := (max (-1000) (min 1000 d)).sign * min |max (-1000) (min 1000 d)| m.allowance } := by
  rw [Motor.start, Motor.ended_allowance]
  rfl

theorem Motor.start_runFor (v : Int) {t : Nat} (below : t ≤ 65535) (x : EndAction) :
    (m.ended .superseded).start (.runFor v t x) false stamp =
      { m.begun with
          mode := .runFor, operation := .runFor, targetSpeed := max (-2000) (min 2000 v), endAction := x
          runForTimer := some (max 1 t), runEnd := stamp + BitVec.ofNat 16 (max 1 t) } := by
  have clamped : clampNat 1 65535 t = max 1 t := congrArg (max 1) (min_eq_right below)
  rw [Motor.start, clamped]
  rfl

theorem Motor.start_hold : (m.ended .superseded).start .hold false stamp =
    { m.begun with mode := .hold, operation := .hold, targetPosition := m.position, vmax := 200 } := by
  rw [Motor.start, Motor.ended_position]
  rfl

theorem Motor.start_follow (k : Fin 32) (gain : Half) :
    (m.ended .superseded).start (.follow k.val gain) false stamp =
      { m.begun with mode := .follow, operation := .follow, followEntry := k, followGain := gain } := by
  have entry : Fin.ofNat 32 k.val = k := Fin.ext (Nat.mod_eq_of_lt k.isLt)
  rw [Motor.start, entry]
  rfl

end

/-! ## The action -/

theorem State.motorRefusal_ne_none {s : State} {n : PortNo} (unbound : s.motorProfile n = none) (op : MotorOp) :
    s.motorRefusal n op ≠ none := by
  cases bad : op.badEntry with
  | true => rw [State.motorRefusal_badEntry bad]; nofun
  | false => rw [State.motorRefusal_unbound bad unbound]; nofun

section
variable {s : State} {r : Reaction} {n : PortNo}

theorem State.motorAction_blocked (silent : s.link.state = .silent) (low : 2 ≤ r.arg2.toNat) (high : r.arg2.toNat ≤ 7) :
    s.motorAction r = { s with blocked := satInc s.blocked } :=
  if_pos ⟨silent, by rw [Reaction.blockable, decide_eq_true low, decide_eq_true high]; rfl⟩

/-- R157: what is not blocked. -/
def State.Unblocked (s : State) (r : Reaction) : Prop :=
  s.link.state = .active ∨ r.arg2.toNat ≤ 1 ∨ 8 ≤ r.arg2.toNat

theorem State.Unblocked.not_blocked (h : s.Unblocked r) : ¬ (s.link.state = .silent ∧ r.blockable = true) := by
  rintro ⟨silent, blockable⟩
  rw [Reaction.blockable, Bool.and_eq_true, decide_eq_true_eq, decide_eq_true_eq] at blockable
  rcases h with active | low | high
  · rw [silent] at active
    exact nomatch active
  · omega
  · omega

/-- R156, R158: an action on a channel that is not blocked. -/
theorem State.motorAction_at (target : r.actionTarget = portByte n) (unblocked : s.Unblocked r) :
    s.motorAction r =
      match r.motorOp with
      | none => s.fail
      | some op => if s.motorRefusal n op = none then s.runMotorOp n op false else s.fail := by
  have near : r.actionTarget.toNat < 6 := by
    rw [target, toNat_portByte]
    exact n.isLt
  have channel : (⟨r.actionTarget.toNat, near⟩ : PortNo) = n := 
    Fin.ext ((congrArg BitVec.toNat target).trans (toNat_portByte n))
  rw [State.motorAction, if_neg unblocked.not_blocked, dif_pos near, channel]
  cases r.motorOp with
  | none => rfl
  | some op =>
    dsimp only
    cases s.motorRefusal n op <;> rfl

theorem State.motorAction_fails (target : r.actionTarget = portByte n) (unblocked : s.Unblocked r)
    (refused : ∀ op, r.motorOp = some op → s.motorRefusal n op ≠ none) : s.motorAction r = s.fail := by
  rw [State.motorAction_at target unblocked]
  cases found : r.motorOp with
  | none => rfl
  | some op => exact if_neg (refused op found)

theorem State.motorAction_runs (target : r.actionTarget = portByte n) (unblocked : s.Unblocked r) {op : MotorOp}
    (found : r.motorOp = some op) (passes : s.motorRefusal n op = none) :
    s.motorAction r = s.runMotorOp n op false := by
  rw [State.motorAction_at target unblocked, found]
  exact if_pos passes

end

namespace State.FiresOne

variable {s : State} {e : Event} {rest : List Event} {i : Fin 24} {n : PortNo}

theorem act_motor (motor : s.reactions[i].actionKind = .motor) :
    (s.acting e rest i).act i s.reactions[i] e = (s.acting e rest i).motorAction s.reactions[i] := by
  rw [State.act, motor]

/-- R157: a driving action while SILENT. -/
theorem motor_blocked (h : s.FiresOne e rest i) (motor : s.reactions[i].actionKind = .motor)
    (low : 2 ≤ s.reactions[i].arg2.toNat) (high : s.reactions[i].arg2.toNat ≤ 7) (silent : s.link.state = .silent) :
    exec .eventDispatch s = .next (State.transmitNext
      { s with bus := s.takenBus rest, reactions := s.firedEntries i, blocked := satInc s.blocked }) :=
  h.fires (v := { s with reactions := s.firedEntries i, blocked := satInc s.blocked })
    ((act_motor motor).trans (State.motorAction_blocked silent low high)) h.bus_ends

variable (h : s.FiresOne e rest i) (motor : s.reactions[i].actionKind = .motor)
  (target : s.reactions[i].actionTarget = portByte n) (unblocked : s.Unblocked s.reactions[i])
include h motor target unblocked

/-- R158: an action that the channel refuses. -/
theorem motor_fails (refused : ∀ op, s.reactions[i].motorOp = some op → s.motorRefusal n op ≠ none) :
    exec .eventDispatch s = .next (State.transmitNext
      { s with bus := s.takenBus rest, reactions := s.firedEntries i, failures := satInc s.failures }) :=
  h.fails ((act_motor motor).trans (State.motorAction_fails target unblocked refused))

/-- R108: an action that stops the channel. -/
theorem motor_stops {op : MotorOp} {mode : MotorMode} (found : s.reactions[i].motorOp = some op)
    (passes : s.motorRefusal n op = none)
    (runs : (s.acting e rest i).runMotorOp n op false = (s.acting e rest i).stopMotor n .stopped mode) :
    exec .eventDispatch s = .next (State.transmitNext
      { s with
        motors := s.motors.set n ((s.motors[n].ended .stopped).stopped mode)
        reactions := s.firedEntries i
        bus := (State.endingBus { s with bus := s.actingBus e rest i } n .stopped).endDispatch }) :=
  h.fires (v := { s with motors := s.motors.set n ((s.motors[n].ended .stopped).stopped mode)
                         reactions := s.firedEntries i })
    (((act_motor motor).trans (State.motorAction_runs (s := s.acting e rest i) target unblocked found passes)).trans
      (runs.trans (State.stopMotor_eq _ n .stopped mode))) rfl

/-- R108: an action that begins an operation. -/
theorem motor_begins {op : MotorOp} (found : s.reactions[i].motorOp = some op) (passes : s.motorRefusal n op = none)
    (driving : op.driving = true) :
    exec .eventDispatch s = .next (State.transmitNext
      { s with
        motors := s.motors.set n ((s.motors[n].ended .superseded).start op false s.bus.stamp)
        reactions := s.firedEntries i
        bus := (State.endingBus { s with bus := s.actingBus e rest i } n .superseded).endDispatch }) :=
  h.fires (v := { s with motors := s.motors.set n ((s.motors[n].ended .superseded).start op false s.bus.stamp)
                         reactions := s.firedEntries i })
    (((act_motor motor).trans (State.motorAction_runs (s := s.acting e rest i) target unblocked found passes)).trans
      (State.runMotorOp_driving _ n driving false)) rfl

/-- R108: an action that sets a count. -/
theorem motor_counts {value : Word} (found : s.reactions[i].motorOp = some (.setCount value))
    (passes : s.motorRefusal n (.setCount value) = none) :
    exec .eventDispatch s = .next (State.transmitNext
      { s with
        motors := s.motors.set n { s.motors[n] with position := value, prevPosition := value }
        lines := s.lines.set n { s.lines[n] with count := value }
        reactions := s.firedEntries i
        bus := s.takenBus rest }) :=
  h.fires (v := { s with motors := s.motors.set n { s.motors[n] with position := value, prevPosition := value }
                         lines := s.lines.set n { s.lines[n] with count := value }
                         reactions := s.firedEntries i })
    ((act_motor motor).trans (State.motorAction_runs (s := s.acting e rest i) target unblocked found passes)) h.bus_ends

end State.FiresOne

end Sys2Proof.Machine
end

