-- ==== Sys2Proof/Proofs/DispatchActions.lean ====
section
/-! PROOFS. The other actions of a firing entry (R116, R146, R155): notices, entries, sound, marks, reports. -/

namespace Sys2Proof.Machine

/-- R162: neither the bus, but for its stamp, nor the reaction table is a matter of an offer. -/
theorem State.offered_acting (s : State) (q : Fin 12) (r : Report) (d : Bus) (reactions : Vector Reaction 24)
    (stamp : d.stamp = s.bus.stamp) : State.offered { s with bus := d, reactions := reactions } q r =
      { s.offered q r with bus := d, reactions := reactions } := by
  unfold State.offered
  dsimp only
  rw [stamp]
  split_ifs <;> rfl

namespace State.FiresOne

variable {s : State} {e : Event} {rest : List Event} {i : Fin 24}

/-! ## NONE, NOTIFY and REPORT_NOW -/

theorem noAction (h : s.FiresOne e rest i) (kind : s.reactions[i].actionKind = .none) :
    exec .eventDispatch s = .next (State.transmitNext
      { s with bus := s.takenBus rest, reactions := s.firedEntries i }) := by
  refine h.fires (v := { s with reactions := s.firedEntries i }) (b := s.actingBus e rest i) ?_ h.bus_ends
  rw [State.act, kind]
  rfl

theorem notify_ends (h : s.FiresOne e rest i) (body : NoticeBody) :
    ((s.actingBus e rest i).notify body).endDispatch = (s.takenBus rest).notify body := by
  rw [Bus.endDispatch, ← Bus.notify_dispatching]
  exact congrArg (Bus.notify · body) h.bus_ends

theorem notifies (h : s.FiresOne e rest i) (kind : s.reactions[i].actionKind = .notify) :
    exec .eventDispatch s = .next (State.transmitNext
      { s with bus := (s.takenBus rest).notify (.reaction i e), reactions := s.firedEntries i }) := by
  refine h.fires (v := { s with reactions := s.firedEntries i }) (b := (s.actingBus e rest i).notify (.reaction i e)) ?_
    (h.notify_ends _)
  rw [State.act, kind]
  rfl

/-- R163: the entry's report is due as in the part before the dispatch. -/
theorem reports (h : s.FiresOne e rest i) (kind : s.reactions[i].actionKind = .reportNow) {q : Fin 12}
    (target : s.reactions[i].actionTarget = byteOf q.val) :
    exec .eventDispatch s = .next (State.transmitNext
      { s.reportDue q with bus := s.takenBus rest, reactions := s.firedEntries i }) := by
  have index : s.reactions[i].actionTarget.toNat = q.val := by rw [target, toNat_byteOf (by omega)]
  have below : s.reactions[i].actionTarget.toNat < 12 := lt_of_eq_of_lt index q.isLt
  have named : (⟨s.reactions[i].actionTarget.toNat, below⟩ : Fin 12) = q := Fin.ext index
  refine h.fires (v := { s.reportDue q with reactions := s.firedEntries i }) (b := s.actingBus e rest i) ?_ h.bus_ends
  rw [State.act, kind]
  dsimp only
  rw [dif_pos below, named, State.reportDue_eq, State.reportDue_eq]
  exact s.offered_acting q s.reports[q] (s.actingBus e rest i) (s.firedEntries i) rfl

/-! ## ENABLE and DISABLE -/

section
variable {j : Fin 24}

theorem disables (h : s.FiresOne e rest i) (kind : s.reactions[i].actionKind = .disable)
    (target : s.reactions[i].actionTarget = byteOf j.val) :
    exec .eventDispatch s = .next (State.transmitNext
      { s with bus := s.takenBus rest
               reactions := (s.firedEntries i).set j { (s.firedEntries i)[j] with enabled := false } }) := by
  have index : s.reactions[i].actionTarget.toNat = j.val := by rw [target, toNat_byteOf (by omega)]
  have below : s.reactions[i].actionTarget.toNat < 24 := lt_of_eq_of_lt index j.isLt
  have named : (⟨s.reactions[i].actionTarget.toNat, below⟩ : Fin 24) = j := Fin.ext index
  refine h.fires
    (v := { s with reactions := (s.firedEntries i).set j { (s.firedEntries i)[j] with enabled := false } })
    (b := s.actingBus e rest i) ?_ h.bus_ends
  rw [State.act, kind]
  dsimp only
  rw [dif_pos below, named]
  rfl

theorem act_enable (kind : s.reactions[i].actionKind = .enable)
    (target : s.reactions[i].actionTarget = byteOf j.val) :
    (s.acting e rest i).act i s.reactions[i] e = (s.acting e rest i).enable j := by
  have index : s.reactions[i].actionTarget.toNat = j.val := by rw [target, toNat_byteOf (by omega)]
  have below : s.reactions[i].actionTarget.toNat < 24 := lt_of_eq_of_lt index j.isLt
  have named : (⟨s.reactions[i].actionTarget.toNat, below⟩ : Fin 24) = j := Fin.ext index
  rw [State.act, kind]
  dsimp only
  rw [dif_pos below, named]

/-- R155: an enabled entry stays. -/
theorem enable_enabled (h : s.FiresOne e rest i) (kind : s.reactions[i].actionKind = .enable)
    (target : s.reactions[i].actionTarget = byteOf j.val) (on : (s.firedEntries i)[j].enabled = true) :
    exec .eventDispatch s = .next (State.transmitNext
      { s with bus := s.takenBus rest, reactions := s.firedEntries i }) :=
  h.fires (v := { s with reactions := s.firedEntries i }) (b := s.actingBus e rest i)
    ((act_enable kind target).trans (if_pos on)) h.bus_ends

end

end State.FiresOne

/-- R154: the holding condition goes by the trigger of an entry. -/
theorem State.holding_of_trigger (s : State) {r q : Reaction} (kind : q.triggerKind = r.triggerKind)
    (index : q.triggerIndex = r.triggerIndex) (detail : q.triggerDetail = r.triggerDetail) :
    s.holding q = s.holding r := by
  unfold State.holding State.lineHolding
  rw [kind, index, detail]

section
variable {s : State} {e : Event} {rest : List Event} {i j : Fin 24}

/-- R152: firing leaves the trigger of every entry. -/
theorem State.firedEntries_trigger (s : State) (i j : Fin 24) :
    (s.firedEntries i)[j].triggerKind = s.reactions[j].triggerKind ∧
    (s.firedEntries i)[j].triggerIndex = s.reactions[j].triggerIndex ∧
    (s.firedEntries i)[j].triggerDetail = s.reactions[j].triggerDetail := by
  by_cases same : i = j
  · subst same
    simp [State.firedEntries]
  · have other : i.val ≠ j.val := fun eq => same (Fin.ext eq)
    simp [State.firedEntries, Vector.getElem_set_ne, other]

/-- R155: the part with entry j enabled. -/
def State.enabling (s : State) (e : Event) (rest : List Event) (i j : Fin 24) : State :=
  (s.acting e rest i).setReaction j { (s.firedEntries i)[j] with enabled := true }

theorem State.enable_disabled (off : (s.firedEntries i)[j].enabled = false) :
    (s.acting e rest i).enable j = (s.enabling e rest i j).becomesEnabled j := if_neg (Bool.eq_false_iff.mp off)

theorem State.enabling_entry (s : State) (e : Event) (rest : List Event) (i j : Fin 24) :
    (s.enabling e rest i j).reactions[j] = { (s.firedEntries i)[j] with enabled := true } := by
  simp [State.enabling, State.setReaction, State.acting]

theorem State.enabling_holding (s : State) (e : Event) (rest : List Event) (i j : Fin 24) :
    (s.enabling e rest i j).holding { (s.firedEntries i)[j] with enabled := true } = s.holding s.reactions[j] := by
  obtain ⟨kind, index, detail⟩ := s.firedEntries_trigger i j
  exact s.holding_of_trigger (q := { (s.firedEntries i)[j] with enabled := true }) kind index detail

namespace State.FiresOne

/-- R155: an entry that is enabled without a level record. -/
theorem enable_quiet (h : s.FiresOne e rest i) (kind : s.reactions[i].actionKind = .enable)
    (target : s.reactions[i].actionTarget = byteOf j.val) (off : (s.firedEntries i)[j].enabled = false)
    (quiet : (s.firedEntries i)[j].level = false ∨ s.holding s.reactions[j] = .none) :
    exec .eventDispatch s = .next (State.transmitNext
      { s with bus := s.takenBus rest
               reactions := (s.firedEntries i).set j { (s.firedEntries i)[j] with enabled := true } }) := by
  have silent : (s.enabling e rest i j).becomesEnabled j = s.enabling e rest i j := by
    have entry := s.enabling_entry e rest i j
    cases level : (s.firedEntries i)[j].level with
    | false =>
      refine State.becomesEnabled_quiet ?_
      rw [entry]
      exact fun both => absurd (level.symm.trans both.2) Bool.false_ne_true
    | true =>
      have holds : s.holding s.reactions[j] = .none := quiet.resolve_left (by rw [level]; exact nofun)
      rw [State.becomesEnabled_holding entry rfl level, s.enabling_holding, holds]
  exact h.fires
    (v := { s with reactions := (s.firedEntries i).set j { (s.firedEntries i)[j] with enabled := true } })
    (b := s.actingBus e rest i)
    ((act_enable kind target).trans ((State.enable_disabled off).trans silent)) h.bus_ends

/-- R154, R155: an entry with LEVEL sense whose condition holds offers its record. -/
theorem enable_holding (h : s.FiresOne e rest i) (kind : s.reactions[i].actionKind = .enable)
    (target : s.reactions[i].actionTarget = byteOf j.val) (off : (s.firedEntries i)[j].enabled = false)
    (level : (s.firedEntries i)[j].level = true) {index detail : Byte}
    (holds : s.holding s.reactions[j] = some (index, detail)) (shallow : e.depth ≤ 3) (room : rest.length < 16) :
    exec .eventDispatch s = .next (State.transmitNext
      { s with
        bus := { s.takenBus rest with
          events := rest ++ [e.caused (s.firedEntries i)[j].triggerKind index detail s.bus.stamp (some j)] }
        reactions := (s.firedEntries i).set j { (s.firedEntries i)[j] with enabled := true } }) := by
  have entry := s.enabling_entry e rest i j
  have posted := Bus.postRecord_acting (b := s.actingBus e rest i) (s.firedEntries i)[j].triggerKind index detail
    (some j) rfl shallow room
  refine h.fires
    (v := { s with reactions := (s.firedEntries i).set j { (s.firedEntries i)[j] with enabled := true } })
    ((act_enable kind target).trans ((State.enable_disabled off).trans ?_)) (h.events_end _)
  rw [State.becomesEnabled_holding entry rfl level, s.enabling_holding, holds]
  dsimp only
  exact congrArg (fun b => ({ s.enabling e rest i j with bus := b } : State)) posted

/-! ## MARK_SET -/

end State.FiresOne

theorem toInt_eq_zero_iff (w : Word) : w.toInt = 0 ↔ w = 0 := BitVec.toInt_inj (y := (0 : Word))
theorem toInt_eq_one_iff (w : Word) : w.toInt = 1 ↔ w = 1 := BitVec.toInt_inj (y := (1 : Word))

/-- R116: a mark as it is to be. -/
theorem State.markSet_same {t : State} {n : PortNo} {w : Word} (flag : w = 0 ∨ w = 1)
    (same : t.marks[n].isOn = decide (w = 1)) : t.markSet n w.toInt = some t := by
  unfold State.markSet
  simp only [toInt_eq_zero_iff, toInt_eq_one_iff]
  rw [if_pos flag, if_pos same]

/-- R116: a mark that changes. -/
theorem State.markSet_other {t : State} {n : PortNo} {w : Word} (flag : w = 0 ∨ w = 1)
    (other : t.marks[n].isOn ≠ decide (w = 1)) :
    t.markSet n w.toInt = some { t with
      marks := t.marks.set n { t.marks[n] with isOn := decide (w = 1) }
      bus := t.bus.post (if decide (w = 1) then .markOn else .markOff) (portByte n) 0 } := by
  unfold State.markSet
  simp only [toInt_eq_zero_iff, toInt_eq_one_iff, decide_eq_true_eq]
  rw [if_pos flag, if_neg other]
  rfl

theorem State.markSet_none {t : State} {n : PortNo} {w : Word} (bad : w ≠ 0 ∧ w ≠ 1) : t.markSet n w.toInt = none := by
  unfold State.markSet
  simp only [toInt_eq_zero_iff, toInt_eq_one_iff]
  exact if_neg (not_or.mpr bad)

namespace State.FiresOne

section
variable {n : PortNo}

theorem act_mark (kind : s.reactions[i].actionKind = .markSet) (target : s.reactions[i].actionTarget = portByte n) :
    (s.acting e rest i).act i s.reactions[i] e =
      ((s.acting e rest i).markSet n s.reactions[i].arg0.toInt).getD (s.acting e rest i).fail := by
  have index : s.reactions[i].actionTarget.toNat = n.val := by rw [target, toNat_portByte]
  have near : s.reactions[i].actionTarget.toNat < 6 := lt_of_eq_of_lt index n.isLt
  have named : (⟨s.reactions[i].actionTarget.toNat, near⟩ : PortNo) = n := Fin.ext index
  rw [State.act, kind]
  dsimp only
  rw [State.markAction, dif_pos near, named]

theorem mark_fails (h : s.FiresOne e rest i) (kind : s.reactions[i].actionKind = .markSet)
    (target : s.reactions[i].actionTarget = portByte n) (bad : s.reactions[i].arg0 ≠ 0 ∧ s.reactions[i].arg0 ≠ 1) :
    exec .eventDispatch s = .next (State.transmitNext
      { s with bus := s.takenBus rest, reactions := s.firedEntries i, failures := satInc s.failures }) := by
  refine h.fails ((act_mark kind target).trans ?_)
  rw [State.markSet_none bad]
  rfl

theorem mark_same (h : s.FiresOne e rest i) (kind : s.reactions[i].actionKind = .markSet)
    (target : s.reactions[i].actionTarget = portByte n) (flag : s.reactions[i].arg0 = 0 ∨ s.reactions[i].arg0 = 1)
    (same : s.marks[n].isOn = decide (s.reactions[i].arg0 = 1)) :
    exec .eventDispatch s = .next (State.transmitNext
      { s with bus := s.takenBus rest, reactions := s.firedEntries i }) := by
  refine h.fires (v := { s with reactions := s.firedEntries i }) (b := s.actingBus e rest i)
    ((act_mark kind target).trans ?_) h.bus_ends
  rw [State.markSet_same (t := s.acting e rest i) flag same]
  rfl

/-- R116: a mark that changes posts its event; c is the bus once the dispatcher is IDLE. -/
theorem mark_other (h : s.FiresOne e rest i) (kind : s.reactions[i].actionKind = .markSet)
    (target : s.reactions[i].actionTarget = portByte n) (flag : s.reactions[i].arg0 = 0 ∨ s.reactions[i].arg0 = 1)
    (other : s.marks[n].isOn ≠ decide (s.reactions[i].arg0 = 1)) {c : Bus}
    (ends : ((s.actingBus e rest i).post (if decide (s.reactions[i].arg0 = 1) then .markOn else .markOff) (portByte n)
      0).endDispatch = c) :
    exec .eventDispatch s = .next (State.transmitNext
      { s with
        marks := s.marks.set n { s.marks[n] with isOn := decide (s.reactions[i].arg0 = 1) }
        reactions := s.firedEntries i
        bus := c }) := by
  refine h.fires
    (v := { s with marks := s.marks.set n { s.marks[n] with isOn := decide (s.reactions[i].arg0 = 1) }
                   reactions := s.firedEntries i })
    ((act_mark kind target).trans ?_) ends
  rw [State.markSet_other (t := s.acting e rest i) flag other]
  rfl

end

/-- R153: an event of an action that finds room, once the dispatcher is IDLE. -/
theorem posted_ends (h : s.FiresOne e rest i) (shallow : e.depth ≤ 3) (room : rest.length < 16) (kind : EventKind)
    (index detail : Byte) : ((s.actingBus e rest i).post kind index detail).endDispatch =
      { s.takenBus rest with events := rest ++ [e.caused kind index detail s.bus.stamp .none] } := by
  rw [Bus.post, Bus.postRecord_acting (b := s.actingBus e rest i) kind index detail .none rfl shallow room]
  exact h.events_end _

/-- R153: one too deep is cut. -/
theorem cut_ends (h : s.FiresOne e rest i) (deep : 4 ≤ e.depth) (kind : EventKind) (index detail : Byte) :
    ((s.actingBus e rest i).post kind index detail).endDispatch =
      (s.takenBus rest).notify (.depthLimit e.kind e.index e.depth i) := by
  have cut : (s.actingBus e rest i).post kind index detail =
      Bus.notify { s.actingBus e rest i with dispatch := some { record := e, entry := i, cut := true } }
        (.depthLimit e.kind e.index e.depth i) :=
    (Bus.post_of_dispatch kind index detail (d := { record := e, entry := i, cut := false }) rfl).trans
      (if_neg (show ¬ e.depth + 1 ≤ 4 by omega))
  rw [cut, Bus.notify_dispatching]
  exact h.notify_ends _

end State.FiresOne

end

end Sys2Proof.Machine
end

