-- ==== Sys2Proof/Proofs/DispatchSounds.lean ====
section
/-! PROOFS. The sound actions of a firing entry (R141, R142, R145, R146). -/

namespace Sys2Proof.Machine

/-! ## The stops, with room for their events -/

/-- R145: the tone voice stopped, its queue emptied. -/
def Sound.toneStopped (v : Sound) : Sound :=
  if decide (v.tonePlaying = true ∨ v.queue ≠ []) then
    { v with tonePlaying := false, noteTimer := none, queue := [] }
  else v

section
variable {t : State} {d : Dispatch}

theorem State.stopTone_acting (dispatching : t.bus.dispatch = some d) (shallow : d.record.depth ≤ 3)
    (room : t.bus.events.length < 16) :
    t.stopTone = { t with
      sound := t.sound.toneStopped
      bus := { t.bus with events := t.bus.events ++
        (if decide (t.sound.tonePlaying = true ∨ t.sound.queue ≠ []) then
          [d.record.caused .toneIdle 0 0 t.bus.stamp none] else []) } } := by
  unfold State.stopTone Sound.toneStopped
  by_cases on : t.sound.tonePlaying = true ∨ t.sound.queue ≠ []
  · have posted := Bus.postRecord_acting .toneIdle 0 0 none dispatching shallow room
    rw [if_pos on, if_pos (decide_eq_true on), if_pos (decide_eq_true on)]
    exact congrArg (fun b => ({ t with sound := { t.sound.toneIdle with queue := [] }, bus := b } : State)) posted
  · have off : ¬ decide (t.sound.tonePlaying = true ∨ t.sound.queue ≠ []) = true := by
      rw [decide_eq_true_eq]
      exact on
    rw [if_neg on, if_neg off, if_neg off, List.append_nil]

theorem State.stopClip_acting (dispatching : t.bus.dispatch = some d) (shallow : d.record.depth ≤ 3)
    (room : t.bus.events.length < 16) :
    t.stopClip = { t with
      sound := { t.sound with clipPlaying := false }
      bus := { t.bus with events := t.bus.events ++
        if t.sound.clipPlaying then [d.record.caused .clipEnd 0 3 t.bus.stamp none] else [] } } := by
  unfold State.stopClip
  cases playing : t.sound.clipPlaying with
  | true =>
    have posted := Bus.postRecord_acting .clipEnd 0 clipStopped none dispatching shallow room
    exact congrArg (fun b => ({ t with sound := { t.sound with clipPlaying := false }, bus := b } : State)) posted
  | false =>
    rw [if_neg Bool.false_ne_true, if_neg Bool.false_ne_true, List.append_nil, ← playing]

end

theorem Sound.toneStopped_clip (v : Sound) : v.toneStopped.clipPlaying = v.clipPlaying := by
  unfold Sound.toneStopped
  split <;> rfl

/-! ## The operation of a sound action -/

section
variable {r : Reaction}

/-- R146: the note of a SOUND_TONE action, clamped. -/
def Reaction.note (r : Reaction) (w : Waveform) : Note :=
  { pitch := if r.arg0.toInt.toNat = 0 then 0 else max 20 (min 8000 r.arg0.toInt.toNat)
    duration := (max 1 (min 4000 r.arg1.toInt)).toNat, waveform := w, level := min 100 (r.arg2.toNat / 256) }

theorem waveform_code (x : Half) : (x.extractLsb' 0 8).toNat = x.toNat % 256 := by simp

theorem Reaction.soundOp_tone_none (kind : r.actionKind = .soundTone) (code : 3 ≤ r.arg2.toNat % 256) :
    r.soundOp = none := by
  have unnamed : valueIn Waveform.list (r.arg2.extractLsb' 0 8) = none := by
    rw [valueIn, waveform_code]
    exact List.getElem?_eq_none code
  rw [Reaction.soundOp, kind]
  dsimp only
  rw [unnamed]
  rfl

/-- R146: the tone that is played. -/
theorem Reaction.soundOp_tone (kind : r.actionKind = .soundTone) {w : Waveform}
    (code : r.arg2.toNat % 256 = w.code.toNat) : ∃ n : Note, r.soundOp = some (.tone n) ∧ n.clamped = r.note w := by
  have named : valueIn Waveform.list (r.arg2.extractLsb' 0 8) = some w := by
    rw [valueIn, waveform_code, code]
    cases w <;> rfl
  refine ⟨{ pitch := (clampInt 0 8000 r.arg0.toInt).toNat, duration := (clampInt 1 4000 r.arg1.toInt).toNat
            waveform := w, level := min 100 (r.arg2.toNat / 256) }, ?_, ?_⟩
  · rw [Reaction.soundOp, kind]
    dsimp only
    rw [named]
    rfl
  · have pitch : (clampInt 0 8000 r.arg0.toInt).toNat = min 8000 r.arg0.toInt.toNat := by
      unfold clampInt
      omega
    have clampedPitch :
        (if min 8000 r.arg0.toInt.toNat = 0 then 0 else clampNat 20 8000 (min 8000 r.arg0.toInt.toNat)) =
        if r.arg0.toInt.toNat = 0 then 0 else max 20 (min 8000 r.arg0.toInt.toNat) := by
      unfold clampNat
      split_ifs <;> omega
    have duration : clampNat 1 4000 (clampInt 1 4000 r.arg1.toInt).toNat = (max 1 (min 4000 r.arg1.toInt)).toNat := by
      unfold clampNat clampInt
      omega
    have level : min 100 (min 100 (r.arg2.toNat / 256)) = min 100 (r.arg2.toNat / 256) := by omega
    rw [Note.clamped, Reaction.note]
    dsimp only
    rw [pitch, clampedPitch, duration, level]

end

namespace State.FiresOne

variable {s : State} {e : Event} {rest : List Event} {i : Fin 24}

/-! ## SOUND_TONE -/

theorem act_tone (kind : s.reactions[i].actionKind = .soundTone) :
    (s.acting e rest i).act i s.reactions[i] e = (s.acting e rest i).soundAction s.reactions[i] := by
  rw [State.act, kind]

/-- R158: a waveform beyond the last, or a full queue. -/
theorem tone_fails (h : s.FiresOne e rest i) (kind : s.reactions[i].actionKind = .soundTone)
    (refused : 3 ≤ s.reactions[i].arg2.toNat % 256 ∨ (s.sound.tonePlaying = true ∧ 32 ≤ s.sound.queue.length)) :
    exec .eventDispatch s = .next (State.transmitNext
      { s with bus := s.takenBus rest, reactions := s.firedEntries i, failures := satInc s.failures }) := by
  refine h.fails ((act_tone kind).trans ?_)
  rw [State.soundAction]
  by_cases code : 3 ≤ s.reactions[i].arg2.toNat % 256
  · rw [Reaction.soundOp_tone_none kind code]
  · have full : (s.acting e rest i).sound.tonePlaying = true ∧
        (s.acting e rest i).sound.queue.length ≥ Config.noteQueue := refused.resolve_left code
    obtain ⟨w, named⟩ : ∃ w : Waveform, s.reactions[i].arg2.toNat % 256 = w.code.toNat := by
      have below : s.reactions[i].arg2.toNat % 256 < 3 := Nat.lt_of_not_le code
      interval_cases s.reactions[i].arg2.toNat % 256
      · exact ⟨.square, rfl⟩
      · exact ⟨.triangle, rfl⟩
      · exact ⟨.saw, rfl⟩
    obtain ⟨n, tone, -⟩ := Reaction.soundOp_tone kind named
    rw [tone]
    dsimp only
    rw [State.soundRefusal, if_pos full]

/-- R141: a note that finds room. -/
theorem tone (h : s.FiresOne e rest i) (kind : s.reactions[i].actionKind = .soundTone) {w : Waveform}
    (code : s.reactions[i].arg2.toNat % 256 = w.code.toNat)
    (room : ¬ (s.sound.tonePlaying = true ∧ 32 ≤ s.sound.queue.length)) :
    exec .eventDispatch s = .next (State.transmitNext
      { s with bus := s.takenBus rest, reactions := s.firedEntries i
               sound := s.sound.append (s.reactions[i].note w) }) := by
  obtain ⟨n, found, clamped⟩ := Reaction.soundOp_tone kind code
  refine h.fires (v := { s with reactions := s.firedEntries i, sound := s.sound.append (s.reactions[i].note w) })
    (b := s.actingBus e rest i) ((act_tone kind).trans ?_) h.bus_ends
  have passes : (s.acting e rest i).soundRefusal (.tone n) = .none := if_neg room
  rw [State.soundAction, found]
  dsimp only
  rw [passes]
  dsimp only
  rw [State.runSoundOp, clamped]
  rfl

/-! ## SOUND_CLIP -/

section
variable {k : Fin 16}

theorem act_clip (kind : s.reactions[i].actionKind = .soundClip)
    (target : s.reactions[i].actionTarget = byteOf k.val) :
    (s.acting e rest i).act i s.reactions[i] e =
      if s.sound.clips[k].valid then
        (s.acting e rest i).playClip k (clampInt 0 255 s.reactions[i].arg0.toInt).toNat
          (clampInt 0 100 s.reactions[i].arg1.toInt).toNat
      else (s.acting e rest i).fail := by
  have index : s.reactions[i].actionTarget.toNat = k.val := by rw [target, toNat_byteOf (by omega)]
  have found : s.reactions[i].soundOp = some (.clip k.val (clampInt 0 255 s.reactions[i].arg0.toInt).toNat
      (clampInt 0 100 s.reactions[i].arg1.toInt).toNat) := by
    rw [Reaction.soundOp, kind]
    dsimp only
    rw [index]
  have named : Fin.ofNat 16 k.val = k := Fin.ext (Nat.mod_eq_of_lt k.isLt)
  have refusal (repeats level : Nat) : (s.acting e rest i).soundRefusal (.clip k.val repeats level) =
      if s.sound.clips[k].valid then none else some .badIndex := dif_pos k.isLt
  rw [State.act, kind]
  dsimp only
  rw [State.soundAction, found]
  dsimp only
  rw [refusal, State.runSoundOp, named]
  cases s.sound.clips[k].valid <;> rfl

theorem clip_fails (h : s.FiresOne e rest i) (kind : s.reactions[i].actionKind = .soundClip)
    (target : s.reactions[i].actionTarget = byteOf k.val) (invalid : s.sound.clips[k].valid = false) :
    exec .eventDispatch s = .next (State.transmitNext
      { s with bus := s.takenBus rest, reactions := s.firedEntries i, failures := satInc s.failures }) :=
  h.fails ((act_clip kind target).trans (if_neg (Bool.eq_false_iff.mp invalid)))

/-- R142: a clip that starts, ending a playing one. -/
theorem clip (h : s.FiresOne e rest i) (kind : s.reactions[i].actionKind = .soundClip)
    (target : s.reactions[i].actionTarget = byteOf k.val) (valid : s.sound.clips[k].valid = true)
    (shallow : e.depth ≤ 3) (room : rest.length < 16) :
    exec .eventDispatch s = .next (State.transmitNext
      { s with
        reactions := s.firedEntries i
        sound := s.sound.startClip k (max 0 (min 255 s.reactions[i].arg0.toInt)).toNat
          (max 0 (min 100 s.reactions[i].arg1.toInt)).toNat
        bus := { s.takenBus rest with events :=
          rest ++ if s.sound.clipPlaying then [e.caused .clipEnd 0 2 s.bus.stamp .none] else [] } }) := by
  have level : min 100 (clampInt 0 100 s.reactions[i].arg1.toInt).toNat =
      (max 0 (min 100 s.reactions[i].arg1.toInt)).toNat := by
    unfold clampInt
    omega
  refine h.fires
    (v := { s with reactions := s.firedEntries i
                   sound := s.sound.startClip k (max 0 (min 255 s.reactions[i].arg0.toInt)).toNat
                     (max 0 (min 100 s.reactions[i].arg1.toInt)).toNat })
    ((act_clip kind target).trans ((if_pos valid).trans ?_)) (h.events_end _)
  rw [State.playClip, level]
  change (if s.sound.clipPlaying then _ else _) = _
  cases s.sound.clipPlaying with
  | true =>
    have posted := Bus.postRecord_acting (b := s.actingBus e rest i) .clipEnd 0 clipSuperseded .none rfl shallow room
    exact congrArg (fun b => ({ s with reactions := s.firedEntries i, sound := s.sound.startClip k _ _
                                       bus := b } : State)) posted
  | false =>
    rw [if_neg Bool.false_ne_true, if_neg Bool.false_ne_true, List.append_nil]
    rfl

end

/-! ## SOUND_STOP -/

theorem act_stop (kind : s.reactions[i].actionKind = .soundStop) :
    (s.acting e rest i).act i s.reactions[i] e =
      if s.reactions[i].arg0 = 0 then (s.acting e rest i).stopTone
      else if s.reactions[i].arg0 = 1 then (s.acting e rest i).stopClip
      else if s.reactions[i].arg0 = 2 then (s.acting e rest i).stopSound
      else (s.acting e rest i).fail := by
  rw [State.act, kind]
  dsimp only
  rw [State.soundAction, Reaction.soundOp, kind]
  dsimp only
  split_ifs <;> rfl

theorem stop_fails (h : s.FiresOne e rest i) (kind : s.reactions[i].actionKind = .soundStop)
    (bad : s.reactions[i].arg0 ≠ 0 ∧ s.reactions[i].arg0 ≠ 1 ∧ s.reactions[i].arg0 ≠ 2) :
    exec .eventDispatch s = .next (State.transmitNext
      { s with bus := s.takenBus rest, reactions := s.firedEntries i, failures := satInc s.failures }) := by
  obtain ⟨not0, not1, not2⟩ := bad
  exact h.fails ((act_stop kind).trans ((if_neg not0).trans ((if_neg not1).trans (if_neg not2))))

/-- R145: what a stop leaves and says. -/
theorem stops (h : s.FiresOne e rest i) {sound : Sound} {l : List Event}
    (acts : (s.acting e rest i).act i s.reactions[i] e =
      { s with sound := sound, reactions := s.firedEntries i
               bus := { s.actingBus e rest i with events := rest ++ l } }) :
    exec .eventDispatch s = .next (State.transmitNext
      { s with sound := sound, reactions := s.firedEntries i, bus := { s.takenBus rest with events := rest ++ l } }) :=
  h.fires (v := { s with sound := sound, reactions := s.firedEntries i }) acts (h.events_end _)

section
variable (shallow : e.depth ≤ 3) (room : rest.length < 15)
include shallow room

theorem acting_stopTone : (s.acting e rest i).stopTone =
    { s with
      sound := s.sound.toneStopped
      reactions := s.firedEntries i
      bus := { s.actingBus e rest i with events := rest ++
        (if decide (s.sound.tonePlaying = true ∨ s.sound.queue ≠ []) then
          [e.caused .toneIdle 0 0 s.bus.stamp .none] else []) } } :=
  State.stopTone_acting (t := s.acting e rest i) rfl shallow (Nat.lt_succ_of_lt room)

theorem acting_stopClip : (s.acting e rest i).stopClip =
    { s with
      sound := { s.sound with clipPlaying := false }
      reactions := s.firedEntries i
      bus := { s.actingBus e rest i with events := rest ++
        if s.sound.clipPlaying then [e.caused .clipEnd 0 3 s.bus.stamp .none] else [] } } :=
  State.stopClip_acting (t := s.acting e rest i) rfl shallow (Nat.lt_succ_of_lt room)

/-- R145: STOP ALL, tone first and then clip. -/
theorem acting_stopSound : (s.acting e rest i).stopSound =
    { s with
      sound := { s.sound.toneStopped with clipPlaying := false }
      reactions := s.firedEntries i
      bus := { s.actingBus e rest i with events := rest ++
        ((if decide (s.sound.tonePlaying = true ∨ s.sound.queue ≠ []) then
            [e.caused .toneIdle 0 0 s.bus.stamp .none] else []) ++
          if s.sound.clipPlaying then [e.caused .clipEnd 0 3 s.bus.stamp .none] else []) } } := by
  have fits : (rest ++ (if decide (s.sound.tonePlaying = true ∨ s.sound.queue ≠ []) then
      [e.caused .toneIdle 0 0 s.bus.stamp .none] else [])).length < 16 := by
    rw [List.length_append]
    split
    · exact Nat.succ_lt_succ room
    · exact Nat.lt_succ_of_lt room
  rw [State.stopSound, acting_stopTone shallow room, ← List.append_assoc, ← s.sound.toneStopped_clip]
  exact State.stopClip_acting (t := { s with
    sound := s.sound.toneStopped
    reactions := s.firedEntries i
    bus := { s.actingBus e rest i with events := rest ++
      (if decide (s.sound.tonePlaying = true ∨ s.sound.queue ≠ []) then
        [e.caused .toneIdle 0 0 s.bus.stamp none] else []) } }) rfl shallow fits

end

end State.FiresOne

end Sys2Proof.Machine
end

