-- ==== Sys2Proof/Proofs/DispatchScans.lean ====
section
/-! PROOFS. The scan actions of a firing entry (R49, R155): what a SCAN command that has been answered tells of its
operation. -/

namespace Sys2Proof.Machine

/-! ## Taking (R5) -/

/-- R5: taking shortens the frames that wait, or does nothing. -/
theorem State.takeFrames_intake (fuel : Nat) (s : State) :
    (s.takeFrames fuel).link.intake.length < s.link.intake.length ∨ s.takeFrames fuel = s := by
  induction fuel generalizing s with
  | zero => exact Or.inr rfl
  | succ fuel ih =>
    unfold State.takeFrames
    split
    · exact Or.inr rfl
    · next f rest waiting =>
      split
      · have left : (State.runFrame { s with link := { s.link with intake := rest } } f).link.intake = rest :=
          State.runFrame_intake _ f
        have shorter : rest.length < s.link.intake.length := by
          rw [waiting]
          exact Nat.lt_succ_self _
        refine Or.inl ?_
        rcases ih (State.runFrame { s with link := { s.link with intake := rest } } f) with less | same
        · rw [left] at less
          exact less.trans shorter
        · rw [same, left]
          exact shorter
      · exact Or.inr rfl

theorem State.takeAll_intake (s : State) :
    s.takeAll.link.intake.length < s.link.intake.length ∨ s.takeAll = s := s.takeFrames_intake _

/-- R4: a frame offered stands at the tail, or is dropped at a full intake. -/
theorem State.offerFrame_door (s : State) (f : Frame) :
    ((s.offerFrame f).link.intake = s.link.intake ++ [f] ∨
      ((s.offerFrame f).link.intake = s.link.intake ∧ s.link.intake ≠ [])) ∧
    (s.offerFrame f).link.places = s.link.places ∧ (s.offerFrame f).link.canTake = s.link.canTake ∧
    (s.offerFrame f).scan = s.scan ∧ (s.offerFrame f).settings = s.settings := by
  obtain room | full := Nat.lt_or_ge s.link.intake.length 4
  · rw [State.offerFrame_room f room]
    exact ⟨Or.inl rfl, rfl, rfl, rfl, rfl⟩
  · rw [State.offerFrame_full f full]
    refine ⟨Or.inr ⟨rfl, fun empty => ?_⟩, rfl, rfl, rfl, rfl⟩
    rw [empty] at full
    exact absurd full (by decide)

/-- A list whose head goes round to its tail holds that element only. -/
theorem eq_of_append_eq_cons {α : Type} {l : List α} {a b : α} (h : l ++ [a] = b :: l) : a = b := by
  induction l generalizing b with
  | nil => exact (List.cons.inj h).1
  | cons c l ih =>
    obtain ⟨rfl, tail⟩ := List.cons.inj h
    exact ih tail

/-! ## The scan after a SCAN operation (R49, R53) -/

section
variable {s t : State} {op : ScanOp}

theorem State.scanOp_eq (s : State) (op : ScanOp) : s.scanOp op = { s with scan := (s.scanOp op).scan } := by
  by_cases idle : s.scan.work = .idle
  · rw [State.scanOp_idle idle]
  · rw [State.scanOp_busy idle]

theorem State.scanOp_congr (scan : t.scan = s.scan) (settings : t.settings = s.settings) :
    (t.scanOp op).scan = (s.scanOp op).scan := by
  by_cases idle : s.scan.work = .idle
  · rw [State.scanOp_idle idle, State.scanOp_idle (scan ▸ idle), scan, settings]
  · rw [State.scanOp_busy idle, State.scanOp_busy (scan ▸ idle), scan]

/-- R48: the frame of a SCAN command, taken. -/
theorem State.runFrame_scan {f : Frame}
    (form : ∀ (u : State) (order : Nat), u.handle f.kind f.payload order = u.scanCommand op)
    (scan : t.scan = s.scan) (settings : t.settings = s.settings) : (t.runFrame f).scan = (s.scanOp op).scan := by
  unfold State.runFrame State.carryOut
  dsimp only
  rw [form]
  exact State.scanOp_congr scan settings

/-- R5, R48: where the link has nothing but the answer of a SCAN command more than before, that command has been taken,
alone. -/
theorem scan_of_replied {c : Instr} {f : Frame} {scan : Scan} (row : frameOf c = some f)
    (form : ∀ (u : State) (order : Nat), u.handle f.kind f.payload order = u.scanCommand op)
    (answered : exec c s = .next (State.replied { s with scan := scan } f.kind f.tag .ok [])) :
    (s.scanOp op).scan = scan := by
  rw [exec_eq_submitted c f row, submitted, State.submit_eq_takeAll, settled] at answered
  have result := Host.Outcome.next.inj answered
  have scanned : (s.offerFrame f).takeAll.scan = scan := by
    have same := congrArg State.scan result
    rwa [State.transmitNext_scan, State.replied_scan] at same
  have intake : (s.offerFrame f).takeAll.link.intake = s.link.intake := by
    have same := congrArg (fun u => u.link.intake) result
    rwa [State.transmitNext_link_intake, State.replied, State.transmitNext_link_intake] at same
  have places : (s.offerFrame f).takeAll.link.places.length = s.link.places.length + 1 := by
    have same := congrArg (fun u => u.link.places.length) result
    simp only [State.transmitNext_link_places, State.replied_places, List.length_append] at same
    exact same
  obtain ⟨offered, samePlaces, sameTaking, sameScan, sameSettings⟩ := s.offerFrame_door f
  cases taking : s.link.canTake with
  | false =>
    rw [State.takeAll_of_not_canTake (sameTaking.trans taking), samePlaces] at places
    exact absurd places (Nat.ne_of_lt (Nat.lt_succ_self _))
  | true =>
    obtain ⟨g, rest, waiting⟩ : ∃ g rest, (s.offerFrame f).link.intake = g :: rest := by
      rcases offered with tail | ⟨same, some⟩
      · rw [tail]
        exact List.exists_cons_of_ne_nil (List.append_ne_nil_of_right_ne_nil _ (List.cons_ne_nil f []))
      · rw [same]
        exact List.exists_cons_of_ne_nil some
    rw [State.takeAll_cons waiting (sameTaking.trans taking)] at scanned intake
    have left := State.runFrame_intake
      { s.offerFrame f with link := { (s.offerFrame f).link with intake := rest } } g
    have most : rest.length ≤ s.link.intake.length := by
      have length := congrArg List.length waiting
      rcases offered with tail | ⟨same, -⟩
      · rw [tail, List.length_append] at length
        exact (Nat.succ.inj length).ge
      · rw [same, List.length_cons] at length
        omega
    rcases State.takeAll_intake (State.runFrame
        { s.offerFrame f with link := { (s.offerFrame f).link with intake := rest } } g) with less | same
    · rw [intake, left] at less
      exact absurd less (Nat.not_lt.mpr most)
    · rw [same] at scanned intake
      have rest' : rest = s.link.intake := left.symm.trans intake
      rcases offered with tail | ⟨unchanged, -⟩
      · obtain rfl : f = g := eq_of_append_eq_cons (tail.symm.trans (waiting.trans (congrArg (g :: ·) rest')))
        have ran : (State.runFrame
            { s.offerFrame f with link := { (s.offerFrame f).link with intake := rest } } f).scan =
            (s.scanOp op).scan := State.runFrame_scan form sameScan sameSettings
        exact ran.symm.trans scanned
      · have longer := congrArg List.length (unchanged.symm.trans waiting)
        rw [rest', List.length_cons] at longer
        exact absurd longer (Nat.ne_of_lt (Nat.lt_succ_self _))

end

/-! ## The action -/

/-- The three scan actions and their rows. -/
theorem State.act_scan {t : State} {i : Fin 24} {r : Reaction} {e : Event} {c : Instr} {tag : Byte}
    (row : (r.actionKind = .scanStart ∧ c = .scanStart tag) ∨ (r.actionKind = .scanSingle ∧ c = .scanSingle tag) ∨
      (r.actionKind = .scanStop ∧ c = .scanStop tag)) :
    ∃ (op : ScanOp) (f : Frame), t.act i r e = t.scanOp op ∧ frameOf c = some f ∧ f.kind = 0x30 ∧ f.tag = tag ∧
      ∀ (u : State) (order : Nat), u.handle f.kind f.payload order = u.scanCommand op := by
  rcases row with ⟨kind, rfl⟩ | ⟨kind, rfl⟩ | ⟨kind, rfl⟩
  · exact ⟨.start, ⟨0x30, tag, [2]⟩, by rw [State.act, kind], rfl, rfl, rfl, fun _ _ => rfl⟩
  · exact ⟨.single, ⟨0x30, tag, [1]⟩, by rw [State.act, kind], rfl, rfl, rfl, fun _ _ => rfl⟩
  · exact ⟨.stop, ⟨0x30, tag, [0]⟩, by rw [State.act, kind], rfl, rfl, rfl, fun _ _ => rfl⟩

/-- R155: a scan action does what the SCAN command, answered at once, does to the scan. -/
theorem State.FiresOne.scans {s : State} {e : Event} {rest : List Event} {i : Fin 24} (h : s.FiresOne e rest i)
    {c : Instr} {tag : Byte} {scan : Scan}
    (row : (s.reactions[i].actionKind = .scanStart ∧ c = .scanStart tag) ∨
      (s.reactions[i].actionKind = .scanSingle ∧ c = .scanSingle tag) ∨
      (s.reactions[i].actionKind = .scanStop ∧ c = .scanStop tag))
    (answered : exec c s = .next (State.replied { s with scan := scan } 0x30 tag .ok [])) :
    exec .eventDispatch s = .next (State.transmitNext
      { s with scan := scan, bus := s.takenBus rest, reactions := s.firedEntries i }) := by
  obtain ⟨op, f, acts, named, kind, tagged, form⟩ := State.act_scan (t := s.acting e rest i) (i := i) (e := e) row
  rw [← kind, ← tagged] at answered
  have scanned : ((s.acting e rest i).scanOp op).scan = scan :=
    (State.scanOp_congr (s := s) (t := s.acting e rest i) rfl rfl).trans (scan_of_replied named form answered)
  refine h.fires (v := { s with scan := scan, reactions := s.firedEntries i }) (b := s.actingBus e rest i)
    (acts.trans ?_) h.bus_ends
  rw [State.scanOp_eq, scanned]
  rfl

end Sys2Proof.Machine
end

