-- ==== Sys2Proof/Proofs/DispatchFirings.lean ====
section
/-! PROOFS. A dispatch that reaches several entries (R152), and the statement of the dispatch. -/

namespace Sys2Proof.Machine

/-! ## Several entries with a notice -/

section
variable {e : Event}

/-- R152, R155: the entries of a list, each enabled and with a NOTIFY action, fire in its order. -/
theorem State.foldl_reach_notify {l : List (Fin 24)} (once : l.Nodup) {t : State}
    (enabled : ∀ k ∈ l, t.reactions[k].enabled = true) (notifies : ∀ k ∈ l, t.reactions[k].actionKind = .notify) :
    l.foldl (State.reach e) t =
      { t with
        reactions := Vector.ofFn fun k => if k ∈ l then t.reactions[k].fired else t.reactions[k]
        bus := l.foldl (fun b k => (b.atEntry k).notify (.reaction k e)) t.bus } := by
  induction l generalizing t with
  | nil => simp
  | cons k l ih =>
    obtain ⟨fresh, once'⟩ := List.nodup_cons.mp once
    have first : State.reach e t k =
        { t with reactions := t.reactions.set k t.reactions[k].fired
                 bus := (t.bus.atEntry k).notify (.reaction k e) } := by
      rw [State.reach_enabled (enabled k List.mem_cons_self), State.fire]
      dsimp only
      rw [State.act, notifies k List.mem_cons_self]
      rfl
    have others : ∀ m ∈ l, (t.reactions.set k t.reactions[k].fired)[m] = t.reactions[m] := fun m here => by
      have apart : k.val ≠ m.val := fun same => fresh (Fin.ext same ▸ here)
      simp [Vector.getElem_set_ne, apart]
    rw [List.foldl_cons, first, ih once' (fun m here => ?_) fun m here => ?_]
    · refine congrArg (fun v => ({ t with reactions := v, bus := _ } : State)) (Vector.ext fun m below => ?_)
      rw [Vector.getElem_ofFn, Vector.getElem_ofFn]
      by_cases same : (⟨m, below⟩ : Fin 24) = k
      · subst same
        rw [if_neg fresh, if_pos List.mem_cons_self]
        exact Vector.getElem_set_self _
      · have apart : k.val ≠ m := fun eq => same (Fin.ext eq.symm)
        have kept : (t.reactions.set k t.reactions[k].fired)[(⟨m, below⟩ : Fin 24)] =
            t.reactions[(⟨m, below⟩ : Fin 24)] := Vector.getElem_set_ne _ _ apart
        rw [kept]
        exact if_congr (by rw [List.mem_cons]; exact (or_iff_right same).symm) rfl rfl
    · rw [others m here]
      exact enabled m (List.mem_cons_of_mem k here)
    · rw [others m here]
      exact notifies m (List.mem_cons_of_mem k here)

/-- A notice queued for an entry, once the dispatcher is IDLE. -/
theorem Bus.endDispatch_notify (b : Bus) (k : Fin 24) (body : NoticeBody) :
    b.endDispatch.notify body = ((b.atEntry k).notify body).endDispatch :=
  (Bus.notify_dispatching b none body).trans
    (congrArg Bus.endDispatch (Bus.notify_dispatching b (b.atEntry k).dispatch body)).symm

/-- R152: a dispatch in which every match has a NOTIFY action. -/
theorem exec_eventDispatch_notifies {s : State} {rest : List Event} (queue : s.bus.events = e :: rest)
    (idle : s.bus.dispatch = none) (event : e.directed = none)
    (notifies : ∀ k : Fin 24, e.hits s.reactions[k] = true → s.reactions[k].actionKind = .notify) :
    exec .eventDispatch s = .next (State.transmitNext
      { s with
        reactions := Vector.ofFn fun k =>
          if e.hits s.reactions[k] then
            { s.reactions[k] with hitCount := satInc s.reactions[k].hitCount, enabled := s.reactions[k].always }
          else s.reactions[k]
        bus := ((List.finRange 24).filter fun k => e.hits s.reactions[k]).foldl
          (fun b k => b.notify (.reaction k e)) (s.takenBus rest) }) := by
  have enabled (k : Fin 24) (hit : e.hits s.reactions[k] = true) : s.reactions[k].enabled = true := by
    rw [← e.hits_eq, Bool.and_eq_true] at hit
    exact hit.1
  have hit (k : Fin 24) (here : k ∈ (List.finRange 24).filter fun k => e.hits s.reactions[k]) :
      e.hits s.reactions[k] = true := (List.mem_filter.mp here).2
  have fold := State.foldl_reach_notify (e := e) (t := { s with bus := s.bus.takeEvent e rest })
    ((List.nodup_finRange 24).filter fun k => e.hits s.reactions[k]) (fun k here => enabled k (hit k here))
    (fun k here => notifies k (hit k here))
  have entries : (Vector.ofFn fun k : Fin 24 =>
      if k ∈ (List.finRange 24).filter (fun k => e.hits s.reactions[k]) then s.reactions[k].fired else s.reactions[k]) =
      Vector.ofFn fun k : Fin 24 =>
        if e.hits s.reactions[k] then
          { s.reactions[k] with hitCount := satInc s.reactions[k].hitCount, enabled := s.reactions[k].always }
        else s.reactions[k] := by
    refine congrArg Vector.ofFn (funext fun k => ?_)
    cases hits : e.hits s.reactions[k] with
    | true =>
      rw [if_pos (List.mem_filter.mpr ⟨List.mem_finRange k, hits⟩), if_pos rfl, Reaction.fired, enabled k hits,
        Bool.true_and]
    | false =>
      rw [if_neg fun here => absurd (hit k here) (by rw [hits]; exact Bool.false_ne_true), if_neg Bool.false_ne_true]
  have taken : (s.bus.takeEvent e rest).endDispatch = s.takenBus rest := by
    rw [s.takeEvent_eq]
    exact s.takenBus_idle idle rest
  rw [exec_eventDispatch queue, s.dispatchEvent_eq, State.candidates_event event, fold, State.dispatched, ← taken]
  dsimp only
  rw [entries, List.foldl_hom Bus.endDispatch fun b k => b.endDispatch_notify k (.reaction k e)]

end

end Sys2Proof.Machine
end

