-- ==== Sys2Proof/Proofs/DispatchStatement.lean ====
section
/-! PROOFS. The statement of the dispatch: which entries a record reaches, and the clauses of the MOTOR actions. -/

namespace Sys2Proof.Machine

section
variable {s : State} {e : Event} {rest : List Event} {i j : Fin 24}

/-! ## Which entries a record reaches -/

theorem Event.hits_enabled {r : Reaction} (hit : e.hits r = true) : r.enabled = true := by
  rw [← e.hits_eq, Bool.and_eq_true] at hit
  exact hit.1

/-- R151, R154: the record reaches entry i alone, by matching it or by naming it. -/
theorem State.FiresOne.of_reached (queue : s.bus.events = e :: rest) (idle : s.bus.dispatch = none)
    (reached : (e.directed = none ∧ e.hits s.reactions[i] = true ∧
        ∀ k : Fin 24, k ≠ i → e.hits s.reactions[k] = false) ∨
      (e.directed = some i ∧ s.reactions[i].enabled = true ∧ s.reactions[i].level = true ∧
        s.reactions[i].triggerKind = e.kind)) : s.FiresOne e rest i := by
  rcases reached with ⟨event, hit, others⟩ | ⟨directed, enabled, level, kind⟩
  · exact ⟨queue, idle, State.candidates_only event hit others, Event.hits_enabled hit⟩
  · exact ⟨queue, idle, (State.candidates_directed directed).trans (if_pos ⟨level, kind⟩), enabled⟩

/-- R151: a record that nothing matches. -/
theorem exec_eventDispatch_unmatched (queue : s.bus.events = e :: rest) (idle : s.bus.dispatch = none)
    (event : e.directed = none) (unmatched : ∀ k : Fin 24, e.hits s.reactions[k] = false) :
    exec .eventDispatch s = .next (State.transmitNext { s with bus := s.takenBus rest }) := by
  refine exec_eventDispatch_nothing idle queue ?_
  have nobody : s.candidates e = [] := by
    rw [State.candidates_event event, List.filter_eq_nil_iff]
    exact fun k _ => Bool.eq_false_iff.mp (unmatched k)
  rw [nobody]
  rfl

/-- R154: a level record whose entry is no longer to fire. -/
theorem exec_eventDispatch_undirected (queue : s.bus.events = e :: rest) (idle : s.bus.dispatch = none)
    (directed : e.directed = some i)
    (off : s.reactions[i].enabled = false ∨ s.reactions[i].level = false ∨ s.reactions[i].triggerKind ≠ e.kind) :
    exec .eventDispatch s = .next (State.transmitNext { s with bus := s.takenBus rest }) := by
  refine exec_eventDispatch_nothing idle queue ?_
  rw [State.candidates_directed directed]
  by_cases trigger : s.reactions[i].level = true ∧ s.reactions[i].triggerKind = e.kind
  · have disabled : s.reactions[i].enabled = false :=
      off.resolve_right (not_or.mpr ⟨by rw [trigger.1]; exact nofun, not_not_intro trigger.2⟩)
    rw [if_pos trigger, List.foldl_cons, List.foldl_nil]
    exact State.reach_disabled (s := { s with bus := s.bus.takeEvent e rest }) disabled
  · rw [if_neg trigger]
    rfl

/-- R152: an entry that an earlier firing disables does not fire. -/
theorem exec_eventDispatch_pair (queue : s.bus.events = e :: rest) (idle : s.bus.dispatch = none)
    (event : e.directed = none) (order : i < j) (first : e.hits s.reactions[i] = true)
    (second : e.hits s.reactions[j] = true)
    (others : ∀ k : Fin 24, k ≠ i → k ≠ j → e.hits s.reactions[k] = false)
    (kind : s.reactions[i].actionKind = .disable) (target : s.reactions[i].actionTarget = byteOf j.val) :
    exec .eventDispatch s = .next (State.transmitNext
      { s with bus := s.takenBus rest
               reactions := (s.firedEntries i).set j { s.reactions[j] with enabled := false } }) := by
  have index : s.reactions[i].actionTarget.toNat = j.val := by rw [target, toNat_byteOf (by omega)]
  have below : s.reactions[i].actionTarget.toNat < 24 := lt_of_eq_of_lt index j.isLt
  have named : (⟨s.reactions[i].actionTarget.toNat, below⟩ : Fin 24) = j := Fin.ext index
  have unfired : (s.firedEntries i)[j] = s.reactions[j] :=
    Vector.getElem_set_ne _ _ (fun same => absurd order (by rw [Fin.ext same]; exact lt_irrefl _))
  have acts : (s.acting e rest i).act i s.reactions[i] e =
      { s.acting e rest i with
        reactions := (s.firedEntries i).set j { s.reactions[j] with enabled := false } } := by
    rw [State.act, kind, ← unfired]
    dsimp only
    rw [dif_pos below, named]
    rfl
  have reached : State.reach e { s with bus := s.bus.takeEvent e rest } i =
      { s.acting e rest i with reactions := (s.firedEntries i).set j { s.reactions[j] with enabled := false } } :=
    (State.reach_enabled (s := { s with bus := s.bus.takeEvent e rest }) (Event.hits_enabled first)).trans
      ((State.fire_first (Event.hits_enabled first)).trans acts)
  rw [exec_eventDispatch queue, s.dispatchEvent_eq, State.candidates_pair event order first second others,
    List.foldl_cons, List.foldl_cons, List.foldl_nil, reached, State.reach_disabled (by simp)]
  exact congrArg (fun b => Host.Outcome.next (State.transmitNext
    { s with bus := b, reactions := (s.firedEntries i).set j { s.reactions[j] with enabled := false } }))
    (State.actingBus_ends idle e rest i)

/-! ## The MOTOR actions -/

namespace State.FiresOne

variable {n : PortNo}

/-- R85, R153: a stop of a driving channel without notify posts its RUN_END one deeper. -/
theorem stopped_ends (h : s.FiresOne e rest i) (driving : s.motors[n].mode.driving = true)
    (quiet : s.motors[n].notify = false) (shallow : e.depth ≤ 3) (room : rest.length < 16) :
    (State.endingBus { s with bus := s.actingBus e rest i } n .stopped).endDispatch =
      { s.takenBus rest with events := rest ++ [e.caused .runEnd (portByte n) 2 s.bus.stamp none] } := by
  rw [State.endingBus]
  dsimp only
  rw [if_pos driving, if_neg (Bool.eq_false_iff.mp quiet)]
  exact h.posted_ends shallow room .runEnd (portByte n) 2

section
variable (h : s.FiresOne e rest i) (motor : s.reactions[i].actionKind = .motor)
  (target : s.reactions[i].actionTarget = portByte n)
include h motor target

/-- R108, R158: an end action beyond the last, or a FOLLOW entry that is none. -/
theorem motor_misnames (active : s.link.state = .active)
    (misnamed : ((s.reactions[i].arg2.toNat = 4 ∨ s.reactions[i].arg2.toNat = 5) ∧
        (s.reactions[i].arg1.toInt / 65536 < 0 ∨ 2 < s.reactions[i].arg1.toInt / 65536)) ∨
      (s.reactions[i].arg2.toNat = 7 ∧ (s.reactions[i].arg0.toInt < 0 ∨ 31 < s.reactions[i].arg0.toInt))) :
    exec .eventDispatch s = .next (State.transmitNext
      { s with bus := s.takenBus rest, reactions := s.firedEntries i, failures := satInc s.failures }) := by
  refine h.motor_fails motor target (Or.inl active) fun op found => ?_
  rcases misnamed with ⟨runTo | runFor, bad⟩ | ⟨follow, bad⟩
  · rw [Reaction.motorOp_runTo_code runTo, Reaction.endAction_none bad] at found
    exact nomatch found
  · rw [Reaction.motorOp_runFor_code runFor, Reaction.endAction_none bad] at found
    exact nomatch found
  · rw [Reaction.motorOp_follow_code follow] at found
    obtain rfl := Option.some.inj found
    have beyond : 32 ≤ s.reactions[i].arg0.toNat := by
      rw [BitVec.toInt_eq_toNat_cond] at bad
      split at bad <;> omega
    rw [State.motorRefusal_badEntry (op := .follow _ _) (decide_eq_true beyond)]
    nofun

/-- R87, R158: a driving operation where the channel may not drive. -/
theorem motor_forbidden (low : 2 ≤ s.reactions[i].arg2.toNat) (high : s.reactions[i].arg2.toNat ≤ 7)
    (active : s.link.state = .active) (forbidden : s.budget.record.state = .brownout ∨ s.service = some n) :
    exec .eventDispatch s = .next (State.transmitNext
      { s with bus := s.takenBus rest, reactions := s.firedEntries i, failures := satInc s.failures }) := by
  refine h.motor_fails motor target (Or.inl active) fun op found passes => ?_
  obtain ⟨-, unserved, -, power⟩ := State.motorRefusal_passed passes (Reaction.motorOp_driving found low high)
  rcases forbidden with brownout | served
  · exact power brownout
  · exact absurd (beq_iff_eq.mpr served) (Bool.eq_false_iff.mp unserved)

/-- R95, R108: SET_COUNT where the position is not the quadrature count of a resting channel. -/
theorem motor_uncounted {p : Profile} (bound : s.motorProfile n = some p) (code : s.reactions[i].arg2.toNat = 8)
    (bad : p.positionSource ≠ 255 ∨ s.motors[n].mode.driving = true) :
    exec .eventDispatch s = .next (State.transmitNext
      { s with bus := s.takenBus rest, reactions := s.firedEntries i, failures := satInc s.failures }) := by
  refine h.motor_fails motor target (Or.inr (Or.inr code.ge)) fun op found => ?_
  rw [Reaction.motorOp_setCount code] at found
  obtain rfl := Option.some.inj found
  rw [State.motorRefusal_setCount bound]
  split_ifs with field driving
  · nofun
  · nofun
  · exact fun _ => bad.elim field driving

/-- R84, R108: a driving operation that the channel takes. -/
theorem motor_drives {p : Profile} {op : MotorOp} (bound : s.motorProfile n = some p)
    (low : 2 ≤ s.reactions[i].arg2.toNat) (high : s.reactions[i].arg2.toNat ≤ 7) (active : s.link.state = .active)
    (power : s.budget.record.state ≠ .brownout) (free : s.service ≠ some n) (found : s.reactions[i].motorOp = some op)
    (good : op.badEntry = false) :
    exec .eventDispatch s = .next (State.transmitNext
      { s with
        motors := s.motors.set n ((s.motors[n].ended .superseded).start op false s.bus.stamp)
        reactions := s.firedEntries i
        bus := (State.endingBus { s with bus := s.actingBus e rest i } n .superseded).endDispatch }) :=
  have driving := Reaction.motorOp_driving found low high
  h.motor_begins motor target (Or.inl active) found
    (State.motorRefusal_free driving good bound power free active) driving

end

end State.FiresOne

end

/-- Settles O54: a record reaches no entry, one, every NOTIFY entry, or a pair of which the first
disables the second; the action of the one does what its operation does. -/
theorem dispatchFiresEntries : Obligations.DispatchFiresEntries := by
  unfold Obligations.DispatchFiresEntries
  intro s e rest i j queue idle noIndex hits r fired taken only directed fires causes failed
  refine ⟨exec_eventDispatch_unmatched queue idle, exec_eventDispatch_undirected queue idle, fun reached => ?_,
    exec_eventDispatch_notifies queue idle, exec_eventDispatch_pair queue idle⟩
  have h : s.FiresOne e rest i := State.FiresOne.of_reached queue idle
    (reached.imp of_decide_eq_true of_decide_eq_true)
  refine ⟨h.noAction, h.notifies, fun motor n target => ?_, fun motor n target => ?_, h.disables, fun kind target => ?_,
    fun kind => ?_, fun kind k target => ?_, fun kind => ?_, fun kind n target => ?_, fun kind q target => ?_,
    fun c tag scan row answered => h.scans row answered⟩
  · refine ⟨fun low high silent => h.motor_blocked motor low high silent, fun refused => ?_,
      fun brake bound driving quiet shallow room => ?_⟩
    · refine h.motor_fails motor target ?_ fun op found => ?_
      · exact refused.elim (fun beyond => Or.inr (Or.inr (Nat.le_of_succ_le beyond))) fun low => Or.inr (Or.inl low.1)
      · rcases refused with beyond | ⟨-, unbound⟩
        · rw [Reaction.motorOp_none beyond] at found
          exact nomatch found
        · exact State.motorRefusal_ne_none unbound op
    · have code : s.reactions[i].arg2.toNat = 1 := congrArg BitVec.toNat brake
      obtain ⟨p, bound⟩ := Option.isSome_iff_exists.mp bound
      have row := h.motor_stops motor target (Or.inr (Or.inl code.le)) (mode := .brake) (Reaction.motorOp_brake code)
        (State.motorRefusal_brake bound) rfl
      rw [h.stopped_ends driving quiet shallow room] at row
      exact row
  · intro op driven low code m ends acts stopped begun v
    refine ⟨fun drives which bad => h.motor_misnames motor target drives.2.2 (Or.inl ⟨which, bad⟩),
      fun drives which bad => h.motor_misnames motor target drives.2.2 (Or.inr ⟨which, bad⟩),
      fun which unbound => h.motor_fails motor target ?_ fun op _ => State.motorRefusal_ne_none unbound op,
      fun drives forbidden => h.motor_forbidden motor target drives.1 drives.2.1 drives.2.2 forbidden,
      fun p bound => ⟨fun zero => ?_, fun one => ?_, fun eight bad => h.motor_uncounted motor target bound eight bad,
        fun eight quadrature rests => ?_, fun drives power free => ?_⟩⟩
    · exact which.imp (fun drives => drives.2.2) fun rest => rest.imp id fun eight : op = 8 => eight.ge
    · exact h.motor_stops motor target (Or.inr (Or.inl (zero.le.trans (Nat.zero_le 1)))) (Reaction.motorOp_coast zero)
        (State.motorRefusal_coast bound) rfl
    · exact h.motor_stops motor target (Or.inr (Or.inl one.le)) (Reaction.motorOp_brake one)
        (State.motorRefusal_brake bound) rfl
    · refine h.motor_counts motor target (Or.inr (Or.inr eight.ge)) (Reaction.motorOp_setCount eight) ?_
      rw [State.motorRefusal_setCount bound, if_neg (not_not_intro quadrature), if_neg (Bool.eq_false_iff.mp rests)]
    · obtain ⟨least, most, active⟩ := drives
      have begins {operation : MotorOp} (found : s.reactions[i].motorOp = some operation)
          (good : operation.badEntry = false) :=
        h.motor_drives motor target bound least most active power free found good
      refine ⟨fun two => ?_, fun three => begins (Reaction.motorOp_speed three) rfl,
        fun x named => ⟨fun four => begins (Reaction.motorOp_runTo four named) rfl, fun five => ?_⟩,
        fun six => ?_, fun k seven named => ?_⟩
      · have row := begins (Reaction.motorOp_duty two) rfl
        rw [Motor.start_duty] at row
        exact row
      · have row := begins (Reaction.motorOp_runFor five named) rfl
        rw [Motor.start_runFor _ _ _ (by omega)] at row
        exact row
      · have row := begins (Reaction.motorOp_hold six) rfl
        rw [Motor.start_hold] at row
        exact row
      · have row := begins (Reaction.motorOp_follow seven named) (decide_eq_false (Nat.not_le.mpr k.isLt))
        rw [Motor.start_follow] at row
        exact row
  · exact ⟨h.enable_enabled kind target, h.enable_quiet kind target,
      fun index detail off level holds shallow room => h.enable_holding kind target off level holds shallow room⟩
  · refine ⟨h.tone_fails kind, fun w code => ⟨fun playing room => ?_, fun silent => ?_⟩⟩
    · have row := h.tone kind code fun full => absurd full.2 (Nat.not_le.mpr room)
      rw [Sound.append, if_pos playing] at row
      exact row
    · have row := h.tone kind code fun full => absurd full.1 (by rw [silent]; exact Bool.false_ne_true)
      rw [Sound.append, if_neg (Bool.eq_false_iff.mp silent)] at row
      exact row
  · exact ⟨h.clip_fails kind target, h.clip kind target⟩
  · refine ⟨h.stop_fails kind, fun shallow room => ⟨fun zero => ?_, fun one => ?_, fun two => ?_⟩⟩
    · exact h.stops ((State.FiresOne.act_stop kind).trans ((if_pos zero).trans
        (State.FiresOne.acting_stopTone shallow room)))
    · have not0 : s.reactions[i].arg0 ≠ 0 := by rw [one]; decide
      exact h.stops ((State.FiresOne.act_stop kind).trans ((if_neg not0).trans ((if_pos one).trans
        (State.FiresOne.acting_stopClip shallow room))))
    · have not0 : s.reactions[i].arg0 ≠ 0 := by rw [two]; decide
      have not1 : s.reactions[i].arg0 ≠ 1 := by rw [two]; decide
      exact h.stops ((State.FiresOne.act_stop kind).trans ((if_neg not0).trans ((if_neg not1).trans ((if_pos two).trans
        (State.FiresOne.acting_stopSound shallow room)))))
  · exact ⟨h.mark_fails kind target, fun flag => ⟨h.mark_same kind target flag,
      fun other shallow room => h.mark_other kind target flag other (h.posted_ends shallow room _ _ _),
      fun other deep => h.mark_other kind target flag other (h.cut_ends deep _ _ _)⟩⟩
  · exact h.reports kind target

end Sys2Proof.Machine
end
